-- ==== Sys2Proof/Word.lean ====
section
/-! DEFINITION. The word types of the block: symbols and codes (R13, R14, R21). All quantities are unsigned (R13). -/

namespace Sys2Proof

/-- One raw byte or symbol, 0..255 (R14, R17 "Symbol"). -/
abbrev Byte := BitVec 8

/-- A code, a 16-bit register value (R21 to R23). -/
abbrev Code := BitVec 16

end Sys2Proof
end

