-- ==== Sys2Proof/Config.lean ====
section
/-! DEFINITION. The parameters of an instance (R10, R11) and the one value the spec leaves without a default. -/

namespace Sys2Proof

/-- `HDR_ORDER` (R10, R67): the byte order of the header fields. -/
inductive HdrOrder where
  | little
  | big
  deriving DecidableEq, Repr

/-- `VAL_ORDER` (R10, R66): which bit of a value enters the stream first. -/
inductive ValOrder where
  | lsbFirst
  | msbFirst
  deriving DecidableEq, Repr

/-- `TERM_WRAP` (R10, R202, R204): the counter's treatment after the final pending pair. -/
inductive TermWrap where
  | reset
  | modulo
  deriving DecidableEq, Repr

/-- The constraints of R11. The two of them that speak of `bitlen(START_CODE)` follow from
`STOP_CODE < START_CODE` and `EMPTY_CODE < START_CODE` (Laws/Params.lean proves it), and the ones on `MAGIC` and on
`START_CODE >= 1` from the types and from `EMPTY_CODE < START_CODE`. -/
def paramsOk (emptyCode stopCode startCode : Code) (maxCode block : Nat) : Bool :=
  decide (emptyCode ≠ stopCode) && decide (emptyCode.toNat < startCode.toNat)
    && decide (stopCode.toNat < startCode.toNat) && decide (startCode.toNat < maxCode)
    && decide (maxCode ≤ 65536) && decide (1 ≤ block)

/-- The parameters of R10 together with R11: an instantiation that breaks a constraint cannot be built (U19
"refuse"; log 1). -/
structure Params where
  /-- `EMPTY_CODE`, the code of the empty word and of the trie root. -/
  emptyCode : Code
  /-- `STOP_CODE`, the end-of-stream sentinel. -/
  stopCode : Code
  /-- `START_CODE`, the first assignable code. -/
  startCode : Code
  /-- `MAX_CODE`, the ceiling of the code space. -/
  maxCode : Nat
  /-- `MAGIC`, the header constant. -/
  magic : BitVec 32
  /-- `BLOCK`, the size in bytes of each block buffer. -/
  block : Nat
  /-- `HDR_ORDER`. -/
  hdrOrder : HdrOrder
  /-- `VAL_ORDER`. -/
  valOrder : ValOrder
  /-- `TERM_WRAP`. -/
  termWrap : TermWrap
  /-- `CTR_BITS`, the width of `TOTAL_SYMS` and `TOTAL_BITS`; R11 does not constrain it. -/
  ctrBits : Nat
  /-- The constraints of R11 hold. -/
  ok : paramsOk emptyCode stopCode startCode maxCode block = true
  deriving DecidableEq, Repr

/-- `MAGIC` is OPEN and has no default (R10, D4): a constant with no body, so no claim can rest on its value (log 2). -/
opaque Config.magic : BitVec 32

/-- The parameter values of R10 (D1 to D3, D5 to D7, D9; log 3). -/
def Config.params : Params where
  emptyCode := 0
  stopCode := 1
  startCode := 2
  maxCode := 65535
  magic := Config.magic
  block := 4096
  hdrOrder := .little
  valOrder := .lsbFirst
  termWrap := .reset
  ctrBits := 64
  ok := by decide

end Sys2Proof
end

