-- ==== Sys2Proof/Machine/Operands.lean ====
section
/-! DEFINITION. Fields, bits and bytes: `bitlen` (R170), the order of the bits of a value (R66), of the bits of a
byte (R65), of the bytes of a header field (R67, R250), and the operands taken from them. No operation here touches
the state. -/

namespace Sys2Proof

/-- `bitlen(v)` of R170. Outside its domain, at 0, it gives the width 0 that the bit channel faults (R171, U8;
log 20). -/
def bitlen (v : Nat) : Nat :=
  if v = 0 then 0 else Nat.log2 v + 1

/-- The low `w` bits of `v`, bit 0 first. -/
def lsbBits : Nat → Nat → List Bool
  | 0, _ => []
  | w + 1, v => (v % 2 == 1) :: lsbBits w (v / 2)

/-- The value whose bits are given, bit 0 first. -/
def lsbVal : List Bool → Nat
  | [] => 0
  | b :: bs => b.toNat + 2 * lsbVal bs

/-- The stream bits of a value of width `w`, first stream bit first (R66, `VAL_ORDER`). Bits of `v` at or above `w`
are ignored (R145). -/
def valueBits (o : ValOrder) (w v : Nat) : List Bool :=
  match o with
  | .lsbFirst => lsbBits w v
  | .msbFirst => (lsbBits w v).reverse

/-- The value that a run of stream bits assembles to (R94, `VAL_ORDER`). -/
def bitsValue (o : ValOrder) (bs : List Bool) : Nat :=
  match o with
  | .lsbFirst => lsbVal bs
  | .msbFirst => lsbVal bs.reverse

/-- The eight buffer bits of a byte, bit 0 first (R65, R140; the same for either `VAL_ORDER`). -/
def byteBits (b : Byte) : List Bool := lsbBits 8 b.toNat

/-- The whole bytes that a run of buffer bits fills (R65, R140). -/
def bitsBytes : List Bool → List Byte
  | b0 :: b1 :: b2 :: b3 :: b4 :: b5 :: b6 :: b7 :: rest =>
      BitVec.ofNat 8 (lsbVal [b0, b1, b2, b3, b4, b5, b6, b7]) :: bitsBytes rest
  | _ => []

/-- The `n` low bytes of `v`, least significant first: `le16` and `le32` of R250. -/
def leBytes : Nat → Nat → List Byte
  | 0, _ => []
  | n + 1, v => BitVec.ofNat 8 v :: leBytes n (v / 256)

/-- The inverse of `leBytes`: `un16` and `un32` of R250. -/
def leValue : List Byte → Nat
  | [] => 0
  | b :: bs => b.toNat + 256 * leValue bs

/-- The bytes of a header field of `n` bytes (R67, `HDR_ORDER`). -/
def fieldBytes (o : HdrOrder) (n v : Nat) : List Byte :=
  match o with
  | .little => leBytes n v
  | .big => (leBytes n v).reverse

/-- The value of a header field (R67, R250, `HDR_ORDER`). -/
def fieldValue (o : HdrOrder) (bs : List Byte) : Nat :=
  match o with
  | .little => leValue bs
  | .big => leValue bs.reverse

/-- `HDR_BYTES` (R10, R91). -/
def hdrBytes : Nat := 6

/-- The four bytes of the magic in the container (R91, R252). -/
def magicBytes (P : Params) : List Byte := fieldBytes P.hdrOrder 4 P.magic.toNat

/-- `header(m)` for a magic and permission bits (R91, R252). -/
def headerBytes (o : HdrOrder) (magic : BitVec 32) (perm : BitVec 16) : List Byte :=
  fieldBytes o 4 magic.toNat ++ fieldBytes o 2 perm.toNat

/-- `swap16` of R251, the swap a host of the other byte order applies; the block does not contain it. -/
def swap16 (v : BitVec 16) : BitVec 16 := v.extractLsb' 0 8 ++ v.extractLsb' 8 8

/-- `swap32` of R251. -/
def swap32 (v : BitVec 32) : BitVec 32 :=
  v.extractLsb' 0 8 ++ v.extractLsb' 8 8 ++ v.extractLsb' 16 8 ++ v.extractLsb' 24 8

/-- Where the trie entry `child[c][s]` stands in its memory: row `c` of 256 entries (R42; log 11). -/
def childIndex (c : Code) (s : Byte) : Nat := 256 * c.toNat + s.toNat

/-- The counter value at which a pair of the opcode table's 24 bits, shown at w = 16 (R104), is read: the least
one of that width (log 23). -/
def tableCounter : Code := 32768

end Sys2Proof
end

