-- ==== Sys2Proof/Machine/State.lean ====
section
/-! DEFINITION. The state of the block (10_state.md), the world around it that a step over one argument has to carry
(the streams and the host, R19, R60 to R62, R270; R48 calls them "not state"), the reasons a step can stop, and the
state after reset (R49). -/

namespace Sys2Proof.Machine

open Sys2Proof

/-- `phase` (R28), the block's control state in place of a program counter. -/
inductive Phase where
  | idle
  | hdrw
  | hdrr
  | encLoop
  | encTail
  | decLoop
  | decTail
  | fault
  deriving DecidableEq, Repr

/-- `cause` (R31, R300). Codes 6 and 7 are never produced, so they have no name. -/
inductive Cause where
  | none
  | invalidMagic
  | ioError
  | underrun
  | badCode
  | badWidth
  deriving DecidableEq, Repr

/-- A memory: its occupied cells, an index and a content each. In the canonical form (`Mem.wf`) the indexes rise
strictly. An index that is not listed has no value: `NONE` for the dictionaries (R42, R43), unspecified for the
buffers (R49, R50; log 9). -/
abbrev Mem (α : Type) := List (Nat × α)

/-- What the source environment will do with one `SRC.read` (R61; log 7). -/
inductive SrcAns where
  /-- `Data` of at most `k + 1` bytes, as far as asked for and as the stream has them; `Eof` if it has none. -/
  | data (k : Nat)
  /-- `Eof`, whatever the stream holds (R364). -/
  | eof
  /-- `Error`. -/
  | error
  /-- The transaction is never answered (R365). -/
  | silent
  deriving DecidableEq, Repr

/-- What the sink environment will do with one `SNK.write` (R62). -/
inductive SnkAns where
  /-- `Accepted` of `k` bytes, or of all that is offered if that is less. -/
  | accept (k : Nat)
  /-- `Error`. -/
  | error
  /-- The transaction is never answered (R365). -/
  | silent
  deriving DecidableEq, Repr

/-- The source stream: the bytes left, the answers to come in order, and the answer given to every later
transaction (log 5). -/
structure SrcPort where
  data : List Byte
  plan : List SrcAns
  rest : SrcAns
  deriving DecidableEq, Repr

/-- The sink stream: the bytes appended so far, the answers to come in order, and the answer given to every later
transaction (log 5). -/
structure SnkPort where
  data : List Byte
  plan : List SnkAns
  rest : SnkAns
  deriving DecidableEq, Repr

/-- What the host does in one step (R271, R340, R352). -/
inductive HostAct where
  /-- Nothing: the core takes its step. -/
  | run
  /-- A write to the register of that number; number 0 is `CMD` (R32, R33). -/
  | writeReg (num : Nat) (value : Nat)
  /-- A read of the register of that number (R32). -/
  | readReg (num : Nat)
  /-- Connects a source (R352). -/
  | connectSrc (port : SrcPort)
  /-- Connects a sink (R352). -/
  | connectSnk (port : SnkPort)
  /-- Hardware reset (R340). While busy the source loses `taken` more bytes and the sink gains `sent`: both positions
  are unspecified then (R341, U11; log 15). -/
  | reset (taken : Nat) (sent : List Byte)
  deriving DecidableEq, Repr

/-- The host: what it does next (nothing more once the list is used up) and the values it has read, latest first
(logs 13, 14). -/
structure HostPort where
  acts : List HostAct
  reads : List Nat
  deriving DecidableEq, Repr

/-- The result of an internal operation run as an instruction of its own (log 17). -/
inductive OpResult where
  | none
  /-- READ_BYTES (R120). -/
  | bytes (d : List Byte)
  /-- READ_SYM (R125). -/
  | symbol (s : Option Byte)
  /-- READ_BITS (R148). -/
  | value (v : BitVec 16)
  /-- READ_PAIR (R151). -/
  | pair (c : Code) (s : Byte)
  /-- BITLEN and WIDTH (R170, R172). -/
  | width (w : Nat)
  /-- ADVANCE (R174): whether the dictionary was reset. -/
  | flag (r : Bool)
  /-- TRIE_STEP (R191). -/
  | child (d : Option Code)
  /-- WT_LOOKUP (R221). -/
  | word (wd : List Byte)
  deriving DecidableEq, Repr

/-- The state. The fields from `phase` to `wt` are the block's (R20); the others are the model's own. -/
structure State where
  /-- The parameters of the instance (R10, R39: constants, no operation writes them; log 1). -/
  cfg : Params
  /-- `phase` (R28). -/
  phase : Phase
  /-- `next_code` (R21). -/
  nextCode : Code
  /-- `cur_code` (R22). -/
  curCode : Code
  /-- `prev_code` (R23). -/
  prevCode : Code
  /-- `prev_sym` (R24). -/
  prevSym : Byte
  /-- `sym_cur` (R25). -/
  symCur : Nat
  /-- `sym_len` (R25). -/
  symLen : Nat
  /-- `sym_end` (R25). -/
  symEnd : Bool
  /-- `bit_cur` (R26). -/
  bitCur : Nat
  /-- `pair_len` (R26). -/
  pairLen : Nat
  /-- `pair_end` (R26). -/
  pairEnd : Bool
  /-- `done` (R30). -/
  done : Bool
  /-- `cmd_rej` (R30). -/
  cmdRej : Bool
  /-- `hdr_ok` (R30). -/
  hdrOk : Bool
  /-- `cause` (R31). -/
  cause : Cause
  /-- `fault_info` (R31). -/
  faultInfo : BitVec 16
  /-- `PERM_IN` (R35). -/
  permIn : BitVec 16
  /-- `PERM_OUT` (R36). -/
  permOut : BitVec 16
  /-- `TOTAL_SYMS` (R37), `CTR_BITS` wide: a number below 2^`CTR_BITS` (log 4). -/
  totalSyms : Nat
  /-- `TOTAL_BITS` (R38), likewise. -/
  totalBits : Nat
  /-- `sym_buf` (R40): its bytes by index. -/
  symBuf : Mem Byte
  /-- `pair_buf` (R41): its bits by position, the unit R140 addresses (log 10). -/
  pairBuf : Mem Bool
  /-- `child` (R42): its entries by `childIndex`. -/
  child : Mem Code
  /-- `wt` (R43): its words by code. -/
  wt : Mem (List Byte)
  /-- Port SRC and the stream behind it (R61). -/
  src : SrcPort
  /-- Port SNK and the stream behind it (R62). -/
  snk : SnkPort
  /-- The host. -/
  host : HostPort
  /-- The result of an operation run alone. -/
  opResult : OpResult
  deriving DecidableEq, Repr

/-- Why the model stops. None of these is a fault of the block: those are taken (`raise`, R320) and lead to a next
state. -/
inductive Fault where
  /-- A transaction is never answered: "stuck", the model has no further step (R365, U10). Raised by READ_BYTES and
  WRITE_BYTES, in whatever operation calls them. Safe: nothing is claimed of what follows (log 8). -/
  | noAnswer
  /-- A cell of `sym_buf` or `pair_buf` that nothing has set is read (R49, R50, U13). Raised by READ_SYM, READ_BITS,
  WRITE_SYM, FLUSH_SYMS, WRITE_BITS and FLUSH_BITS; unreachable in a run. Safe (log 9). -/
  | unspecifiedCell
  /-- An index lies outside a memory (R40 to R43): it does not exist. Raised by the operations that form an index,
  and by the trie and table operations on a code of `MAX_CODE` or more; unreachable in a run (R74). Safe (log 21). -/
  | noSuchCell
  deriving DecidableEq, Repr

/-- What the model refuses. -/
inductive Refusal where
  /-- An instruction with no meaning yet. Raised by no arm. Safe. -/
  | notModelled (mnemonic : String)
  /-- The host connects a stream while `busy` (R357, U9 "refuse"). Raised by `step`. Unsafe where a real host does so:
  the block would not notice (log 16). -/
  | streamTouchedWhileBusy
  deriving DecidableEq, Repr

/-- The state after reset of an instance in a given world (R49). -/
def State.initial (P : Params) (src : SrcPort) (snk : SnkPort) (host : HostPort) : State where
  cfg := P
  phase := .idle
  nextCode := P.startCode
  curCode := P.emptyCode
  prevCode := P.emptyCode
  prevSym := 0
  symCur := 0
  symLen := 0
  symEnd := false
  bitCur := 0
  pairLen := 0
  pairEnd := false
  done := false
  cmdRej := false
  hdrOk := false
  cause := .none
  faultInfo := 0
  permIn := 0
  permOut := 0
  totalSyms := 0
  totalBits := 0
  symBuf := []
  pairBuf := []
  child := []
  wt := [(P.emptyCode.toNat, [])]
  src := src
  snk := snk
  host := host
  opResult := .none

/-- The state right after reset (R49), with empty streams that transfer all they are asked and a host that does
nothing (log 6). -/
def State.reset : State :=
  State.initial Config.params ⟨[], [], .data 65535⟩ ⟨[], [], .accept 65535⟩ ⟨[], []⟩

end Sys2Proof.Machine
end

