-- ==== Sys2Proof/Machine/Flags.lean ====
section
/-! DEFINITION. The flags and status fields (R28, R30, R34), every register a host can read (R32), and the acceptance
of commands by phase (R271, R272, R274). -/

namespace Sys2Proof.Machine

open Sys2Proof

/-- The 3-bit value of `phase` (R28). -/
def Phase.code : Phase → BitVec 3
  | .idle => 0
  | .hdrw => 1
  | .hdrr => 2
  | .encLoop => 3
  | .encTail => 4
  | .decLoop => 5
  | .decTail => 6
  | .fault => 7

/-- The 3-bit value of `cause` (R300). -/
def Cause.code : Cause → BitVec 3
  | .none => 0
  | .invalidMagic => 1
  | .ioError => 2
  | .underrun => 3
  | .badCode => 4
  | .badWidth => 5

/-- `busy` (R30): one of the phases 1 to 6. -/
def State.busy (s : State) : Bool :=
  match s.phase with
  | .idle | .fault => false
  | .hdrw | .hdrr | .encLoop | .encTail | .decLoop | .decTail => true

/-- `fault` (R30). -/
def State.faulted (s : State) : Bool := decide (s.phase = .fault)

/-- Whether HDR_WRITE, HDR_READ, ENCODE and DECODE are accepted (R272, R274). -/
def State.acceptsData (s : State) : Bool := decide (s.phase = .idle)

/-- Whether NOP and CLEAR are accepted (R272, R274). -/
def State.acceptsControl (s : State) : Bool := !s.busy

/-- `STATUS` (R34), bits 15 down to 0. -/
def State.status (s : State) : BitVec 16 :=
  0#5 ++ s.phase.code ++ s.cause.code ++ BitVec.ofBool s.hdrOk ++ BitVec.ofBool s.cmdRej
    ++ BitVec.ofBool s.faulted ++ BitVec.ofBool s.done ++ BitVec.ofBool s.busy

/-- What a host read of a register number returns (R32 to R38): `CMD` and every number from 7 up read
as 0. -/
def State.readReg (s : State) (num : Nat) : Nat :=
  match num with
  | 0 => 0
  | 1 => s.status.toNat
  | 2 => s.permIn.toNat
  | 3 => s.permOut.toNat
  | 4 => s.totalSyms
  | 5 => s.totalBits
  | 6 => s.faultInfo.toNat
  | _ => 0

/-- A rejected command (R101, R272): `cmd_rej <- 1` and nothing else. -/
def State.reject (s : State) : State := { s with cmdRej := true }

/-- Completion of a command (R30, R253, R255, R203, R233): `done <- 1 ; phase <- IDLE`. -/
def State.finish (s : State) : State := { s with done := true, phase := .idle }

/-- A cumulative register after `n` more: addition is modulo 2^`CTR_BITS` (R37, R38, U21). Counting nothing leaves it. -/
def countUp (P : Params) (total n : Nat) : Nat :=
  if n = 0 then total else (total + n) % 2 ^ P.ctrBits

/-- One symbol more in `TOTAL_SYMS` (R37, R126, R128). -/
def State.countSym (s : State) : State := { s with totalSyms := countUp s.cfg s.totalSyms 1 }

/-- `w` bits more in `TOTAL_BITS` (R38, R142, R148). -/
def State.countBits (w : Nat) (s : State) : State := { s with totalBits := countUp s.cfg s.totalBits w }

end Sys2Proof.Machine
end

