-- ==== Sys2Proof/Machine/Ops.lean ====
section
/-! DEFINITION. The shared operations: the outcome of an operation (R15, R320), taking a fault (R320) and leaving it
(R325), the memories (R40 to R43) and the transactions on the two ports with their loops (R61, R62, R120, R122). -/

namespace Sys2Proof.Machine

open Sys2Proof

/-! ### Outcomes -/

/-- What `raise X(info)` names (R15, R300). -/
structure Raise where
  cause : Cause
  info : BitVec 16
  deriving DecidableEq, Repr

/-- How an operation ends: with a result, by a raise (everything assigned before it holds, R321), or not at all. -/
inductive Res (α : Type) where
  | ok (a : α) (s : State)
  | raise (r : Raise) (s : State)
  | stop (f : Fault)
  deriving DecidableEq, Repr

/-- What follows an operation runs only if it ended with a result: a raise "stops the current operation and every
operation that invoked it" (R15, R320). -/
def Res.bind {α β : Type} (r : Res α) (k : α → State → Res β) : Res β :=
  match r with
  | .ok a s => k a s
  | .raise f s => .raise f s
  | .stop f => .stop f

/-- Fault entry (R320): `cause`, `fault_info` and `phase` are written, nothing else. In `FAULT` neither `cause` nor
`fault_info` ever changes (R31, R325; log 18). -/
def State.enterFault (r : Raise) (s : State) : State :=
  if s.phase = .fault then s else { s with cause := r.cause, faultInfo := r.info, phase := .fault }

/-- The end of the fault state, by CLEAR or hardware reset: every piece of the block's state takes its reset value
(R49, R275, R325, R340); the parameters and the world around the block are not the block's state. -/
def State.cleared (s : State) : State := State.initial s.cfg s.src s.snk s.host

/-- The outcome of an operation run as an instruction: a raise is taken, its result (if it has one) is kept in
`opResult` (log 17). -/
def Res.outcome {α : Type} (r : Res α) (result : α → State → State) : Host.Outcome State Fault Refusal :=
  match r with
  | .ok a s => .next (result a s)
  | .raise f s => .next (s.enterFault f)
  | .stop f => .fault f

/-- Keeps the state of an operation without a result. -/
def noResult (_ : Unit) (s : State) : State := s

/-- Keeps a result in `opResult`. -/
def State.withResult (r : OpResult) (s : State) : State := { s with opResult := r }

/-! ### Memories -/

/-- The content of a cell, if it has one. -/
def Mem.read {α : Type} : Mem α → Nat → Option α
  | [], _ => none
  | (j, v) :: m, i => if j = i then some v else Mem.read m i

/-- Sets a cell, keeping the indexes in rising order. -/
def Mem.write {α : Type} : Mem α → Nat → α → Mem α
  | [], i, v => [(i, v)]
  | (j, u) :: m, i, v =>
      if i < j then (i, v) :: (j, u) :: m
      else if i = j then (i, v) :: m
      else (j, u) :: Mem.write m i v

/-- Sets the cells from `i` up, one per element. -/
def Mem.writeList {α : Type} : Mem α → Nat → List α → Mem α
  | m, _, [] => m
  | m, i, v :: vs => Mem.writeList (Mem.write m i v) (i + 1) vs

/-- The contents of `n` cells from `i` up, if all have one. -/
def Mem.readList {α : Type} (m : Mem α) : Nat → Nat → Option (List α)
  | _, 0 => some []
  | i, n + 1 =>
      match Mem.read m i, Mem.readList m (i + 1) n with
      | some v, some vs => some (v :: vs)
      | _, _ => none

/-- The canonical form: indexes rise strictly. -/
def Mem.wf {α : Type} : Mem α → Bool
  | [] => true
  | [_] => true
  | (i, _) :: (j, v) :: m => decide (i < j) && Mem.wf ((j, v) :: m)

/-- Every occupied cell lies in a memory of `size` cells. -/
def Mem.inside {α : Type} (m : Mem α) (size : Nat) : Bool := m.all fun e => decide (e.1 < size)

/-- A read of `n` cells of a buffer of `size` cells, from `i` up: all must exist and have been set (R50). -/
def fetchCells {α : Type} (size : Nat) (m : Mem α) (i n : Nat) (s : State) : Res (List α) :=
  if i + n ≤ size then
    match Mem.readList m i n with
    | some vs => .ok vs s
    | none => .stop .unspecifiedCell
  else .stop .noSuchCell

/-- A read of one cell of a buffer of `size` cells. -/
def fetchCell {α : Type} (size : Nat) (m : Mem α) (i : Nat) (s : State) : Res α :=
  if i < size then
    match Mem.read m i with
    | some v => .ok v s
    | none => .stop .unspecifiedCell
  else .stop .noSuchCell

/-! ### The source -/

/-- The answer to one `SRC.read` (R61). -/
inductive SrcReply where
  | data (d : List Byte)
  | eof
  | error
  deriving DecidableEq, Repr

/-- The next answer of the source environment and the port after it. -/
def SrcPort.draw (p : SrcPort) : SrcAns × SrcPort :=
  match p.plan with
  | [] => (p.rest, p)
  | a :: as => (a, { p with plan := as })

/-- `SRC.read(n)` (R61): `Data` delivers the next bytes of the stream, at least one, at most `n`, never more than there
are; none means the transaction is not answered. -/
def SrcPort.read (n : Nat) (p : SrcPort) : Option (SrcReply × SrcPort) :=
  match p.draw.1 with
  | .data k =>
      match p.draw.2.data with
      | [] => some (.eof, p.draw.2)
      | b :: bs =>
          some (.data ((b :: bs).take (min (k + 1) n)),
            { p.draw.2 with data := (b :: bs).drop (min (k + 1) n) })
  | .eof => some (.eof, p.draw.2)
  | .error => some (.error, p.draw.2)
  | .silent => none

/-- How a loop over a source port ends. -/
inductive SrcLoop where
  | ok (d : List Byte) (p : SrcPort)
  | error (p : SrcPort)
  | silent
  deriving DecidableEq, Repr

/-- The loop of READ_BYTES (R120) with `acc` obtained so far. Each round that goes on brings a byte, so `n` rounds
suffice. -/
def SrcPort.readLoop : Nat → Nat → List Byte → SrcPort → SrcLoop
  | 0, _, acc, p => .ok acc p
  | fuel + 1, n, acc, p =>
      if acc.length < n then
        match p.read (n - acc.length) with
        | none => .silent
        | some (.data x, q) => SrcPort.readLoop fuel n (acc ++ x) q
        | some (.eof, q) => .ok acc q
        | some (.error, q) => .error q
      else .ok acc p

/-- READ_BYTES (R120, R121). -/
def readBytes (n : Nat) (s : State) : Res (List Byte) :=
  match s.src.readLoop n n [] with
  | .ok d p => .ok d { s with src := p }
  | .error p => .raise ⟨.ioError, 0⟩ { s with src := p }
  | .silent => .stop .noAnswer

/-! ### The sink -/

/-- The answer to one `SNK.write` (R62). -/
inductive SnkReply where
  | accepted (k : Nat)
  | error
  deriving DecidableEq, Repr

/-- The next answer of the sink environment and the port after it. -/
def SnkPort.draw (p : SnkPort) : SnkAns × SnkPort :=
  match p.plan with
  | [] => (p.rest, p)
  | a :: as => (a, { p with plan := as })

/-- `SNK.write(d)` (R62): `Accepted(k)` appends the first `k` bytes of `d`; none means the transaction is not
answered. -/
def SnkPort.write (d : List Byte) (p : SnkPort) : Option (SnkReply × SnkPort) :=
  match p.draw.1 with
  | .accept k =>
      some (.accepted (min k d.length), { p.draw.2 with data := p.draw.2.data ++ d.take (min k d.length) })
  | .error => some (.error, p.draw.2)
  | .silent => none

/-- How a loop over a sink port ends. -/
inductive SnkLoop where
  | ok (p : SnkPort)
  | error (p : SnkPort)
  | silent
  deriving DecidableEq, Repr

/-- The loop of WRITE_BYTES (R122) over the bytes still to send; `Accepted(0)` is an error (R123). Each round that goes
on sends a byte, so as many rounds as bytes suffice. -/
def SnkPort.writeLoop : Nat → List Byte → SnkPort → SnkLoop
  | 0, _, p => .ok p
  | fuel + 1, d, p =>
      match d with
      | [] => .ok p
      | _ :: _ =>
          match p.write d with
          | none => .silent
          | some (.accepted 0, q) => .error q
          | some (.accepted (k + 1), q) => SnkPort.writeLoop fuel (d.drop (k + 1)) q
          | some (.error, q) => .error q

/-- WRITE_BYTES (R122, R123). -/
def writeBytes (d : List Byte) (s : State) : Res Unit :=
  match s.snk.writeLoop d.length d with
  | .ok p => .ok () { s with snk := p }
  | .error p => .raise ⟨.ioError, 1⟩ { s with snk := p }
  | .silent => .stop .noAnswer

end Sys2Proof.Machine
end

