-- ==== Sys2Proof/Machine/BitChannel.lean ====
section
/-! DEFINITION. The bit channel (41_bit_channel.md): the packer and the unpacker over `pair_buf`, and the pairs. -/

namespace Sys2Proof.Machine

open Sys2Proof

/-- The fault of a width outside 1..16 (R141, R305): its information is the width's low 16 bits (R300). -/
def badWidth (w : Nat) : Raise := ⟨.badWidth, BitVec.ofNat 16 w⟩

/-- The width check (R141). -/
def widthOk (w : Nat) : Bool := decide (1 ≤ w) && decide (w ≤ 16)

/-- The fault of a bit needed at the bound (R147, R303). -/
def bodyUnderrun : Raise := ⟨.underrun, 1⟩

/-! ### Write path -/

/-- Sends the first `n` bytes of the pair buffer (R142, R144). -/
def sendPairBytes (P : Params) (n : Nat) (s : State) : Res Unit :=
  (fetchCells (8 * P.block) s.pairBuf 0 (8 * n) s).bind fun bs s => writeBytes (bitsBytes bs) s

/-- The effect of buffering one bit on the registers (R140, R142). The other cells stay, those beyond the cursor included
(DESIGN CHOICE, log 33). -/
def State.storeBit (b : Bool) (s : State) : State :=
  { s with pairBuf := s.pairBuf.write s.bitCur b, bitCur := s.bitCur + 1 }

/-- The block is sent as soon as its last bit is written (R142, R143). -/
def sendFullPairs (P : Params) (s : State) : Res Unit :=
  if s.bitCur = 8 * P.block then
    (sendPairBytes P P.block s).bind fun _ s => .ok () { s with bitCur := 0 }
  else .ok () s

/-- One round of the loop of WRITE_BITS (R142). -/
def putBit (P : Params) (b : Bool) (s : State) : Res Unit :=
  if s.bitCur < 8 * P.block then sendFullPairs P (s.storeBit b) else .stop .noSuchCell

/-- The loop of WRITE_BITS over the bits in stream order. -/
def putBits (P : Params) : List Bool → State → Res Unit
  | [], s => .ok () s
  | b :: bs, s => (putBit P b s).bind fun _ s => putBits P bs s

/-- WRITE_BITS (R142, R145). -/
def writeBits (P : Params) (v : BitVec 16) (w : Nat) (s : State) : Res Unit :=
  if widthOk w then
    (putBits P (valueBits P.valOrder w v.toNat) s).bind fun _ s => .ok () (s.countBits w)
  else .raise (badWidth w) s

/-- The zero padding of the last byte (R144): the bits from the cursor to the end of its byte. -/
def State.padByte (s : State) : State :=
  if s.bitCur % 8 = 0 then s
  else { s with pairBuf := s.pairBuf.writeList s.bitCur (List.replicate (8 - s.bitCur % 8) false) }

/-- The bytes that hold at least one valid bit (R144). -/
def State.pairBytes (s : State) : Nat := (s.bitCur + 7) / 8

/-- FLUSH_BITS (R144). -/
def flushBits (P : Params) (s : State) : Res Unit :=
  if 0 < s.pairBytes then
    (sendPairBytes P s.pairBytes s.padByte).bind fun _ s => .ok () { s with bitCur := 0 }
  else .ok () { s.padByte with bitCur := 0 }

/-! ### Read path -/

/-- The effect of a fill of the pair buffer on the registers (R146). A cell beyond a short fill keeps what an earlier one
put there, where the spec leaves any value (R50, U13; DESIGN CHOICE, log 33). -/
def State.loadPairs (block : Nat) (d : List Byte) (s : State) : State :=
  { s with
    pairBuf := s.pairBuf.writeList 0 (d.flatMap byteBits)
    pairLen := d.length
    bitCur := 0
    pairEnd := s.pairEnd || decide (d.length < block) }

/-- PAIR_FILL (R146). -/
def pairFill (P : Params) (s : State) : Res Unit :=
  (readBytes P.block s).bind fun d s => .ok () (s.loadPairs P.block d)

/-- The end of a round of the loop of READ_BITS: the bit under the cursor (R148). -/
def takeBit (P : Params) (s : State) : Res Bool :=
  (fetchCell (8 * P.block) s.pairBuf s.bitCur s).bind fun b s => .ok b { s with bitCur := s.bitCur + 1 }

/-- One round of the loop of READ_BITS (R147, R148). -/
def getBit (P : Params) (s : State) : Res Bool :=
  if s.bitCur = 8 * s.pairLen then
    if s.pairEnd then .raise bodyUnderrun s
    else (pairFill P s).bind fun _ s => if s.pairLen = 0 then .raise bodyUnderrun s else takeBit P s
  else takeBit P s

/-- The loop of READ_BITS: the next `w` bits in stream order. -/
def getBits (P : Params) : Nat → State → Res (List Bool)
  | 0, s => .ok [] s
  | w + 1, s => (getBit P s).bind fun b s => (getBits P w s).bind fun bs s => .ok (b :: bs) s

/-- READ_BITS (R148): the value is zero-extended to 16 bits. -/
def readBits (P : Params) (w : Nat) (s : State) : Res (BitVec 16) :=
  if widthOk w then
    (getBits P w s).bind fun bs s => .ok (BitVec.ofNat 16 (bitsValue P.valOrder bs)) (s.countBits w)
  else .raise (badWidth w) s

/-! ### Pairs -/

/-- WRITE_PAIR (R149, R150). -/
def writePair (P : Params) (c : Code) (sym : Byte) (w : Nat) (s : State) : Res Unit :=
  (writeBits P c w s).bind fun _ s => writeBits P (sym.setWidth 16) 8 s

/-- READ_PAIR (R151): both fields are read before the caller looks at either. -/
def readPair (P : Params) (w : Nat) (s : State) : Res (Code × Byte) :=
  (readBits P w s).bind fun c s => (readBits P 8 s).bind fun sym s => .ok (c, sym.setWidth 8) s

/-! ### As instructions -/

/-- WRITE_BITS (R142). -/
def execWriteBits (v : BitVec 16) (w : Nat) (s : State) : Host.Outcome State Fault Refusal :=
  (writeBits s.cfg v w s).outcome noResult

/-- FLUSH_BITS (R144). -/
def execFlushBits (s : State) : Host.Outcome State Fault Refusal :=
  (flushBits s.cfg s).outcome noResult

/-- PAIR_FILL (R146). -/
def execPairFill (s : State) : Host.Outcome State Fault Refusal :=
  (pairFill s.cfg s).outcome noResult

/-- READ_BITS (R148). -/
def execReadBits (w : Nat) (s : State) : Host.Outcome State Fault Refusal :=
  (readBits s.cfg w s).outcome fun v => State.withResult (.value v)

/-- WRITE_PAIR (R149). -/
def execWritePair (c : Code) (sym : Byte) (w : Nat) (s : State) : Host.Outcome State Fault Refusal :=
  (writePair s.cfg c sym w s).outcome noResult

/-- READ_PAIR (R151). -/
def execReadPair (w : Nat) (s : State) : Host.Outcome State Fault Refusal :=
  (readPair s.cfg w s).outcome fun r => State.withResult (.pair r.1 r.2)

end Sys2Proof.Machine
end

