-- ==== Sys2Proof/Machine/ByteChannel.lean ====
section
/-! DEFINITION. The byte channel (40_byte_channel.md): block transfers as instructions, and the symbol operations on
`sym_buf`. -/

namespace Sys2Proof.Machine

open Sys2Proof

/-- The effect of a fill of the symbol buffer on the registers (R124). A cell beyond a short fill keeps what an earlier one
put there, where the spec leaves any value (R50, U13; DESIGN CHOICE, log 33). -/
def State.loadSyms (block : Nat) (d : List Byte) (s : State) : State :=
  { s with
    symBuf := s.symBuf.writeList 0 d
    symLen := d.length
    symCur := 0
    symEnd := s.symEnd || decide (d.length < block) }

/-- SYM_FILL (R124). -/
def symFill (P : Params) (s : State) : Res Unit :=
  (readBytes P.block s).bind fun d s => .ok () (s.loadSyms P.block d)

/-- The tail of READ_SYM: deliver the byte under the cursor (R125, R126). -/
def takeSym (P : Params) (s : State) : Res (Option Byte) :=
  (fetchCell P.block s.symBuf s.symCur s).bind fun b s =>
    .ok (some b) (State.countSym { s with symCur := s.symCur + 1 })

/-- READ_SYM (R125). -/
def readSym (P : Params) (s : State) : Res (Option Byte) :=
  if s.symCur = s.symLen then
    if s.symEnd then .ok none s
    else (symFill P s).bind fun _ s => if s.symLen = 0 then .ok none s else takeSym P s
  else takeSym P s

/-- Sends the first `n` bytes of the symbol buffer (R127, R130). -/
def sendSyms (P : Params) (n : Nat) (s : State) : Res Unit :=
  (fetchCells P.block s.symBuf 0 n s).bind fun d s => writeBytes d s

/-- The effect of buffering one symbol on the registers (R127, R128). The other cells stay, those beyond the cursor
included (DESIGN CHOICE, log 33). -/
def State.storeSym (b : Byte) (s : State) : State :=
  State.countSym { s with symBuf := s.symBuf.write s.symCur b, symCur := s.symCur + 1 }

/-- The block is sent as soon as it is full (R127, R129). -/
def sendFullSyms (P : Params) (s : State) : Res Unit :=
  if s.symCur = P.block then
    (sendSyms P P.block s).bind fun _ s => .ok () { s with symCur := 0 }
  else .ok () s

/-- WRITE_SYM (R127). -/
def writeSym (P : Params) (b : Byte) (s : State) : Res Unit :=
  if s.symCur < P.block then sendFullSyms P (s.storeSym b) else .stop .noSuchCell

/-- FLUSH_SYMS (R130). -/
def flushSyms (P : Params) (s : State) : Res Unit :=
  if 0 < s.symCur then
    (sendSyms P s.symCur s).bind fun _ s => .ok () { s with symCur := 0 }
  else .ok () { s with symCur := 0 }

/-- WRITE_WORD (R131): first byte first. -/
def writeWord (P : Params) : List Byte → State → Res Unit
  | [], s => .ok () s
  | b :: bs, s => (writeSym P b s).bind fun _ s => writeWord P bs s

/-! ### As instructions -/

/-- READ_BYTES (R120). -/
def execReadBytes (n : Nat) (s : State) : Host.Outcome State Fault Refusal :=
  (readBytes n s).outcome fun d => State.withResult (.bytes d)

/-- WRITE_BYTES (R122). -/
def execWriteBytes (d : List Byte) (s : State) : Host.Outcome State Fault Refusal :=
  (writeBytes d s).outcome noResult

/-- SYM_FILL (R124). -/
def execSymFill (s : State) : Host.Outcome State Fault Refusal :=
  (symFill s.cfg s).outcome noResult

/-- READ_SYM (R125). -/
def execReadSym (s : State) : Host.Outcome State Fault Refusal :=
  (readSym s.cfg s).outcome fun r => State.withResult (.symbol r)

/-- WRITE_SYM (R127). -/
def execWriteSym (b : Byte) (s : State) : Host.Outcome State Fault Refusal :=
  (writeSym s.cfg b s).outcome noResult

/-- FLUSH_SYMS (R130). -/
def execFlushSyms (s : State) : Host.Outcome State Fault Refusal :=
  (flushSyms s.cfg s).outcome noResult

/-- WRITE_WORD (R131). -/
def execWriteWord (wd : List Byte) (s : State) : Host.Outcome State Fault Refusal :=
  (writeWord s.cfg wd s).outcome noResult

end Sys2Proof.Machine
end

