-- ==== Sys2Proof/Machine/WidthReset.lean ====
section
/-! DEFINITION. The code-width and reset protocol (42_width_reset_protocol.md), with the emptying of the two
dictionaries it shares with the loops (R193, R223). -/

namespace Sys2Proof.Machine

open Sys2Proof

/-- WIDTH (R172). -/
def State.width (s : State) : Nat := Sys2Proof.bitlen s.nextCode.toNat

/-- TRIE_RESET (R193, R194). -/
def State.emptyTrie (s : State) : State := { s with child := [] }

/-- WT_RESET (R223): "EMPTY_CODE's zero-length word is re-established". -/
def State.emptyWt (P : Params) (s : State) : State := { s with wt := [(P.emptyCode.toNat, [])] }

/-- DICT_RESET (R175): the dictionary of the running loop. In the phases in which "ADVANCE is never invoked" both are
emptied (log 19). -/
def dictReset (P : Params) (s : State) : State :=
  match s.phase with
  | .encLoop | .encTail => s.emptyTrie
  | .decLoop => s.emptyWt P
  | .idle | .hdrw | .hdrr | .decTail | .fault => s.emptyTrie.emptyWt P

/-- ADVANCE (R174): the state after it, and whether the dictionary was reset. A sum that does not fit the register, from a
counter outside the range of R21 only, is stored modulo 2^16 (DESIGN CHOICE, log 34). -/
def advance (P : Params) (s : State) : State × Bool :=
  if s.nextCode.toNat + 1 = P.maxCode then ({ dictReset P s with nextCode := P.startCode }, true)
  else ({ s with nextCode := s.nextCode + 1 }, false)

/-! ### As instructions -/

/-- BITLEN (R170, R171). -/
def execBitlen (v : Nat) (s : State) : Host.Outcome State Fault Refusal :=
  .next (s.withResult (.width (Sys2Proof.bitlen v)))

/-- WIDTH (R172). -/
def execWidth (s : State) : Host.Outcome State Fault Refusal :=
  .next (s.withResult (.width s.width))

/-- ADVANCE (R174; alone with a counter outside the range of R21: log 34). -/
def execAdvance (s : State) : Host.Outcome State Fault Refusal :=
  .next ((advance s.cfg s).1.withResult (.flag (advance s.cfg s).2))

/-- DICT_RESET (R175). -/
def execDictReset (s : State) : Host.Outcome State Fault Refusal :=
  .next (dictReset s.cfg s)

end Sys2Proof.Machine
end

