-- ==== Sys2Proof/Machine/Decoder.lean ====
section
/-! DEFINITION. The decoder and its word table (44_decoder_wordtable.md), and the pairs as instructions: what DEC_PAIR
does once READ_PAIR has delivered the record (R98, R230; log 22). -/

namespace Sys2Proof.Machine

open Sys2Proof

/-- WT_LOOKUP (R221, R304). -/
def wtLookup (P : Params) (c : Code) (s : State) : Res (List Byte) :=
  if c.toNat < P.maxCode then
    match s.wt.read c.toNat with
    | some wd => .ok wd s
    | none => .raise ⟨.badCode, c⟩ s
  else .raise ⟨.badCode, c⟩ s

/-- WT_APPEND (R222). The block gives it the counter for `d`; given any other slot, that of `EMPTY_CODE` and of
`STOP_CODE` included, it writes that one (DESIGN CHOICE, log 29). -/
def wtAppend (P : Params) (d : Code) (wd : List Byte) (b : Byte) (s : State) : Res Unit :=
  if d.toNat < P.maxCode then .ok () { s with wt := s.wt.write d.toNat (wd ++ [b]) }
  else .stop .noSuchCell

/-- DEC_INIT (R229): `cur_code`, `prev_code` and `prev_sym` are not changed, though the table of R27 lists them as written
(DEDUCED, log 30). -/
def decInit (P : Params) (s : State) : State :=
  { s.emptyWt P with
    nextCode := P.startCode
    symCur := 0
    symLen := 0
    symEnd := false
    bitCur := 0
    pairLen := 0
    pairEnd := false
    done := false
    cmdRej := false
    phase := .decLoop }

/-- The stop pair (R232): no output, no word, no advance. DEC_PAIR meets it in DEC_LOOP; as an instruction it does the
same in every phase (DESIGN CHOICE, log 31). -/
def State.stopPair (s : State) : State := { s with phase := .decTail }

/-- Any other pair (R230): look the code up, write word and symbol, store the new word, advance. -/
def decWord (P : Params) (c : Code) (b : Byte) (s : State) : Res Unit :=
  (wtLookup P c s).bind fun wd s =>
    (writeWord P (wd ++ [b]) s).bind fun _ s =>
      (wtAppend P s.nextCode wd b s).bind fun _ s => .ok () (advance P s).1

/-- DEC_PAIR (R230, R234). -/
def decPair (P : Params) (s : State) : Res Unit :=
  (readPair P s.width s).bind fun r s =>
    if r.1 = P.stopCode then .ok () s.stopPair else decWord P r.1 r.2 s

/-- DEC_END (R233, R236): it clears `pair_end` too, though R30 does not list it among the operations that do (DEDUCED,
log 32). The cells of the buffers stay (DESIGN CHOICE, log 33). -/
def decEnd (P : Params) (s : State) : Res Unit :=
  (flushSyms P s).bind fun _ s =>
    .ok () (State.finish
      { s.emptyWt P with nextCode := P.startCode, bitCur := 0, pairLen := 0, pairEnd := false })

/-! ### As instructions -/

/-- PAIR_STOP (R98, R232): the symbol's value is ignored. The spec meets it in phase DEC_LOOP only; run in another phase,
FAULT included, it goes to DEC_TAIL too (DESIGN CHOICE, log 31). -/
def execPairStop (_w : Nat) (_sym : Byte) (s : State) : Host.Outcome State Fault Refusal :=
  .next s.stopPair

/-- PAIR_LITERAL (R98, R230): the word of `EMPTY_CODE` is the empty one. Its effect is the same in a phase other than
DEC_LOOP, and its width is not compared with that in force (DESIGN CHOICE, log 31). -/
def execPairLiteral (_w : Nat) (sym : Byte) (s : State) : Host.Outcome State Fault Refusal :=
  (decWord s.cfg s.cfg.emptyCode sym s).outcome noResult

/-- PAIR_REFERENCE (R98, R230; in a phase other than DEC_LOOP, and its width: DESIGN CHOICE, log 31). A code that is no
assigned one, `STOP_CODE` included, is looked up all the same (DESIGN CHOICE, log 35): no decoded pair has it (R98, R234). -/
def execPairReference (_w : Nat) (c : Code) (sym : Byte) (s : State) : Host.Outcome State Fault Refusal :=
  (decWord s.cfg c sym s).outcome noResult

/-- PAIR_ILLEGAL (R98, R221): the block meets it in WT_LOOKUP, whose slot is empty (log 26). (In a phase other than
DEC_LOOP, and its width: DESIGN CHOICE, log 31; in FAULT: log 18; with the code `STOP_CODE`, which no decoded one has, it
takes `BAD_CODE`: DESIGN CHOICE, log 35.) -/
def execPairIllegal (_w : Nat) (c : Code) (sym : Byte) (s : State) : Host.Outcome State Fault Refusal :=
  (decWord s.cfg c sym s).outcome noResult

/-- WT_LOOKUP (R221; alone with `STOP_CODE`, which never reaches it in the block: log 35). -/
def execWtLookup (c : Code) (s : State) : Host.Outcome State Fault Refusal :=
  (wtLookup s.cfg c s).outcome fun wd => State.withResult (.word wd)

/-- WT_APPEND (R222; a slot other than the counter's: log 29). -/
def execWtAppend (d : Code) (wd : List Byte) (b : Byte) (s : State) : Host.Outcome State Fault Refusal :=
  (wtAppend s.cfg d wd b s).outcome noResult

/-- WT_RESET (R223). -/
def execWtReset (s : State) : Host.Outcome State Fault Refusal :=
  .next (s.emptyWt s.cfg)

/-- DEC_INIT (R229; the three code registers of R27's table are left: log 30; in every phase: log 31). -/
def execDecInit (s : State) : Host.Outcome State Fault Refusal :=
  .next (decInit s.cfg s)

/-- DEC_PAIR (R230; alone in a phase other than DEC_LOOP: log 31). -/
def execDecPair (s : State) : Host.Outcome State Fault Refusal :=
  (decPair s.cfg s).outcome noResult

/-- DEC_END (R233; `pair_end`: log 32; alone in a phase other than DEC_TAIL: log 31). -/
def execDecEnd (s : State) : Host.Outcome State Fault Refusal :=
  (decEnd s.cfg s).outcome noResult

end Sys2Proof.Machine
end

