-- ==== Sys2Proof/Machine/Encoder.lean ====
section
/-! DEFINITION. The encoder and its trie dictionary (43_encoder_trie.md). -/

namespace Sys2Proof.Machine

open Sys2Proof

/-- TRIE_STEP (R191); of a code that is no node it reads the entry all the same (DESIGN CHOICE, log 29). -/
def trieStep (P : Params) (c : Code) (b : Byte) (s : State) : Res (Option Code) :=
  if c.toNat < P.maxCode then .ok (s.child.read (childIndex c b)) s else .stop .noSuchCell

/-- TRIE_INSERT (R192). The encoder gives it a node with no such child, and the counter for `d`; given other operands, it
writes that entry (DESIGN CHOICE, log 29). -/
def trieInsert (P : Params) (c : Code) (b : Byte) (d : Code) (s : State) : Res Unit :=
  if c.toNat < P.maxCode then .ok () { s with child := s.child.write (childIndex c b) d }
  else .stop .noSuchCell

/-- ENC_INIT (R199). -/
def encInit (P : Params) (s : State) : State :=
  { s.emptyTrie with
    nextCode := P.startCode
    curCode := P.emptyCode
    prevCode := P.emptyCode
    prevSym := 0
    symCur := 0
    symLen := 0
    symEnd := false
    bitCur := 0
    pairLen := 0
    pairEnd := false
    done := false
    cmdRej := false
    phase := .encLoop }

/-- A hit (R200, R198): the match pointer moves to the child, nothing is emitted. -/
def State.hit (d : Code) (s : State) : State := { s with prevCode := s.curCode, curCode := d }

/-- A miss (R200, R201): emit, insert, back to the root, advance, in that order. -/
def encMiss (P : Params) (b : Byte) (s : State) : Res Unit :=
  (writePair P s.curCode b s.width s).bind fun _ s =>
    (trieInsert P s.curCode b s.nextCode s).bind fun _ s =>
      .ok () (advance P { s with curCode := P.emptyCode }).1

/-- What ENC_SYMBOL does with a symbol (R200). -/
def encConsume (P : Params) (b : Byte) (s : State) : Res Unit :=
  ((trieStep P s.curCode b s).bind fun d s =>
      match d with
      | some d => .ok () (s.hit d)
      | none => encMiss P b s).bind fun _ s => .ok () { s with prevSym := b }

/-- ENC_SYMBOL (R200). -/
def encSymbol (P : Params) (s : State) : Res Unit :=
  (readSym P s).bind fun r s =>
    match r with
    | none => .ok () { s with phase := .encTail }
    | some b => encConsume P b s

/-- The counter step after the final pair: ADVANCE (R202), or under `TERM_WRAP = MODULO` the remainder modulo
`MAX_CODE` with no dictionary reset (R204). -/
def advanceFinal (P : Params) (s : State) : State :=
  match P.termWrap with
  | .reset => (advance P s).1
  | .modulo => { s with nextCode := BitVec.ofNat 16 ((s.nextCode.toNat + 1) % P.maxCode) }

/-- ENC_END, first part (R202): the final pair of a pending match; no node is inserted for it. -/
def encEndFinalPair (P : Params) (s : State) : Res Unit :=
  if s.curCode = P.emptyCode then .ok () s
  else
    (writePair P s.prevCode s.prevSym s.width s).bind fun _ s =>
      .ok () (advanceFinal P { s with curCode := P.emptyCode })

/-- ENC_END, second part (R203): terminator, flush, completion; the trie is destroyed. -/
def encEndTerminator (P : Params) (s : State) : Res Unit :=
  (writePair P P.stopCode 0 s.width s).bind fun _ s =>
    (flushBits P s).bind fun _ s =>
      .ok () (State.finish { s.emptyTrie with nextCode := P.startCode })

/-! ### As instructions -/

/-- TRIE_STEP (R191; a code that is no node: log 29). -/
def execTrieStep (c : Code) (b : Byte) (s : State) : Host.Outcome State Fault Refusal :=
  (trieStep s.cfg c b s).outcome fun d => State.withResult (.child d)

/-- TRIE_INSERT (R192; operands the encoder would not give: log 29). -/
def execTrieInsert (c : Code) (b : Byte) (d : Code) (s : State) : Host.Outcome State Fault Refusal :=
  (trieInsert s.cfg c b d s).outcome noResult

/-- TRIE_RESET (R193). -/
def execTrieReset (s : State) : Host.Outcome State Fault Refusal :=
  .next s.emptyTrie

/-- ENC_INIT (R199; alone in a phase other than IDLE: log 31). -/
def execEncInit (s : State) : Host.Outcome State Fault Refusal :=
  .next (encInit s.cfg s)

/-- ENC_SYMBOL (R200; alone in a phase other than ENC_LOOP: log 31). -/
def execEncSymbol (s : State) : Host.Outcome State Fault Refusal :=
  (encSymbol s.cfg s).outcome noResult

/-- ENC_END, first part (R202). -/
def execEncEndFinalPair (s : State) : Host.Outcome State Fault Refusal :=
  (encEndFinalPair s.cfg s).outcome noResult

/-- ENC_END, second part (R203; alone in a phase other than ENC_TAIL: log 31). -/
def execEncEndTerminator (s : State) : Host.Outcome State Fault Refusal :=
  (encEndTerminator s.cfg s).outcome noResult

end Sys2Proof.Machine
end

