-- ==== Sys2Proof/Machine/Commands.lean ====
section
/-! DEFINITION. The host commands (46_commands.md): a write to `CMD` is accepted, and the command's rule starts, or
rejected (R270, R272, R274). NOP and CLEAR complete within the write (R279); an accepted data command goes on in the
steps of its phases (R28, R270; log 12). -/

namespace Sys2Proof.Machine

open Sys2Proof

/-- The issue of a command (R270): its effect if it is accepted, else the rejection of R272. -/
def issue (accepted : Bool) (effect : State) (s : State) : Host.Outcome State Fault Refusal :=
  if accepted then .next effect else .next s.reject

/-- NOP (R273). -/
def execNop (s : State) : Host.Outcome State Fault Refusal :=
  issue s.acceptsControl { s with cmdRej := false } s

/-- HDR_WRITE, its acceptance (R253); `hdrWriteBody` is the step that follows. -/
def execHdrWrite (s : State) : Host.Outcome State Fault Refusal :=
  issue s.acceptsData { s with done := false, cmdRej := false, phase := .hdrw } s

/-- HDR_READ, its acceptance (R255); the record it reads is run in the step that follows. -/
def execHdrRead (s : State) : Host.Outcome State Fault Refusal :=
  issue s.acceptsData { s with done := false, cmdRej := false, hdrOk := false, phase := .hdrr } s

/-- ENCODE, its acceptance: ENC_INIT (R205, R199). -/
def execEncode (s : State) : Host.Outcome State Fault Refusal :=
  issue s.acceptsData (encInit s.cfg s) s

/-- DECODE, its acceptance: DEC_INIT (R235, R229). -/
def execDecode (s : State) : Host.Outcome State Fault Refusal :=
  issue s.acceptsData (decInit s.cfg s) s

/-- CLEAR (R275, R276). -/
def execClear (s : State) : Host.Outcome State Fault Refusal :=
  issue s.acceptsControl s.cleared s

/-- Command code 6 (R101, R272): rejected in every phase. -/
def execReserved6 (s : State) : Host.Outcome State Fault Refusal :=
  .next s.reject

/-- Command code 7 (R101, R272): rejected in every phase. -/
def execReserved7 (s : State) : Host.Outcome State Fault Refusal :=
  .next s.reject

end Sys2Proof.Machine
end

