-- ==== Sys2Proof/Machine/Header.lean ====
section
/-! DEFINITION. The header codec (45_header_codec.md): what runs in the phases HDRW and HDRR, and the header record as
an instruction. -/

namespace Sys2Proof.Machine

open Sys2Proof

/-- The rest of HDR_WRITE after its acceptance, the step of phase HDRW (R253). -/
def hdrWriteBody (P : Params) (s : State) : Res Unit :=
  (writeBytes (headerBytes P.hdrOrder P.magic s.permIn) s).bind fun _ s => .ok () s.finish

/-- The fault of a wrong magic (R255, R301): its information is the low 16 bits of the magic found (R300; log 24). -/
def invalidMagic (found : BitVec 32) : Raise := ⟨.invalidMagic, found.setWidth 16⟩

/-- The fault of a source shorter than the header (R258, R303). -/
def headerUnderrun : Raise := ⟨.underrun, 0⟩

/-- HDR_READ once the six bytes are there (R255, R256): the magic is tested before any field is trusted. -/
def acceptHeader (P : Params) (magic : BitVec 32) (perm : BitVec 16) (s : State) : Res Unit :=
  if magic = P.magic then .ok () (State.finish { s with permOut := perm, hdrOk := true })
  else .raise (invalidMagic magic) s

/-- HDR_READ on a source of fewer than six bytes (R255, R258). -/
def shortHeader (P : Params) (d : List Byte) : Raise :=
  if 4 ≤ d.length ∧ d.take 4 ≠ magicBytes P then
    invalidMagic (BitVec.ofNat 32 (fieldValue P.hdrOrder (d.take 4)))
  else headerUnderrun

/-- HEADER (R91, R252): the record met by HDR_READ, in phase HDRR (R255). Run in another phase, FAULT included, it has the
same effect: a right magic goes to IDLE with `done = 1` (DESIGN CHOICE, log 31; a wrong one in FAULT: log 18). -/
def execHeader (magic : BitVec 32) (perm : BitVec 16) (s : State) : Host.Outcome State Fault Refusal :=
  (acceptHeader s.cfg magic perm s).outcome noResult

end Sys2Proof.Machine
end

