-- ==== Sys2Proof/Syntax.lean ====
section
/-! DEFINITION. The instructions: one constructor per row of spec/opcode_table.json. What an ISA's instructions are
is here (a) the host commands, (b) the internal operations, (c) the records of the container (R2, R104). -/

namespace Sys2Proof

/-- One constructor per row of the opcode table, in the table's order. The width `w` of a pair is the width of its
code field (R93); it belongs to the record's encoding and no effect depends on it. -/
inductive Instr where
  -- host commands (R100)
  | nop
  | hdrWrite
  | hdrRead
  | encode
  | decode
  | clear
  | reserved6
  | reserved7
  -- records of the container (R91, R98)
  | header (magic : BitVec 32) (perm : BitVec 16)
  | pairStop (w : Nat) (sym : Byte)
  | pairLiteral (w : Nat) (sym : Byte)
  | pairReference (w : Nat) (code : Code) (sym : Byte)
  | pairIllegal (w : Nat) (code : Code) (sym : Byte)
  -- the byte channel (40_byte_channel.md)
  | readBytes (n : Nat)
  | writeBytes (d : List Byte)
  | symFill
  | readSym
  | writeSym (sym : Byte)
  | flushSyms
  | writeWord (wd : List Byte)
  -- the bit channel (41_bit_channel.md)
  | writeBits (v : BitVec 16) (w : Nat)
  | flushBits
  | pairFill
  | readBits (w : Nat)
  | writePair (code : Code) (sym : Byte) (w : Nat)
  | readPair (w : Nat)
  -- the width and reset protocol (42_width_reset_protocol.md)
  | bitlen (v : Nat)
  | width
  | advance
  | dictReset
  -- the encoder (43_encoder_trie.md)
  | trieStep (code : Code) (sym : Byte)
  | trieInsert (code : Code) (sym : Byte) (new : Code)
  | trieReset
  | encInit
  | encSymbol
  | encEndFinalPair
  | encEndTerminator
  -- the decoder (44_decoder_wordtable.md)
  | wtLookup (code : Code)
  | wtAppend (slot : Code) (wd : List Byte) (sym : Byte)
  | wtReset
  | decInit
  | decPair
  | decEnd
  deriving DecidableEq, Repr

/-- Where an encoded instruction is met: written to `CMD` (R100), at the head of a container (R90), or in the pair
stream while `next_code` is `n` (R93, R95: the width and the kind of a pair depend on the counter). -/
inductive Format where
  | cmd
  | header
  | pair (n : Code)
  deriving DecidableEq, Repr

/-- The place where an instruction's encoding is met; none for the internal operations, which "are not encoded
anywhere" (R104). -/
def Instr.format (n : Code) : Instr → Option Format
  | .nop | .hdrWrite | .hdrRead | .encode | .decode | .clear | .reserved6 | .reserved7 => some .cmd
  | .header .. => some .header
  | .pairStop .. | .pairLiteral .. | .pairReference .. | .pairIllegal .. => some (.pair n)
  | .readBytes .. | .writeBytes .. | .symFill | .readSym | .writeSym .. | .flushSyms | .writeWord .. => none
  | .writeBits .. | .flushBits | .pairFill | .readBits .. | .writePair .. | .readPair .. => none
  | .bitlen .. | .width | .advance | .dictReset => none
  | .trieStep .. | .trieInsert .. | .trieReset => none
  | .encInit | .encSymbol | .encEndFinalPair | .encEndTerminator => none
  | .wtLookup .. | .wtAppend .. | .wtReset | .decInit | .decPair | .decEnd => none

end Sys2Proof
end

