-- ==== Sys2Proof/Machine/Dispatch.lean ====
section
/-! DEFINITION. One arm per constructor of Instr. -/

namespace Sys2Proof.Machine

open Sys2Proof

def exec (i : Instr) (s : State) : Host.Outcome State Fault Refusal :=
  match i with
  | .nop => Sys2Proof.Machine.execNop s
  | .hdrWrite => Sys2Proof.Machine.execHdrWrite s
  | .hdrRead => Sys2Proof.Machine.execHdrRead s
  | .encode => Sys2Proof.Machine.execEncode s
  | .decode => Sys2Proof.Machine.execDecode s
  | .clear => Sys2Proof.Machine.execClear s
  | .reserved6 => Sys2Proof.Machine.execReserved6 s
  | .reserved7 => Sys2Proof.Machine.execReserved7 s
  | .header magic perm => Sys2Proof.Machine.execHeader magic perm s
  | .pairStop w sym => Sys2Proof.Machine.execPairStop w sym s
  | .pairLiteral w sym => Sys2Proof.Machine.execPairLiteral w sym s
  | .pairReference w code sym => Sys2Proof.Machine.execPairReference w code sym s
  | .pairIllegal w code sym => Sys2Proof.Machine.execPairIllegal w code sym s
  | .readBytes n => Sys2Proof.Machine.execReadBytes n s
  | .writeBytes d => Sys2Proof.Machine.execWriteBytes d s
  | .symFill => Sys2Proof.Machine.execSymFill s
  | .readSym => Sys2Proof.Machine.execReadSym s
  | .writeSym sym => Sys2Proof.Machine.execWriteSym sym s
  | .flushSyms => Sys2Proof.Machine.execFlushSyms s
  | .writeWord wd => Sys2Proof.Machine.execWriteWord wd s
  | .writeBits v w => Sys2Proof.Machine.execWriteBits v w s
  | .flushBits => Sys2Proof.Machine.execFlushBits s
  | .pairFill => Sys2Proof.Machine.execPairFill s
  | .readBits w => Sys2Proof.Machine.execReadBits w s
  | .writePair code sym w => Sys2Proof.Machine.execWritePair code sym w s
  | .readPair w => Sys2Proof.Machine.execReadPair w s
  | .bitlen v => Sys2Proof.Machine.execBitlen v s
  | .width => Sys2Proof.Machine.execWidth s
  | .advance => Sys2Proof.Machine.execAdvance s
  | .dictReset => Sys2Proof.Machine.execDictReset s
  | .trieStep code sym => Sys2Proof.Machine.execTrieStep code sym s
  | .trieInsert code sym new => Sys2Proof.Machine.execTrieInsert code sym new s
  | .trieReset => Sys2Proof.Machine.execTrieReset s
  | .encInit => Sys2Proof.Machine.execEncInit s
  | .encSymbol => Sys2Proof.Machine.execEncSymbol s
  | .encEndFinalPair => Sys2Proof.Machine.execEncEndFinalPair s
  | .encEndTerminator => Sys2Proof.Machine.execEncEndTerminator s
  | .wtLookup code => Sys2Proof.Machine.execWtLookup code s
  | .wtAppend slot wd sym => Sys2Proof.Machine.execWtAppend slot wd sym s
  | .wtReset => Sys2Proof.Machine.execWtReset s
  | .decInit => Sys2Proof.Machine.execDecInit s
  | .decPair => Sys2Proof.Machine.execDecPair s
  | .decEnd => Sys2Proof.Machine.execDecEnd s

end Sys2Proof.Machine
end

