-- ==== Sys2Proof/WellFormed.lean ====
section
/-! DEFINITION. Which terms of `Instr` stand for something the spec describes: the fields of a record fit and its kind
is the one R98 gives, the operands of an internal operation lie in its domain. -/

namespace Sys2Proof

/-- A pair met at counter `n` has the width `bitlen(n)`, and the counter is one the protocol produces (R93, R173). -/
def pairWidthOk (P : Params) (n : Code) (w : Nat) : Bool :=
  decide (P.startCode.toNat ≤ n.toNat) && decide (n.toNat < P.maxCode) && decide (w = bitlen n.toNat)

/-- The condition of R98 for a reference pair. -/
def isReference (P : Params) (n c : Code) : Bool :=
  decide (P.startCode.toNat ≤ c.toNat) && decide (c.toNat < n.toNat)

/-- The condition of R98 for an illegal pair: not a sentinel, and unassigned or below `START_CODE`. -/
def isIllegal (P : Params) (n c : Code) : Bool :=
  decide (c ≠ P.stopCode) && decide (c ≠ P.emptyCode) && !isReference P n c

/-- A code indexes the dictionaries: it is below `MAX_CODE` (R42, R43). -/
def codeOk (P : Params) (c : Code) : Bool := decide (c.toNat < P.maxCode)

/-- A term is well formed at counter `n`: the one a pair is met at (R93), and the code TRIE_INSERT and WT_APPEND give
(R192, R222; what they do with another: log 29). Widths given to WRITE_BITS and
READ_BITS are unconstrained, because any other width has the effect `BAD_WIDTH` (R141). -/
def Instr.wellFormed (P : Params) (n : Code) : Instr → Bool
  | .nop | .hdrWrite | .hdrRead | .encode | .decode | .clear | .reserved6 | .reserved7 => true
  | .header magic _ => decide (magic = P.magic)
  | .pairStop w _ => pairWidthOk P n w
  | .pairLiteral w _ => pairWidthOk P n w
  | .pairReference w c _ => pairWidthOk P n w && isReference P n c
  | .pairIllegal w c _ => pairWidthOk P n w && isIllegal P n c && decide (c.toNat < 2 ^ w)
  | .readBytes k => decide (1 ≤ k) && decide (k ≤ max P.block hdrBytes)
  | .writeBytes _ | .symFill | .readSym | .writeSym _ | .flushSyms | .writeWord _ => true
  | .writeBits .. | .flushBits | .pairFill | .readBits _ | .writePair .. | .readPair _ => true
  | .bitlen v => decide (1 ≤ v)
  | .width | .advance | .dictReset => true
  | .trieStep c _ => codeOk P c
  | .trieInsert c _ d => codeOk P c && codeOk P d && decide (d = n)
  | .trieReset | .encInit | .encSymbol | .encEndFinalPair | .encEndTerminator => true
  | .wtLookup _ => true
  | .wtAppend d _ _ => codeOk P d && decide (d = n)
  | .wtReset | .decInit | .decPair | .decEnd => true

end Sys2Proof
end

