-- ==== Sys2Proof/Decode.lean ====
section
/-! DEFINITION. The decoder and the encoder of everything that has an encoding: commands (R100), the header record
(R91) and the pairs (R93, R98). Both work on bits in stream order; the internal operations have no encoding (R104). -/

namespace Sys2Proof

/-- Why bits are no instruction. -/
inductive DecodeError where
  /-- Fewer bits than the format has. -/
  | tooShort
  /-- The counter gives no width the bit channel accepts (R141, R171). -/
  | badWidth
  deriving DecidableEq, Repr

/-- The command whose 3-bit code is given (R100). Every code has a row, the reserved ones included. -/
def decodeCmd (c : BitVec 3) : Instr :=
  match c.toNat with
  | 0 => .nop
  | 1 => .hdrWrite
  | 2 => .hdrRead
  | 3 => .encode
  | 4 => .decode
  | 5 => .clear
  | 6 => .reserved6
  | _ => .reserved7

/-- The header record of six bytes (R91, R250). A wrong magic is no decoding error: the record's effect faults it
(R255). -/
def decodeHeader (P : Params) (d : List Byte) : Instr :=
  .header (BitVec.ofNat 32 (fieldValue P.hdrOrder (d.take 4)))
    (BitVec.ofNat 16 (fieldValue P.hdrOrder (d.drop 4)))

/-- The kind of a pair by its code field, in the order of the tests (R98, R234). -/
def classifyPair (P : Params) (n : Code) (w : Nat) (c : Code) (sym : Byte) : Instr :=
  if c = P.stopCode then .pairStop w sym
  else if c = P.emptyCode then .pairLiteral w sym
  else if isReference P n c then .pairReference w c sym
  else .pairIllegal w c sym

/-- The pair at the head of a bit stream, met at counter `n` (R93, R94). -/
def decodePair (P : Params) (n : Code) (bits : List Bool) : Except DecodeError (Instr × List Bool) :=
  let w := bitlen n.toNat
  if w < 1 ∨ 16 < w then .error .badWidth
  else if bits.length < w + 8 then .error .tooShort
  else .ok (classifyPair P n w (BitVec.ofNat 16 (bitsValue P.valOrder (bits.take w)))
      (BitVec.ofNat 8 (bitsValue P.valOrder ((bits.drop w).take 8))), bits.drop (w + 8))

/-- The instruction at the head of a run of bits met at the given place, and the bits after it. -/
def decode (P : Params) (f : Format) (bits : List Bool) : Except DecodeError (Instr × List Bool) :=
  match f with
  | .cmd =>
      if bits.length < 3 then .error .tooShort
      else .ok (decodeCmd (BitVec.ofNat 3 (lsbVal (bits.take 3))), bits.drop 3)
  | .header =>
      if bits.length < 8 * hdrBytes then .error .tooShort
      else .ok (decodeHeader P (bitsBytes (bits.take (8 * hdrBytes))), bits.drop (8 * hdrBytes))
  | .pair n => decodePair P n bits

/-- The bits of a pair, code field first, then the symbol field with no gap (R93, R150). -/
def encodePair (P : Params) (w : Nat) (c : Code) (sym : Byte) : List Bool :=
  valueBits P.valOrder w c.toNat ++ valueBits P.valOrder 8 sym.toNat

/-- The code of a command (R100), of those instructions that are one. -/
def cmdCode : Instr → Option (BitVec 3)
  | .nop => some 0
  | .hdrWrite => some 1
  | .hdrRead => some 2
  | .encode => some 3
  | .decode => some 4
  | .clear => some 5
  | .reserved6 => some 6
  | .reserved7 => some 7
  | .header .. | .pairStop .. | .pairLiteral .. | .pairReference .. | .pairIllegal .. => none
  | .readBytes .. | .writeBytes .. | .symFill | .readSym | .writeSym .. | .flushSyms | .writeWord .. => none
  | .writeBits .. | .flushBits | .pairFill | .readBits .. | .writePair .. | .readPair .. => none
  | .bitlen .. | .width | .advance | .dictReset => none
  | .trieStep .. | .trieInsert .. | .trieReset => none
  | .encInit | .encSymbol | .encEndFinalPair | .encEndTerminator => none
  | .wtLookup .. | .wtAppend .. | .wtReset | .decInit | .decPair | .decEnd => none

/-- The bits of an instruction, first stream bit first; none where R104 gives it no encoding. -/
def encode (P : Params) : Instr → Option (List Bool)
  | .nop => some (lsbBits 3 0)
  | .hdrWrite => some (lsbBits 3 1)
  | .hdrRead => some (lsbBits 3 2)
  | .encode => some (lsbBits 3 3)
  | .decode => some (lsbBits 3 4)
  | .clear => some (lsbBits 3 5)
  | .reserved6 => some (lsbBits 3 6)
  | .reserved7 => some (lsbBits 3 7)
  | .header magic perm => some ((headerBytes P.hdrOrder magic perm).flatMap byteBits)
  | .pairStop w sym => some (encodePair P w P.stopCode sym)
  | .pairLiteral w sym => some (encodePair P w P.emptyCode sym)
  | .pairReference w c sym => some (encodePair P w c sym)
  | .pairIllegal w c sym => some (encodePair P w c sym)
  | .readBytes .. | .writeBytes .. | .symFill | .readSym | .writeSym .. | .flushSyms | .writeWord .. => none
  | .writeBits .. | .flushBits | .pairFill | .readBits .. | .writePair .. | .readPair .. => none
  | .bitlen .. | .width | .advance | .dictReset => none
  | .trieStep .. | .trieInsert .. | .trieReset => none
  | .encInit | .encSymbol | .encEndFinalPair | .encEndTerminator => none
  | .wtLookup .. | .wtAppend .. | .wtReset | .decInit | .decPair | .decEnd => none

/-- The instruction the decoder reads from a word numbered as the opcode table numbers it. A command is its three
bits in one byte, a pair the 24 bits of width 16 that the table shows (met at `tableCounter`; log 23), a header its
48 bits. -/
def decodeTableWord (nbits w : Nat) : Option Instr :=
  if nbits ≤ 8 then
    if w < 8 then (decode Config.params .cmd (lsbBits 3 w)).toOption.map Prod.fst else none
  else if nbits = 24 then
    (decode Config.params (.pair tableCounter) (lsbBits 24 w)).toOption.map Prod.fst
  else if nbits = 48 then
    (decode Config.params .header (lsbBits 48 w)).toOption.map Prod.fst
  else none

end Sys2Proof
end

