-- ==== Sys2Proof/Machine/Fetch.lean ====
section
/-! DEFINITION. What the next step runs (R19, R28): a host action, the command written to `CMD`, the record under the
read cursor, or the operation of the phase; and the host's own actions (R32, R271, R340, R352). -/

namespace Sys2Proof.Machine

open Sys2Proof

/-- What a step has to run. -/
inductive Fetched where
  /-- One instruction on a state. -/
  | one (i : Instr) (s : State)
  /-- Two in one step: the second runs if the first left the phase as it was (ENC_END, R202, R203). -/
  | two (i j : Instr) (s : State)
  /-- No instruction: the outcome of the step. -/
  | settled (o : Host.Outcome State Fault Refusal)

/-- A host write to a register other than `CMD` (R32, R35, R271): only `PERM_IN` takes it, and not while busy; the
value is cut to the register's width (log 25). -/
def State.hostWrite (num : Nat) (value : Nat) (s : State) : State :=
  if num = 2 ∧ s.busy = false then { s with permIn := BitVec.ofNat 16 value } else s

/-- A host read (R32, R277): nothing of the block changes (log 14). -/
def State.hostRead (num : Nat) (s : State) : State :=
  { s with host := { s.host with reads := s.readReg num :: s.host.reads } }

/-- Hardware reset (R340, R341): possible in every phase; the streams keep their positions unless the block was busy
(log 15). -/
def State.hardReset (taken : Nat) (sent : List Byte) (s : State) : State :=
  if s.busy then
    { s.cleared with
      src := { s.src with data := s.src.data.drop taken }
      snk := { s.snk with data := s.snk.data ++ sent } }
  else s.cleared

/-- The host's connecting a stream (R271, R352), which it must not do while busy (R357, U9; log 16). -/
def hostConnect (connected : State) (s : State) : Host.Outcome State Fault Refusal :=
  if s.busy then .refused .streamTouchedWhileBusy else .next connected

/-- The header record of phase HDRR (R255). -/
def fetchHeader (s : State) : Fetched :=
  match readBytes hdrBytes s with
  | .ok d s' =>
      if d.length < hdrBytes then .settled (.next (s'.enterFault (shortHeader s.cfg d)))
      else .one (decodeHeader s.cfg d) s'
  | .raise r s' => .settled (.next (s'.enterFault r))
  | .stop f => .settled (.fault f)

/-- The pair of phase DEC_LOOP (R230): read at the width in force, told apart at the counter it meets (R98). -/
def fetchPair (s : State) : Fetched :=
  match readPair s.cfg s.width s with
  | .ok r s' => .one (classifyPair s.cfg s.nextCode s.width r.1 r.2) s'
  | .raise r s' => .settled (.next (s'.enterFault r))
  | .stop f => .settled (.fault f)

/-- The core's own step, by phase (R28). In IDLE and FAULT it has none (R325, R342). -/
def fetchCore (s : State) : Fetched :=
  match s.phase with
  | .idle | .fault => .settled (.next s)
  | .hdrw => .settled ((hdrWriteBody s.cfg s).outcome noResult)
  | .hdrr => fetchHeader s
  | .encLoop => .one .encSymbol s
  | .encTail => .two .encEndFinalPair .encEndTerminator s
  | .decLoop => fetchPair s
  | .decTail => .one .decEnd s

/-- The host has done the first of its actions. -/
def State.popAct (s : State) : State := { s with host := { s.host with acts := s.host.acts.tail } }

/-- What the next step runs: the host's next action, or the core's step (log 13). -/
def fetch (s : State) : Fetched :=
  match s.host.acts with
  | [] => fetchCore s
  | .run :: _ => fetchCore s.popAct
  | .writeReg 0 v :: _ => .one (decodeCmd (BitVec.ofNat 3 v)) s.popAct
  | .writeReg (n + 1) v :: _ => .settled (.next (s.popAct.hostWrite (n + 1) v))
  | .readReg n :: _ => .settled (.next (s.popAct.hostRead n))
  | .connectSrc p :: _ => .settled (hostConnect { s.popAct with src := p } s.popAct)
  | .connectSnk p :: _ => .settled (hostConnect { s.popAct with snk := p } s.popAct)
  | .reset taken sent :: _ => .settled (.next (s.popAct.hardReset taken sent))

/-- A state whose next step meets a command word (log 23): the host's next action writes it to `CMD`. -/
def State.placeCommand (w : Nat) (s : State) : State :=
  { s with host := { s.host with acts := .writeReg 0 (w) :: s.host.acts } }

/-- A state whose next step meets a pair of 24 bits (log 23): DECODE is running, the counter is the least of width 16,
and the pair is the block that was filled last. -/
def State.placePair (w : Nat) (s : State) : State :=
  { s with
    phase := .decLoop
    nextCode := tableCounter
    pairBuf := s.pairBuf.writeList 0 (lsbBits 24 w)
    pairLen := 3
    bitCur := 0
    host := { s.host with acts := .run :: s.host.acts } }

/-- A state whose next step meets a header record (log 23): HDR_READ is running and the source begins with the six
bytes, which the environment will deliver at once. -/
def State.placeHeader (w : Nat) (s : State) : State :=
  { s with
    phase := .hdrr
    src := { s.src with data := bitsBytes (lsbBits 48 w) ++ s.src.data, plan := .data 5 :: s.src.plan }
    host := { s.host with acts := .run :: s.host.acts } }

end Sys2Proof.Machine
end

