-- ==== Sys2Proof/Machine/Step.lean ====
section
/-! DEFINITION. One step (R19, R28). -/

namespace Sys2Proof.Machine

open Sys2Proof

/-- One step of the block and its host. -/
def step (s : State) : Host.Outcome State Fault Refusal :=
  match fetch s with
  | .settled o => o
  | .one i t => exec i t
  | .two i j t =>
      match exec i t with
      | .next u => if u.phase = t.phase then exec j u else .next u
      | .fault f => .fault f
      | .refused r => .refused r

/-- The state `s` with the word stored where the next step fetches its instruction (log 23). -/
def State.withFetchWord (s : State) (nbits w : Nat) : State :=
  if nbits ≤ 8 then s.placeCommand w
  else if nbits ≤ 24 then s.placePair w
  else s.placeHeader w

end Sys2Proof.Machine
end

