-- ==== Sys2Proof/Safety.lean ====
section
/-! DEFINITION. What claims about runs speak of: the run, environments that answer and do not fail (R365, D11), the
byte and bit sequences behind the buffers (R47, R63: only the sequences are normative), and the invariant of the
block (R28, R30, R31, R44, R45, R50). -/

namespace Sys2Proof.Safety

open Sys2Proof Sys2Proof.Machine

/-- `n` steps, ending at the first stop. -/
def run : Nat → State → Host.Outcome State Fault Refusal
  | 0, s => .next s
  | n + 1, s =>
      match step s with
      | .next t => run n t
      | .fault f => .fault f
      | .refused r => .refused r

/-- Instructions run one after another on the state, ending at the first stop. -/
def runAll : List Instr → State → Host.Outcome State Fault Refusal
  | [], s => .next s
  | i :: is, s =>
      match exec i s with
      | .next t => runAll is t
      | .fault f => .fault f
      | .refused r => .refused r

/-- The next step is the core's: the host does nothing in it (R271; log 13). -/
def coreTurn (s : State) : Prop := s.host.acts = [] ∨ ∃ as, s.host.acts = .run :: as

/-- Two instances that exchange containers: equal in everything but `BLOCK` and `CTR_BITS` (R39, R361). -/
def coupled (P Q : Params) : Prop :=
  Q.emptyCode = P.emptyCode ∧ Q.stopCode = P.stopCode ∧ Q.startCode = P.startCode ∧ Q.maxCode = P.maxCode ∧
    Q.magic = P.magic ∧ Q.hdrOrder = P.hdrOrder ∧ Q.valOrder = P.valOrder ∧ Q.termWrap = P.termWrap

/-! ### Phases (R28) -/

/-- The transitions of the core's own steps; in IDLE and FAULT it has none. -/
def coreMoves : Phase → Phase → Bool
  | .idle, q => decide (q = .idle)
  | .hdrw, q => decide (q = .idle ∨ q = .fault)
  | .hdrr, q => decide (q = .idle ∨ q = .fault)
  | .encLoop, q => decide (q = .encLoop ∨ q = .encTail ∨ q = .fault)
  | .encTail, q => decide (q = .idle ∨ q = .fault)
  | .decLoop, q => decide (q = .decLoop ∨ q = .decTail ∨ q = .fault)
  | .decTail, q => decide (q = .idle ∨ q = .fault)
  | .fault, q => decide (q = .fault)

/-- The transitions of the host's actions: a command starts in IDLE, CLEAR leaves FAULT, reset leads to IDLE. -/
def hostMoves : HostAct → Phase → Phase → Bool
  | .reset _ _, _, q => decide (q = .idle)
  | .writeReg 0 _, .idle, q => decide (q = .idle ∨ q = .hdrw ∨ q = .hdrr ∨ q = .encLoop ∨ q = .decLoop)
  | .writeReg 0 _, .fault, q => decide (q = .fault ∨ q = .idle)
  | _, p, q => decide (q = p)

/-! ### Who writes what (R27, R30, R31, R35 to R38, R40 to R43) -/

/-- The parts of the state. -/
inductive Part where
  | phase | nextCode | curCode | prevCode | prevSym | symRegs | bitRegs | done | cmdRej | hdrOk | faultRegs
  | permIn | permOut | totalSyms | totalBits | symBuf | pairBuf | child | wt | src | snk | result
  deriving DecidableEq, Repr

/-- A part has the same value in two states. -/
def samePart (s t : State) : Part → Prop
  | .phase => t.phase = s.phase
  | .nextCode => t.nextCode = s.nextCode
  | .curCode => t.curCode = s.curCode
  | .prevCode => t.prevCode = s.prevCode
  | .prevSym => t.prevSym = s.prevSym
  | .symRegs => t.symCur = s.symCur ∧ t.symLen = s.symLen ∧ t.symEnd = s.symEnd
  | .bitRegs => t.bitCur = s.bitCur ∧ t.pairLen = s.pairLen ∧ t.pairEnd = s.pairEnd
  | .done => t.done = s.done
  | .cmdRej => t.cmdRej = s.cmdRej
  | .hdrOk => t.hdrOk = s.hdrOk
  | .faultRegs => t.cause = s.cause ∧ t.faultInfo = s.faultInfo
  | .permIn => t.permIn = s.permIn
  | .permOut => t.permOut = s.permOut
  | .totalSyms => t.totalSyms = s.totalSyms
  | .totalBits => t.totalBits = s.totalBits
  | .symBuf => t.symBuf = s.symBuf
  | .pairBuf => t.pairBuf = s.pairBuf
  | .child => t.child = s.child
  | .wt => t.wt = s.wt
  | .src => t.src = s.src
  | .snk => t.snk = s.snk
  | .result => t.opResult = s.opResult

/-- The parts each instruction may write, those of the operations it invokes and of a fault it may take included. ADVANCE
is listed with both dictionaries, for its phase decides which one it resets (R175). DEC_INIT leaves the three code
registers that the table of R27 lists for it, as R229 says (DEDUCED, log 30), and DEC_END
writes `pair_end`, as R233 says (DEDUCED, log 32). -/
def mayWrite : Instr → List Part
  | .nop | .reserved6 | .reserved7 => [.cmdRej]
  | .hdrWrite => [.done, .cmdRej, .phase]
  | .hdrRead => [.done, .cmdRej, .hdrOk, .phase]
  | .encode | .encInit =>
      [.child, .nextCode, .curCode, .prevCode, .prevSym, .symRegs, .bitRegs, .done, .cmdRej, .phase]
  | .decode | .decInit => [.wt, .nextCode, .symRegs, .bitRegs, .done, .cmdRej, .phase]
  | .clear =>
      [.phase, .nextCode, .curCode, .prevCode, .prevSym, .symRegs, .bitRegs, .done, .cmdRej, .hdrOk, .faultRegs,
        .permIn, .permOut, .totalSyms, .totalBits, .symBuf, .pairBuf, .child, .wt, .result]
  | .header .. => [.permOut, .hdrOk, .done, .phase, .faultRegs]
  | .pairStop .. => [.phase]
  | .pairLiteral .. | .pairReference .. | .pairIllegal .. =>
      [.symBuf, .symRegs, .totalSyms, .snk, .wt, .child, .nextCode, .phase, .faultRegs]
  | .readBytes .. => [.src, .result, .phase, .faultRegs]
  | .writeBytes .. => [.snk, .phase, .faultRegs]
  | .symFill => [.symBuf, .symRegs, .src, .phase, .faultRegs]
  | .readSym => [.symBuf, .symRegs, .totalSyms, .src, .result, .phase, .faultRegs]
  | .writeSym .. | .writeWord .. => [.symBuf, .symRegs, .totalSyms, .snk, .phase, .faultRegs]
  | .flushSyms => [.symRegs, .snk, .phase, .faultRegs]
  | .writeBits .. | .writePair .. => [.pairBuf, .bitRegs, .totalBits, .snk, .phase, .faultRegs]
  | .flushBits => [.pairBuf, .bitRegs, .snk, .phase, .faultRegs]
  | .pairFill => [.pairBuf, .bitRegs, .src, .phase, .faultRegs]
  | .readBits .. | .readPair .. => [.pairBuf, .bitRegs, .totalBits, .src, .result, .phase, .faultRegs]
  | .bitlen .. | .width | .trieStep .. => [.result]
  | .advance => [.nextCode, .child, .wt, .result]
  | .dictReset => [.child, .wt]
  | .trieInsert .. | .trieReset => [.child]
  | .encSymbol =>
      [.symBuf, .symRegs, .totalSyms, .src, .pairBuf, .bitRegs, .totalBits, .snk, .child, .wt, .nextCode, .curCode,
        .prevCode, .prevSym, .phase, .faultRegs]
  | .encEndFinalPair =>
      [.pairBuf, .bitRegs, .totalBits, .snk, .child, .wt, .nextCode, .curCode, .phase, .faultRegs]
  | .encEndTerminator => [.pairBuf, .bitRegs, .totalBits, .snk, .child, .nextCode, .done, .phase, .faultRegs]
  | .wtLookup .. => [.result, .phase, .faultRegs]
  | .wtAppend .. | .wtReset => [.wt]
  | .decPair =>
      [.pairBuf, .bitRegs, .totalBits, .src, .symBuf, .symRegs, .totalSyms, .snk, .wt, .child, .nextCode, .phase,
        .faultRegs]
  | .decEnd => [.symRegs, .snk, .wt, .nextCode, .bitRegs, .done, .phase, .faultRegs]

/-- The width an instruction gives the bit channel first, if it gives one: its operand, or the width in force (R141,
R172). -/
def channelWidth (s : State) : Instr → Option Nat
  | .writeBits _ w | .readBits w | .writePair _ _ w | .readPair w => some w
  | .encSymbol | .encEndFinalPair | .encEndTerminator | .decPair => some s.width
  | .nop | .hdrWrite | .hdrRead | .encode | .decode | .clear | .reserved6 | .reserved7 | .header .. => none
  | .pairStop .. | .pairLiteral .. | .pairReference .. | .pairIllegal .. => none
  | .readBytes _ | .writeBytes _ | .symFill | .readSym | .writeSym _ | .flushSyms | .writeWord _ => none
  | .flushBits | .pairFill | .bitlen _ | .width | .advance | .dictReset => none
  | .trieStep .. | .trieInsert .. | .trieReset | .encInit => none
  | .wtLookup _ | .wtAppend .. | .wtReset | .decInit | .decEnd => none

/-! ### Environments -/

/-- The answer is `Data` wherever the stream has bytes: neither an early `Eof` nor an `Error` nor silence. -/
def deliversData : SrcAns → Bool
  | .data _ => true
  | .eof | .error | .silent => false

/-- The answer accepts at least one byte. -/
def acceptsSome : SnkAns → Bool
  | .accept k => decide (1 ≤ k)
  | .error | .silent => false

/-- A source that answers every transaction, `Eof` only at true exhaustion (R352, R365). -/
def srcGood (p : SrcPort) : Bool := deliversData p.rest && p.plan.all deliversData

/-- A sink that answers every transaction and never `Error` or `Accepted(0)` (R239). -/
def snkGood (p : SnkPort) : Bool := acceptsSome p.rest && p.plan.all acceptsSome

/-! ### The sequences behind the buffers -/

/-- Write side of the byte channel: `xs` are the bytes in the sink and, after them, the symbols still buffered
(R47, R127). -/
def SymsOut (s : State) (xs : List Byte) : Prop :=
  s.symCur < s.cfg.block ∧ ∃ p, Mem.readList s.symBuf 0 s.symCur = some p ∧ xs = s.snk.data ++ p

/-- Write side of the bit channel: `xs` are the bits of the bytes in the sink (R65) and, after them, the bits still
buffered (R47, R143). -/
def BitsOut (s : State) (xs : List Bool) : Prop :=
  s.bitCur < 8 * s.cfg.block ∧
    ∃ p, Mem.readList s.pairBuf 0 s.bitCur = some p ∧ xs = s.snk.data.flatMap byteBits ++ p

/-- Read side of the byte channel: `xs` are the symbols still to deliver, the buffered ones and, unless the source was
seen to end, those left in it (R121, R125). -/
def SymsIn (s : State) (xs : List Byte) : Prop :=
  s.symCur ≤ s.symLen ∧ s.symLen ≤ s.cfg.block ∧
    ∃ p, Mem.readList s.symBuf s.symCur (s.symLen - s.symCur) = some p ∧
      xs = p ++ (if s.symEnd then [] else s.src.data)

/-- Read side of the bit channel: `xs` are the bits still to consume, up to the bound (R147). -/
def BitsIn (s : State) (xs : List Bool) : Prop :=
  s.bitCur ≤ 8 * s.pairLen ∧ s.pairLen ≤ s.cfg.block ∧
    ∃ p, Mem.readList s.pairBuf s.bitCur (8 * s.pairLen - s.bitCur) = some p ∧
      xs = p ++ (if s.pairEnd then [] else s.src.data.flatMap byteBits)

/-! ### Bodies (R92, R95, R237) -/

/-- The counter the pair after one that met `n` meets (R95, R181; an `n` outside the range of R21: log 34). -/
def nextCounter (P : Params) (n : Code) : Code :=
  if n.toNat + 1 = P.maxCode then P.startCode else n + 1

/-- The stream bits of pairs the first of which meets the counter `n` (R92, R95). -/
def pairsBits (P : Params) : Code → List (Code × Byte) → List Bool
  | _, [] => []
  | n, p :: ps => encodePair P (bitlen n.toNat) p.1 p.2 ++ pairsBits P (nextCounter P n) ps

/-- What pairs stand for, without the machine (R237): the counter the next pair meets, the words of the current epoch
by code, and the output so far. -/
structure Words where
  next : Code
  table : Mem (List Byte)
  out : List Byte

/-- Before the first pair. -/
def Words.start (P : Params) : Words := ⟨P.startCode, [(P.emptyCode.toNat, [])], []⟩

/-- One pair (R237): its word is that of its code followed by its symbol; none where the code has no word. -/
def Words.step (P : Params) (w : Words) (p : Code × Byte) : Option Words :=
  (Mem.read w.table p.1.toNat).map fun wd =>
    if w.next.toNat + 1 = P.maxCode then ⟨P.startCode, [(P.emptyCode.toNat, [])], w.out ++ (wd ++ [p.2])⟩
    else ⟨w.next + 1, Mem.write w.table w.next.toNat (wd ++ [p.2]), w.out ++ (wd ++ [p.2])⟩

/-- The pairs of a body before its stop pair, in order. -/
def Words.run (P : Params) (ps : List (Code × Byte)) : Option Words := ps.foldlM (Words.step P) (Words.start P)

/-! ### The invariant -/

/-- The first `n` cells of a memory have been set. -/
def Filled {α : Type} (m : Mem α) (n : Nat) : Prop := ∀ i, i < n → (Mem.read m i).isSome

/-- The four memories are in canonical form and no cell lies outside its memory (R40 to R43). -/
structure MemoriesOk (s : State) : Prop where
  symBufWf : Mem.wf s.symBuf = true
  pairBufWf : Mem.wf s.pairBuf = true
  childWf : Mem.wf s.child = true
  wtWf : Mem.wf s.wt = true
  symBufInside : Mem.inside s.symBuf s.cfg.block = true
  pairBufInside : Mem.inside s.pairBuf (8 * s.cfg.block) = true
  childInside : Mem.inside s.child (256 * s.cfg.maxCode) = true
  wtInside : Mem.inside s.wt s.cfg.maxCode = true

/-- The registers stay in their ranges (R21, R25, R26, R37, R38). Only a fault under `TERM_WRAP = MODULO` leaves the counter
outside its own (R204). -/
structure RangesOk (s : State) : Prop where
  symCur : s.symCur ≤ s.cfg.block
  symLen : s.symLen ≤ s.cfg.block
  bitCur : s.bitCur ≤ 8 * s.cfg.block
  pairLen : s.pairLen ≤ s.cfg.block
  nextCode : s.phase ≠ .fault ∨ s.cfg.termWrap = .reset →
    s.cfg.startCode.toNat ≤ s.nextCode.toNat ∧ s.nextCode.toNat < s.cfg.maxCode
  totals : s.totalSyms < 2 ^ s.cfg.ctrBits ∧ s.totalBits < 2 ^ s.cfg.ctrBits

/-- The fault registers and `done` (R30, R31, R300, R326). -/
structure FlagsOk (s : State) : Prop where
  cause : s.cause ≠ .none ↔ s.phase = .fault
  faultInfo : s.phase ≠ .fault → s.faultInfo = 0
  done : s.done = true → s.phase = .idle

/-- The trie invariants (R44). -/
structure TrieOk (s : State) : Prop where
  /-- (a), (c): an entry's code is assigned, its node is the root or an older one. -/
  entry : ∀ c b d, Mem.read s.child (childIndex c b) = some d →
    (s.cfg.startCode.toNat ≤ d.toNat ∧ d.toNat < s.nextCode.toNat) ∧
      (c = s.cfg.emptyCode ∨ s.cfg.startCode.toNat ≤ c.toNat ∧ c.toNat < d.toNat)
  /-- (b): each assigned code is the value of one entry. -/
  assigned : ∀ d : Code, s.cfg.startCode.toNat ≤ d.toNat → d.toNat < s.nextCode.toNat →
    ∃ i, Mem.read s.child i = some d ∧ ∀ j, Mem.read s.child j = some d → j = i
  /-- (d): as many entries as assigned codes. -/
  count : s.child.length + s.cfg.startCode.toNat = s.nextCode.toNat

/-- The word-table invariants (R45). -/
structure TableOk (s : State) : Prop where
  /-- (a) -/
  empty : Mem.read s.wt s.cfg.emptyCode.toNat = some []
  /-- (b) -/
  occupied : ∀ c, (Mem.read s.wt c).isSome ↔
    c = s.cfg.emptyCode.toNat ∨ s.cfg.startCode.toNat ≤ c ∧ c < s.nextCode.toNat
  /-- (c) -/
  word : ∀ c wd, s.cfg.startCode.toNat ≤ c → Mem.read s.wt c = some wd →
    ∃ p pre b, (p = s.cfg.emptyCode.toNat ∨ s.cfg.startCode.toNat ≤ p ∧ p < c) ∧
      Mem.read s.wt p = some pre ∧ wd = pre ++ [b]

/-- No dictionary entry but the empty word (R49, R203, R233). -/
structure DictEmpty (s : State) : Prop where
  child : s.child = []
  wt : s.wt = [(s.cfg.emptyCode.toNat, [])]

/-- Between two steps of the encoder (R40, R41, R44, R50, R198). -/
structure EncoderOk (s : State) : Prop where
  trie : TrieOk s
  wt : s.wt = [(s.cfg.emptyCode.toNat, [])]
  matched : s.curCode = s.cfg.emptyCode ∨ Mem.read s.child (childIndex s.prevCode s.prevSym) = some s.curCode
  symCur : s.symCur ≤ s.symLen
  symBuf : Filled s.symBuf s.symLen
  bitCur : s.bitCur < 8 * s.cfg.block
  pairBuf : Filled s.pairBuf s.bitCur

/-- Between two steps of the decoder (R40, R41, R45, R50). -/
structure DecoderOk (s : State) : Prop where
  table : TableOk s
  child : s.child = []
  symCur : s.symCur < s.cfg.block
  symBuf : Filled s.symBuf s.symCur
  bitCur : s.bitCur ≤ 8 * s.pairLen
  pairBuf : Filled s.pairBuf (8 * s.pairLen)

/-- What holds in each phase. In FAULT nothing more than the rest of the invariant is promised (R321). -/
def phaseOk (s : State) : Prop :=
  match s.phase with
  | .idle | .hdrw | .hdrr => DictEmpty s
  | .encLoop | .encTail => EncoderOk s
  | .decLoop | .decTail => DecoderOk s
  | .fault => True

/-- The invariant of the block. -/
structure Inv (s : State) : Prop where
  memories : MemoriesOk s
  ranges : RangesOk s
  flags : FlagsOk s
  phase : phaseOk s

end Sys2Proof.Safety
end

