-- ==== Sys2Proof/Certificates/Slice0/Obligations.lean ====
section
/-! DEFINITION. The statements for the provers. A statement about an operation run as an instruction holds in every
phase in which the operation's own rule gives it that effect; where a phase matters it is a hypothesis. "The
environment answers" is `srcGood` and `snkGood`: every transaction is answered, `Eof` only at true exhaustion, no
`Error`, no `Accepted(0)`, in any split. -/

section
open Sys2Proof Sys2Proof.Machine Sys2Proof.Safety

/-! ### Encodings -/

/-- Words written out bit by bit (first stream bit first) from R91, R93, R98 and R100 decode to what they stand for:
the command codes 3, 4 and 6; the header `AC BA AD BA A4 01`; `(0, 'A')@2`, `(2, 'A')@2` and code 3 met at counter 3,
and the stop pair at width 3. -/
def Obligations.DecodesWrittenOutWords : Prop :=
  decode Config.params .cmd [true, true, false] = .ok (.encode, []) ∧
  decode Config.params .cmd [false, false, true] = .ok (.decode, []) ∧
  decode Config.params .cmd [false, true, true] = .ok (.reserved6, []) ∧
  decode Config.params .header (([0xAC, 0xBA, 0xAD, 0xBA, 0xA4, 0x01] : List Byte).flatMap byteBits)
    = .ok (.header 0xBAADBAAC 0x01A4, []) ∧
  decode Config.params (.pair 2) [false, false, true, false, false, false, false, false, true, false]
    = .ok (.pairLiteral 2 0x41, []) ∧
  decode Config.params (.pair 3) [false, true, true, false, false, false, false, false, true, false]
    = .ok (.pairReference 2 2 0x41, []) ∧
  decode Config.params (.pair 3) [true, true, true, false, false, false, false, false, true, false]
    = .ok (.pairIllegal 2 3 0x41, []) ∧
  decode Config.params (.pair 4) [true, false, false, false, false, false, false, false, false, false, false]
    = .ok (.pairStop 3 0, [])

/-- Decoding an encoded instruction gives it back, whatever follows it in the stream: for every instruction that has
an encoding, well formed at the counter it is met at, and every parameter choice. -/
def Obligations.EncodeThenDecode : Prop :=
  ∀ (P : Params) (n : Code) (i : Instr) (f : Format), i.wellFormed P n = true → i.format n = some f →
    ∃ bits, encode P i = some bits ∧ ∀ rest, decode P f (bits ++ rest) = .ok (i, rest)

/-- What the decoder reads is what it was given: the encoding of its result, followed by the bits it left. A pair met
at a counter of the protocol is well formed. -/
def Obligations.DecodeThenEncode : Prop :=
  ∀ (P : Params) (f : Format) (bits rest : List Bool) (i : Instr), decode P f bits = .ok (i, rest) →
    (∃ own, encode P i = some own ∧ bits = own ++ rest) ∧
    (∀ n, f = .pair n → P.startCode.toNat ≤ n.toNat → n.toNat < P.maxCode →
      i.wellFormed P n = true ∧ i.format n = some f)

/-- R93, with the decided `VAL_ORDER`: a pair is `w + 8` bits, code field first, each field least significant bit
first, and read as one integer it is `code + sym * 2^w`. -/
def Obligations.PairIsOneInteger : Prop :=
  ∀ (P : Params) (w : Nat) (c : Code) (sym : Byte), P.valOrder = .lsbFirst → c.toNat < 2 ^ w →
    (encodePair P w c sym).length = w + 8 ∧
    lsbVal (encodePair P w c sym) = c.toNat + sym.toNat * 2 ^ w ∧
    (∀ i, i < w → (encodePair P w c sym)[i]? = some (c.toNat.testBit i)) ∧
    ∀ i, i < 8 → (encodePair P w c sym)[w + i]? = some (sym.toNat.testBit i)

/-! ### What a step runs -/

/-- A command written to `CMD` is run by the very step that writes it (R33, R270). Of a value of 8 or more the low three
bits are the command (log 25, the model's choice). -/
def Obligations.StepRunsWrittenCommand : Prop :=
  ∀ (s : State) (v : Nat) (as : List HostAct), s.host.acts = .writeReg 0 v :: as →
    step s = exec (decodeCmd (BitVec.ofNat 3 v)) { s with host := { s.host with acts := as } }

/-- In phase DEC_LOOP, where the buffered bits at the cursor decode to a pair at the counter in force, the step is that
pair's effect, on the state in which the cursor has moved past it and its bits are counted (R148, R151, R230). -/
def Obligations.StepRunsBufferedPair : Prop :=
  ∀ (s : State) (p rest : List Bool) (i : Instr), coreTurn s → s.phase = .decLoop →
    s.bitCur ≤ 8 * s.pairLen → s.pairLen ≤ s.cfg.block →
    Mem.readList s.pairBuf s.bitCur (8 * s.pairLen - s.bitCur) = some p →
    decode s.cfg (.pair s.nextCode) p = .ok (i, rest) →
    step s = exec i { s.popAct with
      bitCur := s.bitCur + (s.width + 8)
      totalBits := countUp s.cfg s.totalBits (s.width + 8) }

/-- The same over the whole stream still to come, refills included: the step is the effect of the pair at its head, and
what is left of the stream is what follows that pair (R147, R148, R230). -/
def Obligations.StepRunsNextPairOfStream : Prop :=
  ∀ (s : State) (xs rest : List Bool) (i : Instr), coreTurn s → s.phase = .decLoop → srcGood s.src = true →
    BitsIn s xs → decode s.cfg (.pair s.nextCode) xs = .ok (i, rest) →
    ∃ t, step s = exec i t ∧ BitsIn t rest ∧ srcGood t.src = true ∧
      t = { s.popAct with
        pairBuf := t.pairBuf, bitCur := t.bitCur, pairLen := t.pairLen, pairEnd := t.pairEnd, src := t.src
        totalBits := countUp s.cfg s.totalBits (s.width + 8) }

/-- In phase HDRR the step takes six bytes from the source and is the effect of the header record they decode to
(R255, R259). -/
def Obligations.StepRunsHeaderRecord : Prop :=
  ∀ (s : State) (d rest : List Byte) (i : Instr), coreTurn s → s.phase = .hdrr → srcGood s.src = true →
    s.src.data = d ++ rest → d.length = hdrBytes → decode s.cfg .header (d.flatMap byteBits) = .ok (i, []) →
    ∃ p, p.data = rest ∧ srcGood p = true ∧ step s = exec i { s.popAct with src := p }

/-- In each phase but HDRR the step is the operation of the phase: HDRW's is the rest of HDR_WRITE; ENC_TAIL's is ENC_END,
whose second part runs unless the first took a fault; DEC_LOOP's is DEC_PAIR; in IDLE and FAULT nothing runs (R28, R200,
R202, R203, R230, R233, R253, R325, R342). HDRR's is the subject of StepRunsHeaderRecord and HdrReadValidatesThenDelivers. -/
def Obligations.StepRunsOperationOfPhase : Prop :=
  ∀ s : State, coreTurn s →
    (s.phase = .hdrw → step s = (hdrWriteBody s.cfg s.popAct).outcome noResult) ∧
    (s.phase = .encLoop → step s = exec .encSymbol s.popAct) ∧
    (s.phase = .encTail → step s =
      match exec .encEndFinalPair s.popAct with
      | .next u => if u.phase = .encTail then exec .encEndTerminator u else .next u
      | .fault f => .fault f
      | .refused r => .refused r) ∧
    (s.phase = .decLoop → step s = exec .decPair s.popAct) ∧
    (s.phase = .decTail → step s = exec .decEnd s.popAct) ∧
    (s.phase = .idle ∨ s.phase = .fault → step s = .next s.popAct)

/-! ### Commands and the host -/

/-- R272 and R274: which commands are rejected, and that a rejection sets `cmd_rej` and changes nothing else; every
other command is accepted and clears `cmd_rej`. -/
def Obligations.CommandAcceptance : Prop :=
  ∀ (s : State) (c : BitVec 3),
    let rejected := s.busy = true ∨ (c = 6 ∨ c = 7) ∨ (s.phase = .fault ∧ (c = 1 ∨ c = 2 ∨ c = 3 ∨ c = 4))
    (rejected → exec (decodeCmd c) s = .next { s with cmdRej := true }) ∧
    (¬ rejected → ∃ t, exec (decodeCmd c) s = .next t ∧ t.cmdRej = false) ∧
    exec .reserved6 s = .next { s with cmdRej := true } ∧ exec .reserved7 s = .next { s with cmdRej := true }

/-- R273 and R275: NOP clears `cmd_rej` alone; CLEAR gives every piece of the block's state its reset value and leaves
the streams as they are. The cells of the two buffers become unset. (Log 17: `opResult` is the model's own.) -/
def Obligations.NopAndClearEffects : Prop :=
  ∀ s : State, s.busy = false →
    exec .nop s = .next { s with cmdRej := false } ∧
    exec .clear s = .next { s with
      phase := .idle, nextCode := s.cfg.startCode, curCode := s.cfg.emptyCode, prevCode := s.cfg.emptyCode, prevSym := 0
      symCur := 0, symLen := 0, symEnd := false, bitCur := 0, pairLen := 0, pairEnd := false
      done := false, cmdRej := false, hdrOk := false, cause := .none, faultInfo := 0, permIn := 0, permOut := 0
      totalSyms := 0, totalBits := 0, symBuf := [], pairBuf := [], child := [], wt := [(s.cfg.emptyCode.toNat, [])]
      opResult := .none }

/-- R199 and R229: ENC_INIT and DEC_INIT, each in full, and that ENCODE and DECODE in IDLE perform them. (DEC_INIT leaves
`cur_code`, `prev_code` and `prev_sym`, as R229 says; the table of R27 lists them as written: log 30. The two run alone in a
phase other than IDLE: log 31. The cells of the buffers stay: log 33.) -/
def Obligations.EncInitAndDecInit : Prop :=
  ∀ s : State,
    exec .encInit s = .next { s with
      child := [], nextCode := s.cfg.startCode, curCode := s.cfg.emptyCode, prevCode := s.cfg.emptyCode, prevSym := 0
      symCur := 0, symLen := 0, symEnd := false, bitCur := 0, pairLen := 0, pairEnd := false
      done := false, cmdRej := false, phase := .encLoop } ∧
    exec .decInit s = .next { s with
      wt := [(s.cfg.emptyCode.toNat, [])], nextCode := s.cfg.startCode
      symCur := 0, symLen := 0, symEnd := false, bitCur := 0, pairLen := 0, pairEnd := false
      done := false, cmdRej := false, phase := .decLoop } ∧
    (s.phase = .idle →
      (∃ t, exec .encode s = .next t ∧ exec .encInit s = .next t) ∧
      ∃ t, exec .decode s = .next t ∧ exec .decInit s = .next t)

/-- R252 and R253: HDR_WRITE is accepted in IDLE, and its step appends the six bytes of the header and completes; a fault
it takes is `IO_ERROR` of the sink. -/
def Obligations.HdrWriteAppendsHeader : Prop :=
  (∀ s : State, s.phase = .idle →
    exec .hdrWrite s = .next { s with done := false, cmdRej := false, phase := .hdrw }) ∧
  (∀ s : State, coreTurn s → s.phase = .hdrw → s.cfg.hdrOrder = .little → snkGood s.snk = true →
    ∃ p, p.data = s.snk.data ++
        [s.cfg.magic.extractLsb' 0 8, s.cfg.magic.extractLsb' 8 8, s.cfg.magic.extractLsb' 16 8,
          s.cfg.magic.extractLsb' 24 8, s.permIn.extractLsb' 0 8, s.permIn.extractLsb' 8 8] ∧
      snkGood p = true ∧ step s = .next { s.popAct with snk := p, done := true, phase := .idle }) ∧
  (∀ s t : State, coreTurn s → s.phase = .hdrw → step s = .next t → t.phase = .fault →
    t.cause = .ioError ∧ t.faultInfo = 1)

/-- The header record (R255, R256, either `HDR_ORDER`): a right magic sets `PERM_OUT`, `hdr_ok` and `done`; a wrong one
takes `INVALID_MAGIC` with the low 16 bits of the magic found, and leaves `PERM_OUT` and `hdr_ok`. (The record as an
instruction: log 22; in a phase other than HDRR: log 31; the information under a big-endian header: log 24.) -/
def Obligations.HeaderRecordEffect : Prop :=
  ∀ (s : State) (m : BitVec 32) (perm : BitVec 16), s.phase ≠ .fault →
    exec (.header m perm) s = .next (if m = s.cfg.magic
      then { s with permOut := perm, hdrOk := true, done := true, phase := .idle }
      else { s with cause := .invalidMagic, faultInfo := m.setWidth 16, phase := .fault })

/-- R255 and R258, with the decided `HDR_ORDER`: HDR_READ's acceptance, and its step on what the source holds. -/
def Obligations.HdrReadValidatesThenDelivers : Prop :=
  (∀ s : State, s.phase = .idle →
    exec .hdrRead s = .next { s with done := false, cmdRej := false, hdrOk := false, phase := .hdrr }) ∧
  ∀ s : State, coreTurn s → s.phase = .hdrr → s.cfg.hdrOrder = .little → srcGood s.src = true →
    let d := s.src.data.take 6
    ∃ p, p.data = s.src.data.drop 6 ∧ srcGood p = true ∧
      step s = .next (
        if 4 ≤ d.length ∧ d.take 4 ≠ leBytes 4 s.cfg.magic.toNat then
          { s.popAct with src := p, cause := .invalidMagic, faultInfo := BitVec.ofNat 16 (leValue (d.take 2)), phase := .fault }
        else if d.length < 6 then
          { s.popAct with src := p, cause := .underrun, faultInfo := 0, phase := .fault }
        else
          { s.popAct with src := p, permOut := BitVec.ofNat 16 (leValue (d.drop 4)), hdrOk := true, done := true, phase := .idle })

/-- R257: the command HDR_READ on a source that begins with `header(m)`, in either byte order, delivers m and takes six
bytes; and the bytes of the swapped values in the opposite order are the same six. -/
def Obligations.HeaderRoundTrip : Prop :=
  (∀ (s : State) (m : BitVec 16) (rest : List Byte), s.phase = .idle → s.host.acts = [.writeReg 0 2] →
    srcGood s.src = true → s.src.data = headerBytes s.cfg.hdrOrder s.cfg.magic m ++ rest →
    ∃ p, p.data = rest ∧ srcGood p = true ∧
      run 2 s = .next { s with
        src := p, host := { s.host with acts := [] }, permOut := m, hdrOk := true, done := true, cmdRej := false
        phase := .idle }) ∧
  ∀ (magic : BitVec 32) (m : BitVec 16), headerBytes .big (swap32 magic) (swap16 m) = headerBytes .little magic m

/-- R34: the fields of `STATUS`. -/
def Obligations.StatusLayout : Prop :=
  ∀ s : State,
    s.status.getLsbD 0 = s.busy ∧ s.status.getLsbD 1 = s.done ∧ s.status.getLsbD 2 = decide (s.phase = .fault) ∧
    s.status.getLsbD 3 = s.cmdRej ∧ s.status.getLsbD 4 = s.hdrOk ∧ s.status.extractLsb' 5 3 = s.cause.code ∧
    s.status.extractLsb' 8 3 = s.phase.code ∧ s.status.extractLsb' 11 5 = 0 ∧
    (s.busy = true ↔ s.phase ≠ .idle ∧ s.phase ≠ .fault)

/-- R32, R271 and R277: what the host's register reads return, and that they and its register writes change nothing of
the block but `PERM_IN` (which takes no write while busy). The value read is kept in `host.reads` (log 14), a value
written is cut to the register's width (log 25). -/
def Obligations.HostRegisterAccess : Prop :=
  (∀ (s : State) (n : Nat) (as : List HostAct), s.host.acts = .readReg n :: as →
    ∃ v, step s = .next { s with host := ⟨as, v :: s.host.reads⟩ } ∧
      (n = 0 ∨ 7 ≤ n → v = 0) ∧ (n = 1 → v = s.status.toNat) ∧ (n = 2 → v = s.permIn.toNat) ∧
      (n = 3 → v = s.permOut.toNat) ∧ (n = 4 → v = s.totalSyms) ∧ (n = 5 → v = s.totalBits) ∧
      (n = 6 → v = s.faultInfo.toNat)) ∧
  ∀ (s : State) (n v : Nat) (as : List HostAct), s.host.acts = .writeReg (n + 1) v :: as →
    step s = .next (if n + 1 = 2 ∧ s.busy = false
      then { s with permIn := BitVec.ofNat 16 v, host := { s.host with acts := as } }
      else { s with host := { s.host with acts := as } })

/-- R271 and R357: the host connects streams in IDLE and FAULT; while busy the model refuses it (log 16, the model's
choice). -/
def Obligations.HostConnectsStreams : Prop :=
  ∀ (s : State) (as : List HostAct),
    (∀ p, s.host.acts = .connectSrc p :: as →
      (s.busy = false → step s = .next { s with src := p, host := { s.host with acts := as } }) ∧
      (s.busy = true → step s = .refused .streamTouchedWhileBusy)) ∧
    (∀ p, s.host.acts = .connectSnk p :: as →
      (s.busy = false → step s = .next { s with snk := p, host := { s.host with acts := as } }) ∧
      (s.busy = true → step s = .refused .streamTouchedWhileBusy))

/-- R276 and R340: hardware reset, in every phase, and CLEAR leave every piece of the block's state at its reset value.
Where the block was not busy a reset leaves the streams; where it was, what the streams lost and gained is the reset
action's own (log 15, the model's choice for R341). -/
def Obligations.HardwareResetLikeClear : Prop :=
  ∀ (s : State) (taken : Nat) (sent : List Byte) (as : List HostAct), s.host.acts = .reset taken sent :: as →
    (∃ src snk, step s = .next (State.initial s.cfg src snk { s.host with acts := as }) ∧
      (s.busy = false → src = s.src ∧ snk = s.snk)) ∧
    (s.busy = false → exec .clear s = .next (State.initial s.cfg s.src s.snk s.host))

/-- R49: the values of the table, in the state of every instance and every world from which the block starts; CLEAR,
hardware reset and `State.reset` give such a state. (The two buffers have no value then: log 9.) -/
def Obligations.ResetValues : Prop :=
  (∀ (P : Params) (src : SrcPort) (snk : SnkPort) (host : HostPort),
    let s := State.initial P src snk host
    s.phase = .idle ∧ s.nextCode = P.startCode ∧ s.curCode = P.emptyCode ∧ s.prevCode = P.emptyCode ∧ s.prevSym = 0 ∧
    (s.symCur = 0 ∧ s.symLen = 0 ∧ s.bitCur = 0 ∧ s.pairLen = 0) ∧
    (s.symEnd = false ∧ s.pairEnd = false ∧ s.done = false ∧ s.cmdRej = false ∧ s.hdrOk = false) ∧
    (s.cause = .none ∧ s.faultInfo = 0 ∧ s.permIn = 0 ∧ s.permOut = 0 ∧ s.totalSyms = 0 ∧ s.totalBits = 0) ∧
    (∀ c b, Mem.read s.child (childIndex c b) = none) ∧ Mem.read s.wt P.emptyCode.toNat = some [] ∧
    (∀ c, c ≠ P.emptyCode.toNat → Mem.read s.wt c = none) ∧ s.status = 0) ∧
  (∃ src snk host, State.reset = State.initial Config.params src snk host) ∧
  (∀ s : State, s.busy = false → ∃ src snk host, exec .clear s = .next (State.initial s.cfg src snk host)) ∧
  ∀ (s : State) (taken : Nat) (sent : List Byte) (as : List HostAct), s.host.acts = .reset taken sent :: as →
    ∃ src snk host, step s = .next (State.initial s.cfg src snk host)

/-! ### Faults and whole-machine rules -/

/-- The codes of the causes (R300), and R320: an instruction that takes a fault writes a cause and the information that
belongs to it, and leaves `done`: `INVALID_MAGIC` by the header record alone, `IO_ERROR` with the port (never SRC where the
source answers without error, never SNK where the sink does), `UNDERRUN` in the body, `BAD_CODE` with a code that has no
word, `BAD_WIDTH` with the width the instruction gives the bit channel. (Log 24: the information of `INVALID_MAGIC` in a
big-endian instance. Log 35: `STOP_CODE` in a record or a WT_LOOKUP run alone.) -/
def Obligations.FaultEntryCauseAndInfo : Prop :=
  (Cause.none.code = 0 ∧ Cause.invalidMagic.code = 1 ∧ Cause.ioError.code = 2 ∧ Cause.underrun.code = 3 ∧
    Cause.badCode.code = 4 ∧ Cause.badWidth.code = 5) ∧
  ∀ (i : Instr) (s t : State), exec i s = .next t → s.phase ≠ .fault → t.phase = .fault →
    t.done = s.done ∧ t.cause ≠ .none ∧
    (t.cause = .invalidMagic → ∃ m perm, i = .header m perm ∧ m ≠ s.cfg.magic ∧ t.faultInfo = m.setWidth 16) ∧
    (t.cause = .ioError → (t.faultInfo = 0 ∨ t.faultInfo = 1) ∧
      (snkGood s.snk = true → t.faultInfo = 0) ∧ (srcGood s.src = true → t.faultInfo = 1)) ∧
    (t.cause = .underrun → t.faultInfo = 1) ∧
    (t.cause = .badCode → Mem.read s.wt t.faultInfo.toNat = none ∨ s.cfg.maxCode ≤ t.faultInfo.toNat) ∧
    (t.cause = .badWidth → ∃ w, channelWidth s i = some w ∧ (w < 1 ∨ 16 < w) ∧ t.faultInfo = BitVec.ofNat 16 w)

/-- R141: WRITE_BITS and READ_BITS with any width outside 1..16 take `BAD_WIDTH` and change nothing else; with a width in
1..16 they never do. -/
def Obligations.WidthOutsideRangeFaults : Prop :=
  ∀ (s : State) (v : BitVec 16) (w : Nat), s.phase ≠ .fault →
    (w < 1 ∨ 16 < w →
      exec (.writeBits v w) s = .next { s with cause := .badWidth, faultInfo := BitVec.ofNat 16 w, phase := .fault } ∧
      exec (.readBits w) s = .next { s with cause := .badWidth, faultInfo := BitVec.ofNat 16 w, phase := .fault }) ∧
    (1 ≤ w → w ≤ 16 → ∀ t, exec (.writeBits v w) s = .next t ∨ exec (.readBits w) s = .next t →
      t.phase = .fault → t.cause ≠ .badWidth)

/-- R31 and R325: a step from FAULT stays there with the same cause and information, and issues no transaction, unless the
host issues CLEAR (of a value written to `CMD` the low three bits count: log 25) or resets the block. -/
def Obligations.FaultLeftOnlyByClearOrReset : Prop :=
  ∀ s t : State, s.phase = .fault → step s = .next t →
    (t.phase = .fault ∧ t.cause = s.cause ∧ t.faultInfo = s.faultInfo ∧ (coreTurn s → t = s.popAct)) ∨
    (∃ v as, s.host.acts = .writeReg 0 v :: as ∧ BitVec.ofNat 3 v = 5#3) ∨
    ∃ taken sent as, s.host.acts = .reset taken sent :: as

/-- R28: the values of `phase` and exactly its transitions, those of the core's steps and those of the host's actions. -/
def Obligations.PhaseTransitions : Prop :=
  (Phase.idle.code = 0 ∧ Phase.hdrw.code = 1 ∧ Phase.hdrr.code = 2 ∧ Phase.encLoop.code = 3 ∧ Phase.encTail.code = 4 ∧
    Phase.decLoop.code = 5 ∧ Phase.decTail.code = 6 ∧ Phase.fault.code = 7) ∧
  ∀ s t : State, step s = .next t →
    (coreTurn s → coreMoves s.phase t.phase = true) ∧
    ∀ a as, s.host.acts = a :: as → a ≠ .run → hostMoves a s.phase t.phase = true

/-- R27, R30, R31, R35 to R43 read as a frame of every instruction: it leaves every part of the state that is not among
those it may write, the parameters and the host; and no step changes a parameter (R342). (DEC_INIT and DECODE leave the three
code registers, as R229 says; the table of R27 lists them as written: log 30. DEC_END writes `pair_end`, as R233 says; R30 does
not list it: log 32. A part that is a buffer stays whole, the cells outside the valid range included: log 33.) -/
def Obligations.EveryInstructionWritesOnlyItsParts : Prop :=
  (∀ (i : Instr) (s t : State), exec i s = .next t →
    t.cfg = s.cfg ∧ t.host = s.host ∧ ∀ p, p ∉ mayWrite i → samePart s t p) ∧
  ∀ s t : State, step s = .next t → t.cfg = s.cfg

/-! ### The byte channel -/

/-- R120 and R121: READ_BYTES returns the next n bytes of the source, or all there are, however the answers are split; an
`Error` as the next answer is `IO_ERROR` at once, an `Eof` ends it. (The result is kept in `opResult`: log 17. R120 gives
1 ≤ n ≤ max(BLOCK, HDR_BYTES); what n = 0 and an n above that bound do is the model's choice: log 29. Alone in FAULT: log 31.) -/
def Obligations.ReadBytesWhateverTheSplit : Prop :=
  ∀ (s : State) (n : Nat),
    (srcGood s.src = true → ∃ p, p.data = s.src.data.drop n ∧ srcGood p = true ∧
      exec (.readBytes n) s = .next { s with src := p, opResult := .bytes (s.src.data.take n) }) ∧
    (∀ p, 1 ≤ n → s.src.draw = (.error, p) → s.phase ≠ .fault →
      exec (.readBytes n) s = .next { s with src := p, cause := .ioError, faultInfo := 0, phase := .fault }) ∧
    (∀ p, 1 ≤ n → s.src.draw = (.eof, p) → exec (.readBytes n) s = .next { s with src := p, opResult := .bytes [] })

/-- R122 and R123: WRITE_BYTES appends all of its bytes in order, however the answers are split; an `Error` or an
`Accepted(0)` as the next answer is `IO_ERROR` with nothing more appended; no byte needs no transaction. (Alone in FAULT: log 31.) -/
def Obligations.WriteBytesWhateverTheSplit : Prop :=
  ∀ (s : State) (d : List Byte),
    (snkGood s.snk = true → ∃ p, p.data = s.snk.data ++ d ∧ snkGood p = true ∧
      exec (.writeBytes d) s = .next { s with snk := p }) ∧
    (∀ p a, 1 ≤ d.length → s.snk.draw = (a, p) → a = .error ∨ a = .accept 0 → s.phase ≠ .fault →
      exec (.writeBytes d) s = .next { s with snk := p, cause := .ioError, faultInfo := 1, phase := .fault }) ∧
    exec (.writeBytes []) s = .next s

/-- R124 and R146: SYM_FILL and PAIR_FILL take a block, or what is left, into their buffer from its first cell on, and
record a short fill; the buffer's other cells stay (log 33: the spec gives them any value). (Alone in FAULT: log 31.) -/
def Obligations.FillsTakeOneBlock : Prop :=
  ∀ s : State, srcGood s.src = true →
    let d := s.src.data.take s.cfg.block
    (∃ p m, p.data = s.src.data.drop s.cfg.block ∧ srcGood p = true ∧
      (∀ i, Mem.read m i = if i < d.length then d[i]? else Mem.read s.symBuf i) ∧
      exec .symFill s = .next { s with
        src := p, symBuf := m, symLen := d.length, symCur := 0
        symEnd := s.symEnd || decide (d.length < s.cfg.block) }) ∧
    ∃ p m, p.data = s.src.data.drop s.cfg.block ∧ srcGood p = true ∧
      (∀ i, Mem.read m i = if i < 8 * d.length then (d.flatMap byteBits)[i]? else Mem.read s.pairBuf i) ∧
      exec .pairFill s = .next { s with
        src := p, pairBuf := m, pairLen := d.length, bitCur := 0
        pairEnd := s.pairEnd || decide (d.length < s.cfg.block) }

/-- R125 and R126: READ_SYM with a symbol buffered; at the end of the block with the end seen; and at the end of the
block with a refill to do, which finds the source empty or delivers its next byte. (The cells beyond the fill stay: log 33.
Alone in FAULT: log 31.) -/
def Obligations.ReadSymDeliversNextByte : Prop :=
  ∀ s : State,
    (∀ b, s.symCur ≠ s.symLen → s.symCur < s.cfg.block → Mem.read s.symBuf s.symCur = some b →
      exec .readSym s = .next { s with
        symCur := s.symCur + 1, totalSyms := countUp s.cfg s.totalSyms 1, opResult := .symbol (some b) }) ∧
    (s.symCur = s.symLen → s.symEnd = true → exec .readSym s = .next { s with opResult := .symbol none }) ∧
    (s.symCur = s.symLen → s.symEnd = false → srcGood s.src = true →
      let d := s.src.data.take s.cfg.block
      ∃ p, p.data = s.src.data.drop s.cfg.block ∧ srcGood p = true ∧
        exec .readSym s = .next { s with
          src := p, symBuf := s.symBuf.writeList 0 d, symLen := d.length
          symEnd := decide (d.length < s.cfg.block)
          symCur := if d = [] then 0 else 1
          totalSyms := if d = [] then s.totalSyms else countUp s.cfg s.totalSyms 1
          opResult := .symbol d.head? })

/-- R127 to R130: WRITE_SYM buffers its symbol and counts it, and sends the block in the same operation when it is full;
FLUSH_SYMS sends what is buffered and empties the buffer. (The other cells, and those sent, stay as they are: log 33.
Alone in FAULT: log 31.) -/
def Obligations.WriteSymAndFlushSyms : Prop :=
  ∀ (s : State) (b : Byte),
    (s.symCur + 1 < s.cfg.block → exec (.writeSym b) s = .next { s with
      symBuf := s.symBuf.write s.symCur b, symCur := s.symCur + 1, totalSyms := countUp s.cfg s.totalSyms 1 }) ∧
    (∀ p, s.symCur + 1 = s.cfg.block → Mem.readList s.symBuf 0 s.symCur = some p → snkGood s.snk = true →
      ∃ q, q.data = s.snk.data ++ (p ++ [b]) ∧ snkGood q = true ∧
        exec (.writeSym b) s = .next { s with
          symBuf := s.symBuf.write s.symCur b, symCur := 0, totalSyms := countUp s.cfg s.totalSyms 1, snk := q }) ∧
    (s.symCur = 0 → exec .flushSyms s = .next s) ∧
    (∀ p, s.symCur ≤ s.cfg.block → Mem.readList s.symBuf 0 s.symCur = some p → snkGood s.snk = true →
      ∃ q, q.data = s.snk.data ++ p ∧ snkGood q = true ∧ exec .flushSyms s = .next { s with symCur := 0, snk := q })

/-- R131: WRITE_WORD puts the bytes of its word, first byte first, behind all the symbols given so far (those in the sink
and those buffered), and counts each. (Alone in FAULT: log 31.) -/
def Obligations.WriteWordAppends : Prop :=
  ∀ (s : State) (xs wd : List Byte), SymsOut s xs → snkGood s.snk = true →
    ∃ t, exec (.writeWord wd) s = .next t ∧ SymsOut t (xs ++ wd) ∧ snkGood t.snk = true ∧
      t = { s with symBuf := t.symBuf, symCur := t.symCur, snk := t.snk,
                   totalSyms := countUp s.cfg s.totalSyms wd.length }

/-! ### The bit channel -/

/-- R142, R143 and R145: WRITE_BITS puts the low w bits of its value behind all the bits given so far, through block
boundaries, and counts w; bits of the value at or above w make no difference. (Alone in FAULT:
log 31.) -/
def Obligations.WriteBitsAppends : Prop :=
  ∀ (s : State) (xs : List Bool) (v : BitVec 16) (w : Nat), 1 ≤ w → w ≤ 16 → BitsOut s xs → snkGood s.snk = true →
    (∃ t, exec (.writeBits v w) s = .next t ∧ BitsOut t (xs ++ valueBits s.cfg.valOrder w v.toNat) ∧
      snkGood t.snk = true ∧
      t = { s with pairBuf := t.pairBuf, bitCur := t.bitCur, snk := t.snk,
                   totalBits := countUp s.cfg s.totalBits w }) ∧
    exec (.writeBits v w) s = exec (.writeBits (BitVec.ofNat 16 (v.toNat % 2 ^ w)) w) s

/-- R144: FLUSH_BITS brings all bits given so far to the sink, zero bits filling the last byte (whatever it held), and
counts none of the padding. (Alone in FAULT: log 31.) -/
def Obligations.FlushBitsPadsWithZeros : Prop :=
  ∀ (s : State) (xs : List Bool), BitsOut s xs → snkGood s.snk = true →
    ∃ t k, exec .flushBits s = .next t ∧ k < 8 ∧ t.snk.data.flatMap byteBits = xs ++ List.replicate k false ∧
      snkGood t.snk = true ∧ t = { s with pairBuf := t.pairBuf, bitCur := 0, snk := t.snk }

/-- R147 and R148: READ_BITS delivers the value whose bits come next in the stream, through block boundaries, and counts
w; where it needs a bit at or beyond the bound it takes `UNDERRUN` in the body. (Delivery in FAULT, alone: log 31.) -/
def Obligations.ReadBitsUpToTheBound : Prop :=
  ∀ (s : State) (w : Nat), srcGood s.src = true →
    (∀ (rest : List Bool) (v : Nat), 1 ≤ w → w ≤ 16 → v < 2 ^ w →
      BitsIn s (valueBits s.cfg.valOrder w v ++ rest) →
      ∃ t, exec (.readBits w) s = .next t ∧ BitsIn t rest ∧ srcGood t.src = true ∧
        t = { s with pairBuf := t.pairBuf, bitCur := t.bitCur, pairLen := t.pairLen, pairEnd := t.pairEnd, src := t.src,
                     totalBits := countUp s.cfg s.totalBits w, opResult := .value (BitVec.ofNat 16 v) }) ∧
    ∀ xs : List Bool, w ≤ 16 → xs.length < w → BitsIn s xs → s.phase ≠ .fault →
      ∃ t, exec (.readBits w) s = .next t ∧
        t = { s with pairBuf := t.pairBuf, bitCur := t.bitCur, pairLen := t.pairLen, pairEnd := t.pairEnd, src := t.src,
                     cause := .underrun, faultInfo := 1, phase := .fault }

/-- R149 to R151: WRITE_PAIR puts the code field, then the eight bits of the symbol, behind the bits given so far;
READ_PAIR delivers both fields of the pair that comes next. Each counts `w + 8`. (Alone in FAULT: log 31.) -/
def Obligations.PairsThroughTheChannel : Prop :=
  ∀ (s : State) (c : Code) (sym : Byte) (w : Nat), 1 ≤ w → w ≤ 16 →
    (∀ xs, BitsOut s xs → snkGood s.snk = true →
      ∃ t, exec (.writePair c sym w) s = .next t ∧
        BitsOut t (xs ++ (valueBits s.cfg.valOrder w c.toNat ++ valueBits s.cfg.valOrder 8 sym.toNat)) ∧
        snkGood t.snk = true ∧
        t = { s with pairBuf := t.pairBuf, bitCur := t.bitCur, snk := t.snk,
                     totalBits := countUp s.cfg s.totalBits (w + 8) }) ∧
    (∀ rest, c.toNat < 2 ^ w →
      BitsIn s (valueBits s.cfg.valOrder w c.toNat ++ valueBits s.cfg.valOrder 8 sym.toNat ++ rest) →
      srcGood s.src = true →
      ∃ t, exec (.readPair w) s = .next t ∧ BitsIn t rest ∧ srcGood t.src = true ∧
        t = { s with pairBuf := t.pairBuf, bitCur := t.bitCur, pairLen := t.pairLen, pairEnd := t.pairEnd, src := t.src,
                     totalBits := countUp s.cfg s.totalBits (w + 8), opResult := .pair c sym })

/-- R152: what a sequence of WRITE_BITS and a FLUSH_BITS appended to an empty sink, a sequence of READ_BITS of the same
widths gives back, on any other instance of the same `VAL_ORDER`, whatever the block sizes and the splits; the bits left
unread are zero and fewer than eight. The read of each value is the last instruction of a run of reads, whose result is
kept. (Alone in FAULT: log 31.) -/
def Obligations.BitChannelSymmetry : Prop :=
  ∀ (vs : List (BitVec 16 × Nat)) (s r : State),
    (∀ x ∈ vs, 1 ≤ x.2 ∧ x.2 ≤ 16 ∧ x.1.toNat < 2 ^ x.2) → r.cfg.valOrder = s.cfg.valOrder →
    s.bitCur = 0 → s.snk.data = [] → snkGood s.snk = true →
    r.bitCur = 0 → r.pairLen = 0 → r.pairEnd = false → srcGood r.src = true →
    ∃ t, runAll (vs.map (fun x => .writeBits x.1 x.2) ++ [.flushBits]) s = .next t ∧
      (r.src.data = t.snk.data →
        (∀ us x ws, vs = us ++ x :: ws →
          ∃ u, runAll (us.map (fun y => .readBits y.2) ++ [.readBits x.2]) r = .next u ∧ u.opResult = .value x.1) ∧
        ∃ u k, runAll (vs.map (fun y => .readBits y.2)) r = .next u ∧ k < 8 ∧ BitsIn u (List.replicate k false) ∧
          8 * t.snk.data.length = (vs.map Prod.snd).sum + k)

/-- Which cells of the two buffers an instruction sets (R127, R131, R142 to R144, R148, R200, R202, R203, R230): those at
the cursor and after it, as many as it stores, in a circle, whatever faults on the way; every other cell reads as before. A
read sets none unless it refills. (No other instruction but the fills and CLEAR sets a cell. That a cell outside the valid range
keeps its value is the model's choice, where the spec gives it any value: log 33. A pair whose kind is not that of its code: logs 26 and 35.) -/
def Obligations.BufferCellsElsewhereStay : Prop :=
  ∀ s t : State,
    let pairsStay := fun n => ∀ p, (∀ i, i < n → p ≠ (s.bitCur + i) % (8 * s.cfg.block)) →
      Mem.read t.pairBuf p = Mem.read s.pairBuf p
    let symsStay := fun n => ∀ p, (∀ i, i < n → p ≠ (s.symCur + i) % s.cfg.block) → Mem.read t.symBuf p = Mem.read s.symBuf p
    (∀ v w, exec (.writeBits v w) s = .next t → pairsStay w) ∧
    (∀ c b w, exec (.writePair c b w) s = .next t → pairsStay (w + 8)) ∧
    (exec .flushBits s = .next t → ∀ p, p < s.bitCur ∨ 8 * ((s.bitCur + 7) / 8) ≤ p →
      Mem.read t.pairBuf p = Mem.read s.pairBuf p) ∧
    (∀ w, exec (.readBits w) s = .next t → s.bitCur + w ≤ 8 * s.pairLen → t.pairBuf = s.pairBuf) ∧
    (∀ w, exec (.readPair w) s = .next t → s.bitCur + (w + 8) ≤ 8 * s.pairLen → t.pairBuf = s.pairBuf) ∧
    (exec .decPair s = .next t → s.bitCur + (s.width + 8) ≤ 8 * s.pairLen → t.pairBuf = s.pairBuf) ∧
    (exec .encSymbol s = .next t → pairsStay (s.width + 8) ∧ (s.symCur ≠ s.symLen → t.symBuf = s.symBuf)) ∧
    (exec .encEndFinalPair s = .next t → pairsStay (s.width + 8)) ∧
    (exec .encEndTerminator s = .next t → pairsStay (s.width + 8 + 7)) ∧
    (exec .readSym s = .next t → s.symCur ≠ s.symLen → t.symBuf = s.symBuf) ∧
    (∀ b, exec (.writeSym b) s = .next t → symsStay 1) ∧
    (∀ wd, exec (.writeWord wd) s = .next t → symsStay wd.length) ∧
    ∀ w c b wd, Mem.read s.wt c.toNat = some wd →
      exec (.pairReference w c b) s = .next t ∨ exec (.pairIllegal w c b) s = .next t ∨
        (c = s.cfg.emptyCode ∧ exec (.pairLiteral w b) s = .next t) → symsStay (wd.length + 1)

/-! ### The width and reset protocol -/

/-- R170: `bitlen` is the unique width with `2^(w-1) <= v < 2^w`, with the rule's own values; BITLEN returns it
(in `opResult`: log 17; at 0: log 20). -/
def Obligations.BitlenIsMinimalWidth : Prop :=
  (∀ v, 1 ≤ v → 1 ≤ bitlen v ∧ 2 ^ (bitlen v - 1) ≤ v ∧ v < 2 ^ bitlen v ∧
    (∀ w, 1 ≤ w → 2 ^ (w - 1) ≤ v → v < 2 ^ w → w = bitlen v) ∧ bitlen v = Nat.log 2 v + 1) ∧
  (bitlen 1 = 1 ∧ bitlen 2 = 2 ∧ bitlen 3 = 2 ∧ bitlen 4 = 3 ∧ bitlen 7 = 3 ∧ bitlen 8 = 4 ∧ bitlen 255 = 8 ∧
    bitlen 256 = 9 ∧ bitlen 32767 = 15 ∧ bitlen 32768 = 16 ∧ bitlen 65534 = 16 ∧ bitlen 65535 = 16 ∧ bitlen 65536 = 17) ∧
  ∀ (s : State) (v : Nat), exec (.bitlen v) s = .next { s with opResult := .width (bitlen v) }

/-- R172, R174 and R175: WIDTH is `bitlen(next_code)`; ADVANCE counts up, or at the ceiling resets the dictionary of the
running loop and restarts the counter, and returns which (in `opResult`: log 17); DICT_RESET alone. (From a counter outside
the range of R21 a sum of 65536 is stored as 0, the model's choice: log 34.) -/
def Obligations.WidthAdvanceDictReset : Prop :=
  ∀ s : State,
    exec .width s = .next { s with opResult := .width (bitlen s.nextCode.toNat) } ∧
    (s.nextCode.toNat + 1 ≠ s.cfg.maxCode →
      exec .advance s = .next { s with nextCode := s.nextCode + 1, opResult := .flag false }) ∧
    (s.nextCode.toNat + 1 = s.cfg.maxCode →
      (s.phase = .encLoop ∨ s.phase = .encTail →
        exec .advance s = .next { s with child := [], nextCode := s.cfg.startCode, opResult := .flag true }) ∧
      (s.phase = .decLoop →
        exec .advance s = .next { s with
          wt := [(s.cfg.emptyCode.toNat, [])], nextCode := s.cfg.startCode, opResult := .flag true })) ∧
    (s.phase = .encLoop ∨ s.phase = .encTail → exec .dictReset s = .next { s with child := [] }) ∧
    (s.phase = .decLoop → exec .dictReset s = .next { s with wt := [(s.cfg.emptyCode.toNat, [])] })

/-- R173 and R178: with the counter in its range ADVANCE keeps it there; the width stays in 1..16; unless ADVANCE returned 1
the counter rises and the width does not fall, and where it did the width is that of `START_CODE`. (The result is in
`opResult`: log 17.) -/
def Obligations.WidthMonotoneWithinEpoch : Prop :=
  ∀ s t : State, s.cfg.startCode.toNat ≤ s.nextCode.toNat → s.nextCode.toNat < s.cfg.maxCode →
    exec .advance s = .next t →
    (s.cfg.startCode.toNat ≤ t.nextCode.toNat ∧ t.nextCode.toNat < s.cfg.maxCode) ∧
    (bitlen s.cfg.startCode.toNat ≤ t.width ∧ t.width ≤ bitlen (s.cfg.maxCode - 1) ∧ 1 ≤ t.width ∧ t.width ≤ 16) ∧
    (t.opResult = .flag false → s.nextCode.toNat < t.nextCode.toNat ∧ s.width ≤ t.width) ∧
    (t.opResult = .flag true → t.width = bitlen s.cfg.startCode.toNat)

/-! ### The encoder -/

/-- R191 to R193: TRIE_STEP reads an entry (into `opResult`: log 17); TRIE_INSERT sets it and no other; TRIE_RESET clears
all. (A code or node that the encoder would not give: log 29.) -/
def Obligations.TrieOperations : Prop :=
  ∀ (s : State) (c : Code) (b : Byte) (d : Code), c.toNat < s.cfg.maxCode →
    exec (.trieStep c b) s = .next { s with opResult := .child (Mem.read s.child (childIndex c b)) } ∧
    (∃ m, exec (.trieInsert c b d) s = .next { s with child := m } ∧
      ∀ c' b', Mem.read m (childIndex c' b') =
        if c' = c ∧ b' = b then some d else Mem.read s.child (childIndex c' b')) ∧
    ∃ m, exec .trieReset s = .next { s with child := m } ∧ ∀ c' b', Mem.read m (childIndex c' b') = none

/-- R198 and R200, a hit: the symbol is consumed, the match pointer moves to the child, nothing is emitted. (Alone in a
phase other than ENC_LOOP, FAULT included: log 31.) -/
def Obligations.EncSymbolHit : Prop :=
  ∀ (s : State) (b : Byte) (rest : List Byte) (d : Code), s.curCode.toNat < s.cfg.maxCode →
    SymsIn s (b :: rest) → srcGood s.src = true → Mem.read s.child (childIndex s.curCode b) = some d →
    ∃ t, exec .encSymbol s = .next t ∧ SymsIn t rest ∧ srcGood t.src = true ∧
      t = { s with symBuf := t.symBuf, symCur := t.symCur, symLen := t.symLen, symEnd := t.symEnd, src := t.src,
                   totalSyms := countUp s.cfg s.totalSyms 1, prevCode := s.curCode, curCode := d, prevSym := b }

/-- R200 and R201, a miss: the pair of the current match and the symbol goes out at the width in force, the node is
inserted with the counter's code, the pointer returns to the root, the counter advances. (From a counter
outside the range of R21: log 34.) -/
def Obligations.EncSymbolMiss : Prop :=
  ∀ (s : State) (b : Byte) (rest : List Byte) (xs : List Bool), s.phase = .encLoop →
    s.curCode.toNat < s.cfg.maxCode → 1 ≤ s.nextCode.toNat →
    SymsIn s (b :: rest) → srcGood s.src = true → Mem.read s.child (childIndex s.curCode b) = none →
    BitsOut s xs → snkGood s.snk = true →
    ∃ t, exec .encSymbol s = .next t ∧ SymsIn t rest ∧ srcGood t.src = true ∧
      BitsOut t (xs ++ encodePair s.cfg (bitlen s.nextCode.toNat) s.curCode b) ∧ snkGood t.snk = true ∧
      t = { s with symBuf := t.symBuf, symCur := t.symCur, symLen := t.symLen, symEnd := t.symEnd, src := t.src,
                   pairBuf := t.pairBuf, bitCur := t.bitCur, snk := t.snk, totalSyms := countUp s.cfg s.totalSyms 1,
                   totalBits := countUp s.cfg s.totalBits (bitlen s.nextCode.toNat + 8),
                   child := if s.nextCode.toNat + 1 = s.cfg.maxCode then []
                     else s.child.write (childIndex s.curCode b) s.nextCode,
                   nextCode := nextCounter s.cfg s.nextCode, curCode := s.cfg.emptyCode, prevSym := b }

/-- R200 at the end of the input: the loop is left, nothing else is done. (Alone in a phase other than ENC_LOOP: log 31.) -/
def Obligations.EncSymbolEndOfInput : Prop :=
  ∀ s : State, SymsIn s [] → srcGood s.src = true →
    ∃ t, exec .encSymbol s = .next t ∧ SymsIn t [] ∧ srcGood t.src = true ∧
      t = { s with symBuf := t.symBuf, symCur := t.symCur, symLen := t.symLen, symEnd := t.symEnd, src := t.src,
                   phase := .encTail }

/-- R202: with a match pending the pair of its parent and the last symbol goes out, no node is inserted, the counter
advances; with none nothing is done. (With none pending, alone in a phase other than ENC_TAIL: log 31; from a counter outside the
range of R21: log 34.) -/
def Obligations.FinalPairOfPendingMatch : Prop :=
  ∀ s : State,
    (s.curCode = s.cfg.emptyCode → exec .encEndFinalPair s = .next s) ∧
    (∀ xs, s.phase = .encTail → s.cfg.termWrap = .reset → s.curCode ≠ s.cfg.emptyCode → 1 ≤ s.nextCode.toNat →
      BitsOut s xs → snkGood s.snk = true →
      ∃ t, exec .encEndFinalPair s = .next t ∧
        BitsOut t (xs ++ encodePair s.cfg (bitlen s.nextCode.toNat) s.prevCode s.prevSym) ∧ snkGood t.snk = true ∧
        t = { s with pairBuf := t.pairBuf, bitCur := t.bitCur, snk := t.snk,
                     totalBits := countUp s.cfg s.totalBits (bitlen s.nextCode.toNat + 8),
                     child := if s.nextCode.toNat + 1 = s.cfg.maxCode then [] else s.child,
                     nextCode := nextCounter s.cfg s.nextCode, curCode := s.cfg.emptyCode })

/-- R203: the stop pair at the width in force, the flush, and completion with the trie destroyed. (Alone in a phase other
than ENC_TAIL: log 31.) -/
def Obligations.TerminatorCompletesEncode : Prop :=
  ∀ (s : State) (xs : List Bool), 1 ≤ s.nextCode.toNat → BitsOut s xs → snkGood s.snk = true →
    ∃ t k, exec .encEndTerminator s = .next t ∧ k < 8 ∧
      t.snk.data.flatMap byteBits =
        xs ++ encodePair s.cfg (bitlen s.nextCode.toNat) s.cfg.stopCode 0 ++ List.replicate k false ∧
      snkGood t.snk = true ∧
      t = { s with pairBuf := t.pairBuf, bitCur := 0, snk := t.snk,
                   totalBits := countUp s.cfg s.totalBits (bitlen s.nextCode.toNat + 8),
                   child := [], nextCode := s.cfg.startCode, done := true, phase := .idle }

/-- R204: under `TERM_WRAP = MODULO` the final pair of a pending match goes out as under `RESET`, and the counter after it is
the next one modulo `MAX_CODE`, with the trie left; where that is 0, the step of ENC_TAIL takes `BAD_WIDTH(0)`. -/
def Obligations.ModuloAtBoundaryFaults : Prop :=
  ∀ (s : State) (xs : List Bool), s.cfg.termWrap = .modulo → s.phase = .encTail → s.curCode ≠ s.cfg.emptyCode →
    1 ≤ s.nextCode.toNat → s.nextCode.toNat < s.cfg.maxCode → BitsOut s xs → snkGood s.snk = true →
    (∃ t, exec .encEndFinalPair s = .next t ∧
      BitsOut t (xs ++ encodePair s.cfg (bitlen s.nextCode.toNat) s.prevCode s.prevSym) ∧ snkGood t.snk = true ∧
      t = { s with pairBuf := t.pairBuf, bitCur := t.bitCur, snk := t.snk,
                   totalBits := countUp s.cfg s.totalBits (bitlen s.nextCode.toNat + 8),
                   nextCode := if s.nextCode.toNat + 1 = s.cfg.maxCode then 0 else s.nextCode + 1,
                   curCode := s.cfg.emptyCode }) ∧
    (s.nextCode.toNat + 1 = s.cfg.maxCode → coreTurn s →
      ∃ t, step s = .next t ∧ t.phase = .fault ∧ t.cause = .badWidth ∧ t.faultInfo = 0 ∧ t.nextCode = 0)

/-! ### The decoder -/

/-- R221 to R223: WT_LOOKUP returns the word of a slot (in `opResult`: log 17), or takes `BAD_CODE`; WT_APPEND sets a slot
and no other (a slot other than the counter's: log 29); WT_RESET leaves the empty word of `EMPTY_CODE` alone (log 27). (`STOP_CODE`
given to WT_LOOKUP: log 35.) -/
def Obligations.WordTableOperations : Prop :=
  ∀ (s : State) (c : Code),
    (∀ wd, c.toNat < s.cfg.maxCode → Mem.read s.wt c.toNat = some wd →
      exec (.wtLookup c) s = .next { s with opResult := .word wd }) ∧
    (s.phase ≠ .fault → s.cfg.maxCode ≤ c.toNat ∨ Mem.read s.wt c.toNat = none →
      exec (.wtLookup c) s = .next { s with cause := .badCode, faultInfo := c, phase := .fault }) ∧
    (∀ wd b, c.toNat < s.cfg.maxCode → ∃ m, exec (.wtAppend c wd b) s = .next { s with wt := m } ∧
      ∀ k, Mem.read m k = if k = c.toNat then some (wd ++ [b]) else Mem.read s.wt k) ∧
    ∃ m, exec .wtReset s = .next { s with wt := m } ∧
      ∀ k, Mem.read m k = if k = s.cfg.emptyCode.toNat then some [] else none

/-- R98, R230, R232 and R234, the four kinds of pair once read: the stop pair leaves the loop and does nothing else; a
literal or reference pair puts the word of its code and the symbol behind the output, keeps the new word in the counter's
slot and advances; a code without a word takes `BAD_CODE`. (The stop pair and the illegal pair in a phase other than DEC_LOOP,
and a width field that is not the width in force: log 31. A record whose kind is not that of its code, `STOP_CODE`
included: log 35; an illegal pair whose code has a word: log 26.) -/
def Obligations.PairKindsEffects : Prop :=
  ∀ (s : State) (w : Nat) (c : Code) (sym : Byte),
    exec (.pairStop w sym) s = .next { s with phase := .decTail } ∧
    (∀ wd xs, s.phase = .decLoop → s.nextCode.toNat < s.cfg.maxCode → c.toNat < s.cfg.maxCode →
      Mem.read s.wt c.toNat = some wd → SymsOut s xs → snkGood s.snk = true →
      ∃ t, exec (.pairReference w c sym) s = .next t ∧
        (c = s.cfg.emptyCode → exec (.pairLiteral w sym) s = .next t) ∧
        SymsOut t (xs ++ (wd ++ [sym])) ∧ snkGood t.snk = true ∧
        t = { s with symBuf := t.symBuf, symCur := t.symCur, snk := t.snk,
                     totalSyms := countUp s.cfg s.totalSyms (wd.length + 1),
                     wt := if s.nextCode.toNat + 1 = s.cfg.maxCode then [(s.cfg.emptyCode.toNat, [])]
                       else s.wt.write s.nextCode.toNat (wd ++ [sym]),
                     nextCode := nextCounter s.cfg s.nextCode }) ∧
    (s.phase ≠ .fault → s.cfg.maxCode ≤ c.toNat ∨ Mem.read s.wt c.toNat = none →
      exec (.pairIllegal w c sym) s = .next { s with cause := .badCode, faultInfo := c, phase := .fault })

/-- R230, R232 and R234: DEC_PAIR on the pair that comes next in the stream. The stop pair, whatever its symbol, leaves
the loop; a pair whose code has a word does what that pair does; any other takes `BAD_CODE`. -/
def Obligations.DecPairRunsNextPair : Prop :=
  ∀ (s : State) (c : Code) (sym : Byte) (rest : List Bool), s.phase = .decLoop → 1 ≤ s.nextCode.toNat →
    c.toNat < 2 ^ bitlen s.nextCode.toNat → srcGood s.src = true →
    BitsIn s (encodePair s.cfg (bitlen s.nextCode.toNat) c sym ++ rest) →
    ∃ t, BitsIn t rest ∧ srcGood t.src = true ∧
      t = { s with pairBuf := t.pairBuf, bitCur := t.bitCur, pairLen := t.pairLen, pairEnd := t.pairEnd, src := t.src,
                   totalBits := countUp s.cfg s.totalBits (bitlen s.nextCode.toNat + 8) } ∧
      (c = s.cfg.stopCode → exec .decPair s = .next { t with phase := .decTail }) ∧
      (∀ wd xs, c ≠ s.cfg.stopCode → s.nextCode.toNat < s.cfg.maxCode → c.toNat < s.cfg.maxCode →
        Mem.read s.wt c.toNat = some wd → SymsOut s xs → snkGood s.snk = true →
        ∃ u, exec .decPair s = .next u ∧ SymsOut u (xs ++ (wd ++ [sym])) ∧
          u = { t with symBuf := u.symBuf, symCur := u.symCur, snk := u.snk,
                       totalSyms := countUp s.cfg s.totalSyms (wd.length + 1),
                       wt := if s.nextCode.toNat + 1 = s.cfg.maxCode then [(s.cfg.emptyCode.toNat, [])]
                         else s.wt.write s.nextCode.toNat (wd ++ [sym]),
                       nextCode := nextCounter s.cfg s.nextCode }) ∧
      (c ≠ s.cfg.stopCode → s.cfg.maxCode ≤ c.toNat ∨ Mem.read s.wt c.toNat = none →
        exec .decPair s = .next { t with cause := .badCode, faultInfo := c, phase := .fault })

/-- R233: DEC_END sends the symbols still buffered, destroys the table, drops the unread bits and completes. (Alone in a
phase other than DEC_TAIL: log 31; `pair_end`, which R30 does not list for it: log 32; the cells of the buffers stay: log 33.) -/
def Obligations.DecEndCompletesDecode : Prop :=
  ∀ (s : State) (xs : List Byte), SymsOut s xs → snkGood s.snk = true →
    ∃ p, p.data = xs ∧ snkGood p = true ∧
      exec .decEnd s = .next { s with
        snk := p, symCur := 0, wt := [(s.cfg.emptyCode.toNat, [])], nextCode := s.cfg.startCode
        bitCur := 0, pairLen := 0, pairEnd := false, done := true, phase := .idle }

/-! ### Invariants and runs -/

/-- The invariant of the block (R21, R25, R26, R30, R31, R37, R38, R44, R45, R50) holds after reset, of every instance and in every
world. -/
def Obligations.InvariantHoldsAtReset : Prop :=
  Safety.Inv State.reset ∧
  ∀ (P : Params) (src : SrcPort) (snk : SnkPort) (host : HostPort), Safety.Inv (State.initial P src snk host)

/-- Every step keeps the invariant of the block, whatever the host and the environments do. -/
def Obligations.StepKeepsInvariant : Prop :=
  ∀ s t : State, Safety.Inv s → step s = .next t → Safety.Inv t

/-- R50 and R74: where the invariant holds, no step reads a buffer cell that was never set and none forms an index outside
a memory: a step stops only where a transaction is not answered, and is refused only where the host touches a stream
while the block is busy. -/
def Obligations.StepStopsOnlyUnanswered : Prop :=
  ∀ s : State, Safety.Inv s →
    (∀ f, step s = .fault f → f = .noAnswer) ∧
    ∀ r, step s = .refused r → s.busy = true ∧ ∃ as, (∃ p, s.host.acts = .connectSrc p :: as) ∨ ∃ p, s.host.acts = .connectSnk p :: as

/-- R365: where the invariant holds and the environments answer, the core's step leads to a next state. -/
def Obligations.AnsweredStepsGoOn : Prop :=
  ∀ s : State, Safety.Inv s → coreTurn s → srcGood s.src = true → snkGood s.snk = true → ∃ t, step s = .next t

/-- R92, R205 and R207: ENCODE from IDLE, on a source of N bytes and environments that answer, takes its command, N + 1
ENC_SYMBOL steps and one ENC_END step. It appends a body: the bits of some pairs, each at the width of its counter, that
stand for exactly the source, then the stop pair with symbol 0, then fewer than eight zero bits; and it leaves the
registers as R207 says. -/
def Obligations.EncodeWritesBodyOfSource : Prop :=
  ∀ s : State, s.phase = .idle → s.cfg.termWrap = .reset → s.host.acts = [.writeReg 0 3] →
    srcGood s.src = true → snkGood s.snk = true →
    ∃ t ps w k, run (s.src.data.length + 3) s = .next t ∧
      Words.run s.cfg ps = some w ∧ w.out = s.src.data ∧ k < 8 ∧
      t.snk.data.flatMap byteBits = s.snk.data.flatMap byteBits ++ pairsBits s.cfg s.cfg.startCode ps ++
        encodePair s.cfg (bitlen w.next.toNat) s.cfg.stopCode 0 ++ List.replicate k false ∧
      t.phase = .idle ∧ t.done = true ∧ t.src.data = [] ∧
      t.totalSyms = countUp s.cfg s.totalSyms s.src.data.length ∧
      t.totalBits = countUp s.cfg s.totalBits
        ((pairsBits s.cfg s.cfg.startCode ps).length + (bitlen w.next.toNat + 8)) ∧
      t.child = [] ∧ t.nextCode = s.cfg.startCode ∧ t.curCode = s.cfg.emptyCode ∧
      t.bitCur = 0 ∧ t.pairLen = 0 ∧ t.pairEnd = false ∧ t.symEnd = true ∧ t.symCur = t.symLen ∧
      t.symLen = s.src.data.length % s.cfg.block

/-- R235 to R238: DECODE from IDLE, on a source that begins with the bits of pairs that stand for some output, a stop pair
with any symbol, and anything after it, takes its command, one step per pair (the stop pair included) and DEC_END; it
appends that output, and counts the bits up to the stop pair and the bytes. -/
def Obligations.DecodeWritesWordsOfBody : Prop :=
  ∀ (s : State) (ps : List (Code × Byte)) (w : Words) (sym : Byte) (rest : List Bool),
    s.phase = .idle → s.host.acts = [.writeReg 0 4] → srcGood s.src = true → snkGood s.snk = true →
    Words.run s.cfg ps = some w →
    s.src.data.flatMap byteBits = pairsBits s.cfg s.cfg.startCode ps ++
      encodePair s.cfg (bitlen w.next.toNat) s.cfg.stopCode sym ++ rest →
    ∃ t, run (ps.length + 3) s = .next t ∧ t.snk.data = s.snk.data ++ w.out ∧ t.phase = .idle ∧ t.done = true ∧
      t.totalSyms = countUp s.cfg s.totalSyms w.out.length ∧
      t.totalBits = countUp s.cfg s.totalBits
        ((pairsBits s.cfg s.cfg.startCode ps).length + (bitlen w.next.toNat + 8))

/-- R235: DECODE from IDLE ends on every finite source, whatever its content, where the environments answer: it
completes, or takes `UNDERRUN` or `BAD_CODE`; no more steps than the source has bits, and three. That the host's write of
the command is used up says that the command ran. -/
def Obligations.DecodeEndsOnEverySource : Prop :=
  ∀ s : State, s.phase = .idle → s.host.acts = [.writeReg 0 4] → srcGood s.src = true → snkGood s.snk = true →
    ∃ n t, n ≤ 8 * s.src.data.length + 3 ∧ run n s = .next t ∧ t.host.acts = [] ∧
      (t.phase = .idle ∧ t.done = true ∨ t.phase = .fault ∧ (t.cause = .underrun ∨ t.cause = .badCode))

/-- R239: the round trip. An instance compresses S with permission bits m (`PERM_IN`, HDR_WRITE, ENCODE) into an empty
sink; another with the same parameters but any `BLOCK` and `CTR_BITS` decompresses what that sink holds (HDR_READ, DECODE) into an
empty sink. Both do all of it and complete; the second sink holds S and `PERM_OUT` is m. -/
def Obligations.RoundTrip : Prop :=
  ∀ (P P' : Params) (S : List Byte) (m : BitVec 16)
    (plan plan' : List SrcAns) (rest rest' : SrcAns) (out out' : SnkPort),
    coupled P P' → P.termWrap = .reset →
    srcGood ⟨S, plan, rest⟩ = true → snkGood out = true → out.data = [] →
    deliversData rest' = true → plan'.all deliversData = true → snkGood out' = true → out'.data = [] →
    ∃ n t, run n (State.initial P ⟨S, plan, rest⟩ out
        ⟨[.writeReg 2 m.toNat, .writeReg 0 1, .run, .writeReg 0 3], []⟩) = .next t ∧
      t.host.acts = [] ∧ t.phase = .idle ∧ t.done = true ∧ t.cause = .none ∧
      ∃ n' u, run n' (State.initial P' ⟨t.snk.data, plan', rest'⟩ out' ⟨[.writeReg 0 2, .run, .writeReg 0 4], []⟩) = .next u ∧
        u.host.acts = [] ∧ u.phase = .idle ∧ u.done = true ∧ u.cause = .none ∧ u.hdrOk = true ∧ u.snk.data = S ∧ u.permOut = m

end
end

