-- ==== Sys2Proof/Laws/Params.lean ====
section
/-! SUPPORT. What the constraints of R11 give, and `bitlen` (R170, R173). -/

namespace Sys2Proof

theorem Params.constraints (P : Params) :
    P.emptyCode ≠ P.stopCode ∧ P.emptyCode.toNat < P.startCode.toNat ∧ P.stopCode.toNat < P.startCode.toNat
      ∧ P.startCode.toNat < P.maxCode ∧ P.maxCode ≤ 65536 ∧ 1 ≤ P.block := by
  have h := P.ok
  simp only [paramsOk, Bool.and_eq_true, decide_eq_true_eq] at h
  tauto

theorem Params.empty_ne_stop (P : Params) : P.emptyCode ≠ P.stopCode := P.constraints.1
theorem Params.empty_lt_start (P : Params) : P.emptyCode.toNat < P.startCode.toNat := P.constraints.2.1
theorem Params.stop_lt_start (P : Params) : P.stopCode.toNat < P.startCode.toNat := P.constraints.2.2.1
theorem Params.start_lt_max (P : Params) : P.startCode.toNat < P.maxCode := P.constraints.2.2.2.1
theorem Params.max_le (P : Params) : P.maxCode ≤ 65536 := P.constraints.2.2.2.2.1
theorem Params.block_pos (P : Params) : 1 ≤ P.block := P.constraints.2.2.2.2.2

/-- `v < 2^bitlen(v)` (R170). -/
theorem lt_two_pow_bitlen (v : Nat) : v < 2 ^ bitlen v := by
  unfold bitlen
  split
  · subst_vars; decide
  · exact (Nat.log2_lt ‹_›).1 (Nat.lt_succ_self _)

/-- `2^(bitlen(v) - 1) ≤ v` for `v >= 1` (R170). -/
theorem two_pow_bitlen_le {v : Nat} (h : 1 ≤ v) : 2 ^ (bitlen v - 1) ≤ v := by
  unfold bitlen
  rw [if_neg (by omega), Nat.add_sub_cancel]
  exact Nat.log2_self_le (by omega)

theorem bitlen_pos {v : Nat} (h : 1 ≤ v) : 1 ≤ bitlen v := by
  unfold bitlen; rw [if_neg (by omega)]; omega

/-- A value below `2^w` has at most `w` bits. -/
theorem bitlen_le_of_lt {v w : Nat} (h : v < 2 ^ w) : bitlen v ≤ w := by
  unfold bitlen
  split
  · omega
  · exact (Nat.log2_lt ‹_›).2 h

/-- `bitlen` is monotone (R178). -/
theorem bitlen_mono {u v : Nat} (h : u ≤ v) : bitlen u ≤ bitlen v :=
  bitlen_le_of_lt (lt_of_le_of_lt h (lt_two_pow_bitlen v))

/-- The width of a 16-bit counter is at most 16 (R173). -/
theorem bitlen_code_le (c : Code) : bitlen c.toNat ≤ 16 := bitlen_le_of_lt c.isLt

theorem bitlen_code_pos {P : Params} {c : Code} (h : P.startCode.toNat ≤ c.toNat) : 1 ≤ bitlen c.toNat :=
  bitlen_pos (by have := P.empty_lt_start; omega)

/-- What is at most the counter fits its width; both constraints of R11 on `bitlen(START_CODE)` are instances. -/
theorem lt_width_of_le {c n : Nat} (h : c ≤ n) : c < 2 ^ bitlen n :=
  lt_of_le_of_lt h (lt_two_pow_bitlen n)

theorem Params.stop_fits (P : Params) : P.stopCode.toNat < 2 ^ bitlen P.startCode.toNat :=
  lt_width_of_le P.stop_lt_start.le
theorem Params.empty_fits (P : Params) : P.emptyCode.toNat < 2 ^ bitlen P.startCode.toNat :=
  lt_width_of_le P.empty_lt_start.le

end Sys2Proof
end

