-- ==== Sys2Proof/Laws/Operands.lean ====
section
/-! SUPPORT. Bits, bytes and fields: each assembly undoes its disassembly (R65, R66, R94, R250). -/

namespace Sys2Proof

@[simp] theorem lsbBits_length (w v : Nat) : (lsbBits w v).length = w := by
  induction w generalizing v with
  | zero => rfl
  | succ w ih => simp [lsbBits, ih]

@[simp] theorem valueBits_length (o : ValOrder) (w v : Nat) : (valueBits o w v).length = w := by
  cases o <;> simp [valueBits]

@[simp] theorem byteBits_length (b : Byte) : (byteBits b).length = 8 := by simp [byteBits]

theorem toNat_mod_two (v : Nat) : (v % 2 == 1).toNat = v % 2 := by
  rcases Nat.mod_two_eq_zero_or_one v with h | h <;> simp [h]

/-- The bits of a value assemble to its low part (R66, R94). -/
theorem lsbVal_lsbBits (w v : Nat) : lsbVal (lsbBits w v) = v % 2 ^ w := by
  induction w generalizing v with
  | zero => simp [lsbBits, lsbVal, Nat.mod_one]
  | succ w ih =>
    rw [lsbBits, lsbVal, ih, toNat_mod_two, pow_succ, Nat.mul_comm (2 ^ w) 2, Nat.mod_mul]

theorem lsbVal_lt (bs : List Bool) : lsbVal bs < 2 ^ bs.length := by
  induction bs with
  | nil => simp [lsbVal]
  | cons b bs ih =>
    have : b.toNat ≤ 1 := by cases b <;> simp
    simp only [lsbVal, List.length_cons, pow_succ]; omega

/-- The value of some bits has those bits. -/
theorem lsbBits_lsbVal (bs : List Bool) : lsbBits bs.length (lsbVal bs) = bs := by
  induction bs with
  | nil => rfl
  | cons b bs ih =>
    have h1 : (b.toNat + 2 * lsbVal bs) % 2 = b.toNat := by cases b <;> simp
    have h2 : (b.toNat + 2 * lsbVal bs) / 2 = lsbVal bs := by cases b <;> simp; omega
    simp only [List.length_cons, lsbVal, lsbBits, h1, h2, ih]
    cases b <;> simp

theorem lsbVal_append (xs ys : List Bool) : lsbVal (xs ++ ys) = lsbVal xs + 2 ^ xs.length * lsbVal ys := by
  induction xs with
  | nil => simp [lsbVal]
  | cons b bs ih => simp only [List.cons_append, lsbVal, ih, List.length_cons, pow_succ]; ring

/-- Whatever `VAL_ORDER`, the stream bits of a value that fits assemble to it (R66, R94). -/
theorem bitsValue_valueBits (o : ValOrder) {w v : Nat} (h : v < 2 ^ w) : bitsValue o (valueBits o w v) = v := by
  cases o <;> simp [bitsValue, valueBits, lsbVal_lsbBits, Nat.mod_eq_of_lt h]

theorem valueBits_bitsValue (o : ValOrder) (bs : List Bool) : valueBits o bs.length (bitsValue o bs) = bs := by
  cases o with
  | lsbFirst => exact lsbBits_lsbVal bs
  | msbFirst =>
    have := lsbBits_lsbVal bs.reverse
    rw [List.length_reverse] at this
    simp [valueBits, bitsValue, this]

theorem bitsValue_lt (o : ValOrder) (bs : List Bool) : bitsValue o bs < 2 ^ bs.length := by
  cases o with
  | lsbFirst => exact lsbVal_lt bs
  | msbFirst => simpa [bitsValue] using lsbVal_lt bs.reverse

/-- Bits of a value at or above its width are ignored (R145). -/
theorem valueBits_mod (o : ValOrder) (w v : Nat) : valueBits o w (v % 2 ^ w) = valueBits o w v := by
  have h : lsbBits w (v % 2 ^ w) = lsbBits w v := by
    have := lsbBits_lsbVal (lsbBits w v)
    rwa [lsbVal_lsbBits, lsbBits_length] at this
  cases o <;> simp [valueBits, h]

theorem lsbVal_byteBits (b : Byte) : lsbVal (byteBits b) = b.toNat := by
  rw [byteBits, lsbVal_lsbBits]; exact Nat.mod_eq_of_lt b.isLt

/-- Eight bits, then whole bytes (R65). -/
theorem bitsBytes_cons {bs rest : List Bool} (h : bs.length = 8) :
    bitsBytes (bs ++ rest) = BitVec.ofNat 8 (lsbVal bs) :: bitsBytes rest := by
  match bs, h with
  | [b0, b1, b2, b3, b4, b5, b6, b7], _ => rfl

/-- The bytes of the bits of bytes (R65). -/
theorem bitsBytes_flatMap (d : List Byte) : bitsBytes (d.flatMap byteBits) = d := by
  induction d with
  | nil => rfl
  | cons b d ih =>
    rw [List.flatMap_cons, bitsBytes_cons (byteBits_length b), ih, lsbVal_byteBits]; simp

/-- The bits of the bytes that a whole number of bytes' bits make (R65). -/
theorem flatMap_bitsBytes (n : Nat) (bs : List Bool) (h : bs.length = 8 * n) :
    (bitsBytes bs).flatMap byteBits = bs := by
  induction n generalizing bs with
  | zero =>
    have : bs = [] := List.length_eq_zero_iff.1 (by omega)
    subst this; rfl
  | succ n ih =>
    have hs : bs = bs.take 8 ++ bs.drop 8 := (List.take_append_drop 8 bs).symm
    have h8 : (bs.take 8).length = 8 := by simp; omega
    rw [hs, bitsBytes_cons h8, List.flatMap_cons, ih _ (by simp; omega)]
    congr 1
    have hb := lsbBits_lsbVal (bs.take 8)
    rw [h8] at hb
    rw [byteBits, BitVec.toNat_ofNat, Nat.mod_eq_of_lt (by simpa [h8] using lsbVal_lt (bs.take 8)), hb]

theorem bitsBytes_length (n : Nat) (bs : List Bool) (h : bs.length = 8 * n) : (bitsBytes bs).length = n := by
  have := congrArg List.length (flatMap_bitsBytes n bs h)
  simp [List.length_flatMap] at this; omega

theorem flatMap_byteBits_length (d : List Byte) : (d.flatMap byteBits).length = 8 * d.length := by
  simp [List.length_flatMap]; omega

@[simp] theorem leBytes_length (n v : Nat) : (leBytes n v).length = n := by
  induction n generalizing v with
  | zero => rfl
  | succ n ih => simp [leBytes, ih]

@[simp] theorem fieldBytes_length (o : HdrOrder) (n v : Nat) : (fieldBytes o n v).length = n := by
  cases o <;> simp [fieldBytes]

theorem leValue_leBytes (n v : Nat) : leValue (leBytes n v) = v % 256 ^ n := by
  induction n generalizing v with
  | zero => simp [leBytes, leValue, Nat.mod_one]
  | succ n ih =>
    rw [leBytes, leValue, ih, BitVec.toNat_ofNat, show 256 ^ (n + 1) = 256 * 256 ^ n by ring, Nat.mod_mul]

theorem leBytes_leValue (d : List Byte) : leBytes d.length (leValue d) = d := by
  induction d with
  | nil => rfl
  | cons b d ih =>
    have hb := b.isLt
    have h2 : (b.toNat + 256 * leValue d) / 256 = leValue d := by omega
    simp only [List.length_cons, leBytes, leValue, h2, ih]
    congr 1
    apply BitVec.eq_of_toNat_eq
    rw [BitVec.toNat_ofNat]; omega

theorem leValue_lt (d : List Byte) : leValue d < 256 ^ d.length := by
  induction d with
  | nil => simp [leValue]
  | cons b d ih =>
    have := b.isLt
    simp only [leValue, List.length_cons, pow_succ]; omega

/-- A header field's bytes give back its value, whatever `HDR_ORDER` (R250, R257). -/
theorem fieldValue_fieldBytes (o : HdrOrder) (n v : Nat) (h : v < 256 ^ n) :
    fieldValue o (fieldBytes o n v) = v := by
  cases o <;> simp [fieldValue, fieldBytes, leValue_leBytes, Nat.mod_eq_of_lt h]

theorem fieldBytes_fieldValue (o : HdrOrder) (d : List Byte) : fieldBytes o d.length (fieldValue o d) = d := by
  cases o with
  | little => exact leBytes_leValue d
  | big =>
    have := leBytes_leValue d.reverse
    rw [List.length_reverse] at this
    simp [fieldBytes, fieldValue, this]

theorem fieldValue_lt (o : HdrOrder) (d : List Byte) : fieldValue o d < 256 ^ d.length := by
  cases o with
  | little => exact leValue_lt d
  | big => simpa [fieldValue] using leValue_lt d.reverse

@[simp] theorem headerBytes_length (o : HdrOrder) (m : BitVec 32) (p : BitVec 16) :
    (headerBytes o m p).length = hdrBytes := by simp [headerBytes, hdrBytes]

/-- Where two trie entries coincide, node and symbol do (R42). -/
theorem childIndex_inj {c c' : Code} {b b' : Byte} (h : childIndex c b = childIndex c' b') : c = c' ∧ b = b' := by
  have := b.isLt; have := b'.isLt
  unfold childIndex at h
  exact ⟨BitVec.eq_of_toNat_eq (by omega), BitVec.eq_of_toNat_eq (by omega)⟩

/-- A node's entries lie in its row (R42). -/
theorem childIndex_lt {c : Code} {n : Nat} (b : Byte) (h : c.toNat < n) : childIndex c b < 256 * n := by
  have := b.isLt
  unfold childIndex; omega

end Sys2Proof
end

