-- ==== Sys2Proof/Laws/Mem.lean ====
section
/-! SUPPORT. The memories: a read gives what was written last, a write leaves every other cell alone and keeps the
canonical form. -/

namespace Sys2Proof.Machine

variable {α : Type}

theorem Mem.read_write_same (m : Mem α) (i : Nat) (v : α) : Mem.read (Mem.write m i v) i = some v := by
  induction m with
  | nil => simp [Mem.write, Mem.read]
  | cons e m ih =>
    obtain ⟨j, u⟩ := e
    unfold Mem.write
    split
    · simp [Mem.read]
    · split
      · simp [Mem.read]
      · rw [Mem.read, if_neg (by omega), ih]

theorem Mem.read_write_other (m : Mem α) {i k : Nat} (v : α) (h : k ≠ i) :
    Mem.read (Mem.write m i v) k = Mem.read m k := by
  induction m with
  | nil => simp [Mem.write, Mem.read, h.symm]
  | cons e m ih =>
    obtain ⟨j, u⟩ := e
    unfold Mem.write
    split
    · simp [Mem.read, h.symm]
    · split
      · rename_i hij
        subst hij
        simp [Mem.read, h.symm]
      · simp [Mem.read, ih]

theorem Mem.read_write (m : Mem α) (i k : Nat) (v : α) :
    Mem.read (Mem.write m i v) k = if k = i then some v else Mem.read m k := by
  split
  · subst_vars; exact Mem.read_write_same m _ v
  · exact Mem.read_write_other m v ‹_›

theorem Mem.read_writeList (m : Mem α) (i : Nat) (vs : List α) (k : Nat) :
    Mem.read (Mem.writeList m i vs) k = if i ≤ k ∧ k < i + vs.length then vs[k - i]? else Mem.read m k := by
  induction vs generalizing m i with
  | nil => simp [Mem.writeList]
  | cons v vs ih =>
    rw [Mem.writeList, ih, Mem.read_write]
    simp only [List.length_cons]
    rcases Nat.lt_trichotomy k i with h | h | h
    · rw [if_neg (by omega), if_neg (by omega), if_neg (by omega)]
    · subst h; simp
    · have hk : k - i = (k - (i + 1)) + 1 := by omega
      by_cases h2 : k < i + (vs.length + 1)
      · rw [if_pos (by omega), if_pos (by omega), hk, List.getElem?_cons_succ]
      · rw [if_neg (by omega), if_neg (by omega), if_neg (by omega)]

/-- A run of cells reads as the list of its contents. -/
theorem Mem.readList_eq_some {m : Mem α} {i n : Nat} {vs : List α} :
    Mem.readList m i n = some vs ↔ vs.length = n ∧ ∀ k, k < n → Mem.read m (i + k) = vs[k]? := by
  induction n generalizing i vs with
  | zero => simp [Mem.readList, eq_comm]
  | succ n ih =>
    rw [Mem.readList]
    constructor
    · intro h
      split at h
      · rename_i v ws h1 h2
        cases h
        obtain ⟨hl, hr⟩ := ih.1 h2
        refine ⟨by simp [hl], fun k hk => ?_⟩
        cases k with
        | zero => simpa using h1
        | succ k => simpa [Nat.add_assoc, Nat.add_comm 1 k] using hr k (by omega)
      · cases h
    · rintro ⟨hl, hr⟩
      match vs, hl with
      | v :: ws, hl =>
        have h1 : Mem.read m i = some v := by simpa using hr 0 (by omega)
        have h2 : Mem.readList m (i + 1) n = some ws :=
          ih.2 ⟨by simpa using hl, fun k hk => by
            simpa [Nat.add_assoc, Nat.add_comm 1 k] using hr (k + 1) (by omega)⟩
        rw [h1, h2]

theorem Mem.readList_length {m : Mem α} {i n : Nat} {vs : List α} (h : Mem.readList m i n = some vs) :
    vs.length = n := (Mem.readList_eq_some.1 h).1

/-- A run of cells splits. -/
theorem Mem.readList_add {m : Mem α} {i a b : Nat} {vs : List α} :
    Mem.readList m i (a + b) = some vs ↔
      ∃ xs ys, Mem.readList m i a = some xs ∧ Mem.readList m (i + a) b = some ys ∧ vs = xs ++ ys := by
  simp only [Mem.readList_eq_some]
  constructor
  · rintro ⟨hl, hr⟩
    refine ⟨vs.take a, vs.drop a, ⟨by simp; omega, fun k hk => ?_⟩, ⟨by simp; omega, fun k hk => ?_⟩, by simp⟩
    · rw [hr k (by omega), List.getElem?_take]; simp [hk]
    · rw [Nat.add_assoc, hr (a + k) (by omega), List.getElem?_drop]
  · rintro ⟨xs, ys, ⟨hx, hxr⟩, ⟨hy, hyr⟩, rfl⟩
    refine ⟨by simp [hx, hy], fun k hk => ?_⟩
    by_cases h : k < a
    · rw [hxr k h, List.getElem?_append_left (by omega)]
    · rw [List.getElem?_append_right (by omega), hx, ← hyr (k - a) (by omega)]
      congr 1; omega

theorem Mem.readList_writeList (m : Mem α) (i : Nat) (vs : List α) :
    Mem.readList (Mem.writeList m i vs) i vs.length = some vs := by
  rw [Mem.readList_eq_some]
  refine ⟨rfl, fun k hk => ?_⟩
  rw [Mem.read_writeList, if_pos (by omega), Nat.add_sub_cancel_left]

/-- A write outside a run of cells leaves it. -/
theorem Mem.readList_write_outside (m : Mem α) {i n k : Nat} (v : α) (h : k < i ∨ i + n ≤ k) :
    Mem.readList (Mem.write m k v) i n = Mem.readList m i n := by
  ext vs
  simp only [Mem.readList_eq_some]
  refine and_congr_right fun _ => forall_congr' fun j => imp_congr_right fun hj => ?_
  rw [Mem.read_write_other _ _ (by omega)]

theorem Mem.readList_writeList_outside (m : Mem α) {i n k : Nat} (us : List α) (h : k + us.length ≤ i ∨ i + n ≤ k) :
    Mem.readList (Mem.writeList m k us) i n = Mem.readList m i n := by
  ext vs
  simp only [Mem.readList_eq_some]
  refine and_congr_right fun _ => forall_congr' fun j => imp_congr_right fun hj => ?_
  rw [Mem.read_writeList, if_neg (by omega)]

/-- A run grows by the cell written behind it. -/
theorem Mem.readList_write_end {m : Mem α} {i n : Nat} {xs : List α} (v : α) (h : Mem.readList m i n = some xs) :
    Mem.readList (Mem.write m (i + n) v) i (n + 1) = some (xs ++ [v]) := by
  rw [Mem.readList_add]
  exact ⟨xs, [v], by rw [Mem.readList_write_outside _ _ (by omega), h],
    by simp [Mem.readList, Mem.read_write_same], rfl⟩

/-! ### The canonical form -/

theorem Mem.wf_cons {i : Nat} {v : α} {m : Mem α} :
    Mem.wf ((i, v) :: m) = true ↔ (∀ e ∈ m, i < e.1) ∧ Mem.wf m = true := by
  induction m generalizing i v with
  | nil => simp [Mem.wf]
  | cons e m ih =>
    obtain ⟨j, u⟩ := e
    rw [Mem.wf, Bool.and_eq_true, decide_eq_true_eq]
    constructor
    · rintro ⟨h1, h2⟩
      refine ⟨fun e he => ?_, h2⟩
      rcases List.mem_cons.1 he with rfl | he
      · exact h1
      · exact lt_trans h1 ((ih.1 h2).1 e he)
    · rintro ⟨h1, h2⟩
      exact ⟨h1 (j, u) (by simp), h2⟩

theorem Mem.mem_write {m : Mem α} {i : Nat} {v : α} {e : Nat × α} (h : e ∈ Mem.write m i v) : e = (i, v) ∨ e ∈ m := by
  induction m with
  | nil => simp_all [Mem.write]
  | cons a m ih =>
    obtain ⟨j, u⟩ := a
    unfold Mem.write at h
    split at h
    · simpa using h
    · split at h
      · rcases List.mem_cons.1 h with h | h
        · exact .inl h
        · exact .inr (List.mem_cons_of_mem _ h)
      · rcases List.mem_cons.1 h with h | h
        · exact .inr (h ▸ List.mem_cons_self)
        · exact (ih h).imp id (List.mem_cons_of_mem _)

/-- A write keeps the canonical form. -/
theorem Mem.wf_write {m : Mem α} (i : Nat) (v : α) (h : Mem.wf m = true) : Mem.wf (Mem.write m i v) = true := by
  induction m with
  | nil => rfl
  | cons e m ih =>
    obtain ⟨j, u⟩ := e
    obtain ⟨h1, h2⟩ := Mem.wf_cons.1 h
    unfold Mem.write
    split
    · rename_i hij
      refine Mem.wf_cons.2 ⟨fun e he => ?_, h⟩
      rcases List.mem_cons.1 he with rfl | he
      · exact hij
      · exact lt_trans hij (h1 e he)
    · split
      · rename_i hij
        subst hij
        exact Mem.wf_cons.2 ⟨h1, h2⟩
      · refine Mem.wf_cons.2 ⟨fun e he => ?_, ih h2⟩
        rcases Mem.mem_write he with rfl | he
        · show j < i
          omega
        · exact h1 e he

theorem Mem.wf_writeList {m : Mem α} (i : Nat) (vs : List α) (h : Mem.wf m = true) :
    Mem.wf (Mem.writeList m i vs) = true := by
  induction vs generalizing m i with
  | nil => exact h
  | cons v vs ih => exact ih _ (Mem.wf_write i v h)

theorem Mem.inside_write {m : Mem α} {size i : Nat} (v : α) (h : Mem.inside m size = true) (hi : i < size) :
    Mem.inside (Mem.write m i v) size = true := by
  simp only [Mem.inside, List.all_eq_true, decide_eq_true_eq] at *
  intro e he
  rcases Mem.mem_write he with rfl | he
  · exact hi
  · exact h e he

theorem Mem.inside_writeList {m : Mem α} {size : Nat} (i : Nat) (vs : List α) (h : Mem.inside m size = true)
    (hi : i + vs.length ≤ size) : Mem.inside (Mem.writeList m i vs) size = true := by
  induction vs generalizing m i with
  | nil => exact h
  | cons v vs ih =>
    rw [List.length_cons] at hi
    exact ih _ (Mem.inside_write v h (by omega)) (by omega)

theorem Mem.mem_of_read {m : Mem α} {i : Nat} {v : α} (h : Mem.read m i = some v) : (i, v) ∈ m := by
  induction m with
  | nil => cases h
  | cons e m ih =>
    obtain ⟨j, u⟩ := e
    rw [Mem.read] at h
    split at h
    · cases h; subst_vars; simp
    · exact List.mem_cons_of_mem _ (ih h)

theorem Mem.read_of_mem {m : Mem α} {i : Nat} {v : α} (hw : Mem.wf m = true) (h : (i, v) ∈ m) :
    Mem.read m i = some v := by
  induction m with
  | nil => cases h
  | cons e m ih =>
    obtain ⟨j, u⟩ := e
    obtain ⟨h1, h2⟩ := Mem.wf_cons.1 hw
    rw [Mem.read]
    rcases List.mem_cons.1 h with h | h
    · cases h; simp
    · have := h1 _ h
      rw [if_neg (by simp at this; omega), ih h2 h]

/-- In canonical form equal contents are equal memories. -/
theorem Mem.ext_read {m m' : Mem α} (hw : Mem.wf m = true) (hw' : Mem.wf m' = true)
    (h : ∀ i, Mem.read m i = Mem.read m' i) : m = m' := by
  induction m generalizing m' with
  | nil =>
    cases m' with
    | nil => rfl
    | cons e m' => obtain ⟨j, u⟩ := e; simpa [Mem.read] using h j
  | cons e m ih =>
    obtain ⟨j, u⟩ := e
    cases m' with
    | nil => simpa [Mem.read] using h j
    | cons e' m' =>
      obtain ⟨j', u'⟩ := e'
      obtain ⟨h1, h2⟩ := Mem.wf_cons.1 hw
      obtain ⟨h1', h2'⟩ := Mem.wf_cons.1 hw'
      have ha : (j, u) ∈ (j', u') :: m' := Mem.mem_of_read (by rw [← h j]; simp [Mem.read])
      have hb : (j', u') ∈ (j, u) :: m := Mem.mem_of_read (by rw [h j']; simp [Mem.read])
      have hjj : j = j' := by
        rcases List.mem_cons.1 ha with ha | ha
        · cases ha; rfl
        · rcases List.mem_cons.1 hb with hb | hb
          · cases hb; rfl
          · have := h1 _ hb; have := h1' _ ha; simp at *; omega
      subst hjj
      have huu : u = u' := by simpa [Mem.read] using h j
      subst huu
      rw [ih h2 h2' fun i => ?_]
      have hi := h i
      simp only [Mem.read] at hi
      split at hi
      · rename_i hji
        subst hji
        have e1 : Mem.read m j = none := by
          by_contra hc
          obtain ⟨v, hv⟩ := Option.ne_none_iff_exists'.1 hc
          simpa using h1 _ (Mem.mem_of_read hv)
        have e2 : Mem.read m' j = none := by
          by_contra hc
          obtain ⟨v, hv⟩ := Option.ne_none_iff_exists'.1 hc
          simpa using h1' _ (Mem.mem_of_read hv)
        rw [e1, e2]
      · exact hi

end Sys2Proof.Machine
end

