-- ==== Sys2Proof/Laws/State.lean ====
section
/-! SUPPORT. One lemma per field per named update of the state, so that no later proof unfolds one. -/

namespace Sys2Proof.Machine

open Sys2Proof

/-! ### The cumulative registers (R37, R38) -/

@[simp] theorem countUp_zero (P : Params) (total : Nat) : countUp P total 0 = total := rfl

/-- Counting twice is counting the sum. -/
@[simp] theorem countUp_countUp (P : Params) (total a b : Nat) :
    countUp P (countUp P total a) b = countUp P total (a + b) := by
  unfold countUp
  by_cases ha : a = 0 <;> by_cases hb : b = 0 <;> simp [ha, hb, Nat.add_assoc]

/-- A register keeps its width. -/
theorem countUp_lt {P : Params} {total : Nat} (h : total < 2 ^ P.ctrBits) (n : Nat) :
    countUp P total n < 2 ^ P.ctrBits := by
  unfold countUp
  split
  · exact h
  · exact Nat.mod_lt _ (Nat.two_pow_pos _)

section
variable (s : State)

@[simp] theorem State.reject_cfg : s.reject.cfg = s.cfg := rfl
@[simp] theorem State.reject_phase : s.reject.phase = s.phase := rfl
@[simp] theorem State.reject_nextCode : s.reject.nextCode = s.nextCode := rfl
@[simp] theorem State.reject_curCode : s.reject.curCode = s.curCode := rfl
@[simp] theorem State.reject_prevCode : s.reject.prevCode = s.prevCode := rfl
@[simp] theorem State.reject_prevSym : s.reject.prevSym = s.prevSym := rfl
@[simp] theorem State.reject_symCur : s.reject.symCur = s.symCur := rfl
@[simp] theorem State.reject_symLen : s.reject.symLen = s.symLen := rfl
@[simp] theorem State.reject_symEnd : s.reject.symEnd = s.symEnd := rfl
@[simp] theorem State.reject_bitCur : s.reject.bitCur = s.bitCur := rfl
@[simp] theorem State.reject_pairLen : s.reject.pairLen = s.pairLen := rfl
@[simp] theorem State.reject_pairEnd : s.reject.pairEnd = s.pairEnd := rfl
@[simp] theorem State.reject_done : s.reject.done = s.done := rfl
@[simp] theorem State.reject_cmdRej : s.reject.cmdRej = true := rfl
@[simp] theorem State.reject_hdrOk : s.reject.hdrOk = s.hdrOk := rfl
@[simp] theorem State.reject_cause : s.reject.cause = s.cause := rfl
@[simp] theorem State.reject_faultInfo : s.reject.faultInfo = s.faultInfo := rfl
@[simp] theorem State.reject_permIn : s.reject.permIn = s.permIn := rfl
@[simp] theorem State.reject_permOut : s.reject.permOut = s.permOut := rfl
@[simp] theorem State.reject_totalSyms : s.reject.totalSyms = s.totalSyms := rfl
@[simp] theorem State.reject_totalBits : s.reject.totalBits = s.totalBits := rfl
@[simp] theorem State.reject_symBuf : s.reject.symBuf = s.symBuf := rfl
@[simp] theorem State.reject_pairBuf : s.reject.pairBuf = s.pairBuf := rfl
@[simp] theorem State.reject_child : s.reject.child = s.child := rfl
@[simp] theorem State.reject_wt : s.reject.wt = s.wt := rfl
@[simp] theorem State.reject_src : s.reject.src = s.src := rfl
@[simp] theorem State.reject_snk : s.reject.snk = s.snk := rfl
@[simp] theorem State.reject_host : s.reject.host = s.host := rfl
@[simp] theorem State.reject_opResult : s.reject.opResult = s.opResult := rfl

@[simp] theorem State.finish_cfg : s.finish.cfg = s.cfg := rfl
@[simp] theorem State.finish_phase : s.finish.phase = .idle := rfl
@[simp] theorem State.finish_nextCode : s.finish.nextCode = s.nextCode := rfl
@[simp] theorem State.finish_curCode : s.finish.curCode = s.curCode := rfl
@[simp] theorem State.finish_prevCode : s.finish.prevCode = s.prevCode := rfl
@[simp] theorem State.finish_prevSym : s.finish.prevSym = s.prevSym := rfl
@[simp] theorem State.finish_symCur : s.finish.symCur = s.symCur := rfl
@[simp] theorem State.finish_symLen : s.finish.symLen = s.symLen := rfl
@[simp] theorem State.finish_symEnd : s.finish.symEnd = s.symEnd := rfl
@[simp] theorem State.finish_bitCur : s.finish.bitCur = s.bitCur := rfl
@[simp] theorem State.finish_pairLen : s.finish.pairLen = s.pairLen := rfl
@[simp] theorem State.finish_pairEnd : s.finish.pairEnd = s.pairEnd := rfl
@[simp] theorem State.finish_done : s.finish.done = true := rfl
@[simp] theorem State.finish_cmdRej : s.finish.cmdRej = s.cmdRej := rfl
@[simp] theorem State.finish_hdrOk : s.finish.hdrOk = s.hdrOk := rfl
@[simp] theorem State.finish_cause : s.finish.cause = s.cause := rfl
@[simp] theorem State.finish_faultInfo : s.finish.faultInfo = s.faultInfo := rfl
@[simp] theorem State.finish_permIn : s.finish.permIn = s.permIn := rfl
@[simp] theorem State.finish_permOut : s.finish.permOut = s.permOut := rfl
@[simp] theorem State.finish_totalSyms : s.finish.totalSyms = s.totalSyms := rfl
@[simp] theorem State.finish_totalBits : s.finish.totalBits = s.totalBits := rfl
@[simp] theorem State.finish_symBuf : s.finish.symBuf = s.symBuf := rfl
@[simp] theorem State.finish_pairBuf : s.finish.pairBuf = s.pairBuf := rfl
@[simp] theorem State.finish_child : s.finish.child = s.child := rfl
@[simp] theorem State.finish_wt : s.finish.wt = s.wt := rfl
@[simp] theorem State.finish_src : s.finish.src = s.src := rfl
@[simp] theorem State.finish_snk : s.finish.snk = s.snk := rfl
@[simp] theorem State.finish_host : s.finish.host = s.host := rfl
@[simp] theorem State.finish_opResult : s.finish.opResult = s.opResult := rfl

@[simp] theorem State.countSym_cfg : s.countSym.cfg = s.cfg := rfl
@[simp] theorem State.countSym_phase : s.countSym.phase = s.phase := rfl
@[simp] theorem State.countSym_nextCode : s.countSym.nextCode = s.nextCode := rfl
@[simp] theorem State.countSym_curCode : s.countSym.curCode = s.curCode := rfl
@[simp] theorem State.countSym_prevCode : s.countSym.prevCode = s.prevCode := rfl
@[simp] theorem State.countSym_prevSym : s.countSym.prevSym = s.prevSym := rfl
@[simp] theorem State.countSym_symCur : s.countSym.symCur = s.symCur := rfl
@[simp] theorem State.countSym_symLen : s.countSym.symLen = s.symLen := rfl
@[simp] theorem State.countSym_symEnd : s.countSym.symEnd = s.symEnd := rfl
@[simp] theorem State.countSym_bitCur : s.countSym.bitCur = s.bitCur := rfl
@[simp] theorem State.countSym_pairLen : s.countSym.pairLen = s.pairLen := rfl
@[simp] theorem State.countSym_pairEnd : s.countSym.pairEnd = s.pairEnd := rfl
@[simp] theorem State.countSym_done : s.countSym.done = s.done := rfl
@[simp] theorem State.countSym_cmdRej : s.countSym.cmdRej = s.cmdRej := rfl
@[simp] theorem State.countSym_hdrOk : s.countSym.hdrOk = s.hdrOk := rfl
@[simp] theorem State.countSym_cause : s.countSym.cause = s.cause := rfl
@[simp] theorem State.countSym_faultInfo : s.countSym.faultInfo = s.faultInfo := rfl
@[simp] theorem State.countSym_permIn : s.countSym.permIn = s.permIn := rfl
@[simp] theorem State.countSym_permOut : s.countSym.permOut = s.permOut := rfl
@[simp] theorem State.countSym_totalSyms : s.countSym.totalSyms = countUp s.cfg s.totalSyms 1 := rfl
@[simp] theorem State.countSym_totalBits : s.countSym.totalBits = s.totalBits := rfl
@[simp] theorem State.countSym_symBuf : s.countSym.symBuf = s.symBuf := rfl
@[simp] theorem State.countSym_pairBuf : s.countSym.pairBuf = s.pairBuf := rfl
@[simp] theorem State.countSym_child : s.countSym.child = s.child := rfl
@[simp] theorem State.countSym_wt : s.countSym.wt = s.wt := rfl
@[simp] theorem State.countSym_src : s.countSym.src = s.src := rfl
@[simp] theorem State.countSym_snk : s.countSym.snk = s.snk := rfl
@[simp] theorem State.countSym_host : s.countSym.host = s.host := rfl
@[simp] theorem State.countSym_opResult : s.countSym.opResult = s.opResult := rfl

@[simp] theorem State.countBits_cfg (w : Nat) : (s.countBits w).cfg = s.cfg := rfl
@[simp] theorem State.countBits_phase (w : Nat) : (s.countBits w).phase = s.phase := rfl
@[simp] theorem State.countBits_nextCode (w : Nat) : (s.countBits w).nextCode = s.nextCode := rfl
@[simp] theorem State.countBits_curCode (w : Nat) : (s.countBits w).curCode = s.curCode := rfl
@[simp] theorem State.countBits_prevCode (w : Nat) : (s.countBits w).prevCode = s.prevCode := rfl
@[simp] theorem State.countBits_prevSym (w : Nat) : (s.countBits w).prevSym = s.prevSym := rfl
@[simp] theorem State.countBits_symCur (w : Nat) : (s.countBits w).symCur = s.symCur := rfl
@[simp] theorem State.countBits_symLen (w : Nat) : (s.countBits w).symLen = s.symLen := rfl
@[simp] theorem State.countBits_symEnd (w : Nat) : (s.countBits w).symEnd = s.symEnd := rfl
@[simp] theorem State.countBits_bitCur (w : Nat) : (s.countBits w).bitCur = s.bitCur := rfl
@[simp] theorem State.countBits_pairLen (w : Nat) : (s.countBits w).pairLen = s.pairLen := rfl
@[simp] theorem State.countBits_pairEnd (w : Nat) : (s.countBits w).pairEnd = s.pairEnd := rfl
@[simp] theorem State.countBits_done (w : Nat) : (s.countBits w).done = s.done := rfl
@[simp] theorem State.countBits_cmdRej (w : Nat) : (s.countBits w).cmdRej = s.cmdRej := rfl
@[simp] theorem State.countBits_hdrOk (w : Nat) : (s.countBits w).hdrOk = s.hdrOk := rfl
@[simp] theorem State.countBits_cause (w : Nat) : (s.countBits w).cause = s.cause := rfl
@[simp] theorem State.countBits_faultInfo (w : Nat) : (s.countBits w).faultInfo = s.faultInfo := rfl
@[simp] theorem State.countBits_permIn (w : Nat) : (s.countBits w).permIn = s.permIn := rfl
@[simp] theorem State.countBits_permOut (w : Nat) : (s.countBits w).permOut = s.permOut := rfl
@[simp] theorem State.countBits_totalSyms (w : Nat) : (s.countBits w).totalSyms = s.totalSyms := rfl
@[simp] theorem State.countBits_totalBits (w : Nat) : (s.countBits w).totalBits = countUp s.cfg s.totalBits w := rfl
@[simp] theorem State.countBits_symBuf (w : Nat) : (s.countBits w).symBuf = s.symBuf := rfl
@[simp] theorem State.countBits_pairBuf (w : Nat) : (s.countBits w).pairBuf = s.pairBuf := rfl
@[simp] theorem State.countBits_child (w : Nat) : (s.countBits w).child = s.child := rfl
@[simp] theorem State.countBits_wt (w : Nat) : (s.countBits w).wt = s.wt := rfl
@[simp] theorem State.countBits_src (w : Nat) : (s.countBits w).src = s.src := rfl
@[simp] theorem State.countBits_snk (w : Nat) : (s.countBits w).snk = s.snk := rfl
@[simp] theorem State.countBits_host (w : Nat) : (s.countBits w).host = s.host := rfl
@[simp] theorem State.countBits_opResult (w : Nat) : (s.countBits w).opResult = s.opResult := rfl

@[simp] theorem State.withResult_cfg (r : OpResult) : (s.withResult r).cfg = s.cfg := rfl
@[simp] theorem State.withResult_phase (r : OpResult) : (s.withResult r).phase = s.phase := rfl
@[simp] theorem State.withResult_nextCode (r : OpResult) : (s.withResult r).nextCode = s.nextCode := rfl
@[simp] theorem State.withResult_curCode (r : OpResult) : (s.withResult r).curCode = s.curCode := rfl
@[simp] theorem State.withResult_prevCode (r : OpResult) : (s.withResult r).prevCode = s.prevCode := rfl
@[simp] theorem State.withResult_prevSym (r : OpResult) : (s.withResult r).prevSym = s.prevSym := rfl
@[simp] theorem State.withResult_symCur (r : OpResult) : (s.withResult r).symCur = s.symCur := rfl
@[simp] theorem State.withResult_symLen (r : OpResult) : (s.withResult r).symLen = s.symLen := rfl
@[simp] theorem State.withResult_symEnd (r : OpResult) : (s.withResult r).symEnd = s.symEnd := rfl
@[simp] theorem State.withResult_bitCur (r : OpResult) : (s.withResult r).bitCur = s.bitCur := rfl
@[simp] theorem State.withResult_pairLen (r : OpResult) : (s.withResult r).pairLen = s.pairLen := rfl
@[simp] theorem State.withResult_pairEnd (r : OpResult) : (s.withResult r).pairEnd = s.pairEnd := rfl
@[simp] theorem State.withResult_done (r : OpResult) : (s.withResult r).done = s.done := rfl
@[simp] theorem State.withResult_cmdRej (r : OpResult) : (s.withResult r).cmdRej = s.cmdRej := rfl
@[simp] theorem State.withResult_hdrOk (r : OpResult) : (s.withResult r).hdrOk = s.hdrOk := rfl
@[simp] theorem State.withResult_cause (r : OpResult) : (s.withResult r).cause = s.cause := rfl
@[simp] theorem State.withResult_faultInfo (r : OpResult) : (s.withResult r).faultInfo = s.faultInfo := rfl
@[simp] theorem State.withResult_permIn (r : OpResult) : (s.withResult r).permIn = s.permIn := rfl
@[simp] theorem State.withResult_permOut (r : OpResult) : (s.withResult r).permOut = s.permOut := rfl
@[simp] theorem State.withResult_totalSyms (r : OpResult) : (s.withResult r).totalSyms = s.totalSyms := rfl
@[simp] theorem State.withResult_totalBits (r : OpResult) : (s.withResult r).totalBits = s.totalBits := rfl
@[simp] theorem State.withResult_symBuf (r : OpResult) : (s.withResult r).symBuf = s.symBuf := rfl
@[simp] theorem State.withResult_pairBuf (r : OpResult) : (s.withResult r).pairBuf = s.pairBuf := rfl
@[simp] theorem State.withResult_child (r : OpResult) : (s.withResult r).child = s.child := rfl
@[simp] theorem State.withResult_wt (r : OpResult) : (s.withResult r).wt = s.wt := rfl
@[simp] theorem State.withResult_src (r : OpResult) : (s.withResult r).src = s.src := rfl
@[simp] theorem State.withResult_snk (r : OpResult) : (s.withResult r).snk = s.snk := rfl
@[simp] theorem State.withResult_host (r : OpResult) : (s.withResult r).host = s.host := rfl
@[simp] theorem State.withResult_opResult (r : OpResult) : (s.withResult r).opResult = r := rfl

@[simp] theorem State.storeSym_cfg (b : Byte) : (s.storeSym b).cfg = s.cfg := rfl
@[simp] theorem State.storeSym_phase (b : Byte) : (s.storeSym b).phase = s.phase := rfl
@[simp] theorem State.storeSym_nextCode (b : Byte) : (s.storeSym b).nextCode = s.nextCode := rfl
@[simp] theorem State.storeSym_curCode (b : Byte) : (s.storeSym b).curCode = s.curCode := rfl
@[simp] theorem State.storeSym_prevCode (b : Byte) : (s.storeSym b).prevCode = s.prevCode := rfl
@[simp] theorem State.storeSym_prevSym (b : Byte) : (s.storeSym b).prevSym = s.prevSym := rfl
@[simp] theorem State.storeSym_symCur (b : Byte) : (s.storeSym b).symCur = s.symCur + 1 := rfl
@[simp] theorem State.storeSym_symLen (b : Byte) : (s.storeSym b).symLen = s.symLen := rfl
@[simp] theorem State.storeSym_symEnd (b : Byte) : (s.storeSym b).symEnd = s.symEnd := rfl
@[simp] theorem State.storeSym_bitCur (b : Byte) : (s.storeSym b).bitCur = s.bitCur := rfl
@[simp] theorem State.storeSym_pairLen (b : Byte) : (s.storeSym b).pairLen = s.pairLen := rfl
@[simp] theorem State.storeSym_pairEnd (b : Byte) : (s.storeSym b).pairEnd = s.pairEnd := rfl
@[simp] theorem State.storeSym_done (b : Byte) : (s.storeSym b).done = s.done := rfl
@[simp] theorem State.storeSym_cmdRej (b : Byte) : (s.storeSym b).cmdRej = s.cmdRej := rfl
@[simp] theorem State.storeSym_hdrOk (b : Byte) : (s.storeSym b).hdrOk = s.hdrOk := rfl
@[simp] theorem State.storeSym_cause (b : Byte) : (s.storeSym b).cause = s.cause := rfl
@[simp] theorem State.storeSym_faultInfo (b : Byte) : (s.storeSym b).faultInfo = s.faultInfo := rfl
@[simp] theorem State.storeSym_permIn (b : Byte) : (s.storeSym b).permIn = s.permIn := rfl
@[simp] theorem State.storeSym_permOut (b : Byte) : (s.storeSym b).permOut = s.permOut := rfl
@[simp] theorem State.storeSym_totalSyms (b : Byte) : (s.storeSym b).totalSyms = countUp s.cfg s.totalSyms 1 := rfl
@[simp] theorem State.storeSym_totalBits (b : Byte) : (s.storeSym b).totalBits = s.totalBits := rfl
@[simp] theorem State.storeSym_symBuf (b : Byte) : (s.storeSym b).symBuf = s.symBuf.write s.symCur b := rfl
@[simp] theorem State.storeSym_pairBuf (b : Byte) : (s.storeSym b).pairBuf = s.pairBuf := rfl
@[simp] theorem State.storeSym_child (b : Byte) : (s.storeSym b).child = s.child := rfl
@[simp] theorem State.storeSym_wt (b : Byte) : (s.storeSym b).wt = s.wt := rfl
@[simp] theorem State.storeSym_src (b : Byte) : (s.storeSym b).src = s.src := rfl
@[simp] theorem State.storeSym_snk (b : Byte) : (s.storeSym b).snk = s.snk := rfl
@[simp] theorem State.storeSym_host (b : Byte) : (s.storeSym b).host = s.host := rfl
@[simp] theorem State.storeSym_opResult (b : Byte) : (s.storeSym b).opResult = s.opResult := rfl

@[simp] theorem State.loadSyms_cfg (n : Nat) (d : List Byte) : (s.loadSyms n d).cfg = s.cfg := rfl
@[simp] theorem State.loadSyms_phase (n : Nat) (d : List Byte) : (s.loadSyms n d).phase = s.phase := rfl
@[simp] theorem State.loadSyms_nextCode (n : Nat) (d : List Byte) : (s.loadSyms n d).nextCode = s.nextCode := rfl
@[simp] theorem State.loadSyms_curCode (n : Nat) (d : List Byte) : (s.loadSyms n d).curCode = s.curCode := rfl
@[simp] theorem State.loadSyms_prevCode (n : Nat) (d : List Byte) : (s.loadSyms n d).prevCode = s.prevCode := rfl
@[simp] theorem State.loadSyms_prevSym (n : Nat) (d : List Byte) : (s.loadSyms n d).prevSym = s.prevSym := rfl
@[simp] theorem State.loadSyms_symCur (n : Nat) (d : List Byte) : (s.loadSyms n d).symCur = 0 := rfl
@[simp] theorem State.loadSyms_symLen (n : Nat) (d : List Byte) : (s.loadSyms n d).symLen = d.length := rfl
@[simp] theorem State.loadSyms_symEnd (n : Nat) (d : List Byte) : (s.loadSyms n d).symEnd = (s.symEnd || decide (d.length < n)) := rfl
@[simp] theorem State.loadSyms_bitCur (n : Nat) (d : List Byte) : (s.loadSyms n d).bitCur = s.bitCur := rfl
@[simp] theorem State.loadSyms_pairLen (n : Nat) (d : List Byte) : (s.loadSyms n d).pairLen = s.pairLen := rfl
@[simp] theorem State.loadSyms_pairEnd (n : Nat) (d : List Byte) : (s.loadSyms n d).pairEnd = s.pairEnd := rfl
@[simp] theorem State.loadSyms_done (n : Nat) (d : List Byte) : (s.loadSyms n d).done = s.done := rfl
@[simp] theorem State.loadSyms_cmdRej (n : Nat) (d : List Byte) : (s.loadSyms n d).cmdRej = s.cmdRej := rfl
@[simp] theorem State.loadSyms_hdrOk (n : Nat) (d : List Byte) : (s.loadSyms n d).hdrOk = s.hdrOk := rfl
@[simp] theorem State.loadSyms_cause (n : Nat) (d : List Byte) : (s.loadSyms n d).cause = s.cause := rfl
@[simp] theorem State.loadSyms_faultInfo (n : Nat) (d : List Byte) : (s.loadSyms n d).faultInfo = s.faultInfo := rfl
@[simp] theorem State.loadSyms_permIn (n : Nat) (d : List Byte) : (s.loadSyms n d).permIn = s.permIn := rfl
@[simp] theorem State.loadSyms_permOut (n : Nat) (d : List Byte) : (s.loadSyms n d).permOut = s.permOut := rfl
@[simp] theorem State.loadSyms_totalSyms (n : Nat) (d : List Byte) : (s.loadSyms n d).totalSyms = s.totalSyms := rfl
@[simp] theorem State.loadSyms_totalBits (n : Nat) (d : List Byte) : (s.loadSyms n d).totalBits = s.totalBits := rfl
@[simp] theorem State.loadSyms_symBuf (n : Nat) (d : List Byte) : (s.loadSyms n d).symBuf = s.symBuf.writeList 0 d := rfl
@[simp] theorem State.loadSyms_pairBuf (n : Nat) (d : List Byte) : (s.loadSyms n d).pairBuf = s.pairBuf := rfl
@[simp] theorem State.loadSyms_child (n : Nat) (d : List Byte) : (s.loadSyms n d).child = s.child := rfl
@[simp] theorem State.loadSyms_wt (n : Nat) (d : List Byte) : (s.loadSyms n d).wt = s.wt := rfl
@[simp] theorem State.loadSyms_src (n : Nat) (d : List Byte) : (s.loadSyms n d).src = s.src := rfl
@[simp] theorem State.loadSyms_snk (n : Nat) (d : List Byte) : (s.loadSyms n d).snk = s.snk := rfl
@[simp] theorem State.loadSyms_host (n : Nat) (d : List Byte) : (s.loadSyms n d).host = s.host := rfl
@[simp] theorem State.loadSyms_opResult (n : Nat) (d : List Byte) : (s.loadSyms n d).opResult = s.opResult := rfl

@[simp] theorem State.storeBit_cfg (b : Bool) : (s.storeBit b).cfg = s.cfg := rfl
@[simp] theorem State.storeBit_phase (b : Bool) : (s.storeBit b).phase = s.phase := rfl
@[simp] theorem State.storeBit_nextCode (b : Bool) : (s.storeBit b).nextCode = s.nextCode := rfl
@[simp] theorem State.storeBit_curCode (b : Bool) : (s.storeBit b).curCode = s.curCode := rfl
@[simp] theorem State.storeBit_prevCode (b : Bool) : (s.storeBit b).prevCode = s.prevCode := rfl
@[simp] theorem State.storeBit_prevSym (b : Bool) : (s.storeBit b).prevSym = s.prevSym := rfl
@[simp] theorem State.storeBit_symCur (b : Bool) : (s.storeBit b).symCur = s.symCur := rfl
@[simp] theorem State.storeBit_symLen (b : Bool) : (s.storeBit b).symLen = s.symLen := rfl
@[simp] theorem State.storeBit_symEnd (b : Bool) : (s.storeBit b).symEnd = s.symEnd := rfl
@[simp] theorem State.storeBit_bitCur (b : Bool) : (s.storeBit b).bitCur = s.bitCur + 1 := rfl
@[simp] theorem State.storeBit_pairLen (b : Bool) : (s.storeBit b).pairLen = s.pairLen := rfl
@[simp] theorem State.storeBit_pairEnd (b : Bool) : (s.storeBit b).pairEnd = s.pairEnd := rfl
@[simp] theorem State.storeBit_done (b : Bool) : (s.storeBit b).done = s.done := rfl
@[simp] theorem State.storeBit_cmdRej (b : Bool) : (s.storeBit b).cmdRej = s.cmdRej := rfl
@[simp] theorem State.storeBit_hdrOk (b : Bool) : (s.storeBit b).hdrOk = s.hdrOk := rfl
@[simp] theorem State.storeBit_cause (b : Bool) : (s.storeBit b).cause = s.cause := rfl
@[simp] theorem State.storeBit_faultInfo (b : Bool) : (s.storeBit b).faultInfo = s.faultInfo := rfl
@[simp] theorem State.storeBit_permIn (b : Bool) : (s.storeBit b).permIn = s.permIn := rfl
@[simp] theorem State.storeBit_permOut (b : Bool) : (s.storeBit b).permOut = s.permOut := rfl
@[simp] theorem State.storeBit_totalSyms (b : Bool) : (s.storeBit b).totalSyms = s.totalSyms := rfl
@[simp] theorem State.storeBit_totalBits (b : Bool) : (s.storeBit b).totalBits = s.totalBits := rfl
@[simp] theorem State.storeBit_symBuf (b : Bool) : (s.storeBit b).symBuf = s.symBuf := rfl
@[simp] theorem State.storeBit_pairBuf (b : Bool) : (s.storeBit b).pairBuf = s.pairBuf.write s.bitCur b := rfl
@[simp] theorem State.storeBit_child (b : Bool) : (s.storeBit b).child = s.child := rfl
@[simp] theorem State.storeBit_wt (b : Bool) : (s.storeBit b).wt = s.wt := rfl
@[simp] theorem State.storeBit_src (b : Bool) : (s.storeBit b).src = s.src := rfl
@[simp] theorem State.storeBit_snk (b : Bool) : (s.storeBit b).snk = s.snk := rfl
@[simp] theorem State.storeBit_host (b : Bool) : (s.storeBit b).host = s.host := rfl
@[simp] theorem State.storeBit_opResult (b : Bool) : (s.storeBit b).opResult = s.opResult := rfl

@[simp] theorem State.loadPairs_cfg (n : Nat) (d : List Byte) : (s.loadPairs n d).cfg = s.cfg := rfl
@[simp] theorem State.loadPairs_phase (n : Nat) (d : List Byte) : (s.loadPairs n d).phase = s.phase := rfl
@[simp] theorem State.loadPairs_nextCode (n : Nat) (d : List Byte) : (s.loadPairs n d).nextCode = s.nextCode := rfl
@[simp] theorem State.loadPairs_curCode (n : Nat) (d : List Byte) : (s.loadPairs n d).curCode = s.curCode := rfl
@[simp] theorem State.loadPairs_prevCode (n : Nat) (d : List Byte) : (s.loadPairs n d).prevCode = s.prevCode := rfl
@[simp] theorem State.loadPairs_prevSym (n : Nat) (d : List Byte) : (s.loadPairs n d).prevSym = s.prevSym := rfl
@[simp] theorem State.loadPairs_symCur (n : Nat) (d : List Byte) : (s.loadPairs n d).symCur = s.symCur := rfl
@[simp] theorem State.loadPairs_symLen (n : Nat) (d : List Byte) : (s.loadPairs n d).symLen = s.symLen := rfl
@[simp] theorem State.loadPairs_symEnd (n : Nat) (d : List Byte) : (s.loadPairs n d).symEnd = s.symEnd := rfl
@[simp] theorem State.loadPairs_bitCur (n : Nat) (d : List Byte) : (s.loadPairs n d).bitCur = 0 := rfl
@[simp] theorem State.loadPairs_pairLen (n : Nat) (d : List Byte) : (s.loadPairs n d).pairLen = d.length := rfl
@[simp] theorem State.loadPairs_pairEnd (n : Nat) (d : List Byte) : (s.loadPairs n d).pairEnd = (s.pairEnd || decide (d.length < n)) := rfl
@[simp] theorem State.loadPairs_done (n : Nat) (d : List Byte) : (s.loadPairs n d).done = s.done := rfl
@[simp] theorem State.loadPairs_cmdRej (n : Nat) (d : List Byte) : (s.loadPairs n d).cmdRej = s.cmdRej := rfl
@[simp] theorem State.loadPairs_hdrOk (n : Nat) (d : List Byte) : (s.loadPairs n d).hdrOk = s.hdrOk := rfl
@[simp] theorem State.loadPairs_cause (n : Nat) (d : List Byte) : (s.loadPairs n d).cause = s.cause := rfl
@[simp] theorem State.loadPairs_faultInfo (n : Nat) (d : List Byte) : (s.loadPairs n d).faultInfo = s.faultInfo := rfl
@[simp] theorem State.loadPairs_permIn (n : Nat) (d : List Byte) : (s.loadPairs n d).permIn = s.permIn := rfl
@[simp] theorem State.loadPairs_permOut (n : Nat) (d : List Byte) : (s.loadPairs n d).permOut = s.permOut := rfl
@[simp] theorem State.loadPairs_totalSyms (n : Nat) (d : List Byte) : (s.loadPairs n d).totalSyms = s.totalSyms := rfl
@[simp] theorem State.loadPairs_totalBits (n : Nat) (d : List Byte) : (s.loadPairs n d).totalBits = s.totalBits := rfl
@[simp] theorem State.loadPairs_symBuf (n : Nat) (d : List Byte) : (s.loadPairs n d).symBuf = s.symBuf := rfl
@[simp] theorem State.loadPairs_pairBuf (n : Nat) (d : List Byte) : (s.loadPairs n d).pairBuf = s.pairBuf.writeList 0 (d.flatMap byteBits) := rfl
@[simp] theorem State.loadPairs_child (n : Nat) (d : List Byte) : (s.loadPairs n d).child = s.child := rfl
@[simp] theorem State.loadPairs_wt (n : Nat) (d : List Byte) : (s.loadPairs n d).wt = s.wt := rfl
@[simp] theorem State.loadPairs_src (n : Nat) (d : List Byte) : (s.loadPairs n d).src = s.src := rfl
@[simp] theorem State.loadPairs_snk (n : Nat) (d : List Byte) : (s.loadPairs n d).snk = s.snk := rfl
@[simp] theorem State.loadPairs_host (n : Nat) (d : List Byte) : (s.loadPairs n d).host = s.host := rfl
@[simp] theorem State.loadPairs_opResult (n : Nat) (d : List Byte) : (s.loadPairs n d).opResult = s.opResult := rfl

@[simp] theorem State.emptyTrie_cfg : s.emptyTrie.cfg = s.cfg := rfl
@[simp] theorem State.emptyTrie_phase : s.emptyTrie.phase = s.phase := rfl
@[simp] theorem State.emptyTrie_nextCode : s.emptyTrie.nextCode = s.nextCode := rfl
@[simp] theorem State.emptyTrie_curCode : s.emptyTrie.curCode = s.curCode := rfl
@[simp] theorem State.emptyTrie_prevCode : s.emptyTrie.prevCode = s.prevCode := rfl
@[simp] theorem State.emptyTrie_prevSym : s.emptyTrie.prevSym = s.prevSym := rfl
@[simp] theorem State.emptyTrie_symCur : s.emptyTrie.symCur = s.symCur := rfl
@[simp] theorem State.emptyTrie_symLen : s.emptyTrie.symLen = s.symLen := rfl
@[simp] theorem State.emptyTrie_symEnd : s.emptyTrie.symEnd = s.symEnd := rfl
@[simp] theorem State.emptyTrie_bitCur : s.emptyTrie.bitCur = s.bitCur := rfl
@[simp] theorem State.emptyTrie_pairLen : s.emptyTrie.pairLen = s.pairLen := rfl
@[simp] theorem State.emptyTrie_pairEnd : s.emptyTrie.pairEnd = s.pairEnd := rfl
@[simp] theorem State.emptyTrie_done : s.emptyTrie.done = s.done := rfl
@[simp] theorem State.emptyTrie_cmdRej : s.emptyTrie.cmdRej = s.cmdRej := rfl
@[simp] theorem State.emptyTrie_hdrOk : s.emptyTrie.hdrOk = s.hdrOk := rfl
@[simp] theorem State.emptyTrie_cause : s.emptyTrie.cause = s.cause := rfl
@[simp] theorem State.emptyTrie_faultInfo : s.emptyTrie.faultInfo = s.faultInfo := rfl
@[simp] theorem State.emptyTrie_permIn : s.emptyTrie.permIn = s.permIn := rfl
@[simp] theorem State.emptyTrie_permOut : s.emptyTrie.permOut = s.permOut := rfl
@[simp] theorem State.emptyTrie_totalSyms : s.emptyTrie.totalSyms = s.totalSyms := rfl
@[simp] theorem State.emptyTrie_totalBits : s.emptyTrie.totalBits = s.totalBits := rfl
@[simp] theorem State.emptyTrie_symBuf : s.emptyTrie.symBuf = s.symBuf := rfl
@[simp] theorem State.emptyTrie_pairBuf : s.emptyTrie.pairBuf = s.pairBuf := rfl
@[simp] theorem State.emptyTrie_child : s.emptyTrie.child = [] := rfl
@[simp] theorem State.emptyTrie_wt : s.emptyTrie.wt = s.wt := rfl
@[simp] theorem State.emptyTrie_src : s.emptyTrie.src = s.src := rfl
@[simp] theorem State.emptyTrie_snk : s.emptyTrie.snk = s.snk := rfl
@[simp] theorem State.emptyTrie_host : s.emptyTrie.host = s.host := rfl
@[simp] theorem State.emptyTrie_opResult : s.emptyTrie.opResult = s.opResult := rfl

@[simp] theorem State.emptyWt_cfg (P : Params) : (s.emptyWt P).cfg = s.cfg := rfl
@[simp] theorem State.emptyWt_phase (P : Params) : (s.emptyWt P).phase = s.phase := rfl
@[simp] theorem State.emptyWt_nextCode (P : Params) : (s.emptyWt P).nextCode = s.nextCode := rfl
@[simp] theorem State.emptyWt_curCode (P : Params) : (s.emptyWt P).curCode = s.curCode := rfl
@[simp] theorem State.emptyWt_prevCode (P : Params) : (s.emptyWt P).prevCode = s.prevCode := rfl
@[simp] theorem State.emptyWt_prevSym (P : Params) : (s.emptyWt P).prevSym = s.prevSym := rfl
@[simp] theorem State.emptyWt_symCur (P : Params) : (s.emptyWt P).symCur = s.symCur := rfl
@[simp] theorem State.emptyWt_symLen (P : Params) : (s.emptyWt P).symLen = s.symLen := rfl
@[simp] theorem State.emptyWt_symEnd (P : Params) : (s.emptyWt P).symEnd = s.symEnd := rfl
@[simp] theorem State.emptyWt_bitCur (P : Params) : (s.emptyWt P).bitCur = s.bitCur := rfl
@[simp] theorem State.emptyWt_pairLen (P : Params) : (s.emptyWt P).pairLen = s.pairLen := rfl
@[simp] theorem State.emptyWt_pairEnd (P : Params) : (s.emptyWt P).pairEnd = s.pairEnd := rfl
@[simp] theorem State.emptyWt_done (P : Params) : (s.emptyWt P).done = s.done := rfl
@[simp] theorem State.emptyWt_cmdRej (P : Params) : (s.emptyWt P).cmdRej = s.cmdRej := rfl
@[simp] theorem State.emptyWt_hdrOk (P : Params) : (s.emptyWt P).hdrOk = s.hdrOk := rfl
@[simp] theorem State.emptyWt_cause (P : Params) : (s.emptyWt P).cause = s.cause := rfl
@[simp] theorem State.emptyWt_faultInfo (P : Params) : (s.emptyWt P).faultInfo = s.faultInfo := rfl
@[simp] theorem State.emptyWt_permIn (P : Params) : (s.emptyWt P).permIn = s.permIn := rfl
@[simp] theorem State.emptyWt_permOut (P : Params) : (s.emptyWt P).permOut = s.permOut := rfl
@[simp] theorem State.emptyWt_totalSyms (P : Params) : (s.emptyWt P).totalSyms = s.totalSyms := rfl
@[simp] theorem State.emptyWt_totalBits (P : Params) : (s.emptyWt P).totalBits = s.totalBits := rfl
@[simp] theorem State.emptyWt_symBuf (P : Params) : (s.emptyWt P).symBuf = s.symBuf := rfl
@[simp] theorem State.emptyWt_pairBuf (P : Params) : (s.emptyWt P).pairBuf = s.pairBuf := rfl
@[simp] theorem State.emptyWt_child (P : Params) : (s.emptyWt P).child = s.child := rfl
@[simp] theorem State.emptyWt_wt (P : Params) : (s.emptyWt P).wt = [(P.emptyCode.toNat, [])] := rfl
@[simp] theorem State.emptyWt_src (P : Params) : (s.emptyWt P).src = s.src := rfl
@[simp] theorem State.emptyWt_snk (P : Params) : (s.emptyWt P).snk = s.snk := rfl
@[simp] theorem State.emptyWt_host (P : Params) : (s.emptyWt P).host = s.host := rfl
@[simp] theorem State.emptyWt_opResult (P : Params) : (s.emptyWt P).opResult = s.opResult := rfl

@[simp] theorem State.hit_cfg (d : Code) : (s.hit d).cfg = s.cfg := rfl
@[simp] theorem State.hit_phase (d : Code) : (s.hit d).phase = s.phase := rfl
@[simp] theorem State.hit_nextCode (d : Code) : (s.hit d).nextCode = s.nextCode := rfl
@[simp] theorem State.hit_curCode (d : Code) : (s.hit d).curCode = d := rfl
@[simp] theorem State.hit_prevCode (d : Code) : (s.hit d).prevCode = s.curCode := rfl
@[simp] theorem State.hit_prevSym (d : Code) : (s.hit d).prevSym = s.prevSym := rfl
@[simp] theorem State.hit_symCur (d : Code) : (s.hit d).symCur = s.symCur := rfl
@[simp] theorem State.hit_symLen (d : Code) : (s.hit d).symLen = s.symLen := rfl
@[simp] theorem State.hit_symEnd (d : Code) : (s.hit d).symEnd = s.symEnd := rfl
@[simp] theorem State.hit_bitCur (d : Code) : (s.hit d).bitCur = s.bitCur := rfl
@[simp] theorem State.hit_pairLen (d : Code) : (s.hit d).pairLen = s.pairLen := rfl
@[simp] theorem State.hit_pairEnd (d : Code) : (s.hit d).pairEnd = s.pairEnd := rfl
@[simp] theorem State.hit_done (d : Code) : (s.hit d).done = s.done := rfl
@[simp] theorem State.hit_cmdRej (d : Code) : (s.hit d).cmdRej = s.cmdRej := rfl
@[simp] theorem State.hit_hdrOk (d : Code) : (s.hit d).hdrOk = s.hdrOk := rfl
@[simp] theorem State.hit_cause (d : Code) : (s.hit d).cause = s.cause := rfl
@[simp] theorem State.hit_faultInfo (d : Code) : (s.hit d).faultInfo = s.faultInfo := rfl
@[simp] theorem State.hit_permIn (d : Code) : (s.hit d).permIn = s.permIn := rfl
@[simp] theorem State.hit_permOut (d : Code) : (s.hit d).permOut = s.permOut := rfl
@[simp] theorem State.hit_totalSyms (d : Code) : (s.hit d).totalSyms = s.totalSyms := rfl
@[simp] theorem State.hit_totalBits (d : Code) : (s.hit d).totalBits = s.totalBits := rfl
@[simp] theorem State.hit_symBuf (d : Code) : (s.hit d).symBuf = s.symBuf := rfl
@[simp] theorem State.hit_pairBuf (d : Code) : (s.hit d).pairBuf = s.pairBuf := rfl
@[simp] theorem State.hit_child (d : Code) : (s.hit d).child = s.child := rfl
@[simp] theorem State.hit_wt (d : Code) : (s.hit d).wt = s.wt := rfl
@[simp] theorem State.hit_src (d : Code) : (s.hit d).src = s.src := rfl
@[simp] theorem State.hit_snk (d : Code) : (s.hit d).snk = s.snk := rfl
@[simp] theorem State.hit_host (d : Code) : (s.hit d).host = s.host := rfl
@[simp] theorem State.hit_opResult (d : Code) : (s.hit d).opResult = s.opResult := rfl

@[simp] theorem State.stopPair_cfg : s.stopPair.cfg = s.cfg := rfl
@[simp] theorem State.stopPair_phase : s.stopPair.phase = .decTail := rfl
@[simp] theorem State.stopPair_nextCode : s.stopPair.nextCode = s.nextCode := rfl
@[simp] theorem State.stopPair_curCode : s.stopPair.curCode = s.curCode := rfl
@[simp] theorem State.stopPair_prevCode : s.stopPair.prevCode = s.prevCode := rfl
@[simp] theorem State.stopPair_prevSym : s.stopPair.prevSym = s.prevSym := rfl
@[simp] theorem State.stopPair_symCur : s.stopPair.symCur = s.symCur := rfl
@[simp] theorem State.stopPair_symLen : s.stopPair.symLen = s.symLen := rfl
@[simp] theorem State.stopPair_symEnd : s.stopPair.symEnd = s.symEnd := rfl
@[simp] theorem State.stopPair_bitCur : s.stopPair.bitCur = s.bitCur := rfl
@[simp] theorem State.stopPair_pairLen : s.stopPair.pairLen = s.pairLen := rfl
@[simp] theorem State.stopPair_pairEnd : s.stopPair.pairEnd = s.pairEnd := rfl
@[simp] theorem State.stopPair_done : s.stopPair.done = s.done := rfl
@[simp] theorem State.stopPair_cmdRej : s.stopPair.cmdRej = s.cmdRej := rfl
@[simp] theorem State.stopPair_hdrOk : s.stopPair.hdrOk = s.hdrOk := rfl
@[simp] theorem State.stopPair_cause : s.stopPair.cause = s.cause := rfl
@[simp] theorem State.stopPair_faultInfo : s.stopPair.faultInfo = s.faultInfo := rfl
@[simp] theorem State.stopPair_permIn : s.stopPair.permIn = s.permIn := rfl
@[simp] theorem State.stopPair_permOut : s.stopPair.permOut = s.permOut := rfl
@[simp] theorem State.stopPair_totalSyms : s.stopPair.totalSyms = s.totalSyms := rfl
@[simp] theorem State.stopPair_totalBits : s.stopPair.totalBits = s.totalBits := rfl
@[simp] theorem State.stopPair_symBuf : s.stopPair.symBuf = s.symBuf := rfl
@[simp] theorem State.stopPair_pairBuf : s.stopPair.pairBuf = s.pairBuf := rfl
@[simp] theorem State.stopPair_child : s.stopPair.child = s.child := rfl
@[simp] theorem State.stopPair_wt : s.stopPair.wt = s.wt := rfl
@[simp] theorem State.stopPair_src : s.stopPair.src = s.src := rfl
@[simp] theorem State.stopPair_snk : s.stopPair.snk = s.snk := rfl
@[simp] theorem State.stopPair_host : s.stopPair.host = s.host := rfl
@[simp] theorem State.stopPair_opResult : s.stopPair.opResult = s.opResult := rfl

@[simp] theorem State.popAct_cfg : s.popAct.cfg = s.cfg := rfl
@[simp] theorem State.popAct_phase : s.popAct.phase = s.phase := rfl
@[simp] theorem State.popAct_nextCode : s.popAct.nextCode = s.nextCode := rfl
@[simp] theorem State.popAct_curCode : s.popAct.curCode = s.curCode := rfl
@[simp] theorem State.popAct_prevCode : s.popAct.prevCode = s.prevCode := rfl
@[simp] theorem State.popAct_prevSym : s.popAct.prevSym = s.prevSym := rfl
@[simp] theorem State.popAct_symCur : s.popAct.symCur = s.symCur := rfl
@[simp] theorem State.popAct_symLen : s.popAct.symLen = s.symLen := rfl
@[simp] theorem State.popAct_symEnd : s.popAct.symEnd = s.symEnd := rfl
@[simp] theorem State.popAct_bitCur : s.popAct.bitCur = s.bitCur := rfl
@[simp] theorem State.popAct_pairLen : s.popAct.pairLen = s.pairLen := rfl
@[simp] theorem State.popAct_pairEnd : s.popAct.pairEnd = s.pairEnd := rfl
@[simp] theorem State.popAct_done : s.popAct.done = s.done := rfl
@[simp] theorem State.popAct_cmdRej : s.popAct.cmdRej = s.cmdRej := rfl
@[simp] theorem State.popAct_hdrOk : s.popAct.hdrOk = s.hdrOk := rfl
@[simp] theorem State.popAct_cause : s.popAct.cause = s.cause := rfl
@[simp] theorem State.popAct_faultInfo : s.popAct.faultInfo = s.faultInfo := rfl
@[simp] theorem State.popAct_permIn : s.popAct.permIn = s.permIn := rfl
@[simp] theorem State.popAct_permOut : s.popAct.permOut = s.permOut := rfl
@[simp] theorem State.popAct_totalSyms : s.popAct.totalSyms = s.totalSyms := rfl
@[simp] theorem State.popAct_totalBits : s.popAct.totalBits = s.totalBits := rfl
@[simp] theorem State.popAct_symBuf : s.popAct.symBuf = s.symBuf := rfl
@[simp] theorem State.popAct_pairBuf : s.popAct.pairBuf = s.pairBuf := rfl
@[simp] theorem State.popAct_child : s.popAct.child = s.child := rfl
@[simp] theorem State.popAct_wt : s.popAct.wt = s.wt := rfl
@[simp] theorem State.popAct_src : s.popAct.src = s.src := rfl
@[simp] theorem State.popAct_snk : s.popAct.snk = s.snk := rfl
@[simp] theorem State.popAct_opResult : s.popAct.opResult = s.opResult := rfl
@[simp] theorem State.popAct_acts : s.popAct.host.acts = s.host.acts.tail := rfl
@[simp] theorem State.popAct_reads : s.popAct.host.reads = s.host.reads := rfl

@[simp] theorem State.enterFault_cfg (r : Raise) : (s.enterFault r).cfg = s.cfg := by unfold State.enterFault; split <;> rfl
@[simp] theorem State.enterFault_nextCode (r : Raise) : (s.enterFault r).nextCode = s.nextCode := by unfold State.enterFault; split <;> rfl
@[simp] theorem State.enterFault_curCode (r : Raise) : (s.enterFault r).curCode = s.curCode := by unfold State.enterFault; split <;> rfl
@[simp] theorem State.enterFault_prevCode (r : Raise) : (s.enterFault r).prevCode = s.prevCode := by unfold State.enterFault; split <;> rfl
@[simp] theorem State.enterFault_prevSym (r : Raise) : (s.enterFault r).prevSym = s.prevSym := by unfold State.enterFault; split <;> rfl
@[simp] theorem State.enterFault_symCur (r : Raise) : (s.enterFault r).symCur = s.symCur := by unfold State.enterFault; split <;> rfl
@[simp] theorem State.enterFault_symLen (r : Raise) : (s.enterFault r).symLen = s.symLen := by unfold State.enterFault; split <;> rfl
@[simp] theorem State.enterFault_symEnd (r : Raise) : (s.enterFault r).symEnd = s.symEnd := by unfold State.enterFault; split <;> rfl
@[simp] theorem State.enterFault_bitCur (r : Raise) : (s.enterFault r).bitCur = s.bitCur := by unfold State.enterFault; split <;> rfl
@[simp] theorem State.enterFault_pairLen (r : Raise) : (s.enterFault r).pairLen = s.pairLen := by unfold State.enterFault; split <;> rfl
@[simp] theorem State.enterFault_pairEnd (r : Raise) : (s.enterFault r).pairEnd = s.pairEnd := by unfold State.enterFault; split <;> rfl
@[simp] theorem State.enterFault_done (r : Raise) : (s.enterFault r).done = s.done := by unfold State.enterFault; split <;> rfl
@[simp] theorem State.enterFault_cmdRej (r : Raise) : (s.enterFault r).cmdRej = s.cmdRej := by unfold State.enterFault; split <;> rfl
@[simp] theorem State.enterFault_hdrOk (r : Raise) : (s.enterFault r).hdrOk = s.hdrOk := by unfold State.enterFault; split <;> rfl
@[simp] theorem State.enterFault_permIn (r : Raise) : (s.enterFault r).permIn = s.permIn := by unfold State.enterFault; split <;> rfl
@[simp] theorem State.enterFault_permOut (r : Raise) : (s.enterFault r).permOut = s.permOut := by unfold State.enterFault; split <;> rfl
@[simp] theorem State.enterFault_totalSyms (r : Raise) : (s.enterFault r).totalSyms = s.totalSyms := by unfold State.enterFault; split <;> rfl
@[simp] theorem State.enterFault_totalBits (r : Raise) : (s.enterFault r).totalBits = s.totalBits := by unfold State.enterFault; split <;> rfl
@[simp] theorem State.enterFault_symBuf (r : Raise) : (s.enterFault r).symBuf = s.symBuf := by unfold State.enterFault; split <;> rfl
@[simp] theorem State.enterFault_pairBuf (r : Raise) : (s.enterFault r).pairBuf = s.pairBuf := by unfold State.enterFault; split <;> rfl
@[simp] theorem State.enterFault_child (r : Raise) : (s.enterFault r).child = s.child := by unfold State.enterFault; split <;> rfl
@[simp] theorem State.enterFault_wt (r : Raise) : (s.enterFault r).wt = s.wt := by unfold State.enterFault; split <;> rfl
@[simp] theorem State.enterFault_src (r : Raise) : (s.enterFault r).src = s.src := by unfold State.enterFault; split <;> rfl
@[simp] theorem State.enterFault_snk (r : Raise) : (s.enterFault r).snk = s.snk := by unfold State.enterFault; split <;> rfl
@[simp] theorem State.enterFault_host (r : Raise) : (s.enterFault r).host = s.host := by unfold State.enterFault; split <;> rfl
@[simp] theorem State.enterFault_opResult (r : Raise) : (s.enterFault r).opResult = s.opResult := by unfold State.enterFault; split <;> rfl
@[simp] theorem State.enterFault_phase (r : Raise) : (s.enterFault r).phase = .fault := by
  unfold State.enterFault; split <;> simp_all

/-- Fault entry from a phase other than FAULT (R320). -/
theorem State.enterFault_of_ne (r : Raise) (h : s.phase ≠ .fault) :
    s.enterFault r = { s with cause := r.cause, faultInfo := r.info, phase := .fault } := if_neg h
/-- FAULT is sticky (R31, R325). -/
theorem State.enterFault_of_eq (r : Raise) (h : s.phase = .fault) : s.enterFault r = s := if_pos h

@[simp] theorem State.padByte_cfg : s.padByte.cfg = s.cfg := by unfold State.padByte; split <;> rfl
@[simp] theorem State.padByte_phase : s.padByte.phase = s.phase := by unfold State.padByte; split <;> rfl
@[simp] theorem State.padByte_nextCode : s.padByte.nextCode = s.nextCode := by unfold State.padByte; split <;> rfl
@[simp] theorem State.padByte_curCode : s.padByte.curCode = s.curCode := by unfold State.padByte; split <;> rfl
@[simp] theorem State.padByte_prevCode : s.padByte.prevCode = s.prevCode := by unfold State.padByte; split <;> rfl
@[simp] theorem State.padByte_prevSym : s.padByte.prevSym = s.prevSym := by unfold State.padByte; split <;> rfl
@[simp] theorem State.padByte_symCur : s.padByte.symCur = s.symCur := by unfold State.padByte; split <;> rfl
@[simp] theorem State.padByte_symLen : s.padByte.symLen = s.symLen := by unfold State.padByte; split <;> rfl
@[simp] theorem State.padByte_symEnd : s.padByte.symEnd = s.symEnd := by unfold State.padByte; split <;> rfl
@[simp] theorem State.padByte_bitCur : s.padByte.bitCur = s.bitCur := by unfold State.padByte; split <;> rfl
@[simp] theorem State.padByte_pairLen : s.padByte.pairLen = s.pairLen := by unfold State.padByte; split <;> rfl
@[simp] theorem State.padByte_pairEnd : s.padByte.pairEnd = s.pairEnd := by unfold State.padByte; split <;> rfl
@[simp] theorem State.padByte_done : s.padByte.done = s.done := by unfold State.padByte; split <;> rfl
@[simp] theorem State.padByte_cmdRej : s.padByte.cmdRej = s.cmdRej := by unfold State.padByte; split <;> rfl
@[simp] theorem State.padByte_hdrOk : s.padByte.hdrOk = s.hdrOk := by unfold State.padByte; split <;> rfl
@[simp] theorem State.padByte_cause : s.padByte.cause = s.cause := by unfold State.padByte; split <;> rfl
@[simp] theorem State.padByte_faultInfo : s.padByte.faultInfo = s.faultInfo := by unfold State.padByte; split <;> rfl
@[simp] theorem State.padByte_permIn : s.padByte.permIn = s.permIn := by unfold State.padByte; split <;> rfl
@[simp] theorem State.padByte_permOut : s.padByte.permOut = s.permOut := by unfold State.padByte; split <;> rfl
@[simp] theorem State.padByte_totalSyms : s.padByte.totalSyms = s.totalSyms := by unfold State.padByte; split <;> rfl
@[simp] theorem State.padByte_totalBits : s.padByte.totalBits = s.totalBits := by unfold State.padByte; split <;> rfl
@[simp] theorem State.padByte_symBuf : s.padByte.symBuf = s.symBuf := by unfold State.padByte; split <;> rfl
@[simp] theorem State.padByte_child : s.padByte.child = s.child := by unfold State.padByte; split <;> rfl
@[simp] theorem State.padByte_wt : s.padByte.wt = s.wt := by unfold State.padByte; split <;> rfl
@[simp] theorem State.padByte_src : s.padByte.src = s.src := by unfold State.padByte; split <;> rfl
@[simp] theorem State.padByte_snk : s.padByte.snk = s.snk := by unfold State.padByte; split <;> rfl
@[simp] theorem State.padByte_host : s.padByte.host = s.host := by unfold State.padByte; split <;> rfl
@[simp] theorem State.padByte_opResult : s.padByte.opResult = s.opResult := by unfold State.padByte; split <;> rfl

end

end Sys2Proof.Machine
end

