-- ==== Sys2Proof/Laws/Ports.lean ====
section
/-! SUPPORT. The transactions and their loops (R61, R62, R120 to R123): what they take and give in any case, and what
they do where the environment answers (R121). -/

namespace Sys2Proof.Machine

open Sys2Proof Sys2Proof.Safety

/-! ### The source -/

theorem SrcPort.draw_data (p : SrcPort) : p.draw.2.data = p.data ∧ p.draw.2.rest = p.rest := by
  unfold SrcPort.draw; split <;> exact ⟨rfl, rfl⟩

theorem SrcPort.draw_good {p : SrcPort} (h : srcGood p = true) :
    deliversData p.draw.1 = true ∧ srcGood p.draw.2 = true := by
  simp only [srcGood, Bool.and_eq_true, List.all_eq_true] at h
  unfold SrcPort.draw
  split
  · exact ⟨h.1, by simp_all [srcGood]⟩
  · rename_i a as hp
    refine ⟨h.2 a (by simp [hp]), ?_⟩
    simp only [srcGood, Bool.and_eq_true, List.all_eq_true]
    exact ⟨h.1, fun b hb => h.2 b (by simp [hp, hb])⟩

/-- One `SRC.read` (R61): `Data` is a non-empty run of the next bytes, no longer than asked for; the other answers
consume nothing. -/
theorem SrcPort.read_cases {n : Nat} {p q : SrcPort} {r : SrcReply} (hn : 1 ≤ n) (h : p.read n = some (r, q)) :
    q.rest = p.rest ∧
      ((∃ d, r = .data d ∧ p.data = d ++ q.data ∧ 1 ≤ d.length ∧ d.length ≤ n) ∨
        (r = .eof ∧ q.data = p.data) ∨ (r = .error ∧ q.data = p.data)) := by
  obtain ⟨h1, h2⟩ := p.draw_data
  unfold SrcPort.read at h
  split at h
  · split at h
    · cases h; exact ⟨h2, .inr (.inl ⟨rfl, h1⟩)⟩
    · rename_i b bs hd
      cases h
      refine ⟨h2, .inl ⟨_, rfl, ?_, ?_, ?_⟩⟩
      · simp [← h1, hd]
      · simp; omega
      · simp only [List.length_take]; omega
  · cases h; exact ⟨h2, .inr (.inl ⟨rfl, h1⟩)⟩
  · cases h; exact ⟨h2, .inr (.inr ⟨rfl, h1⟩)⟩
  · cases h

/-- One `SRC.read` of a source that answers: `Data` if it has bytes, else `Eof`. -/
theorem SrcPort.read_good {n : Nat} {p : SrcPort} (hn : 1 ≤ n) (hg : srcGood p = true) :
    ∃ q, srcGood q = true ∧ q.rest = p.rest ∧
      ((p.data = [] ∧ q.data = [] ∧ p.read n = some (.eof, q)) ∨
        ∃ d, p.data = d ++ q.data ∧ 1 ≤ d.length ∧ d.length ≤ n ∧ p.read n = some (.data d, q)) := by
  obtain ⟨h1, h2⟩ := p.draw_data
  obtain ⟨hd, hq⟩ := SrcPort.draw_good hg
  unfold SrcPort.read
  split
  · split
    · rename_i hnil
      exact ⟨_, hq, h2, .inl ⟨by rw [← h1, hnil], hnil, rfl⟩⟩
    · rename_i k _ _ b bs hb
      refine ⟨{ p.draw.2 with data := (b :: bs).drop (min (k + 1) n) }, ?_, h2, .inr ⟨_, ?_, ?_, ?_, rfl⟩⟩
      · simpa [srcGood] using hq
      · simp [← h1, hb]
      · simp; omega
      · simp only [List.length_take]; omega
  all_goals simp_all [deliversData]

/-- READ_BYTES in any environment (R120, R72): what it delivers is what it takes from the front of the stream. -/
theorem SrcPort.readLoop_ok {fuel n : Nat} {acc d : List Byte} {p q : SrcPort}
    (h : SrcPort.readLoop fuel n acc p = .ok d q) :
    q.rest = p.rest ∧ ∃ x, d = acc ++ x ∧ p.data = x ++ q.data ∧ x.length ≤ n - acc.length := by
  induction fuel generalizing acc p with
  | zero => simp only [SrcPort.readLoop, SrcLoop.ok.injEq] at h; exact ⟨by rw [h.2], [], by simp [h.1], by simp [h.2], by simp⟩
  | succ fuel ih =>
    unfold SrcPort.readLoop at h
    split at h
    · rename_i hlt
      split at h
      · cases h
      · rename_i x p' hr
        obtain ⟨hrest, hc⟩ := SrcPort.read_cases (by omega) hr
        obtain ⟨y, rfl, h2, h3⟩ := ih h |>.2
        rcases hc with ⟨_, hx, hp, _, hl⟩ | ⟨hx, -⟩ | ⟨hx, -⟩
        · cases hx
          refine ⟨(ih h).1.trans hrest, x ++ y, by simp, by simp [hp, h2], ?_⟩
          simp only [List.length_append] at h3 ⊢; omega
        · cases hx
        · cases hx
      · rename_i p' hr
        cases h
        obtain ⟨hrest, ⟨_, hx, -⟩ | ⟨-, hp⟩ | ⟨hx, -⟩⟩ := SrcPort.read_cases (by omega) hr
        · cases hx
        · exact ⟨hrest, [], by simp, by simp [hp], by simp⟩
        · cases hx
      · cases h
    · cases h; exact ⟨rfl, [], by simp, by simp, by simp⟩

/-- READ_BYTES that meets an `Error` has taken some bytes from the front of the stream. -/
theorem SrcPort.readLoop_error {fuel n : Nat} {acc : List Byte} {p q : SrcPort}
    (h : SrcPort.readLoop fuel n acc p = .error q) : q.rest = p.rest ∧ ∃ x, p.data = x ++ q.data := by
  induction fuel generalizing acc p with
  | zero => cases h
  | succ fuel ih =>
    unfold SrcPort.readLoop at h
    split at h
    · rename_i hlt
      split at h
      · cases h
      · rename_i x p' hr
        obtain ⟨h1, y, h2⟩ := ih h
        obtain ⟨hrest, ⟨_, hx, hp, -⟩ | ⟨hx, -⟩ | ⟨hx, -⟩⟩ := SrcPort.read_cases (by omega) hr
        · cases hx; exact ⟨h1.trans hrest, x ++ y, by simp [hp, h2]⟩
        · cases hx
        · cases hx
      · cases h
      · rename_i p' hr
        cases h
        obtain ⟨hrest, ⟨_, hx, -⟩ | ⟨hx, -⟩ | ⟨-, hp⟩⟩ := SrcPort.read_cases (by omega) hr
        · cases hx
        · cases hx
        · exact ⟨hrest, [], by simp [hp]⟩
    · cases h

/-- READ_BYTES on a source that answers takes `n` bytes or all there are, however the answers are split (R121). -/
theorem SrcPort.readLoop_good {fuel n : Nat} {acc : List Byte} {p : SrcPort} (hg : srcGood p = true)
    (hf : n - acc.length ≤ fuel) :
    ∃ q, SrcPort.readLoop fuel n acc p = .ok (acc ++ p.data.take (n - acc.length)) q ∧
      q.data = p.data.drop (n - acc.length) ∧ srcGood q = true ∧ q.rest = p.rest := by
  induction fuel generalizing acc p with
  | zero =>
    have : n - acc.length = 0 := by omega
    exact ⟨p, by simp [SrcPort.readLoop, this], by simp [this], hg, rfl⟩
  | succ fuel ih =>
    unfold SrcPort.readLoop
    by_cases hlt : acc.length < n
    · rw [if_pos hlt]
      obtain ⟨q, hq, hrest, ⟨hp, hq0, hr⟩ | ⟨d, hp, hd1, hd2, hr⟩⟩ :=
        SrcPort.read_good (n := n - acc.length) (by omega) hg
      · rw [hr]; exact ⟨q, by simp [hp], by simp [hp, hq0], hq, hrest⟩
      · rw [hr]
        obtain ⟨r, h1, h2, h3, h4⟩ := ih (acc := acc ++ d) (p := q) hq (by simp; omega)
        have hsub : n - acc.length = d.length + (n - (acc ++ d).length) := by simp; omega
        refine ⟨r, ?_, ?_, h3, h4.trans hrest⟩
        · show SrcPort.readLoop fuel n (acc ++ d) q = _
          rw [h1, hp, hsub, List.take_length_add_append, List.append_assoc]
        · rw [h2, hp, hsub, List.drop_length_add_append]
    · rw [if_neg hlt]
      have : n - acc.length = 0 := by omega
      exact ⟨p, by simp [this], by simp [this], hg, rfl⟩

/-! ### The sink -/

theorem SnkPort.draw_data (p : SnkPort) : p.draw.2.data = p.data ∧ p.draw.2.rest = p.rest := by
  unfold SnkPort.draw; split <;> exact ⟨rfl, rfl⟩

theorem SnkPort.draw_good {p : SnkPort} (h : snkGood p = true) :
    acceptsSome p.draw.1 = true ∧ snkGood p.draw.2 = true := by
  simp only [snkGood, Bool.and_eq_true, List.all_eq_true] at h
  unfold SnkPort.draw
  split
  · exact ⟨h.1, by simp_all [snkGood]⟩
  · rename_i a as hp
    refine ⟨h.2 a (by simp [hp]), ?_⟩
    simp only [snkGood, Bool.and_eq_true, List.all_eq_true]
    exact ⟨h.1, fun b hb => h.2 b (by simp [hp, hb])⟩

/-- One `SNK.write` (R62): `Accepted(k)` appends the first `k` bytes offered, `Error` none. -/
theorem SnkPort.write_cases {d : List Byte} {p q : SnkPort} {r : SnkReply} (h : p.write d = some (r, q)) :
    q.rest = p.rest ∧
      ((∃ k, r = .accepted k ∧ k ≤ d.length ∧ q.data = p.data ++ d.take k) ∨ (r = .error ∧ q.data = p.data)) := by
  obtain ⟨h1, h2⟩ := p.draw_data
  unfold SnkPort.write at h
  split at h
  · cases h; exact ⟨h2, .inl ⟨_, rfl, by omega, by simp [h1]⟩⟩
  · cases h; exact ⟨h2, .inr ⟨rfl, h1⟩⟩
  · cases h

theorem SnkPort.write_good {d : List Byte} {p : SnkPort} (hd : 1 ≤ d.length) (hg : snkGood p = true) :
    ∃ k q, p.write d = some (.accepted (k + 1), q) ∧ k + 1 ≤ d.length ∧ q.data = p.data ++ d.take (k + 1) ∧
      snkGood q = true ∧ q.rest = p.rest := by
  obtain ⟨h1, h2⟩ := p.draw_data
  obtain ⟨ha, hq⟩ := SnkPort.draw_good hg
  unfold SnkPort.write
  split
  · rename_i k hk
    have hk1 : 1 ≤ k := by simpa [hk, acceptsSome] using ha
    have hm : min k d.length = (min k d.length - 1) + 1 := by omega
    refine ⟨min k d.length - 1, { p.draw.2 with data := p.draw.2.data ++ d.take (min k d.length) }, ?_, by omega,
      by rw [← hm, ← h1], ?_, h2⟩
    · rw [← hm]
    · simpa [snkGood] using hq
  all_goals simp_all [acceptsSome]

/-- WRITE_BYTES that ends has appended all of `d`, in any environment (R122). -/
theorem SnkPort.writeLoop_ok {fuel : Nat} {d : List Byte} {p q : SnkPort} (hf : d.length ≤ fuel)
    (h : SnkPort.writeLoop fuel d p = .ok q) : q.data = p.data ++ d ∧ q.rest = p.rest := by
  induction fuel generalizing d p with
  | zero =>
    have : d = [] := List.length_eq_zero_iff.1 (by omega)
    simp only [SnkPort.writeLoop, SnkLoop.ok.injEq] at h
    simp [this, h]
  | succ fuel ih =>
    unfold SnkPort.writeLoop at h
    split at h
    · cases h; simp
    · split at h
      · cases h
      · cases h
      · rename_i k q' hw
        obtain ⟨hrest, ⟨_, hk, hl, hd⟩ | ⟨hk, -⟩⟩ := SnkPort.write_cases hw
        · cases hk
          obtain ⟨h1, h2⟩ := ih (by simp at hf ⊢; omega) h
          exact ⟨by rw [h1, hd, List.append_assoc, List.take_append_drop], h2.trans hrest⟩
        · cases hk
      · cases h

/-- WRITE_BYTES that meets an error has appended a prefix of `d` (R322). -/
theorem SnkPort.writeLoop_error {fuel : Nat} {d : List Byte} {p q : SnkPort}
    (h : SnkPort.writeLoop fuel d p = .error q) :
    q.rest = p.rest ∧ ∃ x, x <+: d ∧ q.data = p.data ++ x := by
  induction fuel generalizing d p with
  | zero => cases h
  | succ fuel ih =>
    unfold SnkPort.writeLoop at h
    split at h
    · cases h
    · split at h
      · cases h
      · rename_i q' hw
        cases h
        obtain ⟨hrest, ⟨_, hk, -, hd⟩ | ⟨hk, -⟩⟩ := SnkPort.write_cases hw
        · cases hk; exact ⟨hrest, [], by simp, by simpa using hd⟩
        · cases hk
      · rename_i k q' hw
        obtain ⟨hrest, ⟨_, hk, hl, hd⟩ | ⟨hk, -⟩⟩ := SnkPort.write_cases hw
        · cases hk
          obtain ⟨h2, x, ⟨y, hx⟩, h1⟩ := ih h
          refine ⟨h2.trans hrest, _, ⟨y, ?_⟩, by rw [h1, hd, List.append_assoc]⟩
          rw [List.append_assoc, hx, List.take_append_drop]
        · cases hk
      · rename_i q' hw
        cases h
        obtain ⟨hrest, ⟨_, hk, -⟩ | ⟨-, hd⟩⟩ := SnkPort.write_cases hw
        · cases hk
        · exact ⟨hrest, [], by simp, by simpa using hd⟩

/-- WRITE_BYTES to a sink that answers appends all of `d`, however the answers are split (R122). -/
theorem SnkPort.writeLoop_good {fuel : Nat} {d : List Byte} {p : SnkPort} (hg : snkGood p = true)
    (hf : d.length ≤ fuel) :
    ∃ q, SnkPort.writeLoop fuel d p = .ok q ∧ q.data = p.data ++ d ∧ snkGood q = true ∧ q.rest = p.rest := by
  induction fuel generalizing d p with
  | zero =>
    have : d = [] := List.length_eq_zero_iff.1 (by omega)
    exact ⟨p, by simp [SnkPort.writeLoop], by simp [this], hg, rfl⟩
  | succ fuel ih =>
    unfold SnkPort.writeLoop
    split
    · exact ⟨p, rfl, by simp, hg, rfl⟩
    · rename_i b bs
      obtain ⟨k, q, hw, hl, hd, hq, hrest⟩ := SnkPort.write_good (d := b :: bs) (by simp) hg
      rw [hw]
      obtain ⟨r, h1, h2, h3, h4⟩ := ih (d := (b :: bs).drop (k + 1)) hq (by simp at hf ⊢; omega)
      exact ⟨r, h1, by rw [h2, hd, List.append_assoc, List.take_append_drop], h3, h4.trans hrest⟩

end Sys2Proof.Machine
end

