-- ==== Sys2Proof/Laws/Ops.lean ====
section
/-! SUPPORT. How the outcomes of operations compose (R15, R320, R321), and what the block transfers do (R120, R122). -/

namespace Sys2Proof.Machine

open Sys2Proof Sys2Proof.Safety

variable {α β : Type}

@[simp] theorem Res.bind_ok (a : α) (s : State) (k : α → State → Res β) : (Res.ok a s).bind k = k a s := rfl
@[simp] theorem Res.bind_raise (f : Raise) (s : State) (k : α → State → Res β) :
    (Res.raise f s : Res α).bind k = .raise f s := rfl
@[simp] theorem Res.bind_stop (f : Fault) (k : α → State → Res β) : (Res.stop f : Res α).bind k = .stop f := rfl

@[simp] theorem Res.outcome_ok (a : α) (s : State) (k : α → State → State) :
    (Res.ok a s).outcome k = .next (k a s) := rfl
@[simp] theorem Res.outcome_raise (f : Raise) (s : State) (k : α → State → State) :
    (Res.raise f s : Res α).outcome k = .next (s.enterFault f) := rfl
@[simp] theorem Res.outcome_stop (f : Fault) (k : α → State → State) : (Res.stop f : Res α).outcome k = .fault f := rfl
@[simp] theorem noResult_eq (u : Unit) (s : State) : noResult u s = s := rfl

/-- A compound operation ends with a result exactly if both its parts do. -/
theorem Res.bind_eq_ok {r : Res α} {k : α → State → Res β} {b : β} {t : State} :
    r.bind k = .ok b t ↔ ∃ a s, r = .ok a s ∧ k a s = .ok b t := by
  cases r <;> simp [Res.bind]

/-- A compound operation raises exactly if a part does. -/
theorem Res.bind_eq_raise {r : Res α} {k : α → State → Res β} {f : Raise} {t : State} :
    r.bind k = .raise f t ↔ r = .raise f t ∨ ∃ a s, r = .ok a s ∧ k a s = .raise f t := by
  cases r <;> simp [Res.bind]

theorem Res.bind_eq_stop {r : Res α} {k : α → State → Res β} {f : Fault} :
    r.bind k = .stop f ↔ r = .stop f ∨ ∃ a s, r = .ok a s ∧ k a s = .stop f := by
  cases r <;> simp [Res.bind]

theorem Res.outcome_eq_next {r : Res α} {k : α → State → State} {t : State} :
    r.outcome k = .next t ↔ (∃ a s, r = .ok a s ∧ k a s = t) ∨ ∃ f s, r = .raise f s ∧ s.enterFault f = t := by
  cases r <;> simp [Res.outcome]

theorem Res.outcome_eq_fault {r : Res α} {k : α → State → State} {f : Fault} :
    r.outcome k = .fault f ↔ r = .stop f := by
  cases r <;> simp [Res.outcome]

theorem Res.outcome_ne_refused {r : Res α} {k : α → State → State} {f : Refusal} : r.outcome k ≠ .refused f := by
  cases r <;> simp [Res.outcome]

/-- What holds of the state an operation leaves, whether it ends or raises (R321). -/
def Res.Leaves (r : Res α) (Q : State → Prop) : Prop :=
  match r with
  | .ok _ t => Q t
  | .raise _ t => Q t
  | .stop _ => True

theorem Res.Leaves.mono {r : Res α} {Q Q' : State → Prop} (h : r.Leaves Q) (hq : ∀ t, Q t → Q' t) : r.Leaves Q' := by
  cases r with
  | ok a t => exact hq t h
  | raise f t => exact hq t h
  | stop f => trivial

/-- A property that the rest of a compound operation keeps holds of what the whole leaves. -/
theorem Res.Leaves.bind {r : Res α} {k : α → State → Res β} {Q : State → Prop} (h : r.Leaves Q)
    (hk : ∀ a t, Q t → (k a t).Leaves Q) : (r.bind k).Leaves Q := by
  cases r with
  | ok a t => exact hk a t h
  | raise f t => exact h
  | stop f => trivial

/-- All that an operation can do: end with a result, raise, or stop. -/
def Res.Spec (r : Res α) (Q : α → State → Prop) (E : Raise → State → Prop) (N : Fault → Prop) : Prop :=
  match r with
  | .ok a t => Q a t
  | .raise f t => E f t
  | .stop f => N f

theorem Res.Spec.mono {r : Res α} {Q Q' : α → State → Prop} {E E' : Raise → State → Prop} {N N' : Fault → Prop}
    (h : r.Spec Q E N) (hq : ∀ a t, Q a t → Q' a t) (he : ∀ f t, E f t → E' f t) (hn : ∀ f, N f → N' f) :
    r.Spec Q' E' N' := by
  cases r with
  | ok a t => exact hq a t h
  | raise f t => exact he f t h
  | stop f => exact hn f h

theorem Res.Spec.bind {r : Res α} {k : α → State → Res β} {Q : α → State → Prop} {Q' : β → State → Prop}
    {E : Raise → State → Prop} {N : Fault → Prop} (h : r.Spec Q E N) (hk : ∀ a t, Q a t → (k a t).Spec Q' E N) :
    (r.bind k).Spec Q' E N := by
  cases r with
  | ok a t => exact hk a t h
  | raise f t => exact h
  | stop f => exact h

theorem Res.Spec.leaves {r : Res α} {Q : α → State → Prop} {E : Raise → State → Prop} {N : Fault → Prop}
    {F : State → Prop} (h : r.Spec Q E N) (hf : r.Leaves F) :
    r.Spec (fun a t => Q a t ∧ F t) (fun f t => E f t ∧ F t) N := by
  cases r with
  | ok a t => exact ⟨h, hf⟩
  | raise f t => exact ⟨h, hf⟩
  | stop f => exact h

/-- The only raise of a sink that does not answer well; `G` says that it does. -/
def snkFails (G : Prop) : Raise → State → Prop := fun f _ => f = ⟨.ioError, 1⟩ ∧ ¬ G

/-- The only stop of a port that does not answer well; `G` says that it does. -/
def mute (G : Prop) : Fault → Prop := fun f => f = .noAnswer ∧ ¬ G

/-! ### Block transfers -/

/-- READ_BYTES touches the source alone. -/
theorem readBytes_leaves (n : Nat) (s : State) : (readBytes n s).Leaves fun t => t = { s with src := t.src } := by
  unfold readBytes
  split <;> first | exact rfl | exact trivial

/-- READ_BYTES in any environment (R120): it delivers bytes from the front of the stream, at most `n`. -/
theorem readBytes_spec (n : Nat) (s : State) :
    (readBytes n s).Spec
      (fun d t => t = { s with src := t.src } ∧ s.src.data = d ++ t.src.data ∧ d.length ≤ n)
      (fun f t => f = ⟨.ioError, 0⟩ ∧ t = { s with src := t.src } ∧ ∃ x, s.src.data = x ++ t.src.data)
      (fun f => f = .noAnswer) := by
  unfold readBytes
  split
  · rename_i d p h
    obtain ⟨-, x, rfl, h2, h3⟩ := SrcPort.readLoop_ok h
    exact ⟨rfl, by simpa using h2, by simpa using h3⟩
  · rename_i p h
    exact ⟨rfl, rfl, (SrcPort.readLoop_error h).2⟩
  · rfl

/-- READ_BYTES on a source that answers (R121). -/
theorem readBytes_good {n : Nat} {s : State} (hg : srcGood s.src = true) :
    ∃ p, readBytes n s = .ok (s.src.data.take n) { s with src := p } ∧ p.data = s.src.data.drop n ∧
      srcGood p = true ∧ p.rest = s.src.rest := by
  obtain ⟨p, h1, h2, h3, h4⟩ := SrcPort.readLoop_good (fuel := n) (n := n) (acc := []) hg (by simp)
  refine ⟨p, ?_, by simpa using h2, h3, h4⟩
  unfold readBytes
  rw [h1]; simp

/-- WRITE_BYTES touches the sink alone. -/
theorem writeBytes_leaves (d : List Byte) (s : State) : (writeBytes d s).Leaves fun t => t = { s with snk := t.snk } := by
  unfold writeBytes
  split <;> first | exact rfl | exact trivial

/-- WRITE_BYTES (R122, R322): it appends all of `d`, or raises with a prefix appended; it does not fail on a sink that
answers. -/
theorem writeBytes_spec (G : Prop) (d : List Byte) (s : State) (hg : G → snkGood s.snk = true) :
    (writeBytes d s).Spec
      (fun _ t => t = { s with snk := t.snk } ∧ t.snk.data = s.snk.data ++ d ∧ (G → snkGood t.snk = true))
      (snkFails G) (mute G) := by
  by_cases h : snkGood s.snk = true
  · obtain ⟨p, h1, h2, h3, -⟩ := SnkPort.writeLoop_good (d := d) h le_rfl
    unfold writeBytes
    rw [h1]
    exact ⟨rfl, h2, fun _ => h3⟩
  · have hG : ¬ G := fun g => h (hg g)
    unfold writeBytes
    split
    · rename_i p hp
      exact ⟨rfl, (SnkPort.writeLoop_ok le_rfl hp).1, fun g => absurd g hG⟩
    · exact ⟨rfl, hG⟩
    · exact ⟨rfl, hG⟩

/-- WRITE_BYTES to a sink that answers. -/
theorem writeBytes_good {d : List Byte} {s : State} (hg : snkGood s.snk = true) :
    ∃ p, writeBytes d s = .ok () { s with snk := p } ∧ p.data = s.snk.data ++ d ∧ snkGood p = true ∧
      p.rest = s.snk.rest := by
  obtain ⟨p, h1, h2, h3, h4⟩ := SnkPort.writeLoop_good (d := d) hg le_rfl
  exact ⟨p, by unfold writeBytes; rw [h1], h2, h3, h4⟩

/-! ### Buffers -/

theorem fetchCells_of_readList {size : Nat} {m : Mem α} {i n : Nat} {vs : List α} (s : State) (hs : i + n ≤ size)
    (h : Mem.readList m i n = some vs) : fetchCells size m i n s = .ok vs s := by
  unfold fetchCells; rw [if_pos hs, h]

theorem fetchCells_leaves {size : Nat} {m : Mem α} {i n : Nat} (s : State) :
    (fetchCells size m i n s).Leaves fun t => t = s := by
  unfold fetchCells
  split
  · split <;> first | exact rfl | exact trivial
  · exact trivial

theorem fetchCell_of_read {size : Nat} {m : Mem α} {i : Nat} {v : α} (s : State) (hs : i < size)
    (h : Mem.read m i = some v) : fetchCell size m i s = .ok v s := by
  unfold fetchCell; rw [if_pos hs, h]

theorem fetchCell_leaves {size : Nat} {m : Mem α} {i : Nat} (s : State) :
    (fetchCell size m i s).Leaves fun t => t = s := by
  unfold fetchCell
  split
  · split <;> first | exact rfl | exact trivial
  · exact trivial

/-- A filled run can be read. -/
theorem readList_of_filled {m : Mem α} {n : Nat} (h : Filled m n) : ∃ vs, Mem.readList m 0 n = some vs := by
  induction n with
  | zero => exact ⟨[], rfl⟩
  | succ n ih =>
    obtain ⟨vs, hv⟩ := ih fun i hi => h i (by omega)
    obtain ⟨v, hr⟩ := Option.isSome_iff_exists.1 (h n (by omega))
    exact ⟨vs ++ [v], Mem.readList_add.2 ⟨vs, [v], hv, by simp [Mem.readList, hr], rfl⟩⟩

theorem filled_of_readList {m : Mem α} {n : Nat} {vs : List α} (h : Mem.readList m 0 n = some vs) : Filled m n := by
  obtain ⟨hl, hr⟩ := Mem.readList_eq_some.1 h
  intro i hi
  have := hr i hi
  rw [Nat.zero_add] at this
  rw [this, List.getElem?_eq_getElem (by omega)]; rfl

end Sys2Proof.Machine
end

