-- ==== Sys2Proof/Laws/BitChannel.lean ====
section
/-! SUPPORT. The bit channel: what its operations touch, and what they do to the sequences behind the buffers
(R140 to R152). -/

namespace Sys2Proof.Machine

open Sys2Proof Sys2Proof.Safety

/-! ### Write side -/

/-- What the write side of the bit channel may touch (R27), and what it keeps. -/
structure WritesBits (P : Params) (s t : State) : Prop where
  frame : t = { s with pairBuf := t.pairBuf, bitCur := t.bitCur, totalBits := t.totalBits, snk := t.snk }
  wf : Mem.wf s.pairBuf = true → Mem.wf t.pairBuf = true
  inside : Mem.inside s.pairBuf (8 * P.block) = true → s.bitCur ≤ 8 * P.block →
    Mem.inside t.pairBuf (8 * P.block) = true
  bitCur : s.bitCur ≤ 8 * P.block → t.bitCur ≤ 8 * P.block
  totalBits : s.totalBits < 2 ^ s.cfg.ctrBits → t.totalBits < 2 ^ t.cfg.ctrBits

theorem WritesBits.refl (P : Params) (s : State) : WritesBits P s s := ⟨rfl, id, fun h _ => h, id, id⟩

theorem WritesBits.trans {P : Params} {s t u : State} (h : WritesBits P s t) (k : WritesBits P t u) :
    WritesBits P s u :=
  ⟨k.frame.trans (congrArg (fun x : State => { x with
      pairBuf := u.pairBuf, bitCur := u.bitCur, totalBits := u.totalBits, snk := u.snk }) h.frame),
    k.wf ∘ h.wf, fun hi hc => k.inside (h.inside hi hc) (h.bitCur hc), k.bitCur ∘ h.bitCur,
    k.totalBits ∘ h.totalBits⟩

theorem WritesBits.cfg {P : Params} {s t : State} (h : WritesBits P s t) : t.cfg = s.cfg := by rw [h.frame]

theorem sendPairBytes_leaves (P : Params) (n : Nat) (s : State) :
    (sendPairBytes P n s).Leaves fun t => t = { s with snk := t.snk } := by
  unfold sendPairBytes
  refine Res.Leaves.bind (Q := fun t => t = { s with snk := t.snk }) ((fetchCells_leaves s).mono fun t h => by rw [h]) ?_
  intro d t h
  refine (writeBytes_leaves (bitsBytes d) t).mono fun u hu => ?_
  exact hu.trans (congrArg (fun x : State => { x with snk := u.snk }) h)

theorem writesBits_of_snk {P : Params} {s t : State} (h : t = { s with snk := t.snk }) : WritesBits P s t :=
  ⟨by rw [h], by rw [h]; exact id, by rw [h]; exact fun hi _ => hi, by rw [h]; exact id, by rw [h]; exact id⟩

theorem putBit_leaves (P : Params) (b : Bool) (s : State) : (putBit P b s).Leaves (WritesBits P s) := by
  unfold putBit
  split
  · rename_i h
    have hs : WritesBits P s (s.storeBit b) :=
      ⟨rfl, Mem.wf_write _ _, fun hi _ => Mem.inside_write _ hi h, fun _ => h, id⟩
    unfold sendFullPairs
    split
    · refine Res.Leaves.bind ((sendPairBytes_leaves P P.block _).mono fun t ht => hs.trans (writesBits_of_snk ht)) ?_
      exact fun _ t ht => ht.trans ⟨rfl, id, fun hi _ => hi, fun _ => Nat.zero_le _, id⟩
    · exact hs
  · trivial

theorem putBits_leaves (P : Params) (bs : List Bool) (s : State) : (putBits P bs s).Leaves (WritesBits P s) := by
  induction bs generalizing s with
  | nil => exact WritesBits.refl P s
  | cons b bs ih => exact (putBit_leaves P b s).bind fun _ t h => (ih t).mono fun u hu => h.trans hu

theorem writeBits_leaves (P : Params) (v : BitVec 16) (w : Nat) (s : State) :
    (writeBits P v w s).Leaves (WritesBits P s) := by
  unfold writeBits
  split
  · exact (putBits_leaves P _ s).bind fun _ t h => h.trans ⟨rfl, id, fun hi _ => hi, id, fun h => countUp_lt h w⟩
  · exact WritesBits.refl P s

theorem writePair_leaves (P : Params) (c : Code) (sym : Byte) (w : Nat) (s : State) :
    (writePair P c sym w s).Leaves (WritesBits P s) :=
  (writeBits_leaves P c w s).bind fun _ t h => (writeBits_leaves P _ 8 t).mono fun _ hu => h.trans hu

theorem padByte_writes (P : Params) (s : State) : WritesBits P s s.padByte := by
  unfold State.padByte
  split
  · exact WritesBits.refl P s
  · exact ⟨rfl, Mem.wf_writeList _ _, fun hi hc => Mem.inside_writeList _ _ hi (by simp only [List.length_replicate]; omega), id,
      id⟩

theorem flushBits_leaves (P : Params) (s : State) : (flushBits P s).Leaves (WritesBits P s) := by
  have hz : ∀ t : State, WritesBits P t { t with bitCur := 0 } :=
    fun t => ⟨rfl, id, fun hi _ => hi, fun _ => Nat.zero_le _, id⟩
  unfold flushBits
  split
  · exact Res.Leaves.bind ((sendPairBytes_leaves P s.pairBytes s.padByte).mono fun t h =>
      (padByte_writes P s).trans (writesBits_of_snk h)) fun _ t h => h.trans (hz t)
  · exact (padByte_writes P s).trans (hz _)

/-- Sending the first `n` bytes of the pair buffer appends them to the sink. -/
theorem sendPairBytes_spec (G : Prop) {P : Params} {n : Nat} {s : State} {bs : List Bool} (hn : n ≤ P.block)
    (hp : Mem.readList s.pairBuf 0 (8 * n) = some bs) (hg : G → snkGood s.snk = true) :
    (sendPairBytes P n s).Spec
      (fun _ t => t = { s with snk := t.snk } ∧ t.snk.data = s.snk.data ++ bitsBytes bs ∧ (G → snkGood t.snk = true))
      (snkFails G) (mute G) := by
  unfold sendPairBytes
  rw [fetchCells_of_readList s (by omega) hp]
  exact writeBytes_spec G (bitsBytes bs) s hg

/-- One bit goes behind those given so far (R142, R143). -/
theorem putBit_spec (G : Prop) {P : Params} (b : Bool) {s : State} {xs : List Bool} (hP : s.cfg = P)
    (h : BitsOut s xs) (hg : G → snkGood s.snk = true) :
    (putBit P b s).Spec
      (fun _ t => BitsOut t (xs ++ [b]) ∧ t.cfg = P ∧ (G → snkGood t.snk = true)) (snkFails G) (mute G) := by
  obtain ⟨hc, p, hp, rfl⟩ := h
  rw [hP] at hc
  have hq : Mem.readList (s.storeBit b).pairBuf 0 (s.bitCur + 1) = some (p ++ [b]) := by
    have := Mem.readList_write_end b hp
    rwa [Nat.zero_add] at this
  unfold putBit
  rw [if_pos hc]
  unfold sendFullPairs
  split
  · rename_i hfull
    rw [State.storeBit_bitCur] at hfull
    rw [hfull] at hq
    refine (sendPairBytes_spec G (s := s.storeBit b) le_rfl hq hg).bind fun _ t ⟨ht, hd, hgt⟩ => ?_
    have hcfg : t.cfg = P := by rw [ht]; exact hP
    refine ⟨⟨?_, [], rfl, ?_⟩, hcfg, hgt⟩
    · show 0 < 8 * t.cfg.block
      rw [hcfg]; have := P.block_pos; omega
    · show s.snk.data.flatMap byteBits ++ p ++ [b] = t.snk.data.flatMap byteBits ++ []
      rw [hd, List.append_nil, List.flatMap_append, flatMap_bitsBytes _ _ (Mem.readList_length hq)]
      simp
  · rename_i hfull
    rw [State.storeBit_bitCur] at hfull
    refine ⟨⟨?_, p ++ [b], hq, ?_⟩, hP, hg⟩
    · show s.bitCur + 1 < 8 * s.cfg.block
      rw [hP]; omega
    · simp

theorem putBits_spec (G : Prop) {P : Params} (bs : List Bool) {s : State} {xs : List Bool} (hP : s.cfg = P)
    (h : BitsOut s xs) (hg : G → snkGood s.snk = true) :
    (putBits P bs s).Spec
      (fun _ t => BitsOut t (xs ++ bs) ∧ t.cfg = P ∧ (G → snkGood t.snk = true)) (snkFails G) (mute G) := by
  induction bs generalizing s xs with
  | nil => exact ⟨by simpa using h, hP, hg⟩
  | cons b bs ih =>
    refine (putBit_spec G b hP h hg).bind fun _ t ⟨h1, h2, h3⟩ => ?_
    exact (ih h2 h1 h3).mono (fun _ u ⟨k1, k2⟩ => ⟨by simpa using k1, k2⟩) (fun _ _ => id) fun _ => id

/-- `TOTAL_BITS` is no part of the loop of WRITE_BITS (R142). -/
theorem putBits_totalBits (P : Params) (bs : List Bool) (s : State) :
    (putBits P bs s).Leaves fun t => t.totalBits = s.totalBits := by
  induction bs generalizing s with
  | nil => exact rfl
  | cons b bs ih =>
    have h1 : (putBit P b s).Leaves fun t => t.totalBits = s.totalBits := by
      unfold putBit
      split
      · unfold sendFullPairs
        split
        · exact Res.Leaves.bind ((sendPairBytes_leaves P P.block _).mono fun t ht => by rw [ht]; rfl) fun _ t ht => ht
        · exact rfl
      · trivial
    exact h1.bind fun _ t h => (ih t).mono fun u hu => hu.trans h

/-- WRITE_BITS puts the bits of its value behind those given so far (R142, R145). -/
theorem writeBits_spec (G : Prop) {P : Params} (v : BitVec 16) {w : Nat} {s : State} {xs : List Bool} (hP : s.cfg = P)
    (hw : widthOk w = true) (h : BitsOut s xs) (hg : G → snkGood s.snk = true) :
    (writeBits P v w s).Spec
      (fun _ t => BitsOut t (xs ++ valueBits P.valOrder w v.toNat) ∧ t.cfg = P ∧
        t.totalBits = countUp s.cfg s.totalBits w ∧ (G → snkGood t.snk = true))
      (snkFails G) (mute G) := by
  unfold writeBits
  rw [if_pos hw]
  refine Res.Spec.bind ((putBits_spec G _ hP h hg).leaves (putBits_totalBits P _ s) |>.mono
    (fun _ _ h => h) (fun _ _ h => h.1) fun _ h => h) ?_
  rintro _ t ⟨⟨h1, h2, h3⟩, h4⟩
  exact ⟨h1, h2, by rw [State.countBits_totalBits, h4, h2, hP], h3⟩

/-- WRITE_PAIR puts the bits of the pair behind those given so far (R149). -/
theorem writePair_spec (G : Prop) {P : Params} (c : Code) (sym : Byte) {w : Nat} {s : State} {xs : List Bool}
    (hP : s.cfg = P) (hw : widthOk w = true) (h : BitsOut s xs) (hg : G → snkGood s.snk = true) :
    (writePair P c sym w s).Spec
      (fun _ t => BitsOut t (xs ++ encodePair P w c sym) ∧ t.cfg = P ∧
        t.totalBits = countUp s.cfg s.totalBits (w + 8) ∧ (G → snkGood t.snk = true))
      (snkFails G) (mute G) := by
  refine (writeBits_spec G c hP hw h hg).bind fun _ t ⟨h1, h2, h3, h4⟩ => ?_
  refine (writeBits_spec G _ h2 (by decide) h1 h4).mono (fun _ u ⟨k1, k2, k3, k4⟩ => ⟨?_, k2, ?_, k4⟩)
    (fun _ _ => id) fun _ => id
  · have : (sym.setWidth 16).toNat = sym.toNat := by
      rw [BitVec.toNat_setWidth]; exact Nat.mod_eq_of_lt (by have := sym.isLt; omega)
    rw [this] at k1
    rw [encodePair, ← List.append_assoc]; exact k1
  · rw [k3, h3, h2, hP, countUp_countUp]

/-- FLUSH_BITS brings all bits given so far to the sink, with fewer than eight zero bits behind them (R144). -/
theorem flushBits_spec (G : Prop) {P : Params} {s : State} {xs : List Bool} (hP : s.cfg = P) (h : BitsOut s xs)
    (hg : G → snkGood s.snk = true) :
    (flushBits P s).Spec
      (fun _ t => t = { s with pairBuf := t.pairBuf, bitCur := 0, snk := t.snk } ∧
        (∃ k, k < 8 ∧ t.snk.data.flatMap byteBits = xs ++ List.replicate k false) ∧ (G → snkGood t.snk = true))
      (snkFails G) (mute G) := by
  obtain ⟨hc, p, hp, rfl⟩ := h
  rw [hP] at hc
  have hl := Mem.readList_length hp
  -- the padded buffer
  obtain ⟨k, hk, hn, hread⟩ : ∃ k, k < 8 ∧ s.bitCur + k = 8 * s.pairBytes ∧
      Mem.readList s.padByte.pairBuf 0 (8 * s.pairBytes) = some (p ++ List.replicate k false) := by
    unfold State.pairBytes
    by_cases hr : s.bitCur % 8 = 0
    · refine ⟨0, by omega, by omega, ?_⟩
      have : 8 * ((s.bitCur + 7) / 8) = s.bitCur := by omega
      rw [this]
      unfold State.padByte
      rw [if_pos hr]
      simpa using hp
    · refine ⟨8 - s.bitCur % 8, by omega, by omega, ?_⟩
      have : 8 * ((s.bitCur + 7) / 8) = s.bitCur + (8 - s.bitCur % 8) := by omega
      rw [this]
      unfold State.padByte
      rw [if_neg hr]
      refine Mem.readList_add.2 ⟨p, _, ?_, ?_, rfl⟩
      · rw [Mem.readList_writeList_outside _ _ (.inr (by omega))]; exact hp
      · have := Mem.readList_writeList s.pairBuf s.bitCur (List.replicate (8 - s.bitCur % 8) false)
        rw [List.length_replicate] at this
        rwa [Nat.zero_add]
  unfold flushBits
  split
  · refine (sendPairBytes_spec G (s := s.padByte) (by omega) hread (by simpa using hg)).bind
      fun _ t ⟨ht, hd, hgt⟩ => ⟨?_, ⟨k, hk, ?_⟩, hgt⟩
    · show { t with bitCur := 0 } = { s with pairBuf := t.pairBuf, bitCur := 0, snk := t.snk }
      have hf := (padByte_writes P s).frame
      rw [ht]
      show { s.padByte with bitCur := 0, snk := t.snk } = { s with pairBuf := s.padByte.pairBuf, bitCur := 0, snk := t.snk }
      unfold State.padByte
      split <;> rfl
    · show t.snk.data.flatMap byteBits = _
      rw [hd, State.padByte_snk, List.flatMap_append, flatMap_bitsBytes _ _ (Mem.readList_length hread)]
      simp
  · have h0 : s.bitCur = 0 := by have h : s.pairBytes = 0 := by omega
                                 unfold State.pairBytes at h; omega
    have hp0 : p = [] := List.length_eq_zero_iff.1 (by omega)
    subst hp0
    refine ⟨?_, ⟨0, by omega, by simp⟩, by simpa using hg⟩
    unfold State.padByte
    split <;> rfl

/-! ### Read side -/

/-- The buffered bits are there (R41, R147). -/
structure PairsReady (P : Params) (s : State) : Prop where
  bitCur : s.bitCur ≤ 8 * s.pairLen
  pairLen : s.pairLen ≤ P.block
  filled : Filled s.pairBuf (8 * s.pairLen)

/-- What the read side of the bit channel may touch (R27), and what it keeps. -/
structure ReadsBits (P : Params) (s t : State) : Prop where
  frame : t = { s with pairBuf := t.pairBuf, bitCur := t.bitCur, pairLen := t.pairLen, pairEnd := t.pairEnd,
                       totalBits := t.totalBits, src := t.src }
  wf : Mem.wf s.pairBuf = true → Mem.wf t.pairBuf = true
  inside : Mem.inside s.pairBuf (8 * P.block) = true → Mem.inside t.pairBuf (8 * P.block) = true
  ready : PairsReady P s → PairsReady P t
  totalBits : s.totalBits < 2 ^ s.cfg.ctrBits → t.totalBits < 2 ^ t.cfg.ctrBits

theorem ReadsBits.refl (P : Params) (s : State) : ReadsBits P s s := ⟨rfl, id, id, id, id⟩

theorem ReadsBits.trans {P : Params} {s t u : State} (h : ReadsBits P s t) (k : ReadsBits P t u) :
    ReadsBits P s u :=
  ⟨k.frame.trans (congrArg (fun x : State => { x with
      pairBuf := u.pairBuf, bitCur := u.bitCur, pairLen := u.pairLen, pairEnd := u.pairEnd,
      totalBits := u.totalBits, src := u.src }) h.frame),
    k.wf ∘ h.wf, k.inside ∘ h.inside, k.ready ∘ h.ready, k.totalBits ∘ h.totalBits⟩

theorem ReadsBits.cfg {P : Params} {s t : State} (h : ReadsBits P s t) : t.cfg = s.cfg := by rw [h.frame]

/-- What the read side of the bit channel may touch, in any state (R27). -/
def ReadsFrame (s t : State) : Prop :=
  t = { s with pairBuf := t.pairBuf, bitCur := t.bitCur, pairLen := t.pairLen, pairEnd := t.pairEnd,
               totalBits := t.totalBits, src := t.src }

theorem ReadsFrame.trans {s t u : State} (h : ReadsFrame s t) (k : ReadsFrame t u) : ReadsFrame s u :=
  Eq.trans k (congrArg (fun x : State => { x with
    pairBuf := u.pairBuf, bitCur := u.bitCur, pairLen := u.pairLen, pairEnd := u.pairEnd,
    totalBits := u.totalBits, src := u.src }) h)

theorem pairFill_leaves (P : Params) (s : State) : (pairFill P s).Leaves (ReadsFrame s) := by
  unfold pairFill
  refine Res.Leaves.bind (Q := ReadsFrame s) ((readBytes_leaves P.block s).mono fun t h => ?_) fun d t h => h.trans rfl
  unfold ReadsFrame; rw [h]

theorem getBit_leaves (P : Params) (s : State) : (getBit P s).Leaves (ReadsFrame s) := by
  have take : ∀ u : State, ReadsFrame s u → (takeBit P u).Leaves (ReadsFrame s) := by
    intro u hu
    unfold takeBit
    refine Res.Leaves.bind (Q := ReadsFrame s) ((fetchCell_leaves u).mono fun t h => ?_) fun _ t h => h.trans rfl
    rw [h]; exact hu
  unfold getBit
  split
  · split
    · exact rfl
    · refine (pairFill_leaves P s).bind fun _ t h => ?_
      split
      · exact h
      · exact take t h
  · exact take s rfl

theorem readBits_leaves (P : Params) (w : Nat) (s : State) : (readBits P w s).Leaves (ReadsFrame s) := by
  have bits : ∀ w (u : State), ReadsFrame s u → (getBits P w u).Leaves (ReadsFrame s) := by
    intro w
    induction w with
    | zero => exact fun u hu => hu
    | succ w ih =>
      intro u hu
      refine Res.Leaves.bind ((getBit_leaves P u).mono fun t h => hu.trans h) fun _ t h => ?_
      exact (ih t h).bind fun _ v hv => hv
  unfold readBits
  split
  · exact (bits w s rfl).bind fun _ t h => h.trans rfl
  · exact rfl

theorem readPair_leaves (P : Params) (w : Nat) (s : State) : (readPair P w s).Leaves (ReadsFrame s) := by
  refine (readBits_leaves P w s).bind fun _ t h => ?_
  refine Res.Leaves.bind ((readBits_leaves P 8 t).mono fun u hu => h.trans hu) fun _ u hu => hu

/-- Why the read side of the bit channel raises (R147, R302). -/
def bitsRaise (f : Raise) : Prop := f = bodyUnderrun ∨ f = ⟨.ioError, 0⟩

/-- PAIR_FILL in any environment (R146). -/
theorem pairFill_spec (P : Params) (s : State) :
    (pairFill P s).Spec
      (fun _ t => ∃ d, t = { s.loadPairs P.block d with src := t.src } ∧ s.src.data = d ++ t.src.data ∧ d.length ≤ P.block)
      (fun f t => f = ⟨.ioError, 0⟩ ∧ t = { s with src := t.src })
      (fun f => f = .noAnswer) := by
  unfold pairFill
  refine Res.Spec.bind (Q := fun d t => t = { s with src := t.src } ∧ s.src.data = d ++ t.src.data ∧ d.length ≤ P.block)
    ((readBytes_spec P.block s).mono (fun _ _ h => h) (fun _ _ h => ⟨h.1, h.2.1⟩) fun _ h => h) ?_
  rintro d t ⟨h1, h2, h3⟩
  exact ⟨d, congrArg (fun x : State => x.loadPairs P.block d) h1, h2, h3⟩

theorem loadPairs_ready {P : Params} (d : List Byte) (s : State) (h : d.length ≤ P.block) :
    PairsReady P (s.loadPairs P.block d) := by
  refine ⟨Nat.zero_le _, h, filled_of_readList (vs := d.flatMap byteBits) ?_⟩
  have := Mem.readList_writeList s.pairBuf 0 (d.flatMap byteBits)
  rwa [flatMap_byteBits_length] at this

theorem loadPairs_reads {P : Params} {s t : State} {d : List Byte} (ht : t = { s.loadPairs P.block d with src := t.src })
    (hd : d.length ≤ P.block) : ReadsBits P s t := by
  refine ⟨by rw [ht]; rfl, ?_, ?_, fun _ => ?_, by rw [ht]; exact id⟩
  · rw [ht]; exact Mem.wf_writeList _ _
  · rw [ht]; exact fun hi => Mem.inside_writeList _ _ hi (by rw [flatMap_byteBits_length]; omega)
  · have := loadPairs_ready d s hd
    rw [ht]; exact ⟨this.bitCur, this.pairLen, this.filled⟩

/-- PAIR_FILL on a source that answers (R146). -/
theorem pairFill_good {P : Params} {s : State} (hg : srcGood s.src = true) :
    ∃ p, pairFill P s = .ok () { s.loadPairs P.block (s.src.data.take P.block) with src := p } ∧
      p.data = s.src.data.drop P.block ∧ srcGood p = true := by
  obtain ⟨p, h1, h2, h3, -⟩ := readBytes_good (n := P.block) hg
  exact ⟨p, by unfold pairFill; rw [h1]; rfl, h2, h3⟩

/-- The bit under the cursor is consumed (R148). -/
theorem takeBit_of_read {P : Params} {s : State} {b : Bool} (hc : s.bitCur < 8 * P.block)
    (hb : Mem.read s.pairBuf s.bitCur = some b) : takeBit P s = .ok b { s with bitCur := s.bitCur + 1 } := by
  unfold takeBit
  rw [fetchCell_of_read s hc hb]; rfl

/-- One bit with the buffered bits in place, in any environment: it keeps them so, and stops only where a transaction
is not answered (R50, R147). -/
theorem getBit_spec {P : Params} {s : State} (h : PairsReady P s) :
    (getBit P s).Spec (fun _ t => ReadsBits P s t) (fun f t => bitsRaise f ∧ ReadsBits P s t) (fun f => f = .noAnswer) := by
  have take : ∀ u : State, ReadsBits P s u → u.bitCur < 8 * u.pairLen →
      (takeBit P u).Spec (fun _ t => ReadsBits P s t) (fun f t => bitsRaise f ∧ ReadsBits P s t)
        (fun f => f = .noAnswer) := by
    intro u hu hlt
    have hr := hu.ready h
    obtain ⟨b, hb⟩ := Option.isSome_iff_exists.1 (hr.filled u.bitCur hlt)
    rw [takeBit_of_read (by have := hr.pairLen; omega) hb]
    exact hu.trans ⟨rfl, id, id, fun _ => ⟨hlt, hr.pairLen, hr.filled⟩, id⟩
  unfold getBit
  split
  · split
    · exact ⟨.inl rfl, ReadsBits.refl P s⟩
    · refine Res.Spec.bind ((pairFill_spec P s).mono (fun _ _ h => h) (fun f t hf => ⟨.inr hf.1, ?_⟩) fun _ h => h) ?_
      · rw [hf.2]; exact ⟨rfl, id, id, fun k => ⟨k.bitCur, k.pairLen, k.filled⟩, id⟩
      · rintro _ t ⟨d, ht, -, hd⟩
        have hr := loadPairs_reads ht hd
        split
        · exact ⟨.inl rfl, hr⟩
        · refine take t hr ?_
          have : t.bitCur = 0 := by rw [ht]; rfl
          omega
  · refine take s (ReadsBits.refl P s) ?_
    have := h.bitCur; omega

theorem getBits_spec {P : Params} (w : Nat) {s : State} (h : PairsReady P s) :
    (getBits P w s).Spec (fun bs t => bs.length = w ∧ ReadsBits P s t) (fun f t => bitsRaise f ∧ ReadsBits P s t)
      (fun f => f = .noAnswer) := by
  induction w generalizing s with
  | zero => exact ⟨rfl, ReadsBits.refl P s⟩
  | succ w ih =>
    refine (getBit_spec h).bind fun b t ht => ?_
    refine Res.Spec.bind ((ih (ht.ready h)).mono (fun bs u hu => ?_) (fun f u hu => ⟨hu.1, ht.trans hu.2⟩) fun _ h => h)
      (Q := fun bs u => bs.length = w ∧ ReadsBits P s u) fun bs u hu => ⟨by simp [hu.1], hu.2⟩
    exact ⟨hu.1, ht.trans hu.2⟩

/-- READ_BITS of an accepted width with the buffered bits in place (R148). -/
theorem readBits_spec {P : Params} {w : Nat} {s : State} (hw : widthOk w = true) (h : PairsReady P s) :
    (readBits P w s).Spec (fun _ t => ReadsBits P s t) (fun f t => bitsRaise f ∧ ReadsBits P s t)
      (fun f => f = .noAnswer) := by
  unfold readBits
  rw [if_pos hw]
  exact (getBits_spec w h).bind fun bs t ht => ht.2.trans
    ⟨rfl, id, id, fun k => ⟨k.bitCur, k.pairLen, k.filled⟩, fun h => countUp_lt h w⟩

/-- READ_PAIR at an accepted width with the buffered bits in place (R151). -/
theorem readPair_spec {P : Params} {w : Nat} {s : State} (hw : widthOk w = true) (h : PairsReady P s) :
    (readPair P w s).Spec (fun _ t => ReadsBits P s t) (fun f t => bitsRaise f ∧ ReadsBits P s t)
      (fun f => f = .noAnswer) := by
  refine (readBits_spec hw h).bind fun c t ht => ?_
  refine Res.Spec.bind ((readBits_spec (w := 8) (by decide) (ht.ready h)).mono (fun _ u hu => ht.trans hu)
    (fun f u hu => ⟨hu.1, ht.trans hu.2⟩) fun _ h => h) fun _ _ hu => hu

/-- One bit on a source that answers is the next bit of the stream (R147). -/
theorem getBit_cons {P : Params} {s : State} {b : Bool} {xs : List Bool} (hP : s.cfg = P) (h : BitsIn s (b :: xs))
    (hg : srcGood s.src = true) :
    ∃ t, getBit P s = .ok b t ∧ BitsIn t xs ∧ srcGood t.src = true ∧
      t = { s with pairBuf := t.pairBuf, bitCur := t.bitCur, pairLen := t.pairLen, pairEnd := t.pairEnd,
                   src := t.src } := by
  have take : ∀ u : State, u.cfg = P → BitsIn u (b :: xs) → u.bitCur < 8 * u.pairLen →
      takeBit P u = .ok b { u with bitCur := u.bitCur + 1 } ∧ BitsIn { u with bitCur := u.bitCur + 1 } xs := by
    rintro u hu ⟨h1, h2, p, hp, hx⟩ hlt
    have hn : 8 * u.pairLen - u.bitCur = 1 + (8 * u.pairLen - (u.bitCur + 1)) := by omega
    rw [hn, Mem.readList_add] at hp
    obtain ⟨ys, zs, hy, hz, rfl⟩ := hp
    cases hr : Mem.read u.pairBuf u.bitCur with
    | none => simp [Mem.readList, hr] at hy
    | some c =>
      simp [Mem.readList, hr] at hy
      subst hy
      simp only [List.cons_append, List.cons.injEq] at hx
      obtain ⟨rfl, hx⟩ := hx
      rw [hu] at h2
      exact ⟨takeBit_of_read (by omega) hr, hlt, by simpa [hu] using h2, zs, hz, hx⟩
  unfold getBit
  obtain ⟨h1, h2, p, hp, hx⟩ := h
  split
  · rename_i heq
    rw [heq] at hp
    simp only [Nat.sub_self, Mem.readList, Option.some.injEq] at hp
    subst hp
    split
    · simp_all
    · rename_i hend
      obtain ⟨q, hf, hq, hqg⟩ := pairFill_good (P := P) (s := s) hg
      rw [hf, Res.bind_ok]
      have hsrc : s.src.data.flatMap byteBits = b :: xs := by simpa [hend] using hx.symm
      have hne : s.src.data ≠ [] := by intro h0; simp [h0] at hsrc
      have hpos := P.block_pos
      have hlen : 0 < (s.src.data.take P.block).length := by
        have := List.length_pos_iff.2 hne
        simp only [List.length_take]; omega
      have h3 : BitsIn ({ s.loadPairs P.block (s.src.data.take P.block) with src := q } : State) (b :: xs) := by
        refine ⟨Nat.zero_le _, ?_, (s.src.data.take P.block).flatMap byteBits, ?_, ?_⟩
        · show (s.src.data.take P.block).length ≤ s.cfg.block
          rw [hP]; simp only [List.length_take]; omega
        · have := Mem.readList_writeList s.pairBuf 0 ((s.src.data.take P.block).flatMap byteBits)
          rwa [flatMap_byteBits_length] at this
        · show b :: xs = _ ++ if (s.pairEnd || decide ((s.src.data.take P.block).length < P.block)) = true then []
            else q.data.flatMap byteBits
          rw [← hsrc, hq]
          split
          · rename_i hc
            have hshort : s.src.data.length < P.block := by
              simp only [hend, Bool.false_or, decide_eq_true_eq, List.length_take] at hc
              simp at hend; simp at hc; omega
            rw [List.append_nil, List.take_of_length_le (by omega)]
          · rw [← List.flatMap_append, List.take_append_drop]
      rw [if_neg (by show (s.src.data.take P.block).length ≠ 0; omega)]
      obtain ⟨ht, hin⟩ := take _ (by exact hP) h3 (by show 0 < 8 * (s.src.data.take P.block).length; omega)
      rw [ht]
      exact ⟨_, rfl, hin, hqg, rfl⟩
  · have hlt : s.bitCur < 8 * s.pairLen := by omega
    obtain ⟨ht, hin⟩ := take s hP ⟨h1, h2, p, hp, hx⟩ hlt
    rw [ht]
    exact ⟨_, rfl, hin, hg, rfl⟩

/-- A bit needed past the last one is the fault of the bound (R147). -/
theorem getBit_nil {P : Params} {s : State} (h : BitsIn s []) (hg : srcGood s.src = true) :
    ∃ t, getBit P s = .raise bodyUnderrun t ∧ BitsIn t [] ∧ srcGood t.src = true ∧
      t = { s with pairBuf := t.pairBuf, bitCur := t.bitCur, pairLen := t.pairLen, pairEnd := t.pairEnd,
                   src := t.src } := by
  obtain ⟨h1, h2, p, hp, hx⟩ := h
  obtain ⟨rfl, hrest⟩ := List.append_eq_nil_iff.1 hx.symm
  have heq : s.bitCur = 8 * s.pairLen := by have := Mem.readList_length hp; simp at this; omega
  unfold getBit
  rw [if_pos heq]
  split
  · rename_i hend
    exact ⟨s, rfl, ⟨h1, h2, [], hp, by simp [hend]⟩, hg, rfl⟩
  · rename_i hend
    have hsrc : s.src.data = [] := by
      rw [if_neg hend] at hrest
      have := congrArg List.length hrest
      rw [flatMap_byteBits_length] at this
      exact List.length_eq_zero_iff.1 (by simpa using this)
    obtain ⟨q, hf, hq, hqg⟩ := pairFill_good (P := P) (s := s) hg
    rw [hf, Res.bind_ok, if_pos (by simp [hsrc])]
    exact ⟨_, rfl, ⟨Nat.zero_le _, by simp [hsrc], [], by simp [hsrc, Mem.readList], by simp [hq, hsrc]⟩, hqg, rfl⟩

/-- The loop of READ_BITS on a source that answers delivers the next bits of the stream (R148). -/
theorem getBits_append {P : Params} (bs : List Bool) {s : State} {xs : List Bool} (hP : s.cfg = P)
    (h : BitsIn s (bs ++ xs)) (hg : srcGood s.src = true) :
    ∃ t, getBits P bs.length s = .ok bs t ∧ BitsIn t xs ∧ srcGood t.src = true ∧
      t = { s with pairBuf := t.pairBuf, bitCur := t.bitCur, pairLen := t.pairLen, pairEnd := t.pairEnd,
                   src := t.src } := by
  induction bs generalizing s with
  | nil => exact ⟨s, rfl, h, hg, rfl⟩
  | cons b bs ih =>
    obtain ⟨t, h1, h2, h3, h4⟩ := getBit_cons hP h hg
    obtain ⟨u, k1, k2, k3, k4⟩ := ih (by rw [h4]; exact hP) h2 h3
    refine ⟨u, ?_, k2, k3, k4.trans (congrArg (fun x : State => { x with
      pairBuf := u.pairBuf, bitCur := u.bitCur, pairLen := u.pairLen, pairEnd := u.pairEnd, src := u.src }) h4)⟩
    rw [List.length_cons, getBits, h1, Res.bind_ok, k1, Res.bind_ok]

/-- Fewer bits than asked for are the fault of the bound (R147). -/
theorem getBits_short {P : Params} (w : Nat) {s : State} {bs : List Bool} (hP : s.cfg = P) (h : BitsIn s bs)
    (hw : bs.length < w) (hg : srcGood s.src = true) :
    ∃ t, getBits P w s = .raise bodyUnderrun t ∧ srcGood t.src = true ∧
      t = { s with pairBuf := t.pairBuf, bitCur := t.bitCur, pairLen := t.pairLen, pairEnd := t.pairEnd,
                   src := t.src } := by
  induction w generalizing s bs with
  | zero => omega
  | succ w ih =>
    match bs, h with
    | [], h =>
      obtain ⟨t, h1, -, h3, h4⟩ := getBit_nil (P := P) h hg
      exact ⟨t, by rw [getBits, h1, Res.bind_raise], h3, h4⟩
    | b :: bs, h =>
      obtain ⟨t, h1, h2, h3, h4⟩ := getBit_cons hP h hg
      obtain ⟨u, k1, k3, k4⟩ := ih (by rw [h4]; exact hP) h2 (by simpa using hw) h3
      refine ⟨u, ?_, k3, k4.trans (congrArg (fun x : State => { x with
        pairBuf := u.pairBuf, bitCur := u.bitCur, pairLen := u.pairLen, pairEnd := u.pairEnd, src := u.src }) h4)⟩
      rw [getBits, h1, Res.bind_ok, k1, Res.bind_raise]

/-- READ_BITS on a source that answers (R148): the value whose stream bits come next. -/
theorem readBits_good {P : Params} {w v : Nat} {s : State} {xs : List Bool} (hP : s.cfg = P) (hw : widthOk w = true)
    (hv : v < 2 ^ w) (h : BitsIn s (valueBits P.valOrder w v ++ xs)) (hg : srcGood s.src = true) :
    ∃ t, readBits P w s = .ok (BitVec.ofNat 16 v) t ∧ BitsIn t xs ∧ srcGood t.src = true ∧
      t = { s with pairBuf := t.pairBuf, bitCur := t.bitCur, pairLen := t.pairLen, pairEnd := t.pairEnd,
                   src := t.src, totalBits := countUp s.cfg s.totalBits w } := by
  obtain ⟨t, h1, h2, h3, h4⟩ := getBits_append _ hP h hg
  rw [valueBits_length] at h1
  refine ⟨t.countBits w, ?_, h2, h3, ?_⟩
  · unfold readBits
    rw [if_pos hw, h1, Res.bind_ok, bitsValue_valueBits _ hv]
  · have : t.totalBits = s.totalBits ∧ t.cfg = s.cfg := by rw [h4]; exact ⟨rfl, rfl⟩
    show { t with totalBits := countUp t.cfg t.totalBits w } = _
    rw [show countUp t.cfg t.totalBits w = countUp s.cfg s.totalBits w by rw [this.1, this.2]]
    exact congrArg (fun x : State => { x with totalBits := countUp s.cfg s.totalBits w }) h4

/-- READ_PAIR on a source that answers (R151): the pair whose stream bits come next. -/
theorem readPair_good {P : Params} {w : Nat} {c : Code} {sym : Byte} {s : State} {xs : List Bool} (hP : s.cfg = P)
    (hw : widthOk w = true) (hc : c.toNat < 2 ^ w) (h : BitsIn s (encodePair P w c sym ++ xs))
    (hg : srcGood s.src = true) :
    ∃ t, readPair P w s = .ok (c, sym) t ∧ BitsIn t xs ∧ srcGood t.src = true ∧
      t = { s with pairBuf := t.pairBuf, bitCur := t.bitCur, pairLen := t.pairLen, pairEnd := t.pairEnd,
                   src := t.src, totalBits := countUp s.cfg s.totalBits (w + 8) } := by
  rw [encodePair, List.append_assoc] at h
  obtain ⟨t, h1, h2, h3, h4⟩ := readBits_good hP hw hc h hg
  obtain ⟨u, k1, k2, k3, k4⟩ := readBits_good (w := 8) (P := P) (s := t) (by rw [h4]; exact hP) (by decide) sym.isLt h2 h3
  refine ⟨u, ?_, k2, k3, ?_⟩
  · unfold readPair
    rw [h1, Res.bind_ok, k1, Res.bind_ok]
    simp
  · have ht : t.totalBits = countUp s.cfg s.totalBits w ∧ t.cfg = s.cfg := by rw [h4]; exact ⟨rfl, rfl⟩
    rw [show countUp t.cfg t.totalBits 8 = countUp s.cfg s.totalBits (w + 8) by
      rw [ht.1, ht.2, countUp_countUp]] at k4
    exact k4.trans (congrArg (fun x : State => { x with
      pairBuf := u.pairBuf, bitCur := u.bitCur, pairLen := u.pairLen, pairEnd := u.pairEnd, src := u.src,
      totalBits := countUp s.cfg s.totalBits (w + 8) }) h4)

end Sys2Proof.Machine
end

