-- ==== Sys2Proof/Laws/ByteChannel.lean ====
section
/-! SUPPORT. The byte channel: what its operations touch, and what they do to the sequences behind the buffers
(R124 to R131). -/

namespace Sys2Proof.Machine

open Sys2Proof Sys2Proof.Safety

/-! ### Write side -/

/-- What the write side of the byte channel may touch (R27), and what it keeps. -/
structure WritesSyms (P : Params) (s t : State) : Prop where
  frame : t = { s with symBuf := t.symBuf, symCur := t.symCur, totalSyms := t.totalSyms, snk := t.snk }
  wf : Mem.wf s.symBuf = true → Mem.wf t.symBuf = true
  inside : Mem.inside s.symBuf P.block = true → Mem.inside t.symBuf P.block = true
  symCur : s.symCur ≤ P.block → t.symCur ≤ P.block
  totalSyms : s.totalSyms < 2 ^ s.cfg.ctrBits → t.totalSyms < 2 ^ t.cfg.ctrBits

theorem WritesSyms.refl (P : Params) (s : State) : WritesSyms P s s := ⟨rfl, id, id, id, id⟩

theorem WritesSyms.trans {P : Params} {s t u : State} (h : WritesSyms P s t) (k : WritesSyms P t u) :
    WritesSyms P s u :=
  ⟨k.frame.trans (congrArg (fun x : State => { x with
      symBuf := u.symBuf, symCur := u.symCur, totalSyms := u.totalSyms, snk := u.snk }) h.frame),
    k.wf ∘ h.wf, k.inside ∘ h.inside, k.symCur ∘ h.symCur, k.totalSyms ∘ h.totalSyms⟩

theorem WritesSyms.cfg {P : Params} {s t : State} (h : WritesSyms P s t) : t.cfg = s.cfg := by rw [h.frame]

theorem sendSyms_leaves (P : Params) (n : Nat) (s : State) :
    (sendSyms P n s).Leaves fun t => t = { s with snk := t.snk } := by
  unfold sendSyms
  refine Res.Leaves.bind (Q := fun t => t = { s with snk := t.snk }) ((fetchCells_leaves s).mono fun t h => by rw [h]) ?_
  intro d t h
  refine (writeBytes_leaves d t).mono fun u hu => ?_
  exact hu.trans (congrArg (fun x : State => { x with snk := u.snk }) h)

theorem sendFullSyms_leaves (P : Params) (s : State) : (sendFullSyms P s).Leaves (WritesSyms P s) := by
  unfold sendFullSyms
  split
  · refine Res.Leaves.bind (((sendSyms_leaves P P.block s)).mono fun t h => ?_) fun _ t h => ?_
    · exact ⟨by rw [h], by rw [h]; exact id, by rw [h]; exact id, by rw [h]; exact id, by rw [h]; exact id⟩
    · exact h.trans ⟨rfl, id, id, fun _ => Nat.zero_le _, id⟩
  · exact WritesSyms.refl P s

theorem writeSym_leaves (P : Params) (b : Byte) (s : State) : (writeSym P b s).Leaves (WritesSyms P s) := by
  unfold writeSym
  split
  · rename_i h
    refine (sendFullSyms_leaves P _).mono fun t ht => WritesSyms.trans ⟨rfl, ?_, ?_, ?_, ?_⟩ ht
    · exact Mem.wf_write _ _
    · exact fun hi => Mem.inside_write _ hi h
    · exact fun _ => h
    · exact fun h => countUp_lt h 1
  · trivial

theorem writeWord_leaves (P : Params) (wd : List Byte) (s : State) : (writeWord P wd s).Leaves (WritesSyms P s) := by
  induction wd generalizing s with
  | nil => exact WritesSyms.refl P s
  | cons b bs ih =>
    exact (writeSym_leaves P b s).bind fun _ t h => (ih t).mono fun u hu => h.trans hu

theorem flushSyms_leaves (P : Params) (s : State) : (flushSyms P s).Leaves (WritesSyms P s) := by
  unfold flushSyms
  split
  · refine Res.Leaves.bind ((sendSyms_leaves P s.symCur s).mono fun t h => ?_) fun _ t h => ?_
    · exact ⟨by rw [h], by rw [h]; exact id, by rw [h]; exact id, by rw [h]; exact id, by rw [h]; exact id⟩
    · exact h.trans ⟨rfl, id, id, fun _ => Nat.zero_le _, id⟩
  · exact ⟨rfl, id, id, fun _ => Nat.zero_le _, id⟩

/-- Sending the first `n` buffered symbols appends them to the sink. -/
theorem sendSyms_spec (G : Prop) {P : Params} {n : Nat} {s : State} {p : List Byte} (hn : n ≤ P.block)
    (hp : Mem.readList s.symBuf 0 n = some p) (hg : G → snkGood s.snk = true) :
    (sendSyms P n s).Spec
      (fun _ t => t = { s with snk := t.snk } ∧ t.snk.data = s.snk.data ++ p ∧ (G → snkGood t.snk = true))
      (snkFails G) (mute G) := by
  unfold sendSyms
  rw [fetchCells_of_readList s (by omega) hp]
  exact writeBytes_spec G p s hg

/-- WRITE_SYM puts one symbol behind those given so far (R127, R129). -/
theorem writeSym_spec (G : Prop) {P : Params} (b : Byte) {s : State} {xs : List Byte} (hP : s.cfg = P)
    (h : SymsOut s xs) (hg : G → snkGood s.snk = true) :
    (writeSym P b s).Spec
      (fun _ t => SymsOut t (xs ++ [b]) ∧ t.cfg = P ∧ t.totalSyms = countUp s.cfg s.totalSyms 1 ∧ (G → snkGood t.snk = true))
      (snkFails G) (mute G) := by
  obtain ⟨hc, p, hp, rfl⟩ := h
  rw [hP] at hc
  have hq : Mem.readList (s.storeSym b).symBuf 0 (s.symCur + 1) = some (p ++ [b]) := by
    have := Mem.readList_write_end b hp
    rwa [Nat.zero_add] at this
  unfold writeSym
  rw [if_pos hc]
  unfold sendFullSyms
  split
  · rename_i hfull
    rw [State.storeSym_symCur] at hfull
    rw [hfull] at hq
    refine (sendSyms_spec G (s := s.storeSym b) le_rfl hq hg).bind fun _ t ⟨ht, hd, hgt⟩ => ?_
    have hcfg : t.cfg = P := by rw [ht]; exact hP
    refine ⟨⟨?_, [], rfl, ?_⟩, hcfg, by rw [ht]; rfl, hgt⟩
    · show 0 < t.cfg.block
      rw [hcfg]; exact P.block_pos
    · show s.snk.data ++ p ++ [b] = t.snk.data ++ []
      rw [hd]; simp
  · rename_i hfull
    rw [State.storeSym_symCur] at hfull
    refine ⟨⟨?_, p ++ [b], hq, ?_⟩, hP, rfl, hg⟩
    · show s.symCur + 1 < s.cfg.block
      rw [hP]; omega
    · simp

/-- WRITE_WORD puts its bytes behind those given so far, first byte first (R131). -/
theorem writeWord_spec (G : Prop) {P : Params} (wd : List Byte) {s : State} {xs : List Byte} (hP : s.cfg = P)
    (h : SymsOut s xs) (hg : G → snkGood s.snk = true) :
    (writeWord P wd s).Spec
      (fun _ t => SymsOut t (xs ++ wd) ∧ t.cfg = P ∧ t.totalSyms = countUp s.cfg s.totalSyms wd.length ∧
        (G → snkGood t.snk = true))
      (snkFails G) (mute G) := by
  induction wd generalizing s xs with
  | nil => exact ⟨by simpa using h, hP, by simp, hg⟩
  | cons b bs ih =>
    refine (writeSym_spec G b hP h hg).bind fun _ t ⟨h1, h2, h3, h4⟩ => ?_
    refine (ih h2 h1 h4).mono (fun _ u ⟨k1, k2, k3, k4⟩ => ⟨by simpa using k1, k2, ?_, k4⟩) (fun _ _ => id) fun _ => id
    rw [k3, h3, h2, hP, countUp_countUp, List.length_cons, Nat.add_comm]

/-- FLUSH_SYMS brings all symbols given so far to the sink (R130, R77). -/
theorem flushSyms_spec (G : Prop) {P : Params} {s : State} {xs : List Byte} (hP : s.cfg = P) (h : SymsOut s xs)
    (hg : G → snkGood s.snk = true) :
    (flushSyms P s).Spec
      (fun _ t => t = { s with symCur := 0, snk := t.snk } ∧ t.snk.data = xs ∧ (G → snkGood t.snk = true))
      (snkFails G) (mute G) := by
  obtain ⟨hc, p, hp, rfl⟩ := h
  rw [hP] at hc
  unfold flushSyms
  split
  · refine (sendSyms_spec G hc.le hp hg).bind fun _ t ⟨ht, hd, hgt⟩ => ⟨?_, hd, hgt⟩
    exact congrArg (fun x : State => { x with symCur := 0 }) ht
  · rename_i h0
    have h0 : s.symCur = 0 := by omega
    rw [h0] at hp
    cases hp
    exact ⟨rfl, by simp, hg⟩

/-! ### Read side -/

/-- The buffered symbols are there (R40). -/
structure SymsReady (P : Params) (s : State) : Prop where
  symCur : s.symCur ≤ s.symLen
  symLen : s.symLen ≤ P.block
  filled : Filled s.symBuf s.symLen

/-- What the read side of the byte channel may touch, in any state (R27). -/
def ReadsSymsFrame (s t : State) : Prop :=
  t = { s with symBuf := t.symBuf, symCur := t.symCur, symLen := t.symLen, symEnd := t.symEnd,
               totalSyms := t.totalSyms, src := t.src }

theorem symFill_leaves (P : Params) (s : State) :
    (symFill P s).Leaves fun t => ReadsSymsFrame s t ∧ t.totalSyms = s.totalSyms := by
  unfold symFill
  refine Res.Leaves.bind (Q := fun t => ReadsSymsFrame s t ∧ t.totalSyms = s.totalSyms)
    ((readBytes_leaves P.block s).mono fun t h => ?_) fun d t h => ?_
  · unfold ReadsSymsFrame; rw [h]; exact ⟨rfl, rfl⟩
  · exact ⟨congrArg (fun x : State => x.loadSyms P.block d) h.1, h.2⟩

theorem readSym_leaves (P : Params) (s : State) : (readSym P s).Leaves (ReadsSymsFrame s) := by
  have take : ∀ u : State, ReadsSymsFrame s u → (takeSym P u).Leaves (ReadsSymsFrame s) := by
    intro u hu
    unfold takeSym
    refine Res.Leaves.bind (Q := ReadsSymsFrame s) ((fetchCell_leaves u).mono fun t h => ?_) fun _ t h => ?_
    · rw [h]; exact hu
    · exact congrArg (fun x : State => { x with
        symCur := t.symCur + 1, totalSyms := countUp t.cfg t.totalSyms 1 }) h
  unfold readSym
  split
  · split
    · exact rfl
    · refine Res.Leaves.bind ((symFill_leaves P s).mono fun t h => h.1) fun _ t h => ?_
      split
      · exact h
      · exact take t h
  · exact take s rfl

theorem symFill_spec (P : Params) (s : State) :
    (symFill P s).Spec
      (fun _ t => ∃ d, t = { s.loadSyms P.block d with src := t.src } ∧ s.src.data = d ++ t.src.data ∧ d.length ≤ P.block)
      (fun f t => f = ⟨.ioError, 0⟩ ∧ t = { s with src := t.src })
      (fun f => f = .noAnswer) := by
  unfold symFill
  refine Res.Spec.bind (Q := fun d t => t = { s with src := t.src } ∧ s.src.data = d ++ t.src.data ∧ d.length ≤ P.block)
    ((readBytes_spec P.block s).mono (fun _ _ h => h) (fun _ _ h => ⟨h.1, h.2.1⟩) fun _ h => h) ?_
  rintro d t ⟨h1, h2, h3⟩
  exact ⟨d, congrArg (fun x : State => x.loadSyms P.block d) h1, h2, h3⟩

theorem loadSyms_ready {P : Params} (d : List Byte) (s : State) (h : d.length ≤ P.block) :
    SymsReady P (s.loadSyms P.block d) :=
  ⟨Nat.zero_le _, h, filled_of_readList (Mem.readList_writeList _ _ _)⟩

/-- SYM_FILL on a source that answers (R124). -/
theorem symFill_good {P : Params} {s : State} (hg : srcGood s.src = true) :
    ∃ p, symFill P s = .ok () { s.loadSyms P.block (s.src.data.take P.block) with src := p } ∧
      p.data = s.src.data.drop P.block ∧ srcGood p = true := by
  obtain ⟨p, h1, h2, h3, -⟩ := readBytes_good (n := P.block) hg
  exact ⟨p, by unfold symFill; rw [h1]; rfl, h2, h3⟩

/-- The byte under the cursor is delivered (R125, R126). -/
theorem takeSym_of_read {P : Params} {s : State} {b : Byte} (hc : s.symCur < P.block)
    (hb : Mem.read s.symBuf s.symCur = some b) :
    takeSym P s = .ok (some b) { s with symCur := s.symCur + 1, totalSyms := countUp s.cfg s.totalSyms 1 } := by
  unfold takeSym
  rw [fetchCell_of_read s hc hb]; rfl

/-- READ_SYM with the buffered symbols in place, in any environment: it keeps them so, and raises or stops for the
source's answers alone (R50, R125). -/
theorem readSym_ready {P : Params} {s : State} (h : SymsReady P s) :
    (readSym P s).Spec
      (fun _ t => SymsReady P t ∧
        t = { s with symBuf := t.symBuf, symCur := t.symCur, symLen := t.symLen, symEnd := t.symEnd,
                     totalSyms := t.totalSyms, src := t.src } ∧
        (Mem.wf s.symBuf = true → Mem.wf t.symBuf = true) ∧
        (Mem.inside s.symBuf P.block = true → Mem.inside t.symBuf P.block = true) ∧
        (s.totalSyms < 2 ^ s.cfg.ctrBits → t.totalSyms < 2 ^ t.cfg.ctrBits))
      (fun f t => f = ⟨.ioError, 0⟩ ∧ t = { s with src := t.src })
      (fun f => f = .noAnswer) := by
  have take : ∀ u : State, SymsReady P u → u.symCur < u.symLen →
      ∃ b, takeSym P u = .ok (some b) { u with symCur := u.symCur + 1, totalSyms := countUp u.cfg u.totalSyms 1 } := by
    intro u hu hlt
    obtain ⟨b, hb⟩ := Option.isSome_iff_exists.1 (hu.filled u.symCur hlt)
    exact ⟨b, takeSym_of_read (by have := hu.symLen; omega) hb⟩
  unfold readSym
  split
  · split
    · exact ⟨h, rfl, id, id, id⟩
    · refine (symFill_spec P s).bind ?_
      rintro _ t ⟨d, ht, -, hd⟩
      have hr : SymsReady P t := by
        rw [ht]; exact ⟨Nat.zero_le _, hd, (loadSyms_ready d s hd).filled⟩
      have hwf : Mem.wf s.symBuf = true → Mem.wf t.symBuf = true := by
        rw [ht]; exact Mem.wf_writeList _ _
      have hin : Mem.inside s.symBuf P.block = true → Mem.inside t.symBuf P.block = true := by
        rw [ht]; exact fun hi => Mem.inside_writeList _ _ hi (by omega)
      have hts : t.totalSyms = s.totalSyms ∧ t.cfg = s.cfg := by rw [ht]; exact ⟨rfl, rfl⟩
      have hf : t = { s with symBuf := t.symBuf, symCur := t.symCur, symLen := t.symLen, symEnd := t.symEnd,
                             totalSyms := t.totalSyms, src := t.src } := by rw [ht]; rfl
      split
      · exact ⟨hr, hf, hwf, hin, by rw [hts.1, hts.2]; exact id⟩
      · rename_i h0
        have hlt : t.symCur < t.symLen := by
          have : t.symCur = 0 := by rw [ht]; rfl
          omega
        obtain ⟨b, hb⟩ := take t hr hlt
        rw [hb]
        exact ⟨⟨hlt, hr.symLen, hr.filled⟩,
          congrArg (fun x : State => { x with symCur := t.symCur + 1, totalSyms := countUp t.cfg t.totalSyms 1 }) hf, hwf, hin,
          fun h => countUp_lt (by rw [hts.1, hts.2]; exact h) 1⟩
  · have hlt : s.symCur < s.symLen := by have := h.symCur; omega
    obtain ⟨b, hb⟩ := take s h hlt
    rw [hb]
    exact ⟨⟨hlt, h.symLen, h.filled⟩, rfl, id, id, fun h => countUp_lt h 1⟩

/-- READ_SYM on a source that answers delivers the next symbol (R125). -/
theorem readSym_cons {P : Params} {s : State} {b : Byte} {xs : List Byte} (hP : s.cfg = P) (h : SymsIn s (b :: xs))
    (hg : srcGood s.src = true) :
    ∃ t, readSym P s = .ok (some b) t ∧ SymsIn t xs ∧ srcGood t.src = true ∧ t.totalSyms = countUp s.cfg s.totalSyms 1 ∧
      t = { s with symBuf := t.symBuf, symCur := t.symCur, symLen := t.symLen, symEnd := t.symEnd,
                   totalSyms := t.totalSyms, src := t.src } := by
  have take : ∀ u : State, u.cfg = P → SymsIn u (b :: xs) → u.symCur < u.symLen →
      takeSym P u = .ok (some b) { u with symCur := u.symCur + 1, totalSyms := countUp u.cfg u.totalSyms 1 } ∧
        SymsIn { u with symCur := u.symCur + 1, totalSyms := countUp u.cfg u.totalSyms 1 } xs := by
    rintro u hu ⟨h1, h2, p, hp, hx⟩ hlt
    have hn : u.symLen - u.symCur = 1 + (u.symLen - (u.symCur + 1)) := by omega
    rw [hn, Mem.readList_add] at hp
    obtain ⟨ys, zs, hy, hz, rfl⟩ := hp
    cases hr : Mem.read u.symBuf u.symCur with
    | none => simp [Mem.readList, hr] at hy
    | some c =>
      simp [Mem.readList, hr] at hy
      subst hy
      simp only [List.cons_append, List.cons.injEq] at hx
      obtain ⟨rfl, hx⟩ := hx
      rw [hu] at h2
      exact ⟨takeSym_of_read (by omega) hr, hlt, by simpa [hu] using h2, zs, hz, hx⟩
  unfold readSym
  obtain ⟨h1, h2, p, hp, hx⟩ := h
  split
  · rename_i heq
    rw [heq] at hp
    simp only [Nat.sub_self, Mem.readList, Option.some.injEq] at hp
    subst hp
    split
    · simp_all
    · rename_i hend
      obtain ⟨q, hf, hq, hqg⟩ := symFill_good (P := P) (s := s) hg
      rw [hf, Res.bind_ok]
      have hsrc : s.src.data = b :: xs := by simpa [hend] using hx.symm
      have hpos := P.block_pos
      have hlen : 0 < (s.src.data.take P.block).length := by simp [hsrc]; omega
      have h3 : SymsIn ({ s.loadSyms P.block (s.src.data.take P.block) with src := q } : State) (b :: xs) := by
        refine ⟨Nat.zero_le _, ?_, s.src.data.take P.block, ?_, ?_⟩
        · show (s.src.data.take P.block).length ≤ s.cfg.block
          rw [hP]; simp only [List.length_take]; omega
        · exact Mem.readList_writeList _ _ _
        · show b :: xs = _ ++ if (s.symEnd || decide ((s.src.data.take P.block).length < P.block)) = true then [] else q.data
          rw [← hsrc, hq]
          split
          · rename_i hc
            have hshort : s.src.data.length < P.block := by
              simp only [hend, Bool.false_or, decide_eq_true_eq, List.length_take] at hc
              simp at hend; simp at hc; omega
            rw [List.append_nil, List.take_of_length_le (by omega)]
          · simp
      rw [if_neg (by show (s.src.data.take P.block).length ≠ 0; omega)]
      obtain ⟨ht, hin⟩ := take _ (by exact hP) h3 (by exact hlen)
      rw [ht]
      exact ⟨_, rfl, hin, hqg, rfl, rfl⟩
  · have hlt : s.symCur < s.symLen := by omega
    obtain ⟨ht, hin⟩ := take s hP ⟨h1, h2, p, hp, hx⟩ hlt
    rw [ht]
    exact ⟨_, rfl, hin, hg, rfl, rfl⟩

/-- READ_SYM at the end of the input returns `NONE`, now and ever after (R125). -/
theorem readSym_nil {P : Params} {s : State} (h : SymsIn s []) (hg : srcGood s.src = true) :
    ∃ t, readSym P s = .ok none t ∧ SymsIn t [] ∧ srcGood t.src = true ∧ t.symCur = t.symLen ∧ t.symEnd = true ∧
      t = { s with symBuf := t.symBuf, symCur := t.symCur, symLen := t.symLen, symEnd := t.symEnd, src := t.src } := by
  obtain ⟨h1, h2, p, hp, hx⟩ := h
  have hx := (List.append_eq_nil_iff.1 hx.symm)
  obtain ⟨rfl, hrest⟩ := hx
  have heq : s.symCur = s.symLen := by have := Mem.readList_length hp; simp at this; omega
  unfold readSym
  rw [if_pos heq]
  split
  · rename_i hend
    exact ⟨s, rfl, ⟨h1, h2, [], hp, by simp [hend]⟩, hg, heq, hend, rfl⟩
  · rename_i hend
    have hsrc : s.src.data = [] := by simpa [hend] using hrest
    obtain ⟨q, hf, hq, hqg⟩ := symFill_good (P := P) (s := s) hg
    rw [hf, Res.bind_ok, if_pos (by simp [hsrc])]
    have hpos := P.block_pos
    refine ⟨_, rfl, ⟨Nat.zero_le _, by simp [hsrc], [], by simp [hsrc, Mem.readList], ?_⟩, hqg, by simp [hsrc], ?_, rfl⟩
    · simp [hq, hsrc]
    · simp [hsrc]; exact .inr hpos

/-- Where the fills of a source of `n` bytes that answers stand: before the end was seen whole blocks have been taken;
after it, all, and the last fill took the rest (R121, R124). -/
def SrcSeen (n : Nat) (s : State) : Prop :=
  if s.symEnd then s.src.data = [] ∧ s.symLen = n % s.cfg.block
  else s.src.data.length % s.cfg.block = n % s.cfg.block

theorem readSym_seen {P : Params} {n : Nat} {s : State} (hP : s.cfg = P) (hg : srcGood s.src = true)
    (h : SrcSeen n s) : (readSym P s).Leaves (SrcSeen n) := by
  have take : ∀ u : State, SrcSeen n u → (takeSym P u).Leaves (SrcSeen n) := by
    intro u hu
    unfold takeSym
    refine Res.Leaves.bind (Q := SrcSeen n) ((fetchCell_leaves u).mono fun t ht => ?_) fun _ t ht => ht
    rw [ht]; exact hu
  unfold readSym
  split
  · split
    · exact h
    · rename_i hend
      obtain ⟨q, hf, hq, -⟩ := symFill_good (P := P) (s := s) hg
      have hs : SrcSeen n { s.loadSyms P.block (s.src.data.take P.block) with src := q } := by
        subst hP
        unfold SrcSeen at h ⊢
        rw [if_neg hend] at h
        show if (s.symEnd || decide ((s.src.data.take s.cfg.block).length < s.cfg.block)) = true
          then q.data = [] ∧ (s.src.data.take s.cfg.block).length = n % s.cfg.block
          else q.data.length % s.cfg.block = n % s.cfg.block
        rw [hq, List.length_take, List.length_drop, ← h]
        split
        · rename_i hc
          have hlt : s.src.data.length < s.cfg.block := by
            simp only [hend, Bool.false_or, decide_eq_true_eq] at hc; omega
          exact ⟨List.drop_eq_nil_of_le hlt.le, by rw [Nat.mod_eq_of_lt hlt]; omega⟩
        · rename_i hc
          simp only [hend, Bool.false_or, decide_eq_true_eq] at hc
          exact (Nat.mod_eq_sub_mod (by omega)).symm
      rw [hf, Res.bind_ok]
      split
      · exact hs
      · exact take _ hs
  · exact take s h

end Sys2Proof.Machine
end

