-- ==== Sys2Proof/Laws/WidthReset.lean ====
section
/-! SUPPORT. The counter and the dictionaries: what ADVANCE does (R174), and that an entry made at the counter
followed by ADVANCE keeps the dictionary invariants (R44, R45, R179). -/

namespace Sys2Proof.Machine

open Sys2Proof Sys2Proof.Safety

/-! ### ADVANCE -/

/-- ADVANCE below the ceiling (R174). -/
theorem advance_of_ne {P : Params} {s : State} (h : s.nextCode.toNat + 1 ≠ P.maxCode) :
    advance P s = ({ s with nextCode := s.nextCode + 1 }, false) := by
  unfold advance; rw [if_neg h]

/-- ADVANCE at the ceiling (R174, R175). -/
theorem advance_of_eq {P : Params} {s : State} (h : s.nextCode.toNat + 1 = P.maxCode) :
    advance P s = ({ dictReset P s with nextCode := P.startCode }, true) := by
  unfold advance; rw [if_pos h]

theorem dictReset_enc {P : Params} {s : State} (h : s.phase = .encLoop ∨ s.phase = .encTail) :
    dictReset P s = { s with child := [] } := by
  unfold dictReset; split <;> first | rfl | simp_all

theorem dictReset_dec {P : Params} {s : State} (h : s.phase = .decLoop) :
    dictReset P s = { s with wt := [(P.emptyCode.toNat, [])] } := by
  unfold dictReset; split <;> first | rfl | simp_all

/-- What DICT_RESET may touch (R175). -/
theorem dictReset_frame (P : Params) (s : State) :
    dictReset P s = { s with child := (dictReset P s).child, wt := (dictReset P s).wt } := by
  unfold dictReset; split <;> rfl

/-- What ADVANCE may touch (R27, R174). -/
theorem advance_frame (P : Params) (s : State) :
    (advance P s).1 = { s with nextCode := (advance P s).1.nextCode, child := (advance P s).1.child, wt := (advance P s).1.wt } := by
  unfold advance; split
  · exact congrArg (fun x : State => { x with nextCode := P.startCode }) (dictReset_frame P s)
  · rfl

/-- One more than a counter below the ceiling, as a number. -/
theorem succ_toNat {P : Params} {n : Code} (h : n.toNat + 1 < P.maxCode) : (n + 1).toNat = n.toNat + 1 := by
  have := P.max_le
  rw [BitVec.toNat_add]; simp; omega

/-- ADVANCE keeps the counter in its range (R21). -/
theorem advance_range {P : Params} {s : State} (h : P.startCode.toNat ≤ s.nextCode.toNat)
    (h' : s.nextCode.toNat < P.maxCode) :
    P.startCode.toNat ≤ (advance P s).1.nextCode.toNat ∧ (advance P s).1.nextCode.toNat < P.maxCode := by
  by_cases he : s.nextCode.toNat + 1 = P.maxCode
  · rw [advance_of_eq he]; exact ⟨le_rfl, P.start_lt_max⟩
  · rw [advance_of_ne he]
    show _ ≤ (s.nextCode + 1).toNat ∧ (s.nextCode + 1).toNat < _
    rw [succ_toNat (P := P) (by omega)]; omega

/-! ### Memories seen as dictionaries -/

theorem Mem.length_write_new {α : Type} {m : Mem α} {i : Nat} (v : α) (h : Mem.read m i = none) :
    (Mem.write m i v).length = m.length + 1 := by
  induction m with
  | nil => rfl
  | cons e m ih =>
    obtain ⟨j, u⟩ := e
    rw [Mem.read] at h
    split at h
    · cases h
    · rw [Mem.write]
      split
      · rfl
      · rw [if_neg (by omega), List.length_cons, ih h, List.length_cons]

theorem Mem.lt_of_read {α : Type} {m : Mem α} {size i : Nat} {v : α} (hin : Mem.inside m size = true)
    (h : Mem.read m i = some v) : i < size := by
  have := Mem.mem_of_read h
  simpa using (List.all_eq_true.1 hin) _ this

/-- Every cell of the trie memory is an entry of a node (R42). -/
theorem exists_childIndex {j : Nat} (h : j < 256 * 65536) : ∃ c b, j = childIndex c b := by
  refine ⟨BitVec.ofNat 16 (j / 256), BitVec.ofNat 8 (j % 256), ?_⟩
  unfold childIndex
  simp only [BitVec.toNat_ofNat]; omega

/-! ### The trie -/

theorem TrieOk.of_empty {s : State} (hc : s.child = []) (hn : s.nextCode = s.cfg.startCode) : TrieOk s := by
  refine ⟨fun c b d h => ?_, fun d h1 h2 => ?_, ?_⟩
  · rw [hc] at h; cases h
  · rw [hn] at h2; omega
  · rw [hc, hn]; exact Nat.zero_add _

/-- The trie invariant speaks of the trie and the counter alone. -/
theorem TrieOk.congr {s t : State} (h : TrieOk s) (h1 : t.child = s.child) (h2 : t.nextCode = s.nextCode)
    (h3 : t.cfg = s.cfg) : TrieOk t := by
  obtain ⟨a, b, c⟩ := h
  exact ⟨by rw [h1, h2, h3]; exact a, by rw [h1, h2, h3]; exact b, by rw [h1, h2, h3]; exact c⟩

/-- A node the trie knows has an assigned code below the counter (R44). -/
theorem TrieOk.node_lt {s : State} (h : TrieOk s) {c : Code} {b : Byte} {d : Code}
    (hr : Mem.read s.child (childIndex c b) = some d) :
    s.cfg.startCode.toNat ≤ d.toNat ∧ d.toNat < s.nextCode.toNat := (h.entry c b d hr).1

/-- TRIE_INSERT of the counter's code under a node without that edge, leading to `v`, followed by ADVANCE (R201). -/
theorem TrieOk.insert_advance {s v : State} {c : Code} {b : Byte} (h : TrieOk s)
    (hin : Mem.inside s.child (256 * s.cfg.maxCode) = true)
    (hrange : s.cfg.startCode.toNat ≤ s.nextCode.toNat ∧ s.nextCode.toNat < s.cfg.maxCode)
    (hc : c = s.cfg.emptyCode ∨ s.cfg.startCode.toNat ≤ c.toNat ∧ c.toNat < s.nextCode.toNat)
    (hnone : Mem.read s.child (childIndex c b) = none)
    (hph : v.phase = .encLoop ∨ v.phase = .encTail) (hcfg : v.cfg = s.cfg) (hnext : v.nextCode = s.nextCode)
    (hchild : v.child = s.child.write (childIndex c b) s.nextCode) : TrieOk (advance s.cfg v).1 := by
  by_cases he : v.nextCode.toNat + 1 = s.cfg.maxCode
  · rw [advance_of_eq he, dictReset_enc hph]
    exact TrieOk.of_empty rfl (by show s.cfg.startCode = v.cfg.startCode; rw [hcfg])
  · rw [advance_of_ne he]
    refine TrieOk.congr (s := { s with child := s.child.write (childIndex c b) s.nextCode, nextCode := s.nextCode + 1 })
      ?_ hchild (by show v.nextCode + 1 = _; rw [hnext]) hcfg
    rw [hnext] at he
    have hs : (s.nextCode + 1).toNat = s.nextCode.toNat + 1 := succ_toNat (P := s.cfg) (by omega)
    have hmax := s.cfg.max_le
    refine ⟨fun c' b' d hr => ?_, fun d hd1 hd2 => ?_, ?_⟩
    · show (s.cfg.startCode.toNat ≤ d.toNat ∧ d.toNat < (s.nextCode + 1).toNat) ∧
        (c' = s.cfg.emptyCode ∨ s.cfg.startCode.toNat ≤ c'.toNat ∧ c'.toNat < d.toNat)
      rw [hs]
      replace hr : Mem.read (s.child.write (childIndex c b) s.nextCode) (childIndex c' b') = some d := hr
      rw [Mem.read_write] at hr
      split at hr
      · rename_i heq
        obtain ⟨rfl, rfl⟩ := childIndex_inj heq
        cases hr
        exact ⟨⟨hrange.1, by omega⟩, hc⟩
      · obtain ⟨⟨k1, k2⟩, k3⟩ := h.entry c' b' d hr
        exact ⟨⟨k1, by omega⟩, k3⟩
    · replace hd2 : d.toNat < (s.nextCode + 1).toNat := hd2
      rw [hs] at hd2
      show ∃ i, Mem.read (s.child.write (childIndex c b) s.nextCode) i = some d ∧
        ∀ j, Mem.read (s.child.write (childIndex c b) s.nextCode) j = some d → j = i
      by_cases hlt : d.toNat < s.nextCode.toNat
      · obtain ⟨i, hi, hu⟩ := h.assigned d hd1 hlt
        have hne : i ≠ childIndex c b := by rintro rfl; rw [hnone] at hi; cases hi
        refine ⟨i, by rw [Mem.read_write_other _ _ hne]; exact hi, fun j hj => ?_⟩
        rw [Mem.read_write] at hj
        split at hj
        · cases hj; omega
        · exact hu j hj
      · have hd : d = s.nextCode := BitVec.eq_of_toNat_eq (by omega)
        subst hd
        refine ⟨_, Mem.read_write_same _ _ _, fun j hj => ?_⟩
        rw [Mem.read_write] at hj
        split at hj
        · assumption
        · have hj' := Mem.lt_of_read hin hj
          obtain ⟨c', b', rfl⟩ := exists_childIndex (j := j) (by omega)
          exact absurd (TrieOk.node_lt h hj).2 (by omega)
    · show (s.child.write (childIndex c b) s.nextCode).length + s.cfg.startCode.toNat = (s.nextCode + 1).toNat
      rw [Mem.length_write_new _ hnone, hs]
      have := h.count; omega

/-! ### The word table -/

theorem TableOk.of_empty {s : State} (hw : s.wt = [(s.cfg.emptyCode.toNat, [])]) (hn : s.nextCode = s.cfg.startCode) :
    TableOk s := by
  have hr : ∀ c, Mem.read s.wt c = if s.cfg.emptyCode.toNat = c then some [] else none := by
    intro c; rw [hw]; rfl
  have hlt := s.cfg.empty_lt_start
  refine ⟨by rw [hr, if_pos rfl], fun c => ?_, fun c wd h1 h2 => ?_⟩
  · rw [hr, hn]
    split
    · simp_all
    · simp; omega
  · rw [hr] at h2
    split at h2
    · omega
    · cases h2

theorem TableOk.congr {s t : State} (h : TableOk s) (h1 : t.wt = s.wt) (h2 : t.nextCode = s.nextCode)
    (h3 : t.cfg = s.cfg) : TableOk t := by
  obtain ⟨a, b, c⟩ := h
  exact ⟨by rw [h1, h3]; exact a, by rw [h1, h2, h3]; exact b, by rw [h1, h3]; exact c⟩

/-- WT_APPEND at the counter's slot, leading to `v`, followed by ADVANCE (R230). -/
theorem TableOk.append_advance {s v : State} {c : Nat} {wd : List Byte} {b : Byte} (h : TableOk s)
    (hrange : s.cfg.startCode.toNat ≤ s.nextCode.toNat ∧ s.nextCode.toNat < s.cfg.maxCode)
    (hc : Mem.read s.wt c = some wd)
    (hph : v.phase = .decLoop) (hcfg : v.cfg = s.cfg) (hnext : v.nextCode = s.nextCode)
    (hwt : v.wt = s.wt.write s.nextCode.toNat (wd ++ [b])) : TableOk (advance s.cfg v).1 := by
  by_cases he : v.nextCode.toNat + 1 = s.cfg.maxCode
  · rw [advance_of_eq he, dictReset_dec hph]
    exact TableOk.of_empty (by show [(s.cfg.emptyCode.toNat, [])] = _; rw [← hcfg])
      (by show s.cfg.startCode = v.cfg.startCode; rw [hcfg])
  · rw [advance_of_ne he]
    refine TableOk.congr (s := { s with wt := s.wt.write s.nextCode.toNat (wd ++ [b]), nextCode := s.nextCode + 1 })
      ?_ hwt (by show v.nextCode + 1 = _; rw [hnext]) hcfg
    rw [hnext] at he
    have hs : (s.nextCode + 1).toNat = s.nextCode.toNat + 1 := succ_toNat (P := s.cfg) (by omega)
    have hlt := s.cfg.empty_lt_start
    have hocc := (h.occupied c).1 (by rw [hc]; rfl)
    refine ⟨?_, fun k => ?_, fun k w hk hr => ?_⟩
    · show Mem.read (s.wt.write s.nextCode.toNat (wd ++ [b])) s.cfg.emptyCode.toNat = some []
      rw [Mem.read_write_other _ _ (by omega)]; exact h.empty
    · show (Mem.read (s.wt.write s.nextCode.toNat (wd ++ [b])) k).isSome ↔
        k = s.cfg.emptyCode.toNat ∨ s.cfg.startCode.toNat ≤ k ∧ k < (s.nextCode + 1).toNat
      rw [hs, Mem.read_write]
      split
      · subst k; simp; omega
      · rw [h.occupied k]; omega
    · replace hk : s.cfg.startCode.toNat ≤ k := hk
      replace hr : Mem.read (s.wt.write s.nextCode.toNat (wd ++ [b])) k = some w := hr
      show ∃ p pre b', (p = s.cfg.emptyCode.toNat ∨ s.cfg.startCode.toNat ≤ p ∧ p < k) ∧
        Mem.read (s.wt.write s.nextCode.toNat (wd ++ [b])) p = some pre ∧ w = pre ++ [b']
      rw [Mem.read_write] at hr
      split at hr
      · subst k
        cases hr
        exact ⟨c, wd, b, hocc, by rw [Mem.read_write_other _ _ (by omega)]; exact hc, rfl⟩
      · obtain ⟨p, pre, b', h1, h2, h3⟩ := h.word k w hk hr
        have hp := (h.occupied p).1 (by rw [h2]; rfl)
        exact ⟨p, pre, b', h1, by rw [Mem.read_write_other _ _ (by omega)]; exact h2, h3⟩

end Sys2Proof.Machine
end

