-- ==== Sys2Proof/Laws/Encoder.lean ====
section
/-! SUPPORT. The encoder's operations: what each does in any environment to a state in which the invariant of the
encoder holds (R198 to R204), and the sequences they produce where the environment answers. -/

namespace Sys2Proof.Machine

open Sys2Proof Sys2Proof.Safety

/-! ### While a command runs -/

/-- What every state inside a running command has (R30, R31): the part of the invariant a fault leaves standing. -/
structure BusyOk (s : State) : Prop where
  memories : MemoriesOk s
  ranges : RangesOk s
  busy : s.busy = true
  cause : s.cause = .none
  faultInfo : s.faultInfo = 0
  done : s.done = false

theorem State.busy_iff (s : State) : s.busy = true ↔ s.phase ≠ .idle ∧ s.phase ≠ .fault := by
  unfold State.busy; split <;> simp_all

theorem State.not_busy_iff (s : State) : s.busy = false ↔ s.phase = .idle ∨ s.phase = .fault := by
  unfold State.busy; split <;> simp_all

theorem BusyOk.of_inv {s : State} (h : Inv s) (hb : s.busy = true) : BusyOk s := by
  have hp := (State.busy_iff s).1 hb
  refine ⟨h.memories, h.ranges, hb, ?_, h.flags.faultInfo hp.2, ?_⟩
  · by_contra hc
    exact hp.2 (h.flags.cause.1 hc)
  · by_contra hd
    exact hp.1 (h.flags.done (by simpa using hd))

theorem BusyOk.inv {s : State} (h : BusyOk s) (hp : phaseOk s) : Inv s := by
  have hb := (State.busy_iff s).1 h.busy
  exact ⟨h.memories, h.ranges,
    ⟨by simp [h.cause, hb.2], fun _ => h.faultInfo, fun hd => by rw [h.done] at hd; cases hd⟩, hp⟩

/-- Fault entry from inside a command keeps the invariant (R320, R326). -/
theorem BusyOk.enterFault {s : State} (h : BusyOk s) (f : Raise) (hf : f.cause ≠ .none) : Inv (s.enterFault f) := by
  have hb := (State.busy_iff s).1 h.busy
  unfold State.enterFault
  rw [if_neg hb.2]
  obtain ⟨a, b, c, d, e, g, i, j⟩ := h.memories
  refine ⟨⟨a, b, c, d, e, g, i, j⟩, ⟨h.ranges.symCur, h.ranges.symLen, h.ranges.bitCur, h.ranges.pairLen, ?_,
    h.ranges.totals⟩, ⟨⟨fun _ => rfl, fun _ => hf⟩, fun h => absurd rfl h, fun hd => ?_⟩, trivial⟩
  · exact fun _ => h.ranges.nextCode (.inl hb.2)
  · exact absurd (show s.done = true from hd) (by rw [h.done]; simp)

theorem BusyOk.range {s : State} (h : BusyOk s) :
    s.cfg.startCode.toNat ≤ s.nextCode.toNat ∧ s.nextCode.toNat < s.cfg.maxCode :=
  h.ranges.nextCode (.inl ((State.busy_iff s).1 h.busy).2)

/-- The width in force inside a command is one the bit channel accepts (R173). -/
theorem BusyOk.widthOk {s : State} (h : BusyOk s) : widthOk s.width = true := by
  have h1 := bitlen_code_pos (P := s.cfg) (c := s.nextCode) h.range.1
  have h2 := bitlen_code_le s.nextCode
  unfold Machine.widthOk State.width
  simp [h1, h2]

/-- The write side of the bit channel keeps what holds inside a command. -/
theorem WritesBits.busyOk {P : Params} {s t : State} (h : WritesBits P s t) (hP : s.cfg = P) (k : BusyOk s) : BusyOk t := by
  subst hP
  obtain ⟨⟨a, b, c, d, e, g, i, j⟩, ⟨r1, r2, r3, r4, r5, r6⟩, k1, k2, k3, k4⟩ := k
  obtain ⟨hf, hw, hi, hc, ht⟩ := h
  have hin := hi g r3
  have hwf := hw b
  have hcur := hc r3
  have htot := ht r6.2
  rw [hf] at htot ⊢
  exact ⟨⟨a, hwf, c, d, e, hin, i, j⟩, ⟨r1, r2, hcur, r4, r5, r6.1, htot⟩, k1, k2, k3, k4⟩

theorem WritesSyms.busyOk {P : Params} {s t : State} (h : WritesSyms P s t) (hP : s.cfg = P) (k : BusyOk s) : BusyOk t := by
  subst hP
  obtain ⟨⟨a, b, c, d, e, g, i, j⟩, ⟨r1, r2, r3, r4, r5, r6⟩, k1, k2, k3, k4⟩ := k
  obtain ⟨hf, hw, hi, hc, ht⟩ := h
  have hin := hi e
  have hwf := hw a
  have hcur := hc r1
  have htot := ht r6.1
  rw [hf] at htot ⊢
  exact ⟨⟨hwf, b, c, d, hin, g, i, j⟩, ⟨hcur, r2, r3, r4, r5, htot, r6.2⟩, k1, k2, k3, k4⟩

theorem ReadsBits.busyOk {P : Params} {s t : State} (h : ReadsBits P s t) (hP : s.cfg = P) (hr : PairsReady P s)
    (k : BusyOk s) : BusyOk t := by
  subst hP
  obtain ⟨⟨a, b, c, d, e, g, i, j⟩, ⟨r1, r2, r3, r4, r5, r6⟩, k1, k2, k3, k4⟩ := k
  have hready := h.ready hr
  obtain ⟨hf, hw, hi, -, ht⟩ := h
  have hin := hi g
  have hwf := hw b
  have hcur : t.bitCur ≤ 8 * s.cfg.block := by have := hready.bitCur; have := hready.pairLen; omega
  have hlen := hready.pairLen
  have htot := ht r6.2
  rw [hf] at htot ⊢
  exact ⟨⟨a, hwf, c, d, e, hin, i, j⟩, ⟨r1, r2, hcur, hlen, r5, r6.1, htot⟩, k1, k2, k3, k4⟩

/-! ### ENC_SYMBOL -/

theorem EncoderOk.curCode {s : State} (h : EncoderOk s) :
    s.curCode = s.cfg.emptyCode ∨ s.cfg.startCode.toNat ≤ s.curCode.toNat ∧ s.curCode.toNat < s.nextCode.toNat :=
  h.matched.imp_right fun hm => TrieOk.node_lt h.trie hm

/-- The current match is a node of the trie memory (R42, R73). -/
theorem EncoderOk.curCode_lt {s : State} (h : EncoderOk s) (hb : BusyOk s) : s.curCode.toNat < s.cfg.maxCode := by
  have h1 := s.cfg.empty_lt_start
  have h2 := s.cfg.start_lt_max
  have h3 := hb.range.2
  rcases EncoderOk.curCode h with hc | hc
  · rw [hc]; omega
  · omega

/-- What a miss leaves behind (R201): the written pair, then the new node and the counter's step. -/
theorem encMiss_spec (G : Prop) {P : Params} {b : Byte} {s : State} {xs : List Bool} (hP : s.cfg = P) (h : BusyOk s)
    (hc : s.curCode.toNat < P.maxCode) (hx : BitsOut s xs) (hg : G → snkGood s.snk = true) :
    (encMiss P b s).Spec
      (fun _ t => ∃ u, BusyOk u ∧ BitsOut u (xs ++ encodePair P s.width s.curCode b) ∧ (G → snkGood u.snk = true) ∧
        u = { s with
          pairBuf := u.pairBuf, bitCur := u.bitCur, snk := u.snk, totalBits := countUp s.cfg s.totalBits (s.width + 8) } ∧
        t = (advance P { u with child := s.child.write (childIndex s.curCode b) s.nextCode, curCode := P.emptyCode }).1)
      (fun f t => snkFails G f t ∧ BusyOk t) (mute G) := by
  unfold encMiss
  have hw := h.widthOk
  have hspec := (writePair_spec G s.curCode b hP hw hx hg).leaves (writePair_leaves P s.curCode b s.width s)
  refine Res.Spec.bind (Q := fun _ u => BusyOk u ∧ BitsOut u (xs ++ encodePair P s.width s.curCode b) ∧
      (G → snkGood u.snk = true) ∧ u = { s with
          pairBuf := u.pairBuf, bitCur := u.bitCur, snk := u.snk, totalBits := countUp s.cfg s.totalBits (s.width + 8) })
    (hspec.mono (fun _ u hu => ?_) (fun f u hu => ⟨hu.1, hu.2.busyOk hP h⟩) fun _ h => h) ?_
  · obtain ⟨⟨h1, h2, h3, h4⟩, h5⟩ := hu
    refine ⟨h5.busyOk hP h, h1, h4, ?_⟩
    have := h5.frame
    rw [h3] at this
    exact this
  · rintro _ u ⟨h1, h2, h3, h4⟩
    have e1 : u.curCode = s.curCode := by rw [h4]
    have e2 : u.nextCode = s.nextCode := by rw [h4]
    have e3 : u.child = s.child := by rw [h4]
    unfold trieInsert
    rw [if_pos (by rw [e1]; exact hc), Res.bind_ok]
    exact ⟨u, h1, h2, h3, h4, by rw [← e1, ← e2, ← e3]⟩

/-- The dictionary part of ENC_SYMBOL keeps the invariant of the encoder (R198, R200, R201). -/
theorem encConsume_ok {b : Byte} {s : State} (h : BusyOk s) (hph : s.phase = .encLoop) (he : EncoderOk s) :
    (encConsume s.cfg b s).Spec (fun _ t => BusyOk t ∧ t.phase = .encLoop ∧ EncoderOk t)
      (fun f t => f = ⟨.ioError, 1⟩ ∧ BusyOk t) (fun f => f = .noAnswer) := by
  have hcl := EncoderOk.curCode_lt he h
  unfold encConsume trieStep
  rw [if_pos hcl, Res.bind_ok]
  split
  · rename_i d hd
    rw [Res.bind_ok]
    obtain ⟨⟨a, b', c, d', e, g, i, j⟩, ⟨r1, r2, r3, r4, r5, r6⟩, k1, k2, k3, k4⟩ := h
    exact ⟨⟨⟨a, b', c, d', e, g, i, j⟩, ⟨r1, r2, r3, r4, r5, r6⟩, k1, k2, k3, k4⟩, hph,
      ⟨TrieOk.congr he.trie rfl rfl rfl, he.wt, .inr hd, he.symCur, he.symBuf, he.bitCur, he.pairBuf⟩⟩
  · rename_i hnone
    obtain ⟨p, hp⟩ := readList_of_filled he.pairBuf
    refine Res.Spec.bind (Q := fun _ t => BusyOk t ∧ t.phase = .encLoop ∧ ∀ b', EncoderOk { t with prevSym := b' })
      ((encMiss_spec False rfl h hcl ⟨he.bitCur, p, hp, rfl⟩ False.elim).mono (fun _ t ht => ?_)
        (fun f t hf => ⟨hf.1.1, hf.2⟩) fun _ h => h.1) ?_
    · obtain ⟨u, hu1, ⟨hu2, q, hq, -⟩, -, hu4, rfl⟩ := ht
      have e1 : u.cfg = s.cfg := by rw [hu4]
      have e2 : u.nextCode = s.nextCode := by rw [hu4]
      have e3 : u.child = s.child := by rw [hu4]
      have e4 : u.phase = .encLoop := by rw [hu4]; exact hph
      have e5 : u.wt = s.wt := by rw [hu4]
      have e6 : u.symCur = s.symCur ∧ u.symLen = s.symLen ∧ u.symBuf = s.symBuf := by rw [hu4]; exact ⟨rfl, rfl, rfl⟩
      have hr := hu1.range
      rw [e1, e2] at hr
      generalize hv : ({ u with child := s.child.write (childIndex s.curCode b) s.nextCode, curCode := s.cfg.emptyCode } : State) = v
      have hadv := TrieOk.insert_advance he.trie h.memories.childInside hr (EncoderOk.curCode he) hnone
        (v := v) (.inl (by rw [← hv]; exact e4)) (by rw [← hv]; exact e1) (by rw [← hv]; exact e2) (by rw [← hv])
      have hvr : s.cfg.startCode.toNat ≤ v.nextCode.toNat ∧ v.nextCode.toNat < s.cfg.maxCode := by
        rw [← hv]; show _ ≤ u.nextCode.toNat ∧ u.nextCode.toNat < _; rw [e2]; exact hr
      have hrange := advance_range hvr.1 hvr.2
      have hfr := advance_frame s.cfg v
      have hchild : Mem.wf (advance s.cfg v).1.child = true ∧ Mem.inside (advance s.cfg v).1.child (256 * s.cfg.maxCode) = true ∧
          (advance s.cfg v).1.wt = s.wt := by
        have hvp : v.phase = .encLoop := by rw [← hv]; exact e4
        by_cases heq : v.nextCode.toNat + 1 = s.cfg.maxCode
        · rw [advance_of_eq heq, dictReset_enc (.inl hvp)]
          exact ⟨rfl, rfl, by rw [← hv]; exact e5⟩
        · rw [advance_of_ne heq, ← hv]
          exact ⟨Mem.wf_write _ _ h.memories.childWf, Mem.inside_write _ h.memories.childInside (childIndex_lt b hcl), e5⟩
      generalize (advance s.cfg v).1 = t at *
      have f1 : t.cfg = s.cfg := by rw [hfr, ← hv]; exact e1
      have f2 : t.phase = .encLoop := by rw [hfr, ← hv]; exact e4
      have f3 : t.curCode = s.cfg.emptyCode := by rw [hfr, ← hv]
      have f4 : t.symBuf = u.symBuf ∧ t.pairBuf = u.pairBuf ∧ t.symCur = u.symCur ∧ t.symLen = u.symLen ∧
          t.bitCur = u.bitCur ∧ t.pairLen = u.pairLen ∧ t.cause = u.cause ∧ t.faultInfo = u.faultInfo ∧ t.done = u.done ∧
          t.totalSyms = u.totalSyms ∧ t.totalBits = u.totalBits := by
        rw [hfr, ← hv]; exact ⟨rfl, rfl, rfl, rfl, rfl, rfl, rfl, rfl, rfl, rfl, rfl⟩
      obtain ⟨g1, g2, g3, g4, g5, g6, g7, g8, g9, g10, g11⟩ := f4
      obtain ⟨⟨ma, mb, mc, md, me, mg, mi, mj⟩, ⟨r1, r2, r3, r4, r5, r6⟩, k1, k2, k3, k4⟩ := hu1
      refine ⟨⟨⟨by rw [g1]; exact ma, by rw [g2]; exact mb, hchild.1, by rw [hchild.2.2]; exact h.memories.wtWf,
          by rw [g1, f1, ← e1]; exact me, by rw [g2, f1, ← e1]; exact mg, by rw [f1]; exact hchild.2.1,
          by rw [hchild.2.2, f1]; exact h.memories.wtInside⟩,
        ⟨by rw [g3, f1, ← e1]; exact r1, by rw [g4, f1, ← e1]; exact r2, by rw [g5, f1, ← e1]; exact r3,
          by rw [g6, f1, ← e1]; exact r4, fun _ => by rw [f1]; exact hrange,
          by rw [g10, g11, f1, ← e1]; exact r6⟩,
        by rw [State.busy_iff, f2]; simp, by rw [g7]; exact k2, by rw [g8]; exact k3, by rw [g9]; exact k4⟩, f2, fun b' => ?_⟩
      refine ⟨TrieOk.congr hadv rfl rfl rfl, ?_, .inl ?_, ?_, ?_, ?_, ?_⟩
      · show t.wt = [(t.cfg.emptyCode.toNat, [])]
        rw [hchild.2.2, f1]; exact he.wt
      · show t.curCode = t.cfg.emptyCode
        rw [f3, f1]
      · show t.symCur ≤ t.symLen
        rw [g3, g4, e6.1, e6.2.1]; exact he.symCur
      · show Filled t.symBuf t.symLen
        rw [g1, g4, e6.2.1, e6.2.2]; exact he.symBuf
      · show t.bitCur < 8 * t.cfg.block
        rw [g5, f1, ← e1]; exact hu2
      · show Filled t.pairBuf t.bitCur
        rw [g2, g5]; exact filled_of_readList hq
    · rintro _ t ⟨h1, h2, h3⟩
      obtain ⟨⟨a, b', c, d', e, g, i, j⟩, ⟨r1, r2, r3, r4, r5, r6⟩, k1, k2, k3, k4⟩ := h1
      exact ⟨⟨⟨a, b', c, d', e, g, i, j⟩, ⟨r1, r2, r3, r4, r5, r6⟩, k1, k2, k3, k4⟩, h2, h3 b⟩

/-- ENC_SYMBOL in any environment (R200): it keeps the invariant of the encoder, raises `IO_ERROR` alone, and stops
only where a transaction is not answered. -/
theorem encSymbol_ok {s : State} (h : BusyOk s) (hph : s.phase = .encLoop) (he : EncoderOk s) :
    (encSymbol s.cfg s).Spec
      (fun _ t => BusyOk t ∧ (t.phase = .encLoop ∨ t.phase = .encTail) ∧ EncoderOk t)
      (fun f t => f.cause = .ioError ∧ BusyOk t) (fun f => f = .noAnswer) := by
  have hready : SymsReady s.cfg s := ⟨he.symCur, h.ranges.symLen, he.symBuf⟩
  unfold encSymbol
  refine Res.Spec.bind (Q := fun _ t => BusyOk t ∧ t.cfg = s.cfg ∧ t.phase = .encLoop ∧ EncoderOk t)
    ((readSym_ready hready).mono (fun _ t ht => ?_) (fun f t hf => ⟨by rw [hf.1], ?_⟩) fun _ h => h) ?_
  · obtain ⟨hr, hf, hwf, hin, htot⟩ := ht
    obtain ⟨⟨a, b, c, d, e, g, i, j⟩, ⟨r1, r2, r3, r4, r5, r6⟩, k1, k2, k3, k4⟩ := h
    have hwf := hwf a
    have hin := hin e
    obtain ⟨q1, q2, q3⟩ := hr
    have htot := htot r6.1
    rw [hf] at htot ⊢
    exact ⟨⟨⟨hwf, b, c, d, hin, g, i, j⟩, ⟨by show t.symCur ≤ s.cfg.block; omega, q2, r3, r4, r5, htot, r6.2⟩, k1, k2, k3, k4⟩, rfl, hph,
      ⟨TrieOk.congr he.trie rfl rfl rfl, he.wt, he.matched, q1, q3, he.bitCur, he.pairBuf⟩⟩
  · obtain ⟨⟨a, b, c, d, e, g, i, j⟩, ⟨r1, r2, r3, r4, r5, r6⟩, k1, k2, k3, k4⟩ := h
    rw [hf.2]
    exact ⟨⟨a, b, c, d, e, g, i, j⟩, ⟨r1, r2, r3, r4, r5, r6⟩, k1, k2, k3, k4⟩
  · rintro r t ⟨ht, hcfg, htp, hte⟩
    rw [← hcfg]
    cases r with
    | none =>
      obtain ⟨⟨a, b, c, d, e, g, i, j⟩, ⟨r1, r2, r3, r4, r5, r6⟩, k1, k2, k3, k4⟩ := ht
      exact ⟨⟨⟨a, b, c, d, e, g, i, j⟩, ⟨r1, r2, r3, r4, fun _ => r5 (.inl (by rw [htp]; simp)), r6⟩, rfl, k2, k3, k4⟩,
        .inr rfl, ⟨TrieOk.congr hte.trie rfl rfl rfl, hte.wt, hte.matched, hte.symCur, hte.symBuf, hte.bitCur, hte.pairBuf⟩⟩
    | some b =>
      exact (encConsume_ok ht htp hte).mono (fun _ u hu => ⟨hu.1, .inl hu.2.1, hu.2.2⟩)
        (fun f u hf => ⟨by rw [hf.1], hf.2⟩) fun _ h => h

/-! ### ENC_END -/

/-- What holds between the two parts of ENC_END (R202, R203). Only under `TERM_WRAP = MODULO` may the counter have
left its range, and then it is 0 (R204). -/
structure EndingOk (s : State) : Prop where
  memories : MemoriesOk s
  symCur : s.symCur ≤ s.cfg.block
  symLen : s.symLen ≤ s.cfg.block
  pairLen : s.pairLen ≤ s.cfg.block
  phase : s.phase = .encTail
  cause : s.cause = .none
  faultInfo : s.faultInfo = 0
  done : s.done = false
  wt : s.wt = [(s.cfg.emptyCode.toNat, [])]
  bitCur : s.bitCur < 8 * s.cfg.block
  pairBuf : Filled s.pairBuf s.bitCur
  counter : (s.cfg.startCode.toNat ≤ s.nextCode.toNat ∧ s.nextCode.toNat < s.cfg.maxCode) ∨
    s.cfg.termWrap = .modulo ∧ s.nextCode = 0
  totals : s.totalSyms < 2 ^ s.cfg.ctrBits ∧ s.totalBits < 2 ^ s.cfg.ctrBits

theorem EndingOk.of_encoder {s : State} (h : BusyOk s) (hp : s.phase = .encTail) (he : EncoderOk s) : EndingOk s :=
  ⟨h.memories, h.ranges.symCur, h.ranges.symLen, h.ranges.pairLen, hp, h.cause, h.faultInfo, h.done, he.wt, he.bitCur,
    he.pairBuf, .inl h.range, h.ranges.totals⟩

/-- The bits buffered while a pair is written are there when it ends. -/
theorem BitsOut.filled {s : State} {xs : List Bool} (h : BitsOut s xs) : s.bitCur < 8 * s.cfg.block ∧ Filled s.pairBuf s.bitCur :=
  ⟨h.1, by obtain ⟨p, hp, -⟩ := h.2; exact filled_of_readList hp⟩

theorem BitsOut.of_filled {s : State} (h : s.bitCur < 8 * s.cfg.block) (hf : Filled s.pairBuf s.bitCur) :
    ∃ xs, BitsOut s xs := by
  obtain ⟨p, hp⟩ := readList_of_filled hf
  exact ⟨_, h, p, hp, rfl⟩

/-- The counter step after the final pair (R202, R204). -/
theorem advanceFinal_ok {P : Params} {s : State} (hP : s.cfg = P) (h : EndingOk s)
    (hr : s.cfg.startCode.toNat ≤ s.nextCode.toNat ∧ s.nextCode.toNat < s.cfg.maxCode) :
    EndingOk (advanceFinal P s) := by
  subst hP
  obtain ⟨⟨a, b, c, d, e, g, i, j⟩, h2, h3, h4, h5, h6, h7, h8, h9, h10, h11, -, h12⟩ := h
  have hmax := s.cfg.max_le
  unfold advanceFinal
  split
  · by_cases he : s.nextCode.toNat + 1 = s.cfg.maxCode
    · rw [advance_of_eq he, dictReset_enc (.inr h5)]
      exact ⟨⟨a, b, rfl, d, e, g, rfl, j⟩, h2, h3, h4, h5, h6, h7, h8, h9, h10, h11,
        .inl ⟨le_rfl, s.cfg.start_lt_max⟩, h12⟩
    · rw [advance_of_ne he]
      refine ⟨⟨a, b, c, d, e, g, i, j⟩, h2, h3, h4, h5, h6, h7, h8, h9, h10, h11, .inl ?_, h12⟩
      show s.cfg.startCode.toNat ≤ (s.nextCode + 1).toNat ∧ (s.nextCode + 1).toNat < s.cfg.maxCode
      rw [succ_toNat (P := s.cfg) (by omega)]; omega
  · rename_i hm
    refine ⟨⟨a, b, c, d, e, g, i, j⟩, h2, h3, h4, h5, h6, h7, h8, h9, h10, h11, ?_, h12⟩
    by_cases he : s.nextCode.toNat + 1 = s.cfg.maxCode
    · exact .inr ⟨hm, by show BitVec.ofNat 16 ((s.nextCode.toNat + 1) % s.cfg.maxCode) = 0; rw [he, Nat.mod_self]; rfl⟩
    · refine .inl ?_
      show s.cfg.startCode.toNat ≤ (BitVec.ofNat 16 ((s.nextCode.toNat + 1) % s.cfg.maxCode)).toNat ∧ (BitVec.ofNat 16 _).toNat < s.cfg.maxCode
      rw [Nat.mod_eq_of_lt (by omega), BitVec.toNat_ofNat, Nat.mod_eq_of_lt (by omega)]
      omega

/-- ENC_END, first part, in any environment (R202). -/
theorem encEndFinalPair_ok {s : State} (h : BusyOk s) (hp : s.phase = .encTail) (he : EncoderOk s) :
    (encEndFinalPair s.cfg s).Spec (fun _ t => EndingOk t ∧ t.cfg = s.cfg) (fun f t => f = ⟨.ioError, 1⟩ ∧ BusyOk t)
      (fun f => f = .noAnswer) := by
  unfold encEndFinalPair
  split
  · exact ⟨EndingOk.of_encoder h hp he, rfl⟩
  · obtain ⟨xs, hx⟩ := BitsOut.of_filled he.bitCur he.pairBuf
    refine Res.Spec.bind (Q := fun _ t => (EndingOk t ∧ t.cfg = s.cfg) ∧
        t.cfg.startCode.toNat ≤ t.nextCode.toNat ∧ t.nextCode.toNat < t.cfg.maxCode)
      (((writePair_spec False s.prevCode s.prevSym rfl h.widthOk hx False.elim).leaves
        (writePair_leaves s.cfg s.prevCode s.prevSym s.width s)).mono (fun _ t ht => ?_)
        (fun f t hf => ⟨hf.1.1, hf.2.busyOk rfl h⟩) fun _ h => h.1) ?_
    · obtain ⟨⟨h1, h2, -⟩, h4⟩ := ht
      have hb := h4.busyOk rfl h
      obtain ⟨f1, f2⟩ := BitsOut.filled h1
      have hph : t.phase = .encTail := by rw [h4.frame]; exact hp
      have hwt : t.wt = [(t.cfg.emptyCode.toNat, [])] := by rw [h2, h4.frame]; exact he.wt
      exact ⟨⟨⟨hb.memories, hb.ranges.symCur, hb.ranges.symLen, hb.ranges.pairLen, hph, hb.cause, hb.faultInfo,
        hb.done, hwt, f1, f2, .inl hb.range, hb.ranges.totals⟩, h2⟩, hb.range⟩
    · rintro _ t ⟨⟨h1, h2⟩, h3⟩
      obtain ⟨⟨a, b, c, d, e, g, i, j⟩, k2, k3, k4, k5, k6, k7, k8, k9, k10, k11, k12, k13⟩ := h1
      refine ⟨advanceFinal_ok (s := { t with curCode := s.cfg.emptyCode }) h2
        ⟨⟨a, b, c, d, e, g, i, j⟩, k2, k3, k4, k5, k6, k7, k8, k9, k10, k11, k12, k13⟩ h3, ?_⟩
      unfold advanceFinal
      split
      · rw [advance_frame]; exact h2
      · exact h2

/-- ENC_END, second part, in any environment (R203, R204): the command completes, or a fault is taken. -/
theorem encEndTerminator_ok {s : State} (h : EndingOk s) :
    (encEndTerminator s.cfg s).Spec (fun _ t => Inv t ∧ t.phase = .idle) (fun f t => Inv (t.enterFault f))
      (fun f => f = .noAnswer) := by
  have hbusy : (s.cfg.startCode.toNat ≤ s.nextCode.toNat ∧ s.nextCode.toNat < s.cfg.maxCode) → BusyOk s := fun hr =>
    ⟨h.memories, ⟨h.symCur, h.symLen, h.bitCur.le, h.pairLen, fun _ => hr, h.totals⟩, by rw [State.busy_iff, h.phase]; simp,
      h.cause, h.faultInfo, h.done⟩
  unfold encEndTerminator
  rcases h.counter with hr | ⟨hm, h0⟩
  · have hb := hbusy hr
    obtain ⟨xs, hx⟩ := BitsOut.of_filled h.bitCur h.pairBuf
    refine Res.Spec.bind (Q := fun _ t => BusyOk t ∧ t.cfg = s.cfg ∧ t.phase = .encTail ∧
        t.wt = [(t.cfg.emptyCode.toNat, [])] ∧ ∃ xs, BitsOut t xs)
      (((writePair_spec False s.cfg.stopCode 0 rfl hb.widthOk hx False.elim).leaves
        (writePair_leaves s.cfg s.cfg.stopCode 0 s.width s)).mono (fun _ t ht => ?_)
        (fun f t hf => ?_) fun _ h => h.1) ?_
    · obtain ⟨⟨h1, h2, -⟩, h4⟩ := ht
      exact ⟨h4.busyOk rfl hb, h2, by rw [h4.frame]; exact h.phase, by rw [h2, h4.frame]; exact h.wt, _, h1⟩
    · rw [hf.1.1]; exact (hf.2.busyOk rfl hb).enterFault _ (by simp)
    · rintro _ t ⟨h1, h2, h3, h4, xs, h5⟩
      refine Res.Spec.bind (Q := fun _ u => BusyOk u ∧ u.cfg = s.cfg ∧ u.wt = [(u.cfg.emptyCode.toNat, [])])
        (((flushBits_spec False h2 h5 False.elim).leaves (flushBits_leaves s.cfg t)).mono (fun _ u hu => ?_)
          (fun f u hf => ?_) fun _ h => h.1) ?_
      · have hc : u.cfg = s.cfg := by rw [hu.2.cfg, h2]
        exact ⟨hu.2.busyOk h2 h1, hc, by rw [hc, ← h2, hu.2.frame]; exact h4⟩
      · rw [hf.1.1]; exact (hf.2.busyOk h2 h1).enterFault _ (by simp)
      · rintro _ u ⟨⟨⟨a, b, c, d, e, g, i, j⟩, ⟨r1, r2, r3, r4, -, r6⟩, q2, q3, q4, -⟩, hc, hwt⟩
        refine ⟨⟨⟨a, b, rfl, d, e, g, rfl, j⟩, ⟨r1, r2, r3, r4, fun _ => ?_, r6⟩, ⟨⟨fun k => absurd q3 k, fun k => ?_⟩, fun _ => q4,
          fun _ => rfl⟩, ⟨rfl, hwt⟩⟩, rfl⟩
        · show u.cfg.startCode.toNat ≤ s.cfg.startCode.toNat ∧ s.cfg.startCode.toNat < u.cfg.maxCode
          rw [hc]; exact ⟨le_rfl, s.cfg.start_lt_max⟩
        · cases k
  · have hw : s.width = 0 := by unfold State.width; rw [h0]; rfl
    have hwp : writePair s.cfg s.cfg.stopCode 0 s.width s = .raise (badWidth 0) s := by
      unfold writePair writeBits; rw [hw]; rfl
    rw [hwp]
    show Inv (s.enterFault (badWidth 0))
    unfold State.enterFault
    rw [if_neg (by rw [h.phase]; simp)]
    obtain ⟨⟨a, b, c, d, e, g, i, j⟩, k2, k3, k4, k5, k6, k7, k8, k9, k10, k11, k12, k13⟩ := h
    refine ⟨⟨a, b, c, d, e, g, i, j⟩, ⟨k2, k3, k10.le, k4, fun k => ?_, k13⟩, ⟨⟨fun _ => rfl, fun _ => by simp [badWidth]⟩, fun k => absurd rfl k,
      fun k => ?_⟩, trivial⟩
    · rcases k with k | k
      · exact absurd rfl k
      · replace k : s.cfg.termWrap = .reset := k
        rw [hm] at k; cases k
    · exact absurd (show s.done = true from k) (by rw [k8]; simp)

end Sys2Proof.Machine
end

