-- ==== Sys2Proof/Laws/Decoder.lean ====
section
/-! SUPPORT. The decoder's operations: what each does in any environment to a state in which the invariant of the
decoder holds (R221 to R233). -/

namespace Sys2Proof.Machine

open Sys2Proof Sys2Proof.Safety

/-- WT_LOOKUP: the word of the slot, or `BAD_CODE` (R221). -/
theorem wtLookup_spec (P : Params) (c : Code) (s : State) :
    (wtLookup P c s).Spec (fun wd t => t = s ∧ c.toNat < P.maxCode ∧ Mem.read s.wt c.toNat = some wd)
      (fun f t => f = ⟨.badCode, c⟩ ∧ t = s) (fun _ => False) := by
  unfold wtLookup
  split
  · split
    · rename_i wd h; exact ⟨rfl, ‹_›, h⟩
    · exact ⟨rfl, rfl⟩
  · exact ⟨rfl, rfl⟩

theorem SymsOut.of_filled {s : State} (h : s.symCur < s.cfg.block) (hf : Filled s.symBuf s.symCur) :
    ∃ xs, SymsOut s xs := by
  obtain ⟨p, hp⟩ := readList_of_filled hf
  exact ⟨_, h, p, hp, rfl⟩

theorem SymsOut.filled {s : State} {xs : List Byte} (h : SymsOut s xs) : s.symCur < s.cfg.block ∧ Filled s.symBuf s.symCur :=
  ⟨h.1, by obtain ⟨p, hp, -⟩ := h.2; exact filled_of_readList hp⟩

/-- A pair other than the stop pair, in any environment (R230): the invariant of the decoder is kept. -/
theorem decWord_ok {c : Code} {b : Byte} {s : State} (h : BusyOk s) (hp : s.phase = .decLoop) (he : DecoderOk s) :
    (decWord s.cfg c b s).Spec (fun _ t => BusyOk t ∧ t.phase = .decLoop ∧ DecoderOk t)
      (fun f t => f.cause ≠ .none ∧ BusyOk t) (fun f => f = .noAnswer) := by
  unfold decWord
  refine Res.Spec.bind ((wtLookup_spec s.cfg c s).mono (fun _ _ h => h)
    (fun f t hf => ⟨by rw [hf.1]; simp, by rw [hf.2]; exact h⟩) fun _ h => h.elim) ?_
  rintro wd t ⟨ht, hclt, hc⟩
  subst t
  obtain ⟨xs, hx⟩ := SymsOut.of_filled he.symCur he.symBuf
  refine Res.Spec.bind (Q := fun _ u => BusyOk u ∧ SymsOut u (xs ++ (wd ++ [b])) ∧ WritesSyms s.cfg s u)
    (((writeWord_spec False (wd ++ [b]) rfl hx False.elim).leaves (writeWord_leaves s.cfg (wd ++ [b]) s)).mono
      (fun _ u hu => ⟨hu.2.busyOk rfl h, hu.1.1, hu.2⟩)
      (fun f u hf => ⟨by rw [hf.1.1]; simp, hf.2.busyOk rfl h⟩) fun _ h => h.1) ?_
  rintro _ u ⟨hb, hs, hw⟩
  obtain ⟨s1, s2⟩ := SymsOut.filled hs
  have hr := h.range
  have e1 := hw.cfg
  have e2 : u.nextCode = s.nextCode := by rw [hw.frame]
  have e3 : u.wt = s.wt := by rw [hw.frame]
  have e4 : u.phase = .decLoop := by rw [hw.frame]; exact hp
  have e5 : u.child = [] := by rw [hw.frame]; exact he.child
  have e6 : u.bitCur = s.bitCur ∧ u.pairLen = s.pairLen ∧ u.pairBuf = s.pairBuf := by rw [hw.frame]; exact ⟨rfl, rfl, rfl⟩
  unfold wtAppend
  rw [if_pos (by rw [e2]; exact hr.2), Res.bind_ok]
  show BusyOk (advance s.cfg { u with wt := u.wt.write u.nextCode.toNat (wd ++ [b]) }).1 ∧ _
  generalize hv : ({ u with wt := u.wt.write u.nextCode.toNat (wd ++ [b]) } : State) = v
  have hadv := TableOk.append_advance (b := b) he.table hr hc (v := v) (by rw [← hv]; exact e4) (by rw [← hv]; exact e1)
    (by rw [← hv]; exact e2) (by rw [← hv, ← e2, ← e3])
  have hrange := advance_range (P := s.cfg) (s := v) (by rw [← hv]; show _ ≤ u.nextCode.toNat; rw [e2]; exact hr.1)
    (by rw [← hv]; show u.nextCode.toNat < _; rw [e2]; exact hr.2)
  have hfr := advance_frame s.cfg v
  have hmem : Mem.wf (advance s.cfg v).1.wt = true ∧ Mem.inside (advance s.cfg v).1.wt s.cfg.maxCode = true ∧
      (advance s.cfg v).1.child = [] := by
    by_cases heq : v.nextCode.toNat + 1 = s.cfg.maxCode
    · rw [advance_of_eq heq, dictReset_dec (by rw [← hv]; exact e4)]
      refine ⟨rfl, ?_, by rw [← hv]; exact e5⟩
      have h1 := s.cfg.empty_lt_start
      have h2 := s.cfg.start_lt_max
      simp [Mem.inside]; omega
    · rw [advance_of_ne heq, ← hv]
      refine ⟨Mem.wf_write _ _ hb.memories.wtWf, Mem.inside_write _ (by rw [← e1]; exact hb.memories.wtInside) ?_, e5⟩
      rw [e2]; exact hr.2
  generalize (advance s.cfg v).1 = t at *
  have f1 : t.cfg = s.cfg := by rw [hfr, ← hv]; exact e1
  have f2 : t.phase = .decLoop := by rw [hfr, ← hv]; exact e4
  have f4 : t.symBuf = u.symBuf ∧ t.pairBuf = u.pairBuf ∧ t.symCur = u.symCur ∧ t.symLen = u.symLen ∧
      t.bitCur = u.bitCur ∧ t.pairLen = u.pairLen ∧ t.cause = u.cause ∧ t.faultInfo = u.faultInfo ∧ t.done = u.done ∧
      t.totalSyms = u.totalSyms ∧ t.totalBits = u.totalBits := by
    rw [hfr, ← hv]; exact ⟨rfl, rfl, rfl, rfl, rfl, rfl, rfl, rfl, rfl, rfl, rfl⟩
  obtain ⟨g1, g2, g3, g4, g5, g6, g7, g8, g9, g10, g11⟩ := f4
  obtain ⟨⟨ma, mb, mc, md, me, mg, mi, mj⟩, ⟨r1, r2, r3, r4, r5, r6⟩, k1, k2, k3, k4⟩ := hb
  refine ⟨⟨⟨by rw [g1]; exact ma, by rw [g2]; exact mb, by rw [hmem.2.2]; rfl, hmem.1,
      by rw [g1, f1, ← e1]; exact me, by rw [g2, f1, ← e1]; exact mg, by rw [hmem.2.2]; rfl,
      by rw [f1]; exact hmem.2.1⟩,
    ⟨by rw [g3, f1, ← e1]; exact r1, by rw [g4, f1, ← e1]; exact r2, by rw [g5, f1, ← e1]; exact r3,
      by rw [g6, f1, ← e1]; exact r4, fun _ => by rw [f1]; exact hrange,
      by rw [g10, g11, f1, ← e1]; exact r6⟩,
    by rw [State.busy_iff, f2]; simp, by rw [g7]; exact k2, by rw [g8]; exact k3, by rw [g9]; exact k4⟩, f2, ?_⟩
  refine ⟨hadv, hmem.2.2, by rw [g3, f1, ← e1]; exact s1, by rw [g1, g3]; exact s2, ?_, ?_⟩
  · rw [g5, g6, e6.1, e6.2.1]; exact he.bitCur
  · rw [g2, g6, e6.2.1, e6.2.2]; exact he.pairBuf

/-- The read of a pair, in any environment, keeps the invariant of the decoder (R151). -/
theorem readPair_ok {s : State} (h : BusyOk s) (hp : s.phase = .decLoop) (he : DecoderOk s) :
    (readPair s.cfg s.width s).Spec (fun _ t => BusyOk t ∧ t.phase = .decLoop ∧ DecoderOk t ∧ t.cfg = s.cfg ∧ t.nextCode = s.nextCode)
      (fun f t => f.cause ≠ .none ∧ BusyOk t) (fun f => f = .noAnswer) := by
  have hready : PairsReady s.cfg s := ⟨he.bitCur, h.ranges.pairLen, he.pairBuf⟩
  refine (readPair_spec h.widthOk hready).mono (fun _ t ht => ?_) (fun f t hf => ⟨?_, hf.2.busyOk rfl hready h⟩) fun _ h => h
  · have hr := ht.ready hready
    have hb := ht.busyOk rfl hready h
    refine ⟨hb, by rw [ht.frame]; exact hp, ?_, ht.cfg, by rw [ht.frame]⟩
    obtain ⟨e1, e2, e3, e4, -, -⟩ := he
    have ef := ht.frame
    refine ⟨TableOk.congr e1 (by rw [ef]) (by rw [ef]) ht.cfg, by rw [ef]; exact e2, by rw [ef]; exact e3,
      by rw [ef]; exact e4, hr.bitCur, hr.filled⟩
  · rcases hf.1 with h | h <;> rw [h] <;> simp [bodyUnderrun]

/-- The stop pair keeps the invariant (R232). -/
theorem stopPair_ok {s : State} (h : BusyOk s) (hp : s.phase = .decLoop) (he : DecoderOk s) :
    BusyOk s.stopPair ∧ s.stopPair.phase = .decTail ∧ DecoderOk s.stopPair := by
  obtain ⟨⟨a, b, c, d, e, g, i, j⟩, ⟨r1, r2, r3, r4, r5, r6⟩, k1, k2, k3, k4⟩ := h
  obtain ⟨e1, e2, e3, e4, e5, e6⟩ := he
  exact ⟨⟨⟨a, b, c, d, e, g, i, j⟩, ⟨r1, r2, r3, r4, fun _ => r5 (.inl (by rw [hp]; simp)), r6⟩, rfl, k2, k3, k4⟩, rfl,
    ⟨TableOk.congr e1 rfl rfl rfl, e2, e3, e4, e5, e6⟩⟩

/-- DEC_END in any environment (R233): the command completes, or a fault is taken. -/
theorem decEnd_ok {s : State} (h : BusyOk s) (he : DecoderOk s) :
    (decEnd s.cfg s).Spec (fun _ t => Inv t ∧ t.phase = .idle) (fun f t => Inv (t.enterFault f)) (fun f => f = .noAnswer) := by
  obtain ⟨xs, hx⟩ := SymsOut.of_filled he.symCur he.symBuf
  unfold decEnd
  refine Res.Spec.bind (Q := fun _ u => BusyOk u ∧ u.cfg = s.cfg ∧ u.child = [])
    (((flushSyms_spec False rfl hx False.elim).leaves (flushSyms_leaves s.cfg s)).mono
      (fun _ u hu => ⟨hu.2.busyOk rfl h, hu.2.cfg, by rw [hu.2.frame]; exact he.child⟩)
      (fun f u hf => by rw [hf.1.1]; exact (hf.2.busyOk rfl h).enterFault _ (by simp)) fun _ h => h.1) ?_
  rintro _ u ⟨⟨⟨a, b, c, d, e, g, i, j⟩, ⟨r1, r2, -, -, -, r6⟩, q2, q3, q4, -⟩, hc, hch⟩
  have h1 := s.cfg.empty_lt_start
  have h2 := s.cfg.start_lt_max
  refine ⟨⟨⟨a, b, c, rfl, e, g, i, ?_⟩, ⟨r1, r2, Nat.zero_le _, Nat.zero_le _, fun _ => ?_, r6⟩,
    ⟨⟨fun k => absurd q3 k, fun k => ?_⟩, fun _ => q4, fun _ => rfl⟩, ⟨hch, ?_⟩⟩, rfl⟩
  · show Mem.inside [(s.cfg.emptyCode.toNat, ([] : List Byte))] u.cfg.maxCode = true
    rw [hc]; simp [Mem.inside]; omega
  · show u.cfg.startCode.toNat ≤ s.cfg.startCode.toNat ∧ s.cfg.startCode.toNat < u.cfg.maxCode
    rw [hc]; exact ⟨le_rfl, h2⟩
  · cases k
  · show [(s.cfg.emptyCode.toNat, ([] : List Byte))] = [(u.cfg.emptyCode.toNat, [])]
    rw [hc]

end Sys2Proof.Machine
end

