-- ==== Sys2Proof/Laws/Streams.lean ====
section
/-! SUPPORT. The loops over the streams where the environment answers: what one step of the encoder and of the decoder
does to the sequences behind the buffers and to the words the pairs stand for (R177, R195, R237). -/

namespace Sys2Proof.Machine

open Sys2Proof Sys2Proof.Safety

/-! ### The words -/

/-- The counter stays in its range, and the table holds the empty word and words of assigned codes (R21, R45). -/
structure WordsOk (P : Params) (w : Words) : Prop where
  range : P.startCode.toNat ≤ w.next.toNat ∧ w.next.toNat < P.maxCode
  empty : Mem.read w.table P.emptyCode.toNat = some []
  domain : ∀ k wd, Mem.read w.table k = some wd → k = P.emptyCode.toNat ∨ P.startCode.toNat ≤ k ∧ k < w.next.toNat

theorem WordsOk.fresh (P : Params) (out : List Byte) : WordsOk P ⟨P.startCode, [(P.emptyCode.toNat, [])], out⟩ := by
  refine ⟨⟨le_rfl, P.start_lt_max⟩, by simp [Mem.read], fun k wd h => .inl ?_⟩
  simp only [Mem.read] at h
  split at h
  · exact Eq.symm ‹_›
  · cases h

theorem WordsOk.step {P : Params} {w w' : Words} {p : Code × Byte} (h : WordsOk P w) (hs : Words.step P w p = some w') :
    WordsOk P w' ∧ w'.next = nextCounter P w.next := by
  unfold Words.step at hs
  obtain ⟨wd, hr, rfl⟩ := Option.map_eq_some_iff.1 hs
  have hlt := P.empty_lt_start
  unfold nextCounter
  split
  · exact ⟨WordsOk.fresh P _, rfl⟩
  · rename_i hne
    obtain ⟨r1, r2⟩ := h.range
    have hsucc : (w.next + 1).toNat = w.next.toNat + 1 := succ_toNat (P := P) (by omega)
    refine ⟨⟨by show _ ≤ (w.next + 1).toNat ∧ (w.next + 1).toNat < _; rw [hsucc]; omega, ?_, fun k wd' hk => ?_⟩, rfl⟩
    · show Mem.read (Mem.write _ _ _) _ = _
      rw [Mem.read_write_other _ _ (by omega)]; exact h.empty
    · show k = _ ∨ _ ∧ k < (w.next + 1).toNat
      rw [hsucc]
      replace hk : Mem.read (Mem.write w.table w.next.toNat (wd ++ [p.2])) k = some wd' := hk
      rw [Mem.read_write] at hk
      split at hk
      · omega
      · have := h.domain k wd' hk; omega

/-- A code with a word fits the width in force (R173). -/
theorem WordsOk.fits {P : Params} {w : Words} (h : WordsOk P w) {c : Code} {wd : List Byte}
    (hr : Mem.read w.table c.toNat = some wd) : c.toNat < 2 ^ bitlen w.next.toNat := by
  have hlt := P.empty_lt_start
  have := h.range
  have := h.domain _ _ hr
  exact lt_width_of_le (by omega)

/-- `STOP_CODE` has no word (R45, R220). -/
theorem WordsOk.ne_stop {P : Params} {w : Words} (h : WordsOk P w) {c : Code} {wd : List Byte}
    (hr : Mem.read w.table c.toNat = some wd) : c ≠ P.stopCode := by
  rintro rfl
  have h1 := P.stop_lt_start
  rcases h.domain _ _ hr with h | h
  · exact P.empty_ne_stop (BitVec.eq_of_toNat_eq h).symm
  · omega

theorem WordsOk.widthOk {P : Params} {w : Words} (h : WordsOk P w) : widthOk (bitlen w.next.toNat) = true := by
  have h1 := bitlen_code_pos (P := P) h.range.1
  have h2 := bitlen_code_le w.next
  unfold Machine.widthOk
  simp [h1, h2]

theorem words_run_append (P : Params) (ps : List (Code × Byte)) (p : Code × Byte) :
    Words.run P (ps ++ [p]) = (Words.run P ps).bind fun w => Words.step P w p := by
  unfold Words.run
  rw [List.foldlM_append]
  simp

theorem WordsOk.of_run {P : Params} {ps : List (Code × Byte)} {w : Words} (h : Words.run P ps = some w) : WordsOk P w := by
  induction ps using List.reverseRecOn generalizing w with
  | nil => cases h; exact WordsOk.fresh P []
  | append_singleton ps p ih =>
    rw [words_run_append] at h
    obtain ⟨v, hv, hs⟩ := Option.bind_eq_some_iff.1 h
    exact ((ih hv).step hs).1

theorem pairsBits_append (P : Params) (n : Code) (ps qs : List (Code × Byte)) :
    pairsBits P n (ps ++ qs) = pairsBits P n ps ++ pairsBits P ((nextCounter P)^[ps.length] n) qs := by
  induction ps generalizing n with
  | nil => rfl
  | cons p ps ih =>
    rw [List.cons_append, pairsBits, pairsBits, ih, List.append_assoc, List.length_cons, Function.iterate_succ_apply]

theorem counter_of_run {P : Params} {ps : List (Code × Byte)} {w : Words} (h : Words.run P ps = some w) :
    w.next = (nextCounter P)^[ps.length] P.startCode := by
  induction ps using List.reverseRecOn generalizing w with
  | nil => cases h; rfl
  | append_singleton ps p ih =>
    rw [words_run_append] at h
    obtain ⟨v, hv, hs⟩ := Option.bind_eq_some_iff.1 h
    rw [((WordsOk.of_run hv).step hs).2, ih hv, List.length_append, List.length_singleton, Function.iterate_succ_apply']

/-- One pair more (R95). -/
theorem pairsBits_snoc {P : Params} {ps : List (Code × Byte)} {w : Words} (h : Words.run P ps = some w) (p : Code × Byte) :
    pairsBits P P.startCode (ps ++ [p]) = pairsBits P P.startCode ps ++ encodePair P (bitlen w.next.toNat) p.1 p.2 := by
  rw [pairsBits_append, counter_of_run h]; simp [pairsBits]

@[simp] theorem encodePair_length (P : Params) (w : Nat) (c : Code) (sym : Byte) : (encodePair P w c sym).length = w + 8 := by
  simp [encodePair]

/-! ### The encoder -/

/-- The encoder in step with the words of the pairs it has written (R177, R195, R198): `xs` are the symbols consumed,
`pre` the bits the sink began with. -/
structure EncSim (P : Params) (s : State) (pre : List Bool) (xs : List Byte) (ps : List (Code × Byte)) (w : Words) :
    Prop where
  cfg : s.cfg = P
  bits : BitsOut s (pre ++ pairsBits P P.startCode ps)
  run : Words.run P ps = some w
  next : s.nextCode = w.next
  link : ∀ c b d, Mem.read s.child (childIndex c b) = some d → d.toNat < w.next.toNat ∧
    ∃ wd, Mem.read w.table c.toNat = some wd ∧ Mem.read w.table d.toNat = some (wd ++ [b])
  current : ∃ wd, Mem.read w.table s.curCode.toNat = some wd ∧ xs = w.out ++ wd
  parent : s.curCode = P.emptyCode ∨ Mem.read s.child (childIndex s.prevCode s.prevSym) = some s.curCode
  sink : snkGood s.snk = true

theorem SymsIn.congr {s t : State} {xs : List Byte} (h : SymsIn s xs) (h1 : t.cfg = s.cfg) (h2 : t.symBuf = s.symBuf)
    (h3 : t.symCur = s.symCur) (h4 : t.symLen = s.symLen) (h5 : t.symEnd = s.symEnd) (h6 : t.src = s.src) : SymsIn t xs := by
  unfold SymsIn at *
  rw [h1, h2, h3, h4, h5, h6]; exact h

theorem BitsOut.congr {s t : State} {xs : List Bool} (h : BitsOut s xs) (h1 : t.cfg = s.cfg) (h2 : t.pairBuf = s.pairBuf)
    (h3 : t.bitCur = s.bitCur) (h4 : t.snk = s.snk) : BitsOut t xs := by
  unfold BitsOut at *
  rw [h1, h2, h3, h4]; exact h

theorem SymsOut.congr {s t : State} {xs : List Byte} (h : SymsOut s xs) (h1 : t.cfg = s.cfg) (h2 : t.symBuf = s.symBuf)
    (h3 : t.symCur = s.symCur) (h4 : t.snk = s.snk) : SymsOut t xs := by
  unfold SymsOut at *
  rw [h1, h2, h3, h4]; exact h

theorem BitsIn.congr {s t : State} {xs : List Bool} (h : BitsIn s xs) (h1 : t.cfg = s.cfg) (h2 : t.pairBuf = s.pairBuf)
    (h3 : t.bitCur = s.bitCur) (h4 : t.pairLen = s.pairLen) (h5 : t.pairEnd = s.pairEnd) (h6 : t.src = s.src) : BitsIn t xs := by
  unfold BitsIn at *
  rw [h1, h2, h3, h4, h5, h6]; exact h

/-- An operation that raises and stops only where the environment fails ends with a result. -/
theorem Res.Spec.ok_of_good {α : Type} {r : Res α} {Q : α → State → Prop} (h : r.Spec Q (snkFails True) (mute True)) :
    ∃ a t, r = .ok a t ∧ Q a t := by
  cases r with
  | ok a t => exact ⟨a, t, rfl, h⟩
  | raise f t => exact absurd trivial h.2
  | stop f => exact absurd trivial h.2

/-- A pair written at the width in force, where the sink answers. -/
theorem EncSim.writePair {P : Params} {s : State} {pre : List Bool} {xs : List Byte} {ps : List (Code × Byte)} {w : Words}
    (h : EncSim P s pre xs ps w) (c : Code) (b : Byte) :
    ∃ u, writePair P c b s.width s = .ok () u ∧ BitsOut u (pre ++ pairsBits P P.startCode (ps ++ [(c, b)])) ∧
      snkGood u.snk = true ∧
      u = { s with pairBuf := u.pairBuf, bitCur := u.bitCur, snk := u.snk,
                   totalBits := countUp s.cfg s.totalBits (s.width + 8) } := by
  have hw := (WordsOk.of_run h.run).widthOk
  have he : s.width = bitlen w.next.toNat := by unfold State.width; rw [h.next]
  obtain ⟨_, u, hu, ⟨h1, -, h3, h4⟩, h5⟩ := Res.Spec.ok_of_good (((writePair_spec True c b h.cfg (by rw [he]; exact hw) h.bits
    (fun _ => h.sink)).leaves (writePair_leaves P c b s.width s)).mono (fun _ _ h => h) (fun _ _ h => h.1) fun _ h => h)
  refine ⟨u, hu, ?_, h4 trivial, ?_⟩
  · rw [pairsBits_snoc h.run, ← List.append_assoc, ← he]; exact h1
  · have := h5.frame
    rw [h3] at this
    exact this

/-- One symbol consumed by the encoder (R198, R201): a hit, or a pair written and a word made. -/
theorem EncSim.consume {P : Params} {s : State} {pre : List Bool} {xs : List Byte} {ps : List (Code × Byte)} {w : Words}
    (h : EncSim P s pre xs ps w) (hph : s.phase = .encLoop) (b : Byte) :
    ∃ t ps' w', encConsume P b s = .ok () t ∧ EncSim P t pre (xs ++ [b]) ps' w' ∧
      (ps' = ps ∧ t.totalBits = s.totalBits ∨
        ps' = ps ++ [(s.curCode, b)] ∧ t.totalBits = countUp s.cfg s.totalBits (s.width + 8)) ∧
      t = { s with pairBuf := t.pairBuf, bitCur := t.bitCur, snk := t.snk, totalBits := t.totalBits, child := t.child,
                   nextCode := t.nextCode, curCode := t.curCode, prevCode := t.prevCode, prevSym := t.prevSym } := by
  obtain ⟨hcfg, hbits, hrun, hnext, hlink, ⟨wd, hcur, hxs⟩, hpar, hsnk⟩ := id h
  have hok := WordsOk.of_run hrun
  have hdom := hok.domain _ _ hcur
  have hmax := P.start_lt_max
  have hel := P.empty_lt_start
  have hclt : s.curCode.toNat < P.maxCode := by have := hok.range; omega
  unfold encConsume trieStep
  rw [if_pos hclt, Res.bind_ok]
  cases hstep : Mem.read s.child (childIndex s.curCode b) with
  | some d =>
    obtain ⟨hd, wd', h1, h2⟩ := hlink _ _ _ hstep
    refine ⟨_, ps, w, rfl, ⟨hcfg, BitsOut.congr hbits rfl rfl rfl rfl, hrun, hnext, hlink, ⟨wd' ++ [b], h2, ?_⟩, .inr hstep, hsnk⟩,
      .inl ⟨rfl, rfl⟩, rfl⟩
    rw [hcur] at h1
    cases h1
    rw [hxs, List.append_assoc]
  | none =>
    obtain ⟨u, hu, hub, hug, huf⟩ := EncSim.writePair h s.curCode b
    have e1 : u.curCode = s.curCode := by rw [huf]
    have e2 : u.nextCode = s.nextCode := by rw [huf]
    have e3 : u.child = s.child := by rw [huf]
    have e4 : u.phase = .encLoop := by rw [huf]; exact hph
    have e5 : u.cfg = P := by rw [huf]; exact hcfg
    have e9 : u.totalBits = countUp s.cfg s.totalBits (s.width + 8) := by rw [huf]
    have e10 : u.prevCode = s.prevCode := by rw [huf]
    have huf' : u = { s with pairBuf := u.pairBuf, bitCur := u.bitCur, snk := u.snk, totalBits := u.totalBits,
                             prevCode := u.prevCode } := by
      rw [e9, e10]; exact huf
    have hmiss : encMiss P b s = .ok () (advance P { u with
        child := s.child.write (childIndex s.curCode b) s.nextCode, curCode := P.emptyCode }).1 := by
      unfold encMiss
      rw [hu, Res.bind_ok]
      unfold trieInsert
      rw [if_pos (by rw [e1]; exact hclt), Res.bind_ok]
      rw [← e1, ← e2, ← e3]
    have hnew : Words.step P w (s.curCode, b) = some (if w.next.toNat + 1 = P.maxCode
        then ⟨P.startCode, [(P.emptyCode.toNat, [])], w.out ++ (wd ++ [b])⟩
        else ⟨w.next + 1, Mem.write w.table w.next.toNat (wd ++ [b]), w.out ++ (wd ++ [b])⟩) := by
      unfold Words.step; rw [hcur]; rfl
    have hrun' : Words.run P (ps ++ [(s.curCode, b)]) = some (if w.next.toNat + 1 = P.maxCode
        then ⟨P.startCode, [(P.emptyCode.toNat, [])], w.out ++ (wd ++ [b])⟩
        else ⟨w.next + 1, Mem.write w.table w.next.toNat (wd ++ [b]), w.out ++ (wd ++ [b])⟩) := by
      rw [words_run_append, hrun]; exact hnew
    show ∃ t ps' w', (encMiss P b s).bind (fun _ s => .ok () { s with prevSym := b }) = .ok () t ∧ _
    rw [hmiss, Res.bind_ok]
    generalize hv : ({ u with child := s.child.write (childIndex s.curCode b) s.nextCode, curCode := P.emptyCode } : State) = v
    have v1 : v.cfg = P := by rw [← hv]; exact e5
    have v2 : v.nextCode = w.next := by rw [← hv]; exact e2.trans hnext
    have v3 : v.phase = .encLoop := by rw [← hv]; exact e4
    have v4 : v.child = s.child.write (childIndex s.curCode b) w.next := by rw [← hv, ← hnext]
    have v5 : v.curCode = P.emptyCode := by rw [← hv]
    have v6 : BitsOut v (pre ++ pairsBits P P.startCode (ps ++ [(s.curCode, b)])) := by
      rw [← hv]; exact BitsOut.congr hub rfl rfl rfl rfl
    have v7 : snkGood v.snk = true := by rw [← hv]; exact hug
    have v8 : v = { s with pairBuf := v.pairBuf, bitCur := v.bitCur, snk := v.snk, totalBits := v.totalBits,
                           child := v.child, curCode := v.curCode, prevCode := v.prevCode } := by
      rw [← hv]; exact congrArg (fun x : State => { x with child := s.child.write (childIndex s.curCode b) s.nextCode, curCode := P.emptyCode }) huf'
    have v9 : v.totalBits = countUp s.cfg s.totalBits (s.width + 8) := by rw [← hv]; exact e9
    by_cases hfull : w.next.toNat + 1 = P.maxCode
    · rw [if_pos hfull] at hrun'
      rw [advance_of_eq (by rw [v2]; exact hfull), dictReset_enc (.inl v3)]
      refine ⟨_, _, _, rfl, ⟨v1, BitsOut.congr v6 rfl rfl rfl rfl, hrun', rfl, fun c b' d hr => (by cases hr),
        ⟨[], by rw [v5]; simp [Mem.read], ?_⟩, .inl v5, v7⟩, .inr ⟨rfl, v9⟩, ?_⟩
      · rw [hxs]; simp
      · exact congrArg (fun x : State => { x with child := [], nextCode := P.startCode, prevSym := b }) v8
    · rw [if_neg hfull] at hrun'
      rw [advance_of_ne (by rw [v2]; exact hfull)]
      have hsucc : (w.next + 1).toNat = w.next.toNat + 1 := succ_toNat (P := P) (by have := hok.range; omega)
      have hlt : ∀ k wd', Mem.read w.table k = some wd' → k ≠ w.next.toNat := by
        intro k wd' hk; have := hok.domain k wd' hk; have := hok.range; omega
      refine ⟨_, _, _, rfl, ⟨v1, BitsOut.congr v6 rfl rfl rfl rfl, hrun', by show v.nextCode + 1 = _; rw [v2], fun c b' d hr => ?_,
        ⟨[], ?_, ?_⟩, .inl v5, v7⟩, .inr ⟨rfl, v9⟩, ?_⟩
      · replace hr : Mem.read v.child (childIndex c b') = some d := hr
        show d.toNat < (w.next + 1).toNat ∧ ∃ wd', Mem.read (Mem.write w.table w.next.toNat (wd ++ [b])) c.toNat = some wd' ∧
          Mem.read (Mem.write w.table w.next.toNat (wd ++ [b])) d.toNat = some (wd' ++ [b'])
        rw [hsucc]
        rw [v4, Mem.read_write] at hr
        split at hr
        · rename_i heq
          obtain ⟨rfl, rfl⟩ := childIndex_inj heq
          cases hr
          exact ⟨Nat.lt_succ_self _, wd, by rw [Mem.read_write_other _ _ (hlt _ _ hcur)]; exact hcur, Mem.read_write_same _ _ _⟩
        · obtain ⟨h1, wd', h2, h3⟩ := hlink _ _ _ hr
          exact ⟨by omega, wd', by rw [Mem.read_write_other _ _ (hlt _ _ h2)]; exact h2,
            by rw [Mem.read_write_other _ _ (hlt _ _ h3)]; exact h3⟩
      · show Mem.read (Mem.write w.table w.next.toNat (wd ++ [b])) v.curCode.toNat = _
        rw [v5, Mem.read_write_other _ _ (hlt _ _ hok.empty)]; exact hok.empty
      · rw [hxs]; simp
      · exact congrArg (fun x : State => { x with nextCode := v.nextCode + 1, prevSym := b }) v8

/-- ENC_SYMBOL with a symbol left (R200). -/
theorem encSymbol_cons {P : Params} {s : State} {pre : List Bool} {xs : List Byte} {ps : List (Code × Byte)} {w : Words}
    {b : Byte} {rest : List Byte} (h : EncSim P s pre xs ps w) (hph : s.phase = .encLoop) (hin : SymsIn s (b :: rest))
    (hg : srcGood s.src = true) :
    ∃ t ps' w', encSymbol P s = .ok () t ∧ EncSim P t pre (xs ++ [b]) ps' w' ∧ SymsIn t rest ∧ srcGood t.src = true ∧
      t.phase = .encLoop ∧ t.host = s.host ∧ t.totalSyms = countUp s.cfg s.totalSyms 1 ∧
      (t.pairLen = s.pairLen ∧ t.pairEnd = s.pairEnd ∧ t.cause = s.cause ∧ (∀ n, SrcSeen n s → SrcSeen n t)) ∧
      (ps' = ps ∧ t.totalBits = s.totalBits ∨
        ps' = ps ++ [(s.curCode, b)] ∧ t.totalBits = countUp s.cfg s.totalBits (s.width + 8)) := by
  obtain ⟨u, hr, hu1, hu2, hu3, hu4⟩ := readSym_cons h.cfg hin hg
  have hsim : EncSim P u pre xs ps w := by
    obtain ⟨a, b', c, d, e, f, g, i⟩ := h
    exact ⟨by rw [hu4]; exact a, BitsOut.congr b' (by rw [hu4]) (by rw [hu4]) (by rw [hu4]) (by rw [hu4]), c,
      by rw [hu4]; exact d, by rw [hu4]; exact e, by rw [hu4]; exact f, by rw [hu4]; exact g, by rw [hu4]; exact i⟩
  have e1 : u.phase = .encLoop := by rw [hu4]; exact hph
  have e2 : u.totalBits = s.totalBits ∧ u.width = s.width ∧ u.curCode = s.curCode ∧ u.host = s.host := by
    rw [hu4]; exact ⟨rfl, rfl, rfl, rfl⟩
  have e3 : u.pairLen = s.pairLen ∧ u.pairEnd = s.pairEnd ∧ u.cause = s.cause := by rw [hu4]; exact ⟨rfl, rfl, rfl⟩
  have e4 : ∀ n, SrcSeen n s → SrcSeen n u := by
    intro n hs; have := readSym_seen h.cfg hg hs; rw [hr] at this; exact this
  obtain ⟨t, ps', w', h1, h2, h3, h4⟩ := EncSim.consume hsim e1 b
  refine ⟨t, ps', w', ?_, h2, ?_, by rw [h4]; exact hu2, by rw [h4]; exact e1, by rw [h4]; exact e2.2.2.2,
    by rw [h4]; exact hu3, ?_, ?_⟩
  · unfold encSymbol; rw [hr, Res.bind_ok]; exact h1
  · exact SymsIn.congr hu1 (by rw [h4]) (by rw [h4]) (by rw [h4]) (by rw [h4]) (by rw [h4]) (by rw [h4])
  · rw [h4]; exact ⟨e3.1, e3.2.1, e3.2.2, e4⟩
  · rw [e2.1, e2.2.1, e2.2.2.1, hsim.cfg, ← h.cfg] at h3; exact h3

/-- ENC_SYMBOL at the end of the input (R200). -/
theorem encSymbol_nil {P : Params} {s : State} {pre : List Bool} {xs : List Byte} {ps : List (Code × Byte)} {w : Words}
    (h : EncSim P s pre xs ps w) (hin : SymsIn s []) (hg : srcGood s.src = true) :
    ∃ t, encSymbol P s = .ok () t ∧ EncSim P t pre xs ps w ∧ t.phase = .encTail ∧ t.symCur = t.symLen ∧ t.symEnd = true ∧
      t.host = s.host ∧ t.totalSyms = s.totalSyms ∧ t.totalBits = s.totalBits ∧
      t.pairLen = s.pairLen ∧ t.pairEnd = s.pairEnd ∧ t.cause = s.cause ∧ (∀ n, SrcSeen n s → SrcSeen n t) := by
  obtain ⟨u, hr, hu1, hu2, hu3, hu4, hu5⟩ := readSym_nil (P := P) hin hg
  refine ⟨{ u with phase := .encTail }, by unfold encSymbol; rw [hr, Res.bind_ok], ?_, rfl, hu3, hu4,
    by rw [hu5], by rw [hu5], by rw [hu5], by rw [hu5], by rw [hu5], by rw [hu5], fun n hs => ?_⟩
  rotate_left
  · have := readSym_seen h.cfg hg hs; rw [hr] at this; exact this
  obtain ⟨a, b', c, d, e, f, g, i⟩ := h
  exact ⟨by rw [hu5]; exact a, BitsOut.congr b' (by rw [hu5]) (by rw [hu5]) (by rw [hu5]) (by rw [hu5]), c,
    by rw [hu5]; exact d, by rw [hu5]; exact e, by rw [hu5]; exact f, by rw [hu5]; exact g, by rw [hu5]; exact i⟩

/-- ENC_END, first part (R202): the final pair, if any, completes the words of all the input. -/
theorem encEndFinalPair_good {P : Params} {s : State} {pre : List Bool} {xs : List Byte} {ps : List (Code × Byte)} {w : Words}
    (hmode : P.termWrap = .reset) (h : EncSim P s pre xs ps w) (hph : s.phase = .encTail) :
    ∃ t ps' w', encEndFinalPair P s = .ok () t ∧ EncSim P t pre xs ps' w' ∧ w'.out = xs ∧ t.phase = .encTail ∧
      (ps' = ps ∧ t.totalBits = s.totalBits ∨
        ps' = ps ++ [(s.prevCode, s.prevSym)] ∧ t.totalBits = countUp s.cfg s.totalBits (s.width + 8)) ∧
      t = { s with pairBuf := t.pairBuf, bitCur := t.bitCur, snk := t.snk, totalBits := t.totalBits, child := t.child,
                   nextCode := t.nextCode, curCode := P.emptyCode } := by
  obtain ⟨hcfg, hbits, hrun, hnext, hlink, ⟨wd, hcur, hxs⟩, hpar, hsnk⟩ := id h
  have hok := WordsOk.of_run hrun
  unfold encEndFinalPair
  by_cases hroot : s.curCode = P.emptyCode
  · rw [if_pos hroot]
    refine ⟨s, ps, w, rfl, h, ?_, hph, .inl ⟨rfl, rfl⟩, by rw [← hroot]⟩
    rw [hroot, hok.empty] at hcur
    cases hcur
    rw [hxs, List.append_nil]
  · rw [if_neg hroot]
    obtain ⟨hd, wd', hp1, hp2⟩ := hlink _ _ _ (hpar.resolve_left hroot)
    rw [hcur] at hp2
    cases hp2
    obtain ⟨u, hu, hub, hug, huf⟩ := EncSim.writePair h s.prevCode s.prevSym
    have e2 : u.nextCode = w.next := by rw [huf]; exact hnext
    have e4 : u.phase = .encTail := by rw [huf]; exact hph
    have e5 : u.cfg = P := by rw [huf]; exact hcfg
    have e3 : u.child = s.child := by rw [huf]
    have e9 : u.totalBits = countUp s.cfg s.totalBits (s.width + 8) := by rw [huf]
    have huf' : u = { s with pairBuf := u.pairBuf, bitCur := u.bitCur, snk := u.snk, totalBits := u.totalBits,
                             child := u.child } := by
      rw [e9, e3]; exact huf
    have hrun' : Words.run P (ps ++ [(s.prevCode, s.prevSym)]) = some (if w.next.toNat + 1 = P.maxCode
        then ⟨P.startCode, [(P.emptyCode.toNat, [])], w.out ++ (wd' ++ [s.prevSym])⟩
        else ⟨w.next + 1, Mem.write w.table w.next.toNat (wd' ++ [s.prevSym]), w.out ++ (wd' ++ [s.prevSym])⟩) := by
      rw [words_run_append, hrun]
      show Words.step P w (s.prevCode, s.prevSym) = _
      unfold Words.step; rw [hp1]; rfl
    rw [hu, Res.bind_ok]
    unfold advanceFinal
    rw [hmode]
    by_cases hfull : w.next.toNat + 1 = P.maxCode
    · rw [if_pos hfull] at hrun'
      rw [advance_of_eq (by show u.nextCode.toNat + 1 = _; rw [e2]; exact hfull), dictReset_enc (by exact .inr e4)]
      refine ⟨_, _, _, rfl, ⟨e5, BitsOut.congr hub rfl rfl rfl rfl, hrun', rfl, fun c b' d hr => (by cases hr),
        ⟨[], by simp [Mem.read], by rw [hxs]; simp⟩, .inl rfl, hug⟩, hxs.symm, e4, .inr ⟨rfl, e9⟩, ?_⟩
      exact congrArg (fun x : State => { x with child := [], nextCode := P.startCode, curCode := P.emptyCode }) huf'
    · rw [if_neg hfull] at hrun'
      rw [advance_of_ne (by show u.nextCode.toNat + 1 ≠ _; rw [e2]; exact hfull)]
      have hsucc : (w.next + 1).toNat = w.next.toNat + 1 := succ_toNat (P := P) (by have := hok.range; omega)
      have hlt : ∀ k wd', Mem.read w.table k = some wd' → k ≠ w.next.toNat := by
        intro k wd' hk; have := hok.domain k wd' hk; have := hok.range; have := P.empty_lt_start; omega
      refine ⟨_, _, _, rfl, ⟨e5, BitsOut.congr hub rfl rfl rfl rfl, hrun', by show u.nextCode + 1 = _; rw [e2], fun c b' d hr => ?_,
        ⟨[], ?_, by rw [hxs]; simp⟩, .inl rfl, hug⟩, hxs.symm, e4, .inr ⟨rfl, e9⟩, ?_⟩
      · replace hr : Mem.read u.child (childIndex c b') = some d := hr
        rw [e3] at hr
        obtain ⟨h1, wd2, h2, h3⟩ := hlink _ _ _ hr
        exact ⟨by show d.toNat < (w.next + 1).toNat; omega, wd2, by show Mem.read (Mem.write _ _ _) _ = _; rw [Mem.read_write_other _ _ (hlt _ _ h2)]; exact h2,
          by show Mem.read (Mem.write _ _ _) _ = _; rw [Mem.read_write_other _ _ (hlt _ _ h3)]; exact h3⟩
      · show Mem.read (Mem.write _ _ _) P.emptyCode.toNat = _
        rw [Mem.read_write_other _ _ (hlt _ _ hok.empty)]; exact hok.empty
      · exact congrArg (fun x : State => { x with nextCode := u.nextCode + 1, curCode := P.emptyCode }) huf'

/-- ENC_END, second part (R203): the stop pair and the padding follow the pairs to the sink. -/
theorem encEndTerminator_good {P : Params} {s : State} {pre : List Bool} {xs : List Byte} {ps : List (Code × Byte)} {w : Words}
    (h : EncSim P s pre xs ps w) :
    ∃ t, encEndTerminator P s = .ok () t ∧
      (∃ k, k < 8 ∧ t.snk.data.flatMap byteBits =
        pre ++ pairsBits P P.startCode ps ++ encodePair P (bitlen w.next.toNat) P.stopCode 0 ++ List.replicate k false) ∧
      snkGood t.snk = true ∧
      t = { s with pairBuf := t.pairBuf, bitCur := 0, snk := t.snk, child := [], nextCode := P.startCode,
                   totalBits := countUp s.cfg s.totalBits (bitlen w.next.toNat + 8), done := true, phase := .idle } := by
  have he : s.width = bitlen w.next.toNat := by unfold State.width; rw [h.next]
  obtain ⟨u, hu, hub, hug, huf⟩ := EncSim.writePair h P.stopCode 0
  rw [pairsBits_snoc h.run] at hub
  have hP : u.cfg = P := by rw [huf]; exact h.cfg
  obtain ⟨_, v, hv, hvf, ⟨k, hk, hvd⟩, hvg⟩ := Res.Spec.ok_of_good (flushBits_spec True hP hub (fun _ => hug))
  unfold encEndTerminator
  rw [hu, Res.bind_ok, hv, Res.bind_ok]
  refine ⟨_, rfl, ⟨k, hk, ?_⟩, hvg trivial, ?_⟩
  · show v.snk.data.flatMap byteBits = _
    rw [hvd, List.append_assoc pre (pairsBits P P.startCode ps)]
  · rw [← he]
    have h1 := congrArg (fun x : State => { x with child := [], nextCode := P.startCode, done := true, phase := .idle }) hvf
    have h2 := congrArg (fun x : State => ({ x with
      pairBuf := v.pairBuf, bitCur := 0, snk := v.snk, child := [], nextCode := P.startCode, done := true, phase := .idle } : State)) huf
    exact h1.trans h2

/-! ### The decoder -/

/-- The decoder in step with the words of the pairs it has read (R177, R237): `pre` are the bytes the sink began with. -/
structure DecSim (P : Params) (s : State) (pre : List Byte) (w : Words) : Prop where
  cfg : s.cfg = P
  phase : s.phase = .decLoop
  words : WordsOk P w
  next : s.nextCode = w.next
  table : s.wt = w.table
  out : SymsOut s (pre ++ w.out)
  source : srcGood s.src = true
  sink : snkGood s.snk = true

/-- What the loops leave alone of the registers the header and the faults write (R30, R31, R36). -/
def SameHeader (s t : State) : Prop := t.cause = s.cause ∧ t.permOut = s.permOut ∧ t.hdrOk = s.hdrOk

/-- The next pair of the stream, read at the width in force (R230). -/
theorem DecSim.readPair {P : Params} {s : State} {pre : List Byte} {w : Words} {c : Code} {b : Byte} {rest : List Bool}
    (h : DecSim P s pre w) (hc : c.toNat < 2 ^ bitlen w.next.toNat)
    (hin : BitsIn s (encodePair P (bitlen w.next.toNat) c b ++ rest)) :
    ∃ t, readPair s.cfg s.width s = .ok (c, b) t ∧ DecSim P t pre w ∧ BitsIn t rest ∧ t.host = s.host ∧
      t.totalBits = countUp s.cfg s.totalBits (s.width + 8) ∧ t.totalSyms = s.totalSyms ∧ SameHeader s t := by
  have he : s.width = bitlen w.next.toNat := by unfold State.width; rw [h.next]
  rw [← he] at hc hin
  obtain ⟨t, h1, h2, h3, h4⟩ := readPair_good h.cfg (by rw [he]; exact h.words.widthOk) hc hin h.source
  refine ⟨t, by rw [h.cfg]; exact h1, ?_, h2, by rw [h4], by rw [h4], by rw [h4], by rw [h4]; exact ⟨rfl, rfl, rfl⟩⟩
  obtain ⟨a, b', c', d, e, f, g, i⟩ := h
  exact ⟨by rw [h4]; exact a, by rw [h4]; exact b', c', by rw [h4]; exact d, by rw [h4]; exact e,
    SymsOut.congr f (by rw [h4]) (by rw [h4]) (by rw [h4]) (by rw [h4]), h3, by rw [h4]; exact i⟩

/-- What a pair with a word does (R230): the word and the symbol go out, the new word is kept. -/
theorem DecSim.word {P : Params} {s : State} {pre : List Byte} {w w' : Words} {c : Code} {b : Byte}
    (h : DecSim P s pre w) (hs : Words.step P w (c, b) = some w') :
    ∃ t, decWord s.cfg c b s = .ok () t ∧ DecSim P t pre w' ∧ (∀ bits, BitsIn s bits → BitsIn t bits) ∧ t.host = s.host ∧
      t.totalBits = s.totalBits ∧ SameHeader s t ∧
      ∀ n, s.totalSyms = countUp P n w.out.length → t.totalSyms = countUp P n w'.out.length := by
  have hstep := h.words.step hs
  unfold Words.step at hs
  obtain ⟨wd, hr, rfl⟩ := Option.map_eq_some_iff.1 hs
  obtain ⟨hcfg, hph, hwok, hnext, htab, hout, hsrc, hsnk⟩ := h
  have hel := P.empty_lt_start
  have hrange := hwok.range
  replace hr : Mem.read w.table c.toNat = some wd := hr
  have hdom := hwok.domain _ _ hr
  have hlook : wtLookup s.cfg c s = .ok wd s := by
    unfold wtLookup
    rw [hcfg, if_pos (by omega), htab, hr]
  obtain ⟨_, u, hu, ⟨h1, -, h3, h4⟩, h5⟩ := Res.Spec.ok_of_good (((writeWord_spec True (wd ++ [b]) hcfg hout
    (fun _ => hsnk)).leaves (writeWord_leaves P (wd ++ [b]) s)).mono (fun _ _ h => h) (fun _ _ h => h.1) fun _ h => h)
  have hf := h5.frame
  have e1 : u.nextCode = w.next := by rw [hf]; exact hnext
  have e2 : u.wt = w.table := by rw [hf]; exact htab
  have e3 : u.phase = .decLoop := by rw [hf]; exact hph
  have e4 : u.cfg = P := by rw [hf]; exact hcfg
  have e5 : u.src = s.src := by rw [hf]
  have e6 : u.host = s.host := by rw [hf]
  have e7 : u.totalBits = s.totalBits := by rw [hf]
  unfold decWord
  rw [hlook, Res.bind_ok, hcfg, hu, Res.bind_ok]
  unfold wtAppend
  rw [if_pos (by rw [e1]; exact hrange.2), Res.bind_ok, e1, e2]
  generalize hv : ({ u with nextCode := w.next, wt := w.table.write w.next.toNat (wd ++ [b]) } : State) = v
  have v1 : v.nextCode = w.next := by rw [← hv]
  have v3 : v.phase = .decLoop := by rw [← hv]; exact e3
  have v4 : v.cfg = P := by rw [← hv]; exact e4
  have v5 : v.wt = w.table.write w.next.toNat (wd ++ [b]) := by rw [← hv]
  have hfr := advance_frame P v
  have hadv : (advance P v).1.nextCode = (if w.next.toNat + 1 = P.maxCode then P.startCode else w.next + 1) ∧
      (advance P v).1.wt = (if w.next.toNat + 1 = P.maxCode then [(P.emptyCode.toNat, [])] else w.table.write w.next.toNat (wd ++ [b])) := by
    by_cases hfull : w.next.toNat + 1 = P.maxCode
    · rw [if_pos hfull, if_pos hfull, advance_of_eq (by rw [v1]; exact hfull), dictReset_dec v3]
      exact ⟨rfl, rfl⟩
    · rw [if_neg hfull, if_neg hfull, advance_of_ne (by rw [v1]; exact hfull)]
      exact ⟨by show v.nextCode + 1 = _; rw [v1], v5⟩
  generalize (advance P v).1 = t at *
  have t1 : t.symBuf = u.symBuf ∧ t.symCur = u.symCur ∧ t.snk = u.snk ∧ t.src = u.src ∧ t.cfg = P ∧ t.phase = .decLoop ∧
      t.host = u.host ∧ t.totalBits = u.totalBits ∧ t.totalSyms = u.totalSyms := by
    rw [hfr, ← hv]; exact ⟨rfl, rfl, rfl, rfl, e4, e3, rfl, rfl, rfl⟩
  obtain ⟨q1, q2, q3, q4, q5, q6, q7, q8, q9⟩ := t1
  have t2 : t.pairBuf = s.pairBuf ∧ t.bitCur = s.bitCur ∧ t.pairLen = s.pairLen ∧ t.pairEnd = s.pairEnd := by
    rw [hfr, ← hv, hf]; exact ⟨rfl, rfl, rfl, rfl⟩
  refine ⟨t, rfl, ⟨q5, q6, hstep.1, ?_, ?_, ?_, by rw [q4, e5]; exact hsrc, by rw [q3]; exact h4 trivial⟩, fun bits hb => ?_,
    by rw [q7, e6], by rw [q8, e7], by rw [hfr, ← hv, hf]; exact ⟨rfl, rfl, rfl⟩, ?_⟩
  · rw [hadv.1]; split <;> rfl
  · rw [hadv.2]; split <;> rfl
  · have : ∀ z : Words, z.out = w.out ++ (wd ++ [b]) → SymsOut t (pre ++ z.out) := by
      intro z hz
      rw [hz, ← List.append_assoc]
      exact SymsOut.congr h1 (by rw [q5, e4]) q1 q2 q3
    split <;> exact this _ rfl
  · exact BitsIn.congr hb (by rw [q5, hcfg]) t2.1 t2.2.1 t2.2.2.1 t2.2.2.2 (by rw [q4, e5])
  · intro n hn
    have : ∀ z : Words, z.out = w.out ++ (wd ++ [b]) → t.totalSyms = countUp P n z.out.length := by
      intro z hz
      rw [q9, h3, hn, hz, hcfg, countUp_countUp, ← List.length_append]
    split <;> exact this _ rfl

end Sys2Proof.Machine
end

