-- ==== Sys2Proof/Laws/Step.lean ====
section
/-! SUPPORT. What a step runs in the core's turn, phase by phase, and what a pair runs (R19, R28, R98). -/

namespace Sys2Proof.Machine

open Sys2Proof Sys2Proof.Safety

variable {s : State}

theorem State.popAct_of_nil (h : s.host.acts = []) : s.popAct = s := by
  cases s with
  | mk _ _ _ _ _ _ _ _ _ _ _ _ _ _ _ _ _ _ _ _ _ _ _ _ _ _ _ host _ =>
    cases host
    simp_all [State.popAct]

theorem State.popAct_of_cons {a : HostAct} {as : List HostAct} (h : s.host.acts = a :: as) :
    s.popAct = { s with host := { s.host with acts := as } } := by
  unfold State.popAct; rw [h]; rfl

theorem fetch_coreTurn (h : coreTurn s) : fetch s = fetchCore s.popAct := by
  unfold fetch
  rcases h with h | ⟨as, h⟩
  · rw [h, State.popAct_of_nil h]
  · rw [h]

theorem step_settled {o : Host.Outcome State Fault Refusal} (h : fetch s = .settled o) : step s = o := by
  unfold step; rw [h]

theorem step_one {i : Instr} {t : State} (h : fetch s = .one i t) : step s = exec i t := by
  unfold step; rw [h]

theorem step_two {i j : Instr} {t : State} (h : fetch s = .two i j t) :
    step s = match exec i t with
      | .next u => if u.phase = t.phase then exec j u else .next u
      | .fault f => .fault f
      | .refused r => .refused r := by
  unfold step
  simp only [h] <;> cases exec i t <;> rfl

theorem run_succ {n : Nat} {t : State} (h : step s = .next t) : run (n + 1) s = run n t := by
  show (match step s with | .next t => run n t | .fault f => .fault f | .refused r => .refused r) = _
  rw [h]

theorem run_add {m n : Nat} {t : State} (h : run m s = .next t) : run (m + n) s = run n t := by
  induction m generalizing s with
  | zero => cases h; rw [Nat.zero_add]
  | succ m ih =>
    rw [Nat.succ_add]
    unfold run at h
    split at h
    · rename_i u hu; rw [run_succ hu]; exact ih h
    · cases h
    · cases h

theorem fetchCore_quiet (h : s.phase = .idle ∨ s.phase = .fault) : fetchCore s = .settled (.next s) := by
  unfold fetchCore; rcases h with h | h <;> rw [h]

theorem fetchCore_hdrw (h : s.phase = .hdrw) : fetchCore s = .settled ((hdrWriteBody s.cfg s).outcome noResult) := by
  unfold fetchCore; rw [h]

theorem fetchCore_hdrr (h : s.phase = .hdrr) : fetchCore s = fetchHeader s := by
  unfold fetchCore; rw [h]

theorem fetchCore_encLoop (h : s.phase = .encLoop) : fetchCore s = .one .encSymbol s := by
  unfold fetchCore; rw [h]

theorem fetchCore_encTail (h : s.phase = .encTail) : fetchCore s = .two .encEndFinalPair .encEndTerminator s := by
  unfold fetchCore; rw [h]

theorem fetchCore_decLoop (h : s.phase = .decLoop) : fetchCore s = fetchPair s := by
  unfold fetchCore; rw [h]

theorem fetchCore_decTail (h : s.phase = .decTail) : fetchCore s = .one .decEnd s := by
  unfold fetchCore; rw [h]

/-- What a pair does once read depends on its code alone: its kind is what the tests of DEC_PAIR find (R98, R234). -/
theorem exec_classifyPair {P : Params} (n : Code) (w : Nat) (c : Code) (b : Byte) (hP : s.cfg = P) :
    exec (classifyPair P n w c b) s =
      if c = P.stopCode then .next s.stopPair else (decWord P c b s).outcome noResult := by
  subst hP
  unfold classifyPair
  split
  · rfl
  · split
    · rename_i h; subst h; rfl
    · split <;> rfl

/-- Classifying gives back the encoding it was made from (R98). -/
theorem encode_classifyPair (P : Params) (n : Code) (w : Nat) (c : Code) (b : Byte) :
    encode P (classifyPair P n w c b) = some (encodePair P w c b) := by
  unfold classifyPair
  split
  · rename_i h; rw [h]; rfl
  · split
    · rename_i h; rw [h]; rfl
    · split <;> rfl

/-- The pair at the head of a stream, by its fields (R93, R94). -/
theorem decodePair_encodePair {P : Params} {n c : Code} {b : Byte} {rest : List Bool} (h1 : 1 ≤ bitlen n.toNat)
    (hc : c.toNat < 2 ^ bitlen n.toNat) :
    decodePair P n (encodePair P (bitlen n.toNat) c b ++ rest)
      = .ok (classifyPair P n (bitlen n.toNat) c b, rest) := by
  have h16 := bitlen_code_le n
  have l1 : (valueBits P.valOrder (bitlen n.toNat) c.toNat).length = bitlen n.toNat := valueBits_length _ _ _
  have l2 : (valueBits P.valOrder 8 b.toNat).length = 8 := valueBits_length _ _ _
  unfold decodePair
  simp only
  rw [if_neg (by omega), if_neg (by rw [List.length_append, encodePair, List.length_append, l1, l2]; omega)]
  unfold encodePair
  rw [List.append_assoc, List.take_left' l1, List.drop_left' l1, List.take_left' l2, bitsValue_valueBits _ hc,
    bitsValue_valueBits _ b.isLt, ← List.append_assoc, List.drop_left' (by rw [List.length_append, l1, l2])]
  simp

end Sys2Proof.Machine
end

