-- ==== Sys2Proof/Laws/Invariant.lean ====
section
/-! SUPPORT. The invariant through the host's actions, the commands and the steps of the phases: what each leads to keeps
it, and stops for nothing but an answer that never comes. -/

namespace Sys2Proof.Safety

open Sys2Proof Sys2Proof.Machine

variable {s : State}

/-- An outcome that keeps the invariant and stops, if it does, only for want of an answer. -/
def KeepsInv (o : Host.Outcome State Fault Refusal) : Prop :=
  match o with
  | .next t => Inv t
  | .fault f => f = .noAnswer
  | .refused _ => True

theorem KeepsInv.of_spec {α : Type} {r : Res α} {k : α → State → State} {E : Raise → State → Prop} {N : Fault → Prop}
    (h : r.Spec (fun a t => Inv (k a t)) E N) (he : ∀ f t, E f t → Inv (t.enterFault f))
    (hn : ∀ f, N f → f = .noAnswer) : KeepsInv (r.outcome k) := by
  cases r with
  | ok a t => exact h
  | raise f t => exact he f t h
  | stop f => exact hn f h

/-- The invariant does not speak of the fields named here. -/
theorem Inv.other (h : Inv s) (cr ho : Bool) (pi po : BitVec 16) (src : SrcPort) (snk : SnkPort) (host : HostPort)
    (o : OpResult) :
    Inv { s with cmdRej := cr, hdrOk := ho, permIn := pi, permOut := po, src := src, snk := snk, host := host,
                 opResult := o } := by
  obtain ⟨⟨a, b, c, d, e, g, i, j⟩, ⟨r1, r2, r3, r4, r5, r6⟩, ⟨f1, f2, f3⟩, p⟩ := h
  refine ⟨⟨a, b, c, d, e, g, i, j⟩, ⟨r1, r2, r3, r4, r5, r6⟩, ⟨f1, f2, f3⟩, ?_⟩
  unfold phaseOk at *
  split <;> rename_i hp <;> (replace hp : s.phase = _ := hp) <;> rw [hp] at p
  all_goals first
    | exact ⟨p.child, p.wt⟩
    | exact ⟨TrieOk.congr p.trie rfl rfl rfl, p.wt, p.matched, p.symCur, p.symBuf, p.bitCur, p.pairBuf⟩
    | exact ⟨TableOk.congr p.table rfl rfl rfl, p.child, p.symCur, p.symBuf, p.bitCur, p.pairBuf⟩
    | trivial

theorem Inv.popAct (h : Inv s) : Inv s.popAct :=
  h.other _ _ _ _ _ _ _ _

theorem Inv.dictEmpty (h : Inv s) (hp : s.phase = .idle ∨ s.phase = .hdrw ∨ s.phase = .hdrr) : DictEmpty s := by
  have := h.phase
  unfold phaseOk at this
  rcases hp with hp | hp | hp <;> rw [hp] at this <;> exact this

theorem Inv.encoder (h : Inv s) (hp : s.phase = .encLoop ∨ s.phase = .encTail) : EncoderOk s := by
  have := h.phase
  unfold phaseOk at this
  rcases hp with hp | hp <;> rw [hp] at this <;> exact this

theorem Inv.decoder (h : Inv s) (hp : s.phase = .decLoop ∨ s.phase = .decTail) : DecoderOk s := by
  have := h.phase
  unfold phaseOk at this
  rcases hp with hp | hp <;> rw [hp] at this <;> exact this

theorem Inv.start (h : Inv s) (hp : s.phase = .idle) {q : Phase} (hq : q = .hdrw ∨ q = .hdrr) (ho : Bool) :
    Inv { s with done := false, cmdRej := false, hdrOk := ho, phase := q } := by
  have hd : DictEmpty s := h.dictEmpty (.inl hp)
  obtain ⟨m, ⟨r1, r2, r3, r4, r5, r6⟩, ⟨f1, f2, f3⟩, -⟩ := h
  obtain ⟨a, b, c, d, e, g, i, j⟩ := m
  refine ⟨⟨a, b, c, d, e, g, i, j⟩, ⟨r1, r2, r3, r4, fun _ => r5 (.inl (by rw [hp]; simp)), r6⟩,
    ⟨?_, fun _ => f2 (by rw [hp]; simp), fun h => by cases h⟩, ?_⟩
  · show s.cause ≠ .none ↔ q = .fault
    rw [f1, hp]; rcases hq with rfl | rfl <;> simp
  · rcases hq with rfl | rfl <;> exact ⟨hd.child, hd.wt⟩

theorem Inv.encInit (h : Inv s) (hp : s.phase = .idle) : Inv (Machine.encInit s.cfg s) := by
  have hd : DictEmpty s := h.dictEmpty (.inl hp)
  have hb := s.cfg.block_pos
  obtain ⟨⟨a, b, c, d, e, g, i, j⟩, r, ⟨f1, f2, f3⟩, -⟩ := h
  refine ⟨⟨a, b, rfl, d, e, g, rfl, j⟩,
    ⟨Nat.zero_le _, Nat.zero_le _, Nat.zero_le _, Nat.zero_le _, fun _ => ⟨le_rfl, s.cfg.start_lt_max⟩,
      r.totals⟩,
    ⟨?_, fun _ => f2 (by rw [hp]; simp), fun h => by cases h⟩, ?_⟩
  · show s.cause ≠ .none ↔ Phase.encLoop = .fault
    rw [f1, hp]; simp
  · exact ⟨TrieOk.of_empty rfl rfl, hd.wt, .inl rfl, le_rfl, fun i hi => absurd hi (Nat.not_lt_zero _),
      by show 0 < 8 * s.cfg.block; omega, fun i hi => absurd hi (Nat.not_lt_zero _)⟩

theorem Inv.decInit (h : Inv s) (hp : s.phase = .idle) : Inv (Machine.decInit s.cfg s) := by
  have hd : DictEmpty s := h.dictEmpty (.inl hp)
  have hb := s.cfg.block_pos
  have h1 := s.cfg.empty_lt_start
  have h2 := s.cfg.start_lt_max
  obtain ⟨⟨a, b, c, d, e, g, i, j⟩, r, ⟨f1, f2, f3⟩, -⟩ := h
  refine ⟨⟨a, b, c, rfl, e, g, i, ?_⟩,
    ⟨Nat.zero_le _, Nat.zero_le _, Nat.zero_le _, Nat.zero_le _, fun _ => ⟨le_rfl, s.cfg.start_lt_max⟩,
      r.totals⟩,
    ⟨?_, fun _ => f2 (by rw [hp]; simp), fun h => by cases h⟩, ?_⟩
  · show Mem.inside [(s.cfg.emptyCode.toNat, ([] : List Byte))] s.cfg.maxCode = true
    simp [Mem.inside]; omega
  · show s.cause ≠ .none ↔ Phase.decLoop = .fault
    rw [f1, hp]; simp
  · exact ⟨TableOk.of_empty rfl rfl, hd.child, by show 0 < s.cfg.block; omega,
      fun i hi => absurd hi (Nat.not_lt_zero _), le_rfl, fun i hi => absurd hi (Nat.not_lt_zero _)⟩

/-- Every command but CLEAR, whose effect is the state after reset. -/
theorem KeepsInv.command (h : Inv s) (hc : Inv s.cleared) (c : BitVec 3) : KeepsInv (exec (decodeCmd c) s) := by
  have rej : Inv s.reject := h.other _ _ _ _ _ _ _ _
  have control : ∀ e : State, Inv e → KeepsInv (issue s.acceptsControl e s) := by
    intro e he; unfold issue; split
    · exact he
    · exact rej
  have data : ∀ e : State, (s.phase = .idle → Inv e) → KeepsInv (issue s.acceptsData e s) := by
    intro e he; unfold issue State.acceptsData; split
    · rename_i hx; exact he (of_decide_eq_true hx)
    · exact rej
  unfold decodeCmd
  split
  · exact control _ (h.other _ _ _ _ _ _ _ _)
  · exact data _ fun hp => h.start hp (.inl rfl) s.hdrOk
  · exact data _ fun hp => h.start hp (.inr rfl) false
  · exact data _ fun hp => h.encInit hp
  · exact data _ fun hp => h.decInit hp
  · exact control _ hc
  · exact rej
  · exact rej

theorem busyOk_ports (h : BusyOk s) (src : SrcPort) (snk : SnkPort) : BusyOk { s with src := src, snk := snk } := by
  obtain ⟨⟨a, b, c, d, e, g, i, j⟩, ⟨r1, r2, r3, r4, r5, r6⟩, k1, k2, k3, k4⟩ := h
  exact ⟨⟨a, b, c, d, e, g, i, j⟩, ⟨r1, r2, r3, r4, r5, r6⟩, k1, k2, k3, k4⟩

theorem busyOk_finish (h : BusyOk s) (hd : DictEmpty s) (ho : Bool) (po : BitVec 16) :
    Inv (State.finish { s with hdrOk := ho, permOut := po }) := by
  obtain ⟨⟨a, b, c, d, e, g, i, j⟩, ⟨r1, r2, r3, r4, r5, r6⟩, k1, k2, k3, k4⟩ := h
  exact ⟨⟨a, b, c, d, e, g, i, j⟩,
    ⟨r1, r2, r3, r4, fun _ => r5 (.inl (by rw [State.busy_iff] at k1; exact k1.2)), r6⟩,
    ⟨⟨fun k => absurd k2 k, fun k => by cases k⟩, fun _ => k3, fun _ => rfl⟩, ⟨hd.child, hd.wt⟩⟩

theorem Inv.busy_of (h : Inv s) {p : Phase} (hp : s.phase = p) (h1 : p ≠ .idle) (h2 : p ≠ .fault) : BusyOk s :=
  .of_inv h (by rw [State.busy_iff, hp]; exact ⟨h1, h2⟩)

/-- The step of HDRW. -/
theorem KeepsInv.hdrw (h : Inv s) (hp : s.phase = .hdrw) : KeepsInv ((hdrWriteBody s.cfg s).outcome noResult) := by
  have hb := h.busy_of hp (by simp) (by simp)
  have hd : DictEmpty s := h.dictEmpty (.inr (.inl hp))
  refine of_spec (E := fun f t => f.cause ≠ .none ∧ BusyOk t) (N := fun f => f = .noAnswer) ?_
    (fun f t h => h.2.enterFault f h.1) (fun _ h => h)
  unfold hdrWriteBody
  refine Res.Spec.bind (Q := fun _ t => t = { s with snk := t.snk })
    (((writeBytes_spec False _ s False.elim).leaves (writeBytes_leaves _ s)).mono (fun _ _ h => h.2)
      (fun f t hf => ?_) (fun _ h => h.1)) ?_
  · rw [hf.1.1, hf.2]; exact ⟨by simp, busyOk_ports hb _ _⟩
  · rintro _ t ht
    rw [ht]
    exact busyOk_finish (busyOk_ports hb s.src t.snk) ⟨hd.child, hd.wt⟩ s.hdrOk s.permOut

/-- The step of HDRR: the bytes taken, and the record's effect or the fault of a short header. -/
theorem KeepsInv.hdrr (h : Inv s) (hp : s.phase = .hdrr) :
    match fetchHeader s with
    | .settled o => KeepsInv o
    | .one i t => KeepsInv (exec i t)
    | .two _ _ _ => False := by
  have hb := h.busy_of hp (by simp) (by simp)
  have hd : DictEmpty s := h.dictEmpty (.inr (.inr hp))
  unfold fetchHeader
  have hr := readBytes_spec hdrBytes s
  revert hr
  generalize readBytes hdrBytes s = r
  cases r with
  | ok d t =>
    rintro ⟨ht, -, -⟩
    have hbt : BusyOk t := by rw [ht]; exact busyOk_ports hb _ _
    by_cases hl : d.length < hdrBytes
    · simp only [if_pos hl]
      refine hbt.enterFault _ ?_
      unfold shortHeader; split <;> simp [invalidMagic, headerUnderrun]
    · simp only [if_neg hl]
      show KeepsInv ((acceptHeader _ _ _ _).outcome noResult)
      unfold acceptHeader
      split
      · rw [ht]
        exact busyOk_finish (busyOk_ports hb t.src s.snk) ⟨hd.child, hd.wt⟩ _ _
      · exact hbt.enterFault _ (by simp [invalidMagic])
  | raise f t =>
    rintro ⟨h1, h2, -⟩
    show Safety.Inv _
    rw [h2, h1]; exact (busyOk_ports hb _ _).enterFault _ (by simp)
  | stop f => exact fun h => h

/-- The step of ENC_LOOP. -/
theorem KeepsInv.encLoop (h : Inv s) (hp : s.phase = .encLoop) : KeepsInv (exec .encSymbol s) := by
  have hb := h.busy_of hp (by simp) (by simp)
  have he : EncoderOk s := h.encoder (.inl hp)
  refine of_spec ((encSymbol_ok hb hp he).mono (fun _ t ht => ht.1.inv ?_) (fun f t h => h) (fun _ h => h))
    (fun f t h => h.2.enterFault f (by rw [h.1]; simp)) (fun _ h => h)
  unfold phaseOk; rcases ht.2.1 with h | h <;> rw [h] <;> exact ht.2.2

/-- The step of ENC_TAIL: the second part runs unless the first took a fault. -/
theorem KeepsInv.encTail (h : Inv s) (hp : s.phase = .encTail) :
    KeepsInv (match exec .encEndFinalPair s with
      | .next u => if u.phase = s.phase then exec .encEndTerminator u else .next u
      | .fault f => .fault f
      | .refused r => .refused r) := by
  have hb := h.busy_of hp (by simp) (by simp)
  have he : EncoderOk s := h.encoder (.inr hp)
  show KeepsInv (match (encEndFinalPair s.cfg s).outcome noResult with
    | .next u => if u.phase = s.phase then (encEndTerminator u.cfg u).outcome noResult else .next u
    | .fault f => .fault f
    | .refused r => .refused r)
  have h1 := encEndFinalPair_ok hb hp he
  revert h1
  generalize encEndFinalPair s.cfg s = r
  cases r with
  | ok a t =>
    rintro ⟨h1, h2⟩
    show KeepsInv (if t.phase = s.phase then (encEndTerminator t.cfg t).outcome noResult else .next t)
    rw [if_pos (by rw [h1.phase, hp])]
    exact of_spec ((encEndTerminator_ok h1).mono (fun _ t h => h.1) (fun _ _ h => h) fun _ h => h)
      (fun _ _ h => h) fun _ h => h
  | raise f t =>
    rintro ⟨h1, h2⟩
    have h3 := h2.enterFault f (by rw [h1]; simp)
    have : (t.enterFault f).phase = .fault := by unfold State.enterFault; split <;> simp_all
    show KeepsInv (if (t.enterFault f).phase = s.phase then _ else .next (t.enterFault f))
    rw [if_neg (by rw [this, hp]; simp)]
    exact h3
  | stop f => exact fun h => h

/-- The step of DEC_LOOP: the pair read, and its effect. -/
theorem KeepsInv.decLoop (h : Inv s) (hp : s.phase = .decLoop) :
    match fetchPair s with
    | .settled o => KeepsInv o
    | .one i t => KeepsInv (exec i t)
    | .two _ _ _ => False := by
  have hb := h.busy_of hp (by simp) (by simp)
  have he : DecoderOk s := h.decoder (.inl hp)
  unfold fetchPair
  have hr := readPair_ok hb hp he
  revert hr
  generalize readPair s.cfg s.width s = x
  cases x with
  | ok r t =>
    rintro ⟨h1, h2, h3, h4, h5⟩
    show KeepsInv (exec _ t)
    rw [exec_classifyPair _ _ _ _ h4]
    split
    · obtain ⟨k1, k2, k3⟩ := stopPair_ok h1 h2 h3
      refine k1.inv ?_
      unfold phaseOk; rw [k2]; exact k3
    · rw [← h4]
      refine of_spec ((decWord_ok h1 h2 h3).mono (fun _ u hu => hu.1.inv ?_) (fun _ _ h => h) fun _ h => h)
        (fun f t h => h.2.enterFault f h.1) fun _ h => h
      unfold phaseOk; rw [hu.2.1]; exact hu.2.2
  | raise f t =>
    rintro ⟨h1, h2⟩
    exact h2.enterFault _ h1
  | stop f => exact fun h => h

/-- The step of DEC_TAIL. -/
theorem KeepsInv.decTail (h : Inv s) (hp : s.phase = .decTail) : KeepsInv (exec .decEnd s) := by
  have hb := h.busy_of hp (by simp) (by simp)
  have he : DecoderOk s := h.decoder (.inr hp)
  show KeepsInv ((decEnd s.cfg s).outcome noResult)
  exact of_spec ((decEnd_ok hb he).mono (fun _ t h => h.1) (fun _ _ h => h) fun _ h => h) (fun _ _ h => h) fun _ h => h

end Sys2Proof.Safety
end

