-- ==== Sys2Proof/Laws/Runs.lean ====
section
/-! SUPPORT. The loops of ENCODE and DECODE to their ends, where the environments answer: from a state in step with the
words of some pairs, through the symbols or the pairs still to come (R205, R207, R235 to R237). -/

namespace Sys2Proof.Machine

open Sys2Proof Sys2Proof.Safety

theorem step_encLoop {s : State} (hc : s.host.acts = []) (hp : s.phase = .encLoop) :
    step s = (encSymbol s.cfg s).outcome noResult :=
  step_one (by rw [fetch_coreTurn (.inl hc), State.popAct_of_nil hc, fetchCore_encLoop hp])

theorem step_encTail {s t u : State} (hc : s.host.acts = []) (hp : s.phase = .encTail)
    (h : encEndFinalPair s.cfg s = .ok () t) (ht : t.phase = .encTail) (hu : encEndTerminator t.cfg t = .ok () u) :
    step s = .next u := by
  rw [step_two (by rw [fetch_coreTurn (.inl hc), State.popAct_of_nil hc, fetchCore_encTail hp])]
  show (match (encEndFinalPair s.cfg s).outcome noResult with
      | .next u => if u.phase = s.phase then (encEndTerminator u.cfg u).outcome noResult else .next u
      | .fault f => .fault f
      | .refused r => .refused r) = _
  rw [h]
  show (if t.phase = s.phase then (encEndTerminator t.cfg t).outcome noResult else _) = _
  rw [if_pos (by rw [ht, hp]), hu]; rfl

/-- How ENCODE ends: `t` is the state after it, `s` any state of its loop, `pre` the bits the sink began with, `n` the
counter of bits before it, `len` the bytes of its source, and `ps` the pairs it has written (R92, R203, R205, R207). -/
structure EncodeEnds (P : Params) (s t : State) (pre : List Bool) (n len : Nat)
    (ps : List (Code × Byte)) (w : Words) : Prop where
  run : Words.run P ps = some w
  bits : ∃ k, k < 8 ∧ t.snk.data.flatMap byteBits = pre ++ pairsBits P P.startCode ps ++
    encodePair P (bitlen w.next.toNat) P.stopCode 0 ++ List.replicate k false
  sink : snkGood t.snk = true
  cfg : t.cfg = P
  host : t.host = s.host
  phase : t.phase = .idle
  done : t.done = true
  source : t.src.data = []
  totalBits : t.totalBits = countUp P n ((pairsBits P P.startCode ps).length + (bitlen w.next.toNat + 8))
  registers : t.child = [] ∧ t.nextCode = P.startCode ∧ t.curCode = P.emptyCode
  bitRegs : t.bitCur = 0 ∧ t.pairLen = s.pairLen ∧ t.pairEnd = s.pairEnd
  symRegs : t.symEnd = true ∧ t.symCur = t.symLen ∧ t.symLen = len % P.block
  cause : t.cause = s.cause

/-- The counter of bits after one more pair. -/
theorem totalBits_snoc {P : Params} {ps : List (Code × Byte)} {w : Words} (h : Words.run P ps = some w) (n : Nat)
    (p : Code × Byte) :
    countUp P (countUp P n (pairsBits P P.startCode ps).length) (bitlen w.next.toNat + 8) =
      countUp P n (pairsBits P P.startCode (ps ++ [p])).length := by
  rw [pairsBits_snoc h, List.length_append, encodePair_length, countUp_countUp]

/-- ENCODE's loop and its end: the sink gets the bits of pairs that stand for all the input, the stop pair and the
padding. -/
theorem encode_loop {P : Params} (hm : P.termWrap = .reset) {s : State} {pre : List Bool} {xs rest : List Byte}
    {ps : List (Code × Byte)} {w : Words} {n len : Nat} (h : EncSim P s pre xs ps w) (hp : s.phase = .encLoop)
    (hin : SymsIn s rest) (hg : srcGood s.src = true) (hseen : SrcSeen len s) (hc : s.host.acts = [])
    (hn : s.totalBits = countUp P n (pairsBits P P.startCode ps).length) :
    ∃ t ps' w', run (rest.length + 2) s = .next t ∧ EncodeEnds P s t pre n len ps' w' ∧ w'.out = xs ++ rest ∧
      t.totalSyms = countUp s.cfg s.totalSyms rest.length := by
  induction rest generalizing s xs ps w with
  | nil =>
    obtain ⟨t, h1, h2, h3, h4, h5, h6, h7, h8, h9, h10, h11, h12⟩ := encSymbol_nil h hin hg
    have hst : step s = .next t := by rw [step_encLoop hc hp, h.cfg, h1]; rfl
    obtain ⟨u, ps', w', k1, k2, k3, k4, k5, k6⟩ := encEndFinalPair_good hm h2 h3
    have hsrc : t.src.data = [] ∧ t.symLen = len % t.cfg.block := by
      have := h12 _ hseen; unfold SrcSeen at this; rwa [if_pos h5] at this
    obtain ⟨v, m1, m2, m3, m4⟩ := encEndTerminator_good k2
    have hst2 : step t = .next v :=
      step_encTail (by rw [h6]; exact hc) h3 (t := u) (by rw [h2.cfg]; exact k1) k4 (by rw [k2.cfg]; exact m1)
    have hwid : t.width = bitlen w.next.toNat := by unfold State.width; rw [h2.next]
    have hn' : u.totalBits = countUp P n (pairsBits P P.startCode ps').length := by
      rcases k5 with ⟨e1, e2⟩ | ⟨e1, e2⟩
      · rw [e2, h8, hn, e1]
      · rw [e2, h8, hn, e1, hwid, h2.cfg, totalBits_snoc h.run]
    refine ⟨v, ps', w', ?_,
      ⟨k2.run, m2, m3, by rw [m4]; exact k2.cfg, ?_, by rw [m4], by rw [m4], ?_, ?_, ?_, ?_, ?_, ?_⟩, by rw [k3, List.append_nil], ?_⟩
    · show run 2 s = _
      rw [run_succ hst, run_succ hst2]; rfl
    all_goals rw [m4]
    · show u.host = _; rw [k6]; exact h6
    · show u.src.data = _; rw [k6]; exact hsrc.1
    · show countUp u.cfg u.totalBits (bitlen w'.next.toNat + 8) = _
      rw [hn', k2.cfg, countUp_countUp]
    · show _ = _ ∧ _ = _ ∧ u.curCode = _; rw [k6]; exact ⟨rfl, rfl, rfl⟩
    · show _ = _ ∧ u.pairLen = _ ∧ u.pairEnd = _; rw [k6]; exact ⟨rfl, h9, h10⟩
    · show u.symEnd = _ ∧ u.symCur = u.symLen ∧ u.symLen = _
      rw [k6]; exact ⟨h5, h4, hsrc.2.trans (by rw [h2.cfg])⟩
    · show u.cause = _; rw [k6]; exact h11
    · show u.totalSyms = _; rw [k6]; exact h7
  | cons b rest ih =>
    obtain ⟨t, ps', w', h1, h2, h3, h4, h5, h6, h7, ⟨h9, h10, h11, h12⟩, h8⟩ := encSymbol_cons h hp hin hg
    have hst : step s = .next t := by rw [step_encLoop hc hp, h.cfg, h1]; rfl
    have hwid : s.width = bitlen w.next.toNat := by unfold State.width; rw [h.next]
    have hn' : t.totalBits = countUp P n (pairsBits P P.startCode ps').length := by
      rcases h8 with ⟨e1, e2⟩ | ⟨e1, e2⟩
      · rw [e2, hn, e1]
      · rw [e2, hn, e1, hwid, h.cfg, totalBits_snoc h.run]
    obtain ⟨z, ps2, w2, r1, r2, r3, r4⟩ := ih h2 h5 h3 h4 (h12 _ hseen) (by rw [h6]; exact hc) hn'
    refine ⟨z, ps2, w2, (run_succ hst).trans r1, ?_, by rw [r3]; simp, ?_⟩
    · obtain ⟨a, b, c, d, e, f, g, i, j, k, l, m, o⟩ := r2
      exact ⟨a, b, c, d, e.trans h6, f, g, i, j, k, ⟨l.1, l.2.1.trans h9, l.2.2.trans h10⟩, m, o.trans h11⟩
    · rw [r4, h7, h2.cfg, h.cfg, countUp_countUp, List.length_cons, Nat.add_comm]

theorem encInit_sim {P : Params} {s : State} (hP : s.cfg = P) (hg : snkGood s.snk = true) :
    EncSim P (encInit s.cfg s) (s.snk.data.flatMap byteBits) [] [] (Words.start P) := by
  subst hP
  have hb := s.cfg.block_pos
  exact ⟨rfl, ⟨by show 0 < 8 * s.cfg.block; omega, [], rfl, by simp [encInit, pairsBits, State.emptyTrie]⟩, rfl, rfl,
    fun c b d h => (by cases h), ⟨[], by simp [Words.start, Mem.read, encInit], rfl⟩, .inl rfl, hg⟩

theorem step_decLoop {s t : State} {r : Code × Byte} (hc : s.host.acts = []) (hp : s.phase = .decLoop)
    (h : readPair s.cfg s.width s = .ok r t) (ht : t.cfg = s.cfg) :
    step s = if r.1 = s.cfg.stopCode then .next t.stopPair else (decWord s.cfg r.1 r.2 t).outcome noResult := by
  have hf : fetch s = .one (classifyPair s.cfg s.nextCode s.width r.1 r.2) t := by
    rw [fetch_coreTurn (.inl hc), State.popAct_of_nil hc, fetchCore_decLoop hp]
    unfold fetchPair
    rw [h]
  rw [step_one hf, exec_classifyPair _ _ _ _ ht]

theorem step_decTail {s : State} (hc : s.host.acts = []) (hp : s.phase = .decTail) :
    step s = (decEnd s.cfg s).outcome noResult :=
  step_one (by rw [fetch_coreTurn (.inl hc), State.popAct_of_nil hc, fetchCore_decTail hp])

/-- DECODE's loop and its end: the sink gets the words of the pairs before the stop pair. -/
theorem decode_loop {P : Params} (ps : List (Code × Byte)) {s : State} {pre : List Byte} {w w' : Words} {sym : Byte}
    {rest : List Bool} {n : Nat} (h : DecSim P s pre w) (hn : s.totalSyms = countUp P n w.out.length) (hw : ps.foldlM (Words.step P) w = some w') (hc : s.host.acts = [])
    (hin : BitsIn s (pairsBits P w.next ps ++ encodePair P (bitlen w'.next.toNat) P.stopCode sym ++ rest)) :
    ∃ t, run (ps.length + 2) s = .next t ∧ t.snk.data = pre ++ w'.out ∧ snkGood t.snk = true ∧ t.phase = .idle ∧
      t.done = true ∧ t.host = s.host ∧ SameHeader s t ∧
      t.totalSyms = countUp P n w'.out.length ∧
      t.totalBits = countUp s.cfg s.totalBits ((pairsBits P w.next ps).length + (bitlen w'.next.toNat + 8)) := by
  induction ps generalizing s w with
  | nil =>
    have hww : w' = w := (Option.some.inj hw).symm
    rw [hww] at hin ⊢
    have hstop : P.stopCode.toNat < 2 ^ bitlen w.next.toNat :=
      lt_width_of_le (by have := h.words.range; have := P.stop_lt_start; omega)
    obtain ⟨t, h1, h2, h3, h4, h5, h6, hsh⟩ := h.readPair hstop (by exact hin)
    have hst : step s = .next t.stopPair := by
      rw [step_decLoop hc h.phase h1 (by rw [h2.cfg, h.cfg]), if_pos (by rw [h.cfg])]
    have he : s.width = bitlen w.next.toNat := by unfold State.width; rw [h.next]
    have hout : SymsOut t.stopPair (pre ++ w.out) := SymsOut.congr h2.out rfl rfl rfl rfl
    obtain ⟨_, v, hv, hq, hq2, hq3⟩ :=
      Res.Spec.ok_of_good (flushSyms_spec True (P := P) (by exact h2.cfg) hout (fun _ => h2.sink))
    have hst2 := step_decTail (s := t.stopPair) (by show t.host.acts = _; rw [h4, hc]) rfl
    unfold decEnd at hst2
    rw [show t.stopPair.cfg = P from h2.cfg, hv, Res.bind_ok] at hst2
    refine ⟨_, (run_succ hst).trans (run_succ hst2), hq2, hq3 trivial, rfl, rfl, ?_, ?_, ?_, ?_⟩
    · show v.host = _; rw [hq]; exact h4
    · show v.cause = _ ∧ v.permOut = _ ∧ v.hdrOk = _; rw [hq]; exact hsh
    · show v.totalSyms = _; rw [hq]; show t.totalSyms = _; rw [h6, hn]
    · show v.totalBits = _; rw [hq]; show t.totalBits = _; rw [h5, he]; simp [pairsBits]
  | cons p ps ih =>
    rw [List.foldlM_cons] at hw
    obtain ⟨w1, hs, hw1⟩ : ∃ w1, Words.step P w p = some w1 ∧ ps.foldlM (Words.step P) w1 = some w' :=
      Option.bind_eq_some_iff.1 hw
    obtain ⟨c, b⟩ := p
    obtain ⟨wd, hr, -⟩ := Option.map_eq_some_iff.1 hs
    have hnx := (h.words.step hs).2
    have hbits : pairsBits P w.next ((c, b) :: ps) =
        encodePair P (bitlen w.next.toNat) c b ++ pairsBits P w1.next ps := by rw [hnx]; rfl
    obtain ⟨t, h1, h2, h3, h4, h5, h6, hsh⟩ := h.readPair (h.words.fits hr)
      (rest := pairsBits P w1.next ps ++ encodePair P (bitlen w'.next.toNat) P.stopCode sym ++ rest)
      (by rw [hbits] at hin; simpa [List.append_assoc] using hin)
    obtain ⟨u, k1, k2, k3, k4, k5, ksh, k6⟩ := h2.word hs
    have hst : step s = .next u := by
      rw [step_decLoop hc h.phase h1 (by rw [h2.cfg, h.cfg]), if_neg (by rw [h.cfg]; exact h.words.ne_stop hr), h.cfg,
        ← h2.cfg, k1]
      rfl
    obtain ⟨z, r1, r2, r3, r4, r5, r6, rsh, r7, r8⟩ := ih k2 (k6 n (h6.trans hn)) hw1 (by rw [k4, h4, hc]) (k3 _ h3)
    have he : s.width = bitlen w.next.toNat := by unfold State.width; rw [h.next]
    refine ⟨z, (run_succ hst).trans r1, r2, r3, r4, r5, by rw [r6, k4, h4], ?_, ?_, ?_⟩
    · exact ⟨rsh.1.trans (ksh.1.trans hsh.1), rsh.2.1.trans (ksh.2.1.trans hsh.2.1), rsh.2.2.trans (ksh.2.2.trans hsh.2.2)⟩
    · exact r7
    · rw [r8, k5, h5, he, hbits, List.length_append, encodePair_length, k2.cfg, h.cfg, countUp_countUp]
      congr 1; omega

theorem decInit_sim {P : Params} {s : State} (hP : s.cfg = P) (hg : snkGood s.snk = true) (hs : srcGood s.src = true) :
    DecSim P (decInit s.cfg s) s.snk.data (Words.start P) := by
  subst hP
  have hb := s.cfg.block_pos
  exact ⟨rfl, rfl, WordsOk.fresh _ _, rfl, rfl, ⟨by show 0 < s.cfg.block; omega, [], rfl, rfl⟩, hs, hg⟩

/-- The bits of pairs, and what they stand for, do not depend on `BLOCK` and `CTR_BITS` (R361). -/
theorem pairsBits_congr {P P' : Params} (h : coupled P P') (n : Code)
    (ps : List (Code × Byte)) : pairsBits P' n ps = pairsBits P n ps := by
  obtain ⟨a, b, c, d, e, f, g, i⟩ := h
  induction ps generalizing n with
  | nil => rfl
  | cons p ps ih => unfold pairsBits; rw [ih]; unfold encodePair nextCounter; rw [g, d, c]

theorem words_congr {P P' : Params} (h : coupled P P') (ps : List (Code × Byte)) : Words.run P' ps = Words.run P ps := by
  obtain ⟨a, b, c, d, e, f, g, i⟩ := h
  have : Words.step P' = Words.step P := by funext w p; unfold Words.step; rw [d, c, a]
  have h2 : Words.start P' = Words.start P := by unfold Words.start; rw [c, a]
  unfold Words.run; rw [this, h2]

end Sys2Proof.Machine
end

