-- ==== Sys2Proof/Tests/Slice0.lean ====
section
/-! SUPPORT. Tests: ill-formed terms refused, words written out from the spec's encodings, one or two steps per
instruction on the spec's own vectors (spec/95_test_vectors.md, named in each docstring), and a witness for the
hypotheses of every statement. -/

namespace Sys2Proof.Tests

open Sys2Proof Sys2Proof.Machine Sys2Proof.Safety

/-! ### Helpers -/

/-- The constants of the vectors, with `MAX_CODE` and `BLOCK` given. -/
def params (maxCode block : Nat) (ok : paramsOk 0 1 2 maxCode block = true) : Params :=
  ⟨0, 1, 2, maxCode, 0xBAADBAAC, block, .little, .lsbFirst, .reset, 64, ok⟩

/-- The default constants of the vectors. -/
def full : Params := params 65535 4096 (by decide)

/-- `MAX_CODE` = 5 and blocks of two bytes. -/
def tiny : Params := params 5 2 (by decide)

/-- After reset, with a source that gives three bytes at most and a sink that takes three at most in a transaction. -/
def start (P : Params) (src : List Byte) (acts : List HostAct) : State :=
  State.initial P ⟨src, [], .data 2⟩ ⟨[], [], .accept 3⟩ ⟨acts, []⟩

/-- The next state passes a check. -/
def passes (o : Host.Outcome State Fault Refusal) (check : State → Bool) : Bool :=
  match o with
  | .next t => check t
  | .fault _ => false
  | .refused _ => false

/-! ### Well-formedness: one ill-formed term for each check -/

theorem test_header_of_wrong_magic_is_ill_formed : Instr.wellFormed full 2 (.header 0xBAADBAAD 0) = false := by decide
theorem test_pair_below_start_counter_is_ill_formed : Instr.wellFormed full 1 (.pairStop 1 0) = false := by decide
theorem test_pair_at_ceiling_counter_is_ill_formed : Instr.wellFormed tiny 5 (.pairStop 3 0) = false := by decide
theorem test_stop_of_wrong_width_is_ill_formed : Instr.wellFormed full 4 (.pairStop 2 0) = false := by decide
theorem test_literal_of_wrong_width_is_ill_formed : Instr.wellFormed full 4 (.pairLiteral 4 0) = false := by decide
theorem test_reference_to_counter_is_ill_formed : Instr.wellFormed full 4 (.pairReference 3 4 0) = false := by decide
theorem test_reference_below_start_is_ill_formed : Instr.wellFormed full 4 (.pairReference 3 1 0) = false := by decide
theorem test_illegal_of_stop_is_ill_formed : Instr.wellFormed full 4 (.pairIllegal 3 1 0) = false := by decide
theorem test_illegal_of_empty_is_ill_formed : Instr.wellFormed full 4 (.pairIllegal 3 0 0) = false := by decide
theorem test_illegal_of_assigned_is_ill_formed : Instr.wellFormed full 4 (.pairIllegal 3 3 0) = false := by decide
theorem test_illegal_too_wide_is_ill_formed : Instr.wellFormed full 4 (.pairIllegal 3 8 0) = false := by decide
theorem test_read_of_no_byte_is_ill_formed : Instr.wellFormed full 2 (.readBytes 0) = false := by decide
theorem test_read_beyond_block_is_ill_formed : Instr.wellFormed full 2 (.readBytes 4097) = false := by decide
theorem test_bitlen_of_zero_is_ill_formed : Instr.wellFormed full 2 (.bitlen 0) = false := by decide
theorem test_trie_step_at_ceiling_is_ill_formed : Instr.wellFormed tiny 2 (.trieStep 5 0) = false := by decide
theorem test_trie_insert_node_at_ceiling_is_ill_formed : Instr.wellFormed tiny 2 (.trieInsert 5 0 2) = false := by decide
theorem test_trie_insert_code_at_ceiling_is_ill_formed : Instr.wellFormed tiny 5 (.trieInsert 0 0 5) = false := by decide
theorem test_trie_insert_of_another_code_is_ill_formed : Instr.wellFormed tiny 2 (.trieInsert 0 0 3) = false := by decide
theorem test_append_beside_the_counter_is_ill_formed : Instr.wellFormed tiny 2 (.wtAppend 3 [] 0) = false := by decide
theorem test_append_at_ceiling_is_ill_formed : Instr.wellFormed tiny 5 (.wtAppend 5 [] 0) = false := by decide

/-! ### Decoding: words written out from R91, R93 and R100 -/

theorem test_decode_commands :
    decodeTableWord 8 0b000 = some .nop ∧ decodeTableWord 8 0b001 = some .hdrWrite ∧
    decodeTableWord 8 0b010 = some .hdrRead ∧ decodeTableWord 8 0b011 = some .encode ∧
    decodeTableWord 8 0b100 = some .decode ∧ decodeTableWord 8 0b101 = some .clear ∧
    decodeTableWord 8 0b110 = some .reserved6 ∧ decodeTableWord 8 0b111 = some .reserved7 := by decide

/-- `CMD` has three bits; no command is wider (R33). -/
theorem test_decode_command_beyond_three_bits : decodeTableWord 8 0b1000 = none := by decide

/-- H1: the bytes `AC BA AD BA A4 01`, first byte lowest. -/
theorem test_decode_header : decodeTableWord 48 0x01A4BAADBAAC = some (.header 0xBAADBAAC 0x01A4) := by decide

/-- The opcode table's row PAIR_STOP with s = FF: `11111111 0000000000000001`. -/
theorem test_decode_pair_stop : decodeTableWord 24 0b111111110000000000000001 = some (.pairStop 16 0xFF) := by decide

/-- The opcode table's row PAIR_LITERAL with s = 41: `01000001 0000000000000000`. -/
theorem test_decode_pair_literal : decodeTableWord 24 0b010000010000000000000000 = some (.pairLiteral 16 0x41) := by decide

/-- Code 7FFF, the last below the counter 8000: `01000001 0111111111111111`. -/
theorem test_decode_pair_reference :
    decodeTableWord 24 0b010000010111111111111111 = some (.pairReference 16 0x7FFF 0x41) := by decide

/-- Code 8000, the counter itself: `01000001 1000000000000000`. -/
theorem test_decode_pair_illegal :
    decodeTableWord 24 0b010000011000000000000000 = some (.pairIllegal 16 0x8000 0x41) := by decide

/-- V3, its first and third pair: `(0, 'A')@2` and `(0, 'A')@3`, the second followed by other bits. -/
theorem test_decode_narrow_literals :
    decode full (.pair 2) [false, false, true, false, false, false, false, false, true, false]
      = .ok (.pairLiteral 2 0x41, []) ∧
    decode full (.pair 4) [false, false, false, true, false, false, false, false, false, true, false, true]
      = .ok (.pairLiteral 3 0x41, [true]) := by decide

theorem test_decode_too_few_bits :
    decode full (.pair 2) [false, false, true] = .error .tooShort ∧ decode full .cmd [true] = .error .tooShort ∧
    decode full .header [true] = .error .tooShort ∧ decode full (.pair 0) [true] = .error .badWidth := by decide

/-- What the host reads with: the word stored where the next step fetches it is the one the decoder reads. -/
theorem test_fetch_word_runs :
    passes (step (State.reset.withFetchWord 8 0b110)) (fun t => t.cmdRej) = true ∧
    passes (step (State.reset.withFetchWord 24 0b010000011000000000000000))
      (fun t => decide (t.cause = .badCode) && decide (t.faultInfo = 0x8000)) = true := by decide

/-! ### Commands -/

/-- R273. -/
theorem test_nop : passes (exec .nop { start full [] [] with cmdRej := true, done := true })
    (fun t => !t.cmdRej && t.done) = true := by decide

/-- R253. -/
theorem test_hdr_write : passes (exec .hdrWrite { start full [] [] with done := true })
    (fun t => decide (t.status = 0x0101)) = true := by decide

/-- H1: HDR_WRITE's step sends the six bytes, three at most in a transaction. -/
theorem test_hdr_write_step :
    passes (step { start full [] [] with phase := .hdrw, permIn := 0x01A4 })
      (fun t => decide (t.snk.data = [0xAC, 0xBA, 0xAD, 0xBA, 0xA4, 0x01]) && decide (t.status = 0x0002)) = true := by decide

/-- R255: `hdr_ok` is cleared. -/
theorem test_hdr_read : passes (exec .hdrRead { start full [] [] with hdrOk := true })
    (fun t => decide (t.status = 0x0201)) = true := by decide

/-- H5: a source of five bytes with the right magic takes `UNDERRUN(0)`, with a wrong one `INVALID_MAGIC`. -/
theorem test_hdr_read_short :
    passes (step { start full [0xAC, 0xBA, 0xAD, 0xBA, 0xA4] [] with phase := .hdrr })
      (fun t => decide (t.status = 0x0764) && decide (t.faultInfo = 0)) = true ∧
    passes (step { start full [0xAD, 0xBA, 0xAD, 0xBA, 0xA4] [] with phase := .hdrr })
      (fun t => decide (t.status = 0x0724) && decide (t.faultInfo = 0xBAAD)) = true := by decide

/-- K2. -/
theorem test_encode : passes (exec .encode (start full [] [])) (fun t => decide (t.status = 0x0301)) = true := by decide

/-- K4: rejected in FAULT, nothing else changes. -/
theorem test_encode_in_fault :
    passes (exec .encode { start full [] [] with phase := .fault, cause := .invalidMagic })
      (fun t => decide (t = { start full [] [] with phase := .fault, cause := .invalidMagic, cmdRej := true })) = true := by
  decide

/-- K2. -/
theorem test_decode : passes (exec .decode (start full [] [])) (fun t => decide (t.status = 0x0501)) = true := by decide

/-- K3 and K4: CLEAR in IDLE and in FAULT. -/
theorem test_clear :
    passes (exec .clear { start full [] [] with
      phase := .fault, cause := .badCode, faultInfo := 3, permOut := 7, totalBits := 9 })
      (fun t => decide (t = start full [] [])) = true := by decide

/-- K5: CLEAR while busy is rejected. -/
theorem test_clear_while_busy : passes (exec .clear { start full [] [] with phase := .decLoop })
    (fun t => decide (t = { start full [] [] with phase := .decLoop, cmdRej := true })) = true := by decide

/-- K3: `STATUS` = 0x001A. -/
theorem test_reserved6 : passes (exec .reserved6 { start full [] [] with done := true, hdrOk := true })
    (fun t => decide (t.status = 0x001A)) = true := by decide

theorem test_reserved7 : passes (exec .reserved7 { start full [] [] with done := true, hdrOk := true })
    (fun t => decide (t.status = 0x001A)) = true := by decide

/-! ### Records -/

/-- H6 and H3. -/
theorem test_header :
    passes (exec (.header 0xBAADBAAC 0x01A4) { start full [] [] with phase := .hdrr })
      (fun t => decide (t.status = 0x0012) && decide (t.permOut = 0x01A4)) = true ∧
    passes (exec (.header 0xBBADBAAC 0x01A4) { start full [] [] with phase := .hdrr })
      (fun t => decide (t.status = 0x0724) && decide (t.faultInfo = 0xBAAC) && decide (t.permOut = 0)) = true := by decide

/-- X7: the stop pair whatever its symbol. -/
theorem test_pair_stop : passes (exec (.pairStop 2 0xFF) { start full [] [] with phase := .decLoop })
    (fun t => decide (t.phase = .decTail) && decide (t.nextCode = 2)) = true := by decide

/-- X2. -/
theorem test_pair_literal : passes (exec (.pairLiteral 2 0x41) { start full [] [] with phase := .decLoop })
    (fun t => decide (t.symBuf = [(0, 0x41)]) && decide (t.wt = [(0, []), (2, [0x41])]) && decide (t.nextCode = 3)) = true := by
  decide

/-- X3. -/
theorem test_pair_reference :
    passes (exec (.pairReference 2 2 0x41)
      { start full [] [] with phase := .decLoop, nextCode := 3, wt := [(0, []), (2, [0x41])] })
      (fun t => decide (t.symBuf = [(0, 0x41), (1, 0x41)]) && decide (Mem.read t.wt 3 = some [0x41, 0x41])
        && decide (t.nextCode = 4)) = true := by decide

/-- X4. -/
theorem test_pair_illegal : passes (exec (.pairIllegal 2 3 0x41) { start full [] [] with phase := .decLoop, hdrOk := true })
    (fun t => decide (t.status = 0x0794) && decide (t.faultInfo = 3) && decide (t.totalSyms = 0)) = true := by decide

/-! ### The byte channel -/

/-- Y1: an environment that delivers at most three bytes at a time. -/
theorem test_read_bytes :
    passes (exec (.readBytes 6) (start full [0xAC, 0xBA, 0xAD, 0xBA, 0xA4, 0x01, 0x04] []))
      (fun t => decide (t.opResult = .bytes [0xAC, 0xBA, 0xAD, 0xBA, 0xA4, 0x01]) && decide (t.src.data = [0x04])) = true := by
  decide

/-- Y2: a short result is no fault. -/
theorem test_read_bytes_short : passes (exec (.readBytes 6) (start full [0xAC, 0xBA, 0xAD] []))
    (fun t => decide (t.opResult = .bytes [0xAC, 0xBA, 0xAD]) && decide (t.phase = .idle)) = true := by decide

/-- Y5: `Accepted(3)`, then `Accepted(1)`. -/
theorem test_write_bytes : passes (exec (.writeBytes [0x41, 0x42, 0x43, 0x44]) (start full [] []))
    (fun t => decide (t.snk.data = [0x41, 0x42, 0x43, 0x44])) = true := by decide

/-- Y7: `Accepted(0)` is `IO_ERROR(1)`. -/
theorem test_write_bytes_accepted_none :
    passes (exec (.writeBytes [0x41]) { start full [] [] with snk := ⟨[], [.accept 0], .accept 3⟩ })
      (fun t => decide (t.status = 0x0744) && decide (t.faultInfo = 1) && decide (t.snk.data = [])) = true := by decide

/-- Y10: a full fill does not show the end. -/
theorem test_sym_fill : passes (exec .symFill (start tiny [0x41, 0x42] []))
    (fun t => decide (t.symBuf = [(0, 0x41), (1, 0x42)]) && decide (t.symLen = 2) && !t.symEnd) = true := by decide

/-- Y9: the first call fills and returns byte 0. -/
theorem test_read_sym : passes (exec .readSym (start full [0x61, 0x62, 0x63, 0x64] []))
    (fun t => decide (t.opResult = .symbol (some 0x61)) && decide (t.symLen = 4) && t.symEnd && decide (t.totalSyms = 1))
      = true := by decide

/-- Y10: the fill that finds nothing returns `NONE`. -/
theorem test_read_sym_none : passes (exec .readSym { start tiny [] [] with symCur := 2, symLen := 2 })
    (fun t => decide (t.opResult = .symbol none) && decide (t.symLen = 0) && t.symEnd && decide (t.totalSyms = 0)) = true := by
  decide

/-- Y11: the block is sent when it is full. -/
theorem test_write_sym : passes (exec (.writeSym 0x42) { start tiny [] [] with symCur := 1, symBuf := [(0, 0x41)] })
    (fun t => decide (t.snk.data = [0x41, 0x42]) && decide (t.symCur = 0)) = true := by decide

/-- Y11. -/
theorem test_flush_syms : passes (exec .flushSyms { start tiny [] [] with symCur := 1, symBuf := [(0, 0x43), (1, 0x42)] })
    (fun t => decide (t.snk.data = [0x43]) && decide (t.symCur = 0)) = true := by decide

/-- R131 through a block of two. -/
theorem test_write_word : passes (exec (.writeWord [0x41, 0x42, 0x43]) (start tiny [] []))
    (fun t => decide (t.snk.data = [0x41, 0x42]) && decide (Mem.read t.symBuf 0 = some 0x43) && decide (t.totalSyms = 3))
      = true := by decide

/-! ### The bit channel -/

/-- B4: the block is sent on its last bit. -/
theorem test_write_bits : passes (exec (.writeBits 0xABCD 16) (start tiny [] []))
    (fun t => decide (t.snk.data = [0xCD, 0xAB]) && decide (t.bitCur = 0)) = true := by decide

/-- B3. -/
theorem test_write_bits_width : passes (exec (.writeBits 5 17) (start tiny [] []))
    (fun t => decide (t.status = 0x07A4) && decide (t.faultInfo = 17) && decide (t.bitCur = 0)) = true := by decide

/-- B5: stale bits behind the cursor are cleared. -/
theorem test_flush_bits :
    passes (exec .flushBits { start tiny [] [] with
      bitCur := 1, pairBuf := [(0, true), (1, true), (2, true), (3, true), (4, true), (5, true), (6, true), (7, true)] })
      (fun t => decide (t.snk.data = [0x01]) && decide (t.bitCur = 0) && decide (t.totalBits = 0)) = true := by decide

/-- B8: the refill of one byte. -/
theorem test_pair_fill : passes (exec .pairFill (start tiny [0x01] []))
    (fun t => decide (t.pairLen = 1) && t.pairEnd && decide (Mem.read t.pairBuf 0 = some true)
      && decide (Mem.read t.pairBuf 7 = some false)) = true := by decide

/-- B10: a value through a block boundary. -/
theorem test_read_bits : passes (exec (.readBits 12) (start (params 65535 1 (by decide)) [0x34, 0xF2] []))
    (fun t => decide (t.opResult = .value 0x234) && decide (t.bitCur = 4) && decide (t.totalBits = 12)) = true := by decide

/-- B9: `UNDERRUN(1)` at the bound. -/
theorem test_read_bits_underrun : passes (exec (.readBits 1) { start tiny [] [] with bitCur := 16, pairLen := 2 })
    (fun t => decide (t.status = 0x0764) && decide (t.faultInfo = 1) && decide (t.pairLen = 0) && t.pairEnd) = true := by decide

/-- B12: the pair, then the flush. -/
theorem test_write_pair : passes (runAll [.writePair 0x1234 0xAB 13, .flushBits] (start full [] []))
    (fun t => decide (t.snk.data = [0x34, 0x72, 0x15]) && decide (t.totalBits = 21)) = true := by decide

/-- B14. -/
theorem test_read_pair : passes (exec (.readPair 13) (start full [0x34, 0x72, 0x15] []))
    (fun t => decide (t.opResult = .pair 0x1234 0xAB) && decide (t.totalBits = 21)) = true := by decide

/-! ### The width and reset protocol -/

/-- W1. -/
theorem test_bitlen : passes (exec (.bitlen 32768) (start full [] [])) (fun t => decide (t.opResult = .width 16)) = true := by
  decide

/-- W2. -/
theorem test_width : passes (exec .width { start full [] [] with nextCode := 4 })
    (fun t => decide (t.opResult = .width 3)) = true := by decide

/-- W2: at 65533 the counter goes on, at 65534 the trie of the encoder is reset. -/
theorem test_advance :
    passes (exec .advance { start full [] [] with phase := .encLoop, nextCode := 65533 })
      (fun t => decide (t.opResult = .flag false) && decide (t.nextCode = 65534)) = true ∧
    passes (exec .advance { start full [] [] with phase := .encLoop, nextCode := 65534, child := [(65, 2)] })
      (fun t => decide (t.opResult = .flag true) && decide (t.nextCode = 2) && decide (t.child = [])) = true := by decide

/-- R175: the decoder's loop resets its table and leaves the trie. -/
theorem test_dict_reset :
    passes (exec .dictReset { start full [] [] with phase := .decLoop, wt := [(0, []), (2, [0x41])], child := [(65, 2)] })
      (fun t => decide (t.wt = [(0, [])]) && decide (t.child = [(65, 2)])) = true := by decide

/-- R37: a register of `CTR_BITS` = 3 wraps. -/
theorem test_counter_wraps :
    passes (exec (.writeBits 5 3) { start { tiny with ctrBits := 3 } [] [] with totalBits := 7 })
      (fun t => decide (t.totalBits = 2)) = true := by decide

/-! ### The encoder -/

/-- E1. -/
theorem test_trie_step :
    passes (exec (.trieStep 0 0x41) { start full [] [] with child := [(0x41, 2)] })
      (fun t => decide (t.opResult = .child (some 2))) = true ∧
    passes (exec (.trieStep 2 0x41) { start full [] [] with child := [(0x41, 2)] })
      (fun t => decide (t.opResult = .child none)) = true := by decide

/-- E4: the entry of node 2 and symbol 41. -/
theorem test_trie_insert : passes (exec (.trieInsert 2 0x41 3) { start full [] [] with child := [(0x41, 2)] })
    (fun t => decide (t.child = [(0x41, 2), (0x241, 3)])) = true := by decide

/-- E2. -/
theorem test_trie_reset : passes (exec .trieReset { start full [] [] with child := [(0x41, 2)], nextCode := 3 })
    (fun t => decide (t.child = []) && decide (t.nextCode = 3)) = true := by decide

/-- R199. -/
theorem test_enc_init :
    passes (exec .encInit { start full [] [] with curCode := 7, prevSym := 9, symEnd := true, pairLen := 3, permOut := 5 })
      (fun t => decide (t.curCode = 0) && decide (t.prevSym = 0) && !t.symEnd && decide (t.pairLen = 0)
        && decide (t.permOut = 5) && decide (t.phase = .encLoop)) = true := by decide

/-- E3: a hit. -/
theorem test_enc_symbol_hit :
    passes (exec .encSymbol { start full [0x41] [] with phase := .encLoop, nextCode := 3, child := [(0x41, 2)] })
      (fun t => decide (t.prevCode = 0) && decide (t.curCode = 2) && decide (t.prevSym = 0x41) && decide (t.totalBits = 0)
        && decide (t.totalSyms = 1)) = true := by decide

/-- E4: a miss writes `(2,0x41)@2` (B11: `06 01`, ten bits). -/
theorem test_enc_symbol_miss :
    passes (exec .encSymbol
      { start full [0x41] [] with phase := .encLoop, nextCode := 3, curCode := 2, child := [(0x41, 2)] })
      (fun t => decide (t.child = [(0x41, 2), (0x241, 3)]) && decide (t.curCode = 0) && decide (t.nextCode = 4)
        && decide (t.totalBits = 10)
        && decide (Mem.readList t.pairBuf 0 10 = some [false, true, true, false, false, false, false, false, true, false]))
      = true := by decide

/-- E6: the final pair `(0,0x41)@3`. -/
theorem test_enc_end_final_pair :
    passes (exec .encEndFinalPair
      { start full [] [] with phase := .encTail, nextCode := 4, curCode := 2, prevSym := 0x41, child := [(0x41, 2)] })
      (fun t => decide (t.nextCode = 5) && decide (t.curCode = 0) && decide (t.totalBits = 11)
        && decide (t.child = [(0x41, 2)])
        && decide (Mem.readList t.pairBuf 0 11 =
          some [false, false, false, true, false, false, false, false, false, true, false])) = true := by decide

/-- V12, `TERM_WRAP = MODULO`, `MAX_CODE` = 5: the counter becomes 0, no dictionary reset. -/
theorem test_enc_end_final_pair_modulo :
    passes (exec .encEndFinalPair
      { start { tiny with termWrap := .modulo } [] [] with
        phase := .encTail, nextCode := 4, curCode := 2, prevSym := 0x41, child := [(0x41, 2)] })
      (fun t => decide (t.nextCode = 0) && decide (t.child = [(0x41, 2)])) = true := by decide

/-- V1: the body of the empty input. -/
theorem test_enc_end_terminator : passes (exec .encEndTerminator { start full [] [] with phase := .encTail })
    (fun t => decide (t.snk.data = [0x01, 0x00]) && decide (t.totalBits = 10) && decide (t.status = 0x0002)) = true := by decide

/-! ### The decoder -/

/-- X1. -/
theorem test_wt_lookup :
    passes (exec (.wtLookup 0) { start full [] [] with phase := .decLoop }) (fun t => decide (t.opResult = .word [])) = true ∧
    passes (exec (.wtLookup 2) { start full [] [] with phase := .decLoop })
      (fun t => decide (t.cause = .badCode) && decide (t.faultInfo = 2)) = true := by decide

/-- X3: slot 3. -/
theorem test_wt_append : passes (exec (.wtAppend 3 [0x41] 0x41) (start full [] []))
    (fun t => decide (t.wt = [(0, []), (3, [0x41, 0x41])])) = true := by decide

/-- R223. -/
theorem test_wt_reset : passes (exec .wtReset { start full [] [] with wt := [(0, []), (2, [0x41])] })
    (fun t => decide (t.wt = [(0, [])])) = true := by decide

/-- R229: the match registers of the encoder stay. -/
theorem test_dec_init : passes (exec .decInit { start full [] [] with curCode := 7, bitCur := 9, done := true })
    (fun t => decide (t.curCode = 7) && decide (t.bitCur = 0) && !t.done && decide (t.phase = .decLoop)) = true := by decide

/-- X2: the body `04 ..` begins with `(0,0x41)@2`. -/
theorem test_dec_pair : passes (exec .decPair { start full [0x04, 0x19] [] with phase := .decLoop })
    (fun t => decide (t.symBuf = [(0, 0x41)]) && decide (t.nextCode = 3) && decide (t.totalBits = 10)) = true := by decide

/-- X5: a pair that names the slot it would itself create. -/
theorem test_dec_pair_bad_code : passes (exec .decPair { start full [0x07, 0x01] [] with phase := .decLoop, nextCode := 3 })
    (fun t => decide (t.status = 0x0784) && decide (t.faultInfo = 3)) = true := by decide

/-- R233, P2: what is buffered goes out, the table keeps the empty word alone. -/
theorem test_dec_end :
    passes (exec .decEnd { start full [] [] with
      phase := .decTail, symCur := 1, symBuf := [(0, 0x41)], wt := [(0, []), (2, [0x41])], bitCur := 9, pairLen := 2,
      pairEnd := true, nextCode := 3, hdrOk := true })
      (fun t => decide (t.snk.data = [0x41]) && decide (t.status = 0x0012) && decide (t.wt = [(0, [])])
        && decide (t.pairLen = 0) && decide (t.nextCode = 2)) = true := by decide

/-! ### Witnesses: for every statement with hypotheses, concrete values that meet all of them together -/

/-- The pair `(2, 'A')@2` and eight bits more, as `06 01 00 00`. -/
def someBits : List Bool := ([0x06, 0x01, 0x00, 0x00] : List Byte).flatMap byteBits

theorem witness_EncodeThenDecode :
    Instr.wellFormed tiny 4 (.pairReference 3 3 0xFF) = true ∧
    Instr.format 4 (.pairReference 3 3 0xFF) = some (.pair 4) := by decide

theorem witness_DecodeThenEncode :
    decode tiny (.pair 3) (someBits.take 11) = .ok (.pairReference 2 2 0x41, [false]) ∧
    tiny.startCode.toNat ≤ (3 : Code).toNat ∧ (3 : Code).toNat < tiny.maxCode := by decide

theorem witness_PairIsOneInteger : tiny.valOrder = .lsbFirst ∧ (7 : Code).toNat < 2 ^ 3 := by decide

theorem witness_StepRunsWrittenCommand : (start tiny [] [.writeReg 0 3]).host.acts = [.writeReg 0 3] := by decide

/-- A pair buffered, with one byte more behind it. -/
def pairBuffered : State :=
  { start tiny [] [] with
    phase := .decLoop, nextCode := 3, wt := [(0, []), (2, [0x41])], pairBuf := Mem.writeList [] 0 (someBits.take 16), pairLen := 2 }

theorem witness_StepRunsBufferedPair :
    coreTurn pairBuffered ∧ pairBuffered.phase = .decLoop ∧ pairBuffered.bitCur ≤ 8 * pairBuffered.pairLen ∧
    pairBuffered.pairLen ≤ pairBuffered.cfg.block ∧
    Mem.readList pairBuffered.pairBuf pairBuffered.bitCur (8 * pairBuffered.pairLen - pairBuffered.bitCur)
      = some (someBits.take 16) ∧
    decode pairBuffered.cfg (.pair pairBuffered.nextCode) (someBits.take 16)
      = .ok (.pairReference 2 2 0x41, List.replicate 6 false) :=
  ⟨.inl rfl, by decide, by decide, by decide, by decide, by decide⟩

/-- The same pair still in the source, two bytes of it beyond the block. -/
def pairComing : State :=
  { start tiny [0x06, 0x01, 0x00, 0x00] [] with phase := .decLoop, nextCode := 3, wt := [(0, []), (2, [0x41])] }

theorem pairComing_bits : BitsIn pairComing someBits := ⟨by decide, by decide, [], by decide, by decide⟩

theorem witness_StepRunsNextPairOfStream :
    coreTurn pairComing ∧ pairComing.phase = .decLoop ∧ srcGood pairComing.src = true ∧ BitsIn pairComing someBits ∧
    decode pairComing.cfg (.pair pairComing.nextCode) someBits = .ok (.pairReference 2 2 0x41, List.replicate 22 false) :=
  ⟨.inl rfl, by decide, by decide, pairComing_bits, by decide⟩

/-- A header and one byte more in the source. -/
def headerComing : State := { start tiny [0xAC, 0xBA, 0xAD, 0xBA, 0xA4, 0x01, 0x04] [.run] with phase := .hdrr }

theorem witness_StepRunsHeaderRecord :
    coreTurn headerComing ∧ headerComing.phase = .hdrr ∧ srcGood headerComing.src = true ∧
    headerComing.src.data = [0xAC, 0xBA, 0xAD, 0xBA, 0xA4, 0x01] ++ [0x04] ∧
    ([0xAC, 0xBA, 0xAD, 0xBA, 0xA4, 0x01] : List Byte).length = hdrBytes ∧
    decode headerComing.cfg .header (([0xAC, 0xBA, 0xAD, 0xBA, 0xA4, 0x01] : List Byte).flatMap byteBits)
      = .ok (.header 0xBAADBAAC 0x01A4, []) :=
  ⟨.inr ⟨[], rfl⟩, by decide, by decide, by decide, by decide, by decide⟩

/-- The core's turn in any phase, with the host done or with `run` next. -/
theorem witness_StepRunsOperationOfPhase (p : Phase) :
    (coreTurn { start tiny [] [] with phase := p } ∧ ({ start tiny [] [] with phase := p } : State).phase = p) ∧
    coreTurn { start tiny [] [.run] with phase := p } := ⟨⟨.inl rfl, rfl⟩, .inr ⟨[], rfl⟩⟩

/-- Each ground of a rejection alone, and none of them. -/
theorem witness_CommandAcceptance :
    ({ start tiny [] [] with phase := .hdrw } : State).busy = true ∧
    ({ start tiny [] [] with phase := .fault } : State).busy = false ∧
    ({ start tiny [] [] with phase := .fault } : State).phase = .fault ∧
    (start tiny [] []).busy = false ∧ (start tiny [] []).phase ≠ .fault := by decide

/-- For the statements whose hypothesis is that the block is idle, not busy, or not in FAULT (NopAndClearEffects,
EncInitAndDecInit, HeaderRecordEffect and others). -/
theorem witness_idle :
    (start tiny [] []).busy = false ∧ (start tiny [] []).phase = .idle ∧ (start tiny [] []).phase ≠ .fault := by decide

/-- HDR_WRITE's step, into a sink that takes three bytes a time, and into one that fails. -/
theorem witness_HdrWriteAppendsHeader :
    (coreTurn { start tiny [] [.run] with phase := .hdrw } ∧
      ({ start tiny [] [.run] with phase := .hdrw } : State).cfg.hdrOrder = .little ∧
      snkGood ({ start tiny [] [.run] with phase := .hdrw } : State).snk = true) ∧
    passes (step { start tiny [] [.run] with phase := .hdrw, snk := ⟨[], [], .error⟩ })
      (fun t => decide (t.phase = .fault)) = true :=
  ⟨⟨.inr ⟨[], rfl⟩, by decide, by decide⟩, by decide⟩

/-- A source of four bytes, a wrong one; the other two outcomes are those of `headerComing` and of the empty source. -/
theorem witness_HdrReadValidatesThenDelivers :
    (coreTurn headerComing ∧ headerComing.phase = .hdrr ∧ headerComing.cfg.hdrOrder = .little ∧
      srcGood headerComing.src = true) ∧
    (4 ≤ (([0xAC, 0xBA, 0xAD, 0xBB] : List Byte).take 6).length ∧
      (([0xAC, 0xBA, 0xAD, 0xBB] : List Byte).take 6).take 4 ≠ leBytes 4 tiny.magic.toNat) ∧
    (([] : List Byte).take 6).length < 6 :=
  ⟨⟨.inr ⟨[], rfl⟩, by decide, by decide, by decide⟩, by decide, by decide⟩

theorem witness_HeaderRoundTrip :
    let s := start tiny [0xAC, 0xBA, 0xAD, 0xBA, 0xA4, 0x01, 0x04] [.writeReg 0 2]
    s.phase = .idle ∧ s.host.acts = [.writeReg 0 2] ∧ srcGood s.src = true ∧
    s.src.data = headerBytes s.cfg.hdrOrder s.cfg.magic 0x01A4 ++ [0x04] := by decide

theorem witness_HostRegisterAccess :
    (start tiny [] [.readReg 6]).host.acts = [.readReg 6] ∧ (start tiny [] [.writeReg 2 5]).host.acts = [.writeReg (1 + 1) 5] ∧
    ({ start tiny [] [.writeReg 2 5] with phase := .hdrr } : State).busy = true := by decide

theorem witness_HostConnectsStreams :
    (start tiny [] [.connectSrc ⟨[], [], .eof⟩]).host.acts = [.connectSrc ⟨[], [], .eof⟩] ∧
    (start tiny [] [.connectSnk ⟨[], [], .error⟩]).host.acts = [.connectSnk ⟨[], [], .error⟩] ∧
    ({ start tiny [] [.connectSnk ⟨[], [], .error⟩] with phase := .decTail } : State).busy = true ∧
    (start tiny [] []).busy = false := by decide

/-- CLEAR where the block is not busy, and a reset. -/
theorem witness_ResetValues :
    ({ start tiny [0x41] [.reset 1 []] with phase := .fault } : State).busy = false ∧
    (start tiny [0x41] [.reset 1 []]).host.acts = [.reset 1 []] := by decide

theorem witness_HardwareResetLikeClear :
    (start tiny [0x41] [.reset 1 [0x42]]).host.acts = [.reset 1 [0x42]] ∧ (start tiny [0x41] [.reset 1 [0x42]]).busy = false ∧
    ({ start tiny [0x41] [.reset 1 [0x42]] with phase := .encLoop } : State).busy = true := by decide

/-- An instruction that takes each of the five faults. -/
theorem witness_FaultEntryCauseAndInfo :
    passes (exec (.header 0 0) (start tiny [] [])) (fun t => decide (t.cause = .invalidMagic ∧ t.phase = .fault)) = true ∧
    passes (exec (.readBytes 1) { start tiny [] [] with src := ⟨[], [], .error⟩ })
      (fun t => decide (t.cause = .ioError ∧ t.phase = .fault)) = true ∧ snkGood (start tiny [] []).snk = true ∧
    passes (exec (.writeBytes [1]) { start tiny [] [] with snk := ⟨[], [], .error⟩ })
      (fun t => decide (t.cause = .ioError ∧ t.phase = .fault)) = true ∧ srcGood (start tiny [] []).src = true ∧
    passes (exec (.readBits 1) (start tiny [] [])) (fun t => decide (t.cause = .underrun ∧ t.phase = .fault)) = true ∧
    passes (exec (.wtLookup 2) (start tiny [] [])) (fun t => decide (t.cause = .badCode ∧ t.phase = .fault)) = true ∧
    passes (exec (.writeBits 0 17) (start tiny [] [])) (fun t => decide (t.cause = .badWidth ∧ t.phase = .fault)) = true ∧
    passes (exec .decPair { start tiny [] [] with nextCode := 0 })
      (fun t => decide (t.cause = .badWidth ∧ t.phase = .fault)) = true ∧
    (start tiny [] []).phase ≠ .fault := by decide

/-- The widths at the borders: 0 and 17 outside, 1 and 16 inside, where a fault of another cause is met. -/
theorem witness_WidthOutsideRangeFaults :
    (start tiny [] []).phase ≠ .fault ∧ (0 < 1 ∨ 16 < 0) ∧ (17 < 1 ∨ 16 < 17) ∧ (1 ≤ 1 ∧ 1 ≤ 16) ∧ (1 ≤ 16 ∧ 16 ≤ 16) ∧
    passes (exec (.readBits 16) (start tiny [] [])) (fun t => decide (t.phase = .fault)) = true := by decide

/-- FAULT kept by the core's turn and by NOP, left by CLEAR and by reset. -/
theorem witness_FaultLeftOnlyByClearOrReset :
    passes (step { start tiny [] [] with phase := .fault }) (fun t => decide (t.phase = .fault)) = true ∧
    passes (step { start tiny [] [.writeReg 0 0] with phase := .fault }) (fun t => decide (t.phase = .fault)) = true ∧
    passes (step { start tiny [] [.writeReg 0 13] with phase := .fault }) (fun t => decide (t.phase = .idle)) = true ∧
    passes (step { start tiny [] [.reset 0 []] with phase := .fault }) (fun t => decide (t.phase = .idle)) = true := by decide

theorem witness_PhaseTransitions :
    passes (step { start tiny [] [] with phase := .encTail }) (fun t => decide (t.phase = .idle)) = true ∧
    passes (step (start tiny [] [.writeReg 0 4])) (fun t => decide (t.phase = .decLoop)) = true ∧
    HostAct.writeReg 0 4 ≠ .run := by decide

/-- An instruction with a next state, and a part it may not write. -/
theorem witness_EveryInstructionWritesOnlyItsParts :
    passes (exec .decPair pairBuffered) (fun t => decide (t.totalSyms = 2)) = true ∧ Part.permOut ∉ mayWrite .decPair ∧
    passes (step pairBuffered) (fun t => decide (t.nextCode = 4)) = true := by decide

theorem witness_ReadBytesWhateverTheSplit :
    srcGood (start tiny [0x41] []).src = true ∧
    (⟨[], [.error], .data 0⟩ : SrcPort).draw = (.error, ⟨[], [], .data 0⟩) ∧
    (⟨[], [.eof], .data 0⟩ : SrcPort).draw = (.eof, ⟨[], [], .data 0⟩) := by decide

theorem witness_WriteBytesWhateverTheSplit :
    snkGood (start tiny [] []).snk = true ∧ 1 ≤ ([0x41] : List Byte).length ∧
    (⟨[], [.accept 0], .accept 1⟩ : SnkPort).draw = (.accept 0, ⟨[], [], .accept 1⟩) ∧
    (⟨[], [], .error⟩ : SnkPort).draw = (.error, ⟨[], [], .error⟩) := by decide

theorem witness_FillsTakeOneBlock : srcGood (start tiny [0x41, 0x42, 0x43] []).src = true := by decide

/-- One symbol of a block of two left. -/
def symbolLeft : State := { start tiny [0x43] [] with symCur := 1, symLen := 2, symBuf := [(0, 0x41), (1, 0x42)] }

theorem witness_ReadSymDeliversNextByte :
    (symbolLeft.symCur ≠ symbolLeft.symLen ∧ symbolLeft.symCur < symbolLeft.cfg.block ∧
      Mem.read symbolLeft.symBuf symbolLeft.symCur = some 0x42) ∧
    (({ symbolLeft with symCur := 2, symEnd := true } : State).symCur = symbolLeft.symLen) ∧
    (({ symbolLeft with symCur := 2 } : State).symCur = symbolLeft.symLen ∧ symbolLeft.symEnd = false ∧
      srcGood symbolLeft.src = true) := by decide

theorem witness_WriteSymAndFlushSyms :
    (start tiny [] []).symCur + 1 < (start tiny [] []).cfg.block ∧
    (symbolLeft.symCur + 1 = symbolLeft.cfg.block ∧ Mem.readList symbolLeft.symBuf 0 symbolLeft.symCur = some [0x41] ∧
      snkGood symbolLeft.snk = true) ∧
    (start tiny [] []).symCur = 0 ∧ symbolLeft.symCur ≤ symbolLeft.cfg.block := by decide

/-- One symbol buffered, one in the sink. -/
def symbolOut : State := { symbolLeft with snk := ⟨[0x40], [], .accept 1⟩ }

theorem symbolOut_syms : SymsOut symbolOut [0x40, 0x41] := ⟨by decide, [0x41], by decide, by decide⟩

theorem witness_WriteWordAppends : SymsOut symbolOut [0x40, 0x41] ∧ snkGood symbolOut.snk = true :=
  ⟨symbolOut_syms, by decide⟩

/-- Fifteen bits of a block of sixteen buffered. -/
def bitsBuffered : State :=
  { start tiny [] [] with bitCur := 15, pairBuf := Mem.writeList [] 0 (someBits.take 15) }

theorem bitsBuffered_out : BitsOut bitsBuffered (someBits.take 15) := ⟨by decide, someBits.take 15, by decide, by decide⟩

theorem witness_WriteBitsAppends :
    (1 ≤ 1 ∧ 1 ≤ 16) ∧ (1 ≤ 16 ∧ 16 ≤ 16) ∧ BitsOut bitsBuffered (someBits.take 15) ∧ snkGood bitsBuffered.snk = true :=
  ⟨by decide, by decide, bitsBuffered_out, by decide⟩

theorem witness_FlushBitsPadsWithZeros : BitsOut bitsBuffered (someBits.take 15) ∧ snkGood bitsBuffered.snk = true :=
  ⟨bitsBuffered_out, by decide⟩

/-- A value of sixteen bits, the width of the block, at the head of the stream. -/
theorem witness_ReadBitsUpToTheBound_value :
    0x0106 < 2 ^ 16 ∧ BitsIn pairComing (valueBits pairComing.cfg.valOrder 16 0x0106 ++ List.replicate 16 false) ∧
    srcGood pairComing.src = true := by
  refine ⟨by decide, ?_, by decide⟩
  have h : valueBits pairComing.cfg.valOrder 16 0x0106 ++ List.replicate 16 false = someBits := by decide
  rw [h]; exact pairComing_bits

/-- One bit wanted where none is left, and sixteen where fifteen are. -/
theorem witness_ReadBitsUpToTheBound :
    (([] : List Bool).length < 1 ∧ BitsIn (start tiny [] []) [] ∧ srcGood (start tiny [] []).src = true ∧
      (start tiny [] []).phase ≠ .fault) ∧
    (16 ≤ 16 ∧ (someBits.take 15).length < 16 ∧
      BitsIn { pairBuffered with bitCur := 1, pairEnd := true } ((someBits.take 16).drop 1)) :=
  ⟨⟨by decide, ⟨by decide, by decide, [], by decide, by decide⟩, by decide, by decide⟩,
    by decide, by decide, ⟨by decide, by decide, (someBits.take 16).drop 1, by decide, by decide⟩⟩

theorem witness_PairsThroughTheChannel :
    (1 ≤ 2 ∧ 2 ≤ 16) ∧ (BitsOut bitsBuffered (someBits.take 15) ∧ snkGood bitsBuffered.snk = true) ∧
    ((2 : Code).toNat < 2 ^ 2 ∧
      BitsIn pairComing (valueBits pairComing.cfg.valOrder 2 (2 : Code).toNat ++
        valueBits pairComing.cfg.valOrder 8 (0x41 : Byte).toNat ++ List.replicate 22 false) ∧
      srcGood pairComing.src = true) := by
  refine ⟨by decide, ⟨bitsBuffered_out, by decide⟩, by decide, ?_, by decide⟩
  have h : valueBits pairComing.cfg.valOrder 2 (2 : Code).toNat ++
      valueBits pairComing.cfg.valOrder 8 (0x41 : Byte).toNat ++ List.replicate 22 false = someBits := by decide
  rw [h]; exact pairComing_bits

/-- B1 and B7: two values, written with blocks of two bytes and read with blocks of 4096. -/
theorem witness_BitChannelSymmetry :
    (∀ x ∈ ([(3, 2), (0xFFFF, 16)] : List (BitVec 16 × Nat)), 1 ≤ x.2 ∧ x.2 ≤ 16 ∧ x.1.toNat < 2 ^ x.2) ∧
    (start full [0xFF, 0xFF, 0x03] []).cfg.valOrder = (start tiny [] []).cfg.valOrder ∧ (start tiny [] []).bitCur = 0 ∧
    (start tiny [] []).snk.data = [] ∧ snkGood (start tiny [] []).snk = true ∧ (start full [0xFF, 0xFF, 0x03] []).bitCur = 0 ∧
    (start full [0xFF, 0xFF, 0x03] []).pairLen = 0 ∧ (start full [0xFF, 0xFF, 0x03] []).pairEnd = false ∧
    srcGood (start full [0xFF, 0xFF, 0x03] []).src = true ∧
    passes (runAll [.writeBits 3 2, .writeBits 0xFFFF 16, .flushBits] (start tiny [] []))
      (fun t => decide ((start full [0xFF, 0xFF, 0x03] []).src.data = t.snk.data)) = true := by decide

/-- For each clause an instruction with a next state; the reads within what is buffered, the write through the end of the
block. -/
theorem witness_BufferCellsElsewhereStay :
    passes (exec (.writeBits 3 2) bitsBuffered) (fun t => decide (t.bitCur = 1)) = true ∧
    passes (exec (.writePair 2 0x41 2) bitsBuffered) (fun t => decide (t.bitCur = 9)) = true ∧
    passes (exec .flushBits bitsBuffered) (fun t => decide (t.bitCur = 0)) = true ∧
    (passes (exec (.readBits 16) pairBuffered) (fun t => decide (t.bitCur = 16)) = true ∧
      pairBuffered.bitCur + 16 ≤ 8 * pairBuffered.pairLen) ∧
    (passes (exec (.readPair 8) pairBuffered) (fun t => decide (t.bitCur = 16)) = true ∧
      pairBuffered.bitCur + (8 + 8) ≤ 8 * pairBuffered.pairLen) ∧
    (passes (exec .decPair pairBuffered) (fun t => decide (t.bitCur = 10)) = true ∧
      pairBuffered.bitCur + (pairBuffered.width + 8) ≤ 8 * pairBuffered.pairLen) ∧
    (passes (exec .readSym symbolLeft) (fun t => decide (t.symCur = 2)) = true ∧ symbolLeft.symCur ≠ symbolLeft.symLen) ∧
    passes (exec (.writeSym 0x42) symbolLeft) (fun t => decide (t.symCur = 0)) = true ∧
    passes (exec (.writeWord [0x42, 0x43, 0x44]) symbolLeft) (fun t => decide (t.symCur = 0)) = true := by decide

/-- The same for the instructions of the two loops. -/
theorem witness_BufferCellsElsewhereStay_loops :
    passes (exec .encSymbol { symbolLeft with phase := .encLoop, curCode := 0 }) (fun t => decide (t.bitCur = 10)) = true ∧
    passes (exec .encEndFinalPair { bitsBuffered with phase := .encTail, curCode := 2 })
      (fun t => decide (t.bitCur = 9)) = true ∧
    passes (exec .encEndTerminator { bitsBuffered with phase := .encTail }) (fun t => decide (t.phase = .idle)) = true ∧
    Mem.read pairBuffered.wt (2 : Code).toNat = some [0x41] ∧
    passes (exec (.pairReference 2 2 0x41) pairBuffered) (fun t => decide (t.symCur = 0)) = true ∧
    passes (exec (.pairIllegal 2 2 0x41) pairBuffered) (fun t => decide (t.symCur = 0)) = true ∧
    passes (exec (.pairLiteral 2 0x41) pairBuffered) (fun t => decide (t.symCur = 1)) = true := by decide

theorem witness_BitlenIsMinimalWidth : 1 ≤ 65535 ∧ 1 ≤ 16 ∧ 2 ^ (16 - 1) ≤ 65535 ∧ 65535 < 2 ^ 16 := by decide

/-- The counter below the ceiling and at it, in each loop. -/
theorem witness_WidthAdvanceDictReset :
    (3 : Code).toNat + 1 ≠ tiny.maxCode ∧ (4 : Code).toNat + 1 = tiny.maxCode ∧
    ({ start tiny [] [] with phase := .encTail } : State).phase = .encTail ∧
    ({ start tiny [] [] with phase := .decLoop } : State).phase = .decLoop := by decide

theorem witness_WidthMonotoneWithinEpoch :
    tiny.startCode.toNat ≤ (4 : Code).toNat ∧ (4 : Code).toNat < tiny.maxCode ∧
    passes (exec .advance { start tiny [] [] with nextCode := 4 }) (fun t => decide (t.opResult = .flag true)) = true ∧
    passes (exec .advance { start tiny [] [] with nextCode := 3 }) (fun t => decide (t.opResult = .flag false)) = true := by decide

theorem witness_TrieOperations : (4 : Code).toNat < (start tiny [] []).cfg.maxCode := by decide

/-- One symbol to come, the trie with the word "A". -/
def encoding : State := { start tiny [0x41] [] with phase := .encLoop, nextCode := 3, child := [(0x41, 2)] }

theorem encoding_syms : SymsIn encoding [0x41] := ⟨by decide, by decide, [], by decide, by decide⟩

theorem witness_EncSymbolHit :
    encoding.curCode.toNat < encoding.cfg.maxCode ∧ SymsIn encoding [0x41] ∧ srcGood encoding.src = true ∧
    Mem.read encoding.child (childIndex encoding.curCode 0x41) = some 2 :=
  ⟨by decide, encoding_syms, by decide, by decide⟩

theorem witness_EncSymbolMiss :
    ({ encoding with curCode := 2 } : State).phase = .encLoop ∧
    ({ encoding with curCode := 2 } : State).curCode.toNat < encoding.cfg.maxCode ∧ 1 ≤ encoding.nextCode.toNat ∧
    SymsIn { encoding with curCode := 2 } [0x41] ∧ srcGood encoding.src = true ∧
    Mem.read encoding.child (childIndex 2 0x41) = none ∧ BitsOut { encoding with curCode := 2 } [] ∧
    snkGood encoding.snk = true :=
  ⟨by decide, by decide, by decide, ⟨by decide, by decide, [], by decide, by decide⟩, by decide, by decide,
    ⟨by decide, [], by decide, by decide⟩, by decide⟩

theorem witness_EncSymbolEndOfInput :
    SymsIn { start tiny [] [] with phase := .encLoop } [] ∧ srcGood (start tiny [] []).src = true :=
  ⟨⟨by decide, by decide, [], by decide, by decide⟩, by decide⟩

/-- A match pending at the ceiling (V12). -/
def ending : State := { start tiny [] [] with
  phase := .encTail, nextCode := 4, curCode := 2, prevSym := 0x41, child := [(0x41, 2), (0x42, 3)] }

theorem witness_FinalPairOfPendingMatch :
    (start tiny [] []).curCode = tiny.emptyCode ∧
    (ending.phase = .encTail ∧ ending.cfg.termWrap = .reset ∧ ending.curCode ≠ ending.cfg.emptyCode ∧
      1 ≤ ending.nextCode.toNat ∧ BitsOut ending [] ∧ snkGood ending.snk = true) :=
  ⟨by decide, by decide, by decide, by decide, by decide, ⟨by decide, [], by decide, by decide⟩, by decide⟩

theorem witness_TerminatorCompletesEncode :
    1 ≤ ending.nextCode.toNat ∧ BitsOut ending [] ∧ snkGood ending.snk = true :=
  ⟨by decide, ⟨by decide, [], by decide, by decide⟩, by decide⟩

/-- The same under `TERM_WRAP = MODULO`, at the boundary and one below it. -/
theorem witness_ModuloAtBoundaryFaults :
    let s : State := { ending with cfg := { tiny with termWrap := .modulo } }
    (s.cfg.termWrap = .modulo ∧ s.phase = .encTail ∧ s.curCode ≠ s.cfg.emptyCode ∧ 1 ≤ s.nextCode.toNat ∧
      s.nextCode.toNat < s.cfg.maxCode ∧ BitsOut s [] ∧ snkGood s.snk = true ∧ s.nextCode.toNat + 1 = s.cfg.maxCode ∧
      coreTurn s) ∧
    (3 : Code).toNat + 1 ≠ s.cfg.maxCode :=
  ⟨⟨by decide, by decide, by decide, by decide, by decide, ⟨by decide, [], by decide, by decide⟩, by decide, by decide,
    .inl rfl⟩, by decide⟩

/-- A code with a word, a code without, and one at the ceiling. -/
theorem witness_WordTableOperations :
    ((2 : Code).toNat < tiny.maxCode ∧ Mem.read pairBuffered.wt (2 : Code).toNat = some [0x41]) ∧
    (pairBuffered.phase ≠ .fault ∧ Mem.read pairBuffered.wt (3 : Code).toNat = none) ∧
    tiny.maxCode ≤ (5 : Code).toNat := by decide

theorem witness_PairKindsEffects :
    pairBuffered.phase = .decLoop ∧ pairBuffered.nextCode.toNat < pairBuffered.cfg.maxCode ∧
    (2 : Code).toNat < pairBuffered.cfg.maxCode ∧ Mem.read pairBuffered.wt (2 : Code).toNat = some [0x41] ∧
    SymsOut pairBuffered [] ∧ snkGood pairBuffered.snk = true ∧ (0 : Code) = pairBuffered.cfg.emptyCode ∧
    (pairBuffered.phase ≠ .fault ∧ Mem.read pairBuffered.wt (3 : Code).toNat = none) :=
  ⟨by decide, by decide, by decide, by decide, ⟨by decide, [], by decide, by decide⟩, by decide, by decide, by decide, by decide⟩

theorem witness_DecPairRunsNextPair :
    pairComing.phase = .decLoop ∧ 1 ≤ pairComing.nextCode.toNat ∧
    (2 : Code).toNat < 2 ^ bitlen pairComing.nextCode.toNat ∧ srcGood pairComing.src = true ∧
    BitsIn pairComing (encodePair pairComing.cfg (bitlen pairComing.nextCode.toNat) 2 0x41 ++ List.replicate 22 false) ∧
    (2 : Code) ≠ pairComing.cfg.stopCode ∧ pairComing.nextCode.toNat < pairComing.cfg.maxCode ∧
    (2 : Code).toNat < pairComing.cfg.maxCode ∧ Mem.read pairComing.wt (2 : Code).toNat = some [0x41] ∧
    SymsOut pairComing [] ∧ snkGood pairComing.snk = true := by
  refine ⟨by decide, by decide, by decide, by decide, ?_, by decide, by decide, by decide, by decide,
    ⟨by decide, [], by decide, by decide⟩, by decide⟩
  have h : encodePair pairComing.cfg (bitlen pairComing.nextCode.toNat) 2 0x41 ++ List.replicate 22 false = someBits := by
    decide
  rw [h]; exact pairComing_bits

/-- The stop pair and a pair without a word at the head of the stream, for the other two clauses. -/
theorem witness_DecPairRunsNextPair_others :
    BitsIn { pairComing with src := ⟨[0x01, 0x00], [], .data 0⟩ }
      (encodePair tiny (bitlen pairComing.nextCode.toNat) tiny.stopCode 0 ++ List.replicate 6 false) ∧
    (BitsIn { pairComing with src := ⟨[0x07, 0x01], [], .data 0⟩ }
      (encodePair tiny (bitlen pairComing.nextCode.toNat) 3 0x41 ++ List.replicate 6 false) ∧
      (3 : Code) ≠ tiny.stopCode ∧ Mem.read pairComing.wt (3 : Code).toNat = none) :=
  ⟨⟨by decide, by decide, [], by decide, by decide⟩, ⟨by decide, by decide, [], by decide, by decide⟩, by decide, by decide⟩

theorem witness_DecEndCompletesDecode : SymsOut symbolOut [0x40, 0x41] ∧ snkGood symbolOut.snk = true :=
  ⟨symbolOut_syms, by decide⟩

/-- A state of the block that meets the invariant and is busy: DECODE has just begun. The host's action makes its step
the core's, leaves it unanswered, or is refused. -/
def begun (acts : List HostAct) : State := { start tiny [0x01, 0x00] acts with phase := .decLoop }

theorem begun_inv (acts : List HostAct) : Safety.Inv (begun acts) where
  memories := ⟨rfl, rfl, rfl, rfl, rfl, rfl, rfl, rfl⟩
  ranges := ⟨Nat.zero_le _, Nat.zero_le _, Nat.zero_le _, Nat.zero_le _, fun _ => ⟨le_rfl, tiny.start_lt_max⟩,
    Nat.two_pow_pos _, Nat.two_pow_pos _⟩
  flags := ⟨by simp [begun, start, State.initial], fun _ => rfl, fun h => by cases h⟩
  phase := by
    refine ⟨TableOk.of_empty rfl rfl, rfl, Nat.zero_lt_two, fun i h => absurd h (Nat.not_lt_zero i), le_rfl,
      fun i h => absurd h (Nat.not_lt_zero i)⟩

theorem witness_StepKeepsInvariant :
    Safety.Inv (begun []) ∧ passes (step (begun [])) (fun t => decide (t.phase = .decTail)) = true :=
  ⟨begun_inv [], by decide⟩

/-- DECODE has just begun and the source never answers. -/
def unanswered : State := { begun [] with src := ⟨[], [], .silent⟩ }

theorem unanswered_inv : Safety.Inv unanswered := by
  obtain ⟨⟨a, b, c, d, e, g, i, j⟩, ⟨r1, r2, r3, r4, r5, r6⟩, ⟨f1, f2, f3⟩, p⟩ := begun_inv []
  exact ⟨⟨a, b, c, d, e, g, i, j⟩, ⟨r1, r2, r3, r4, r5, r6⟩, ⟨f1, f2, f3⟩,
    ⟨TableOk.congr p.table rfl rfl rfl, p.child, p.symCur, p.symBuf, p.bitCur, p.pairBuf⟩⟩

/-- The only fault, and the only refusal. -/
theorem witness_StepStopsOnlyUnanswered :
    (Safety.Inv unanswered ∧ step unanswered = .fault .noAnswer) ∧
    Safety.Inv (begun [.connectSrc ⟨[], [], .silent⟩]) ∧
    step (begun [.connectSrc ⟨[], [], .silent⟩]) = .refused .streamTouchedWhileBusy :=
  ⟨⟨unanswered_inv, rfl⟩, begun_inv _, rfl⟩

theorem witness_AnsweredStepsGoOn :
    Safety.Inv (begun []) ∧ coreTurn (begun []) ∧ srcGood (begun []).src = true ∧ snkGood (begun []).snk = true :=
  ⟨begun_inv [], .inl rfl, by decide, by decide⟩

theorem witness_EncodeWritesBodyOfSource :
    let s := start tiny [0x41, 0x42, 0x41] [.writeReg 0 3]
    s.phase = .idle ∧ s.cfg.termWrap = .reset ∧ s.host.acts = [.writeReg 0 3] ∧ srcGood s.src = true ∧
      snkGood s.snk = true := by decide

/-- V2, with a byte behind the body. -/
theorem witness_DecodeWritesWordsOfBody :
    let s := start tiny [0x04, 0x05, 0x00, 0xFF] [.writeReg 0 4]
    s.phase = .idle ∧ s.host.acts = [.writeReg 0 4] ∧ srcGood s.src = true ∧ snkGood s.snk = true ∧
    ∃ w, Words.run s.cfg [(0, 0x41)] = some w ∧
      s.src.data.flatMap byteBits = pairsBits s.cfg s.cfg.startCode [(0, 0x41)] ++
        encodePair s.cfg (bitlen w.next.toNat) s.cfg.stopCode 0 ++ (List.replicate 4 false ++ List.replicate 8 true) :=
  ⟨by decide, by decide, by decide, by decide, ⟨3, [(0, []), (2, [0x41])], [0x41]⟩, rfl, by decide⟩

theorem witness_DecodeEndsOnEverySource :
    let s := start tiny [0x07] [.writeReg 0 4]
    s.phase = .idle ∧ s.host.acts = [.writeReg 0 4] ∧ srcGood s.src = true ∧ snkGood s.snk = true := by decide

theorem witness_RoundTrip :
    coupled tiny ({ params 5 7 (by decide) with ctrBits := 8 }) ∧ tiny.termWrap = .reset ∧
    srcGood ⟨[0x41, 0x42, 0x41], [.data 0], .data 1⟩ = true ∧ snkGood ⟨[], [.accept 1], .accept 9⟩ = true ∧
    deliversData (.data 3) = true ∧ [SrcAns.data 0, .data 4].all deliversData = true := by
  refine ⟨?_, by decide, by decide, by decide, by decide, by decide⟩
  unfold coupled; decide

end Sys2Proof.Tests
end

-- The step, taken apart.
section
/-! SUPPORT. One step as the core's own operation or the host's action (R19, R28, R271): each later proof about `step` is two
cases. -/

namespace Sys2Proof.Machine

open Sys2Proof Sys2Proof.Safety

variable {s : State}

/-- The outcome of what was fetched. -/
def Fetched.outcome : Fetched → Host.Outcome State Fault Refusal
  | .settled o => o
  | .one i t => exec i t
  | .two i j t =>
      match exec i t with
      | .next u => if u.phase = t.phase then exec j u else .next u
      | .fault f => .fault f
      | .refused r => .refused r

theorem step_eq_outcome (s : State) : step s = (fetch s).outcome := by
  unfold step Fetched.outcome; cases fetch s <;> rfl

/-- HDR_READ after its acceptance, the step of phase HDRR, as one operation (R255, R258). -/
def hdrReadBody (P : Params) (s : State) : Res Unit :=
  (readBytes hdrBytes s).bind fun d s =>
    if d.length < hdrBytes then .raise (shortHeader P d) s
    else acceptHeader P (BitVec.ofNat 32 (fieldValue P.hdrOrder (d.take 4)))
      (BitVec.ofNat 16 (fieldValue P.hdrOrder (d.drop 4))) s

/-- ENC_END, both parts (R202, R203). -/
def encEnd (P : Params) (s : State) : Res Unit :=
  (encEndFinalPair P s).bind fun _ s => encEndTerminator P s

/-- The operation of each phase (R28). -/
def coreOp (s : State) : Res Unit :=
  match s.phase with
  | .idle | .fault => .ok () s
  | .hdrw => hdrWriteBody s.cfg s
  | .hdrr => hdrReadBody s.cfg s
  | .encLoop => encSymbol s.cfg s
  | .encTail => encEnd s.cfg s
  | .decLoop => decPair s.cfg s
  | .decTail => decEnd s.cfg s

/-- The host's actions other than `run` (R32, R271, R340, R352), once taken from the list. -/
def hostStep : HostAct → State → Host.Outcome State Fault Refusal
  | .run, s => .next s
  | .writeReg 0 v, s => exec (decodeCmd (BitVec.ofNat 3 v)) s
  | .writeReg (n + 1) v, s => .next (s.hostWrite (n + 1) v)
  | .readReg n, s => .next (s.hostRead n)
  | .connectSrc p, s => hostConnect { s with src := p } s
  | .connectSnk p, s => hostConnect { s with snk := p } s
  | .reset taken sent, s => .next (s.hardReset taken sent)

/-- In the core's turn the step is the core's (R19; log 13). -/
theorem step_coreTurn (h : coreTurn s) : step s = (fetchCore s.popAct).outcome := by
  rw [step_eq_outcome, fetch_coreTurn h]

/-- Where the host acts the step is its action (R271; log 13). -/
theorem step_hostAct {a : HostAct} {as : List HostAct} (h : s.host.acts = a :: as) (ha : a ≠ .run) :
    step s = hostStep a s.popAct := by
  rw [step_eq_outcome]
  unfold fetch
  rw [h]
  cases a with
  | run => exact absurd rfl ha
  | writeReg n v => cases n <;> rfl
  | readReg n => rfl
  | connectSrc p => rfl
  | connectSnk p => rfl
  | reset taken sent => rfl

/-- A step is the core's or the host's. -/
theorem step_cases (s : State) :
    (coreTurn s ∧ step s = (fetchCore s.popAct).outcome) ∨
      ∃ a as, s.host.acts = a :: as ∧ a ≠ .run ∧ step s = hostStep a s.popAct := by
  cases h : s.host.acts with
  | nil => exact .inl ⟨.inl h, step_coreTurn (.inl h)⟩
  | cons a as =>
    by_cases ha : a = .run
    · subst ha; exact .inl ⟨.inr ⟨as, h⟩, step_coreTurn (.inr ⟨as, h⟩)⟩
    · exact .inr ⟨a, as, rfl, ha, step_hostAct h ha⟩

/-- Where the host's own action comes next it is not the core's turn. -/
theorem not_coreTurn {a : HostAct} {as : List HostAct} (h : s.host.acts = a :: as) (ha : a ≠ .run) : ¬ coreTurn s := by
  rintro (h' | ⟨bs, h'⟩)
  · rw [h] at h'; cases h'
  · rw [h] at h'; cases h'; exact ha rfl

/-! ### What the host's actions do (R271, R340, R352) -/

/-- A host write reaches `PERM_IN` alone (R32, R271). -/
theorem hostWrite_frame (n v : Nat) (s : State) : s.hostWrite n v = { s with permIn := (s.hostWrite n v).permIn } := by
  unfold State.hostWrite; split <;> rfl

theorem hostConnect_eq_next {t u : State} (h : hostConnect u s = .next t) : t = u := by
  unfold hostConnect at h
  split at h
  · cases h
  · cases h; rfl

theorem hostConnect_eq_refused {u : State} {r : Refusal} (h : hostConnect u s = .refused r) : s.busy = true := by
  unfold hostConnect at h
  split at h
  · assumption
  · cases h

/-- Hardware reset gives the state after reset, in some world (R340). -/
theorem hardReset_eq_initial (taken : Nat) (sent : List Byte) (s : State) :
    ∃ src snk, s.hardReset taken sent = State.initial s.cfg src snk s.host := by
  unfold State.hardReset
  split
  · exact ⟨_, _, rfl⟩
  · exact ⟨_, _, rfl⟩

/-! ### Commands (R270 to R279) -/

/-- What a command can do (R272 to R276): it is rejected; or it is NOP or CLEAR, not while busy; or it starts one of the four
data commands, from IDLE. -/
theorem exec_decodeCmd_cases (c : BitVec 3) (s : State) :
    exec (decodeCmd c) s = .next s.reject ∨
    (s.busy = false ∧ exec (decodeCmd c) s = .next { s with cmdRej := false }) ∨
    (s.busy = false ∧ c = 5 ∧ exec (decodeCmd c) s = .next s.cleared) ∨
    (s.phase = .idle ∧ (exec (decodeCmd c) s = .next { s with done := false, cmdRej := false, phase := .hdrw } ∨
      exec (decodeCmd c) s = .next { s with done := false, cmdRej := false, hdrOk := false, phase := .hdrr } ∨
      exec (decodeCmd c) s = .next (encInit s.cfg s) ∨ exec (decodeCmd c) s = .next (decInit s.cfg s))) := by
  have control : ∀ e : State, issue s.acceptsControl e s = .next s.reject ∨
      s.busy = false ∧ issue s.acceptsControl e s = .next e := by
    intro e; unfold issue State.acceptsControl; cases s.busy <;> simp
  have data : ∀ e : State, issue s.acceptsData e s = .next s.reject ∨
      s.phase = .idle ∧ issue s.acceptsData e s = .next e := by
    intro e; unfold issue State.acceptsData; by_cases h : s.phase = .idle <;> simp [h]
  unfold decodeCmd
  split
  case h_1 => exact (control _).imp_right .inl
  case h_2 => exact (data _).imp_right fun h => .inr (.inr ⟨h.1, .inl h.2⟩)
  case h_3 => exact (data _).imp_right fun h => .inr (.inr ⟨h.1, .inr (.inl h.2)⟩)
  case h_4 => exact (data _).imp_right fun h => .inr (.inr ⟨h.1, .inr (.inr (.inl h.2))⟩)
  case h_5 => exact (data _).imp_right fun h => .inr (.inr ⟨h.1, .inr (.inr (.inr h.2))⟩)
  case h_6 hc =>
    exact (control _).imp_right fun h => .inr (.inl ⟨h.1, BitVec.eq_of_toNat_eq hc, h.2⟩)
  case h_7 => exact .inl rfl
  case h_8 => exact .inl rfl

/-- A command always leads to a next state. -/
theorem exec_decodeCmd_next (c : BitVec 3) (s : State) : ∃ t, exec (decodeCmd c) s = .next t := by
  rcases exec_decodeCmd_cases c s with h | ⟨-, h⟩ | ⟨-, -, h⟩ | ⟨-, h | h | h | h⟩
  all_goals exact ⟨_, h⟩

end Sys2Proof.Machine
end

-- The invariant of the block.
section
/-! SUPPORT. The invariant at reset and through every step (R21, R25, R26, R30, R31, R37, R38, R44, R45, R50). -/

namespace Sys2Proof.Safety

open Sys2Proof Sys2Proof.Machine

variable {s : State}

/-- The state after reset meets the invariant (R49). -/
theorem inv_initial (P : Params) (src : SrcPort) (snk : SnkPort) (host : HostPort) : Inv (State.initial P src snk host) where
  memories :=
    { symBufWf := rfl, pairBufWf := rfl, childWf := rfl, wtWf := rfl, symBufInside := rfl, pairBufInside := rfl,
      childInside := rfl
      wtInside := by simp [State.initial, Mem.inside, P.empty_lt_start.trans P.start_lt_max] }
  ranges :=
    { symCur := Nat.zero_le _, symLen := Nat.zero_le _, bitCur := Nat.zero_le _, pairLen := Nat.zero_le _
      nextCode := fun _ => ⟨le_rfl, P.start_lt_max⟩
      totals := ⟨Nat.two_pow_pos _, Nat.two_pow_pos _⟩ }
  flags := { cause := by simp [State.initial], faultInfo := fun _ => rfl, done := fun h => by cases h }
  phase := ⟨rfl, rfl⟩

/-- The core's step keeps the invariant, phase by phase. -/
theorem KeepsInv.core (h : Inv s) : KeepsInv (fetchCore s).outcome := by
  cases hp : s.phase with
  | idle => rw [fetchCore_quiet (.inl hp)]; exact h
  | fault => rw [fetchCore_quiet (.inr hp)]; exact h
  | hdrw => rw [fetchCore_hdrw hp]; exact .hdrw h hp
  | hdrr =>
    rw [fetchCore_hdrr hp]
    have hk := KeepsInv.hdrr h hp
    revert hk
    cases fetchHeader s with
    | settled o => exact id
    | one i t => exact id
    | two i j t => exact False.elim
  | encLoop => rw [fetchCore_encLoop hp]; exact .encLoop h hp
  | encTail => rw [fetchCore_encTail hp]; exact .encTail h hp
  | decLoop =>
    rw [fetchCore_decLoop hp]
    have hk := KeepsInv.decLoop h hp
    revert hk
    cases fetchPair s with
    | settled o => exact id
    | one i t => exact id
    | two i j t => exact False.elim
  | decTail => rw [fetchCore_decTail hp]; exact .decTail h hp

/-- The host's actions keep the invariant. -/
theorem KeepsInv.host (h : Inv s) (a : HostAct) : KeepsInv (hostStep a s) := by
  have connect : ∀ t : State, Inv t → KeepsInv (hostConnect t s) := by
    intro t ht; unfold hostConnect; split
    · trivial
    · exact ht
  match a with
  | .run => exact h
  | .writeReg 0 v => exact .command h (inv_initial _ _ _ _) _
  | .writeReg (n + 1) v =>
    show Inv (s.hostWrite (n + 1) v)
    rw [hostWrite_frame]; exact h.other _ _ _ _ _ _ _ _
  | .readReg n => exact h.other _ _ _ _ _ _ _ _
  | .connectSrc p => exact connect _ (h.other _ _ _ _ _ _ _ _)
  | .connectSnk p => exact connect _ (h.other _ _ _ _ _ _ _ _)
  | .reset taken sent =>
    obtain ⟨src, snk, hr⟩ := hardReset_eq_initial taken sent s
    show Inv (s.hardReset taken sent)
    rw [hr]; exact inv_initial _ _ _ _

/-- Every step keeps the invariant and stops, if it does, only for want of an answer. -/
theorem KeepsInv.step (h : Inv s) : KeepsInv (step s) := by
  rcases step_cases s with ⟨-, hs⟩ | ⟨a, as, -, -, hs⟩
  · rw [hs]; exact .core h.popAct
  · rw [hs]; exact .host h.popAct a

end Sys2Proof.Safety
end

-- The frame of every operation.
section
/-! SUPPORT. Which parts of the state each operation and each instruction may write (R27, R30, R31, R35 to R43). The parts of a
compound operation are those of what it runs, one after the other. -/

namespace Sys2Proof.Safety

open Sys2Proof Sys2Proof.Machine

variable {s t u : State} {ps qs : List Part} {α β : Type}

/-- From `s` to `t` only the parts listed were written; the parameters and the host are no parts. -/
structure WritesOnly (ps : List Part) (s t : State) : Prop where
  cfg : t.cfg = s.cfg
  host : t.host = s.host
  same : ∀ p, p ∉ ps → samePart s t p

/-- An update of the state writes the fields it names: each part is listed or, by computation, the same. -/
theorem WritesOnly.of_fields (hc : t.cfg = s.cfg := by rfl) (hh : t.host = s.host := by rfl)
    (hp : ∀ p, p ∈ ps ∨ samePart s t p := by intro p; cases p <;> simp [samePart, mayWrite]) : WritesOnly ps s t :=
  ⟨hc, hh, fun p hn => (hp p).resolve_left hn⟩

theorem samePart_refl (s : State) (p : Part) : samePart s s p := by cases p <;> simp [samePart]

theorem samePart.trans {p : Part} (h : samePart s t p) (k : samePart t u p) : samePart s u p := by
  cases p <;> simp_all [samePart]

theorem WritesOnly.refl (ps : List Part) (s : State) : WritesOnly ps s s := ⟨rfl, rfl, fun p _ => samePart_refl s p⟩

theorem WritesOnly.mono (h : WritesOnly ps s t) (hq : ps ⊆ qs) : WritesOnly qs s t :=
  ⟨h.cfg, h.host, fun p hn => h.same p fun hp => hn (hq hp)⟩

theorem WritesOnly.phase (h : WritesOnly ps s t) (hp : Part.phase ∉ ps := by decide) : t.phase = s.phase := h.same .phase hp

theorem WritesOnly.append (h : WritesOnly ps s t) (k : WritesOnly qs t u) : WritesOnly (ps ++ qs) s u :=
  ⟨k.cfg.trans h.cfg, k.host.trans h.host, fun p hn =>
    (h.same p fun hp => hn (List.mem_append_left _ hp)).trans (k.same p fun hq => hn (List.mem_append_right _ hq))⟩

/-- An operation followed by another. -/
theorem leaves_seq {r : Res α} {k : α → State → Res β} (h : r.Leaves (WritesOnly ps s))
    (hk : ∀ a t, (k a t).Leaves (WritesOnly qs t)) : (r.bind k).Leaves (WritesOnly (ps ++ qs) s) := by
  cases r with
  | ok a t => exact (hk a t).mono fun u hu => h.append hu
  | raise f t => exact WritesOnly.mono h (List.subset_append_left _ _)
  | stop f => trivial

/-- The same, ended by an update of the state. -/
theorem leaves_then {r : Res α} {b : α → State → β} {g : α → State → State} (h : r.Leaves (WritesOnly ps s))
    (hg : ∀ a t, WritesOnly qs t (g a t)) : (r.bind fun a t => .ok (b a t) (g a t)).Leaves (WritesOnly (ps ++ qs) s) :=
  leaves_seq h hg

theorem leaves_mono {r : Res α} (h : r.Leaves (WritesOnly ps s)) (hq : ps ⊆ qs) : r.Leaves (WritesOnly qs s) :=
  h.mono fun _ ht => ht.mono hq

/-! ### The channels -/

theorem readBytes_writesOnly (n : Nat) (s : State) : (readBytes n s).Leaves (WritesOnly [.src] s) :=
  (readBytes_leaves n s).mono fun t h => by rw [h]; exact .of_fields

theorem writeBytes_writesOnly (d : List Byte) (s : State) : (writeBytes d s).Leaves (WritesOnly [.snk] s) :=
  (writeBytes_leaves d s).mono fun t h => by rw [h]; exact .of_fields

theorem writesOnly_of_writesBits {P : Params} (h : WritesBits P s t) :
    WritesOnly [.pairBuf, .bitRegs, .totalBits, .snk] s t := by
  rw [h.frame]; exact .of_fields

theorem writesOnly_of_readsFrame (h : ReadsFrame s t) : WritesOnly [.pairBuf, .bitRegs, .totalBits, .src] s t := by
  rw [h]; exact .of_fields

theorem writesOnly_of_writesSyms {P : Params} (h : WritesSyms P s t) :
    WritesOnly [.symBuf, .symRegs, .totalSyms, .snk] s t := by
  rw [h.frame]; exact .of_fields

theorem writesOnly_of_readsSymsFrame (h : ReadsSymsFrame s t) :
    WritesOnly [.symBuf, .symRegs, .totalSyms, .src] s t := by
  rw [h]; exact .of_fields

theorem padByte_writesOnly (s : State) : WritesOnly [.pairBuf] s s.padByte := by
  unfold State.padByte
  split
  · exact .refl _ s
  · exact .of_fields

theorem flushBits_writesOnly (P : Params) (s : State) : (flushBits P s).Leaves (WritesOnly [.pairBuf, .bitRegs, .snk] s) := by
  have home : ∀ t : State, WritesOnly [.bitRegs] t { t with bitCur := 0 } :=
    fun t => .of_fields
  unfold flushBits
  split
  · refine leaves_mono (leaves_then (qs := [.bitRegs]) (ps := [.pairBuf] ++ [.snk])
      ((sendPairBytes_leaves P _ _).mono fun t h => (padByte_writesOnly s).append ?_) fun _ t => home t) (by decide)
    rw [h]; exact .of_fields
  · exact ((padByte_writesOnly s).append (home _)).mono (by decide)

theorem pairFill_writesOnly (P : Params) (s : State) : (pairFill P s).Leaves (WritesOnly [.pairBuf, .bitRegs, .src] s) :=
  leaves_mono (leaves_then (qs := [.pairBuf, .bitRegs]) (readBytes_writesOnly _ s) fun _ _ =>
    .of_fields) (by decide)

theorem symFill_writesOnly (P : Params) (s : State) : (symFill P s).Leaves (WritesOnly [.symBuf, .symRegs, .src] s) :=
  leaves_mono (leaves_then (qs := [.symBuf, .symRegs]) (readBytes_writesOnly _ s) fun _ _ =>
    .of_fields) (by decide)

theorem flushSyms_writesOnly (P : Params) (s : State) : (flushSyms P s).Leaves (WritesOnly [.symRegs, .snk] s) := by
  have home : ∀ t : State, WritesOnly [.symRegs] t { t with symCur := 0 } :=
    fun t => .of_fields
  unfold flushSyms
  split
  · refine leaves_mono (leaves_then (ps := [.snk]) ((sendSyms_leaves P _ s).mono fun t h => ?_) fun _ t => home t) (by decide)
    rw [h]; exact .of_fields
  · exact (home s).mono (by decide)

theorem writePair_writesOnly (P : Params) (c : Code) (b : Byte) (w : Nat) (s : State) :
    (writePair P c b w s).Leaves (WritesOnly [.pairBuf, .bitRegs, .totalBits, .snk] s) :=
  (writePair_leaves P c b w s).mono fun _ => writesOnly_of_writesBits

theorem readPair_writesOnly (P : Params) (w : Nat) (s : State) :
    (readPair P w s).Leaves (WritesOnly [.pairBuf, .bitRegs, .totalBits, .src] s) :=
  (readPair_leaves P w s).mono fun _ => writesOnly_of_readsFrame

/-! ### The dictionaries and the loops -/

theorem dictReset_writesOnly (P : Params) (s : State) : WritesOnly [.child, .wt] s (dictReset P s) := by
  rw [dictReset_frame]; exact .of_fields

theorem advance_writesOnly (P : Params) (s : State) : WritesOnly [.nextCode, .child, .wt] s (advance P s).1 := by
  rw [advance_frame]; exact .of_fields

theorem wtLookup_writesOnly (P : Params) (c : Code) (s : State) : (wtLookup P c s).Leaves (WritesOnly [] s) := by
  have h := wtLookup_spec P c s
  cases hr : wtLookup P c s with
  | ok wd t => rw [hr] at h; rw [h.1]; exact .refl _ s
  | raise f t => rw [hr] at h; rw [h.2]; exact .refl _ s
  | stop f => trivial

theorem wtAppend_writesOnly (P : Params) (d : Code) (wd : List Byte) (b : Byte) (s : State) :
    (wtAppend P d wd b s).Leaves (WritesOnly [.wt] s) := by
  unfold wtAppend
  split
  · exact .of_fields
  · trivial

theorem trieStep_writesOnly (P : Params) (c : Code) (b : Byte) (s : State) :
    (trieStep P c b s).Leaves (WritesOnly [] s) := by
  unfold trieStep
  split
  · exact .refl _ s
  · trivial

theorem trieInsert_writesOnly (P : Params) (c : Code) (b : Byte) (d : Code) (s : State) :
    (trieInsert P c b d s).Leaves (WritesOnly [.child] s) := by
  unfold trieInsert
  split
  · exact .of_fields
  · trivial

theorem decWord_writesOnly (P : Params) (c : Code) (b : Byte) (s : State) :
    (decWord P c b s).Leaves (WritesOnly [.symBuf, .symRegs, .totalSyms, .snk, .wt, .child, .nextCode] s) :=
  leaves_mono
    (leaves_seq (wtLookup_writesOnly P c s) fun wd t =>
      leaves_seq ((writeWord_leaves P (wd ++ [b]) t).mono fun _ => writesOnly_of_writesSyms) fun _ u =>
        leaves_then (wtAppend_writesOnly P u.nextCode wd b u) fun _ v => advance_writesOnly P v)
    (by decide)

theorem stopPair_writesOnly (s : State) : WritesOnly [.phase] s s.stopPair :=
  .of_fields

theorem decPair_writesOnly (P : Params) (s : State) :
    (decPair P s).Leaves (WritesOnly [.pairBuf, .bitRegs, .totalBits, .src, .symBuf, .symRegs, .totalSyms, .snk, .wt, .child,
      .nextCode, .phase] s) := by
  refine leaves_mono (leaves_seq (qs := [.symBuf, .symRegs, .totalSyms, .snk, .wt, .child, .nextCode, .phase])
    (readPair_writesOnly P _ s) fun r t => ?_) (by decide)
  split
  · exact (stopPair_writesOnly t).mono (by decide)
  · exact leaves_mono (decWord_writesOnly P _ _ t) (by decide)

theorem decEnd_writesOnly (P : Params) (s : State) :
    (decEnd P s).Leaves (WritesOnly [.symRegs, .snk, .wt, .nextCode, .bitRegs, .done, .phase] s) :=
  leaves_mono (leaves_then (qs := [.wt, .nextCode, .bitRegs, .done, .phase]) (flushSyms_writesOnly P s) fun _ _ =>
    .of_fields) (by decide)

theorem setCurCode_writesOnly (c : Code) (s : State) : WritesOnly [.curCode] s { s with curCode := c } :=
  .of_fields

theorem encMiss_writesOnly (P : Params) (b : Byte) (s : State) :
    (encMiss P b s).Leaves (WritesOnly [.pairBuf, .bitRegs, .totalBits, .snk, .child, .wt, .nextCode, .curCode] s) := by
  refine leaves_mono (leaves_seq (writePair_writesOnly P _ b _ s) fun _ t =>
    leaves_then (qs := [.curCode] ++ [.nextCode, .child, .wt]) (trieInsert_writesOnly P _ b _ t) fun _ u => ?_) (by decide)
  exact (setCurCode_writesOnly _ u).append (advance_writesOnly P _)

theorem encConsume_writesOnly (P : Params) (b : Byte) (s : State) :
    (encConsume P b s).Leaves (WritesOnly [.pairBuf, .bitRegs, .totalBits, .snk, .child, .wt, .nextCode, .curCode, .prevCode,
      .prevSym] s) := by
  refine leaves_mono (leaves_then (qs := [.prevSym])
    (leaves_seq (qs := [.pairBuf, .bitRegs, .totalBits, .snk, .child, .wt, .nextCode, .curCode, .prevCode])
      (trieStep_writesOnly P _ b s) fun d t => ?_)
    fun _ t => .of_fields) (by decide)
  cases d with
  | some d => exact .of_fields
  | none => exact leaves_mono (encMiss_writesOnly P b t) (by decide)

theorem encSymbol_writesOnly (P : Params) (s : State) :
    (encSymbol P s).Leaves (WritesOnly [.symBuf, .symRegs, .totalSyms, .src, .pairBuf, .bitRegs, .totalBits, .snk, .child, .wt,
      .nextCode, .curCode, .prevCode, .prevSym, .phase] s) := by
  refine leaves_mono (leaves_seq
    (qs := [.pairBuf, .bitRegs, .totalBits, .snk, .child, .wt, .nextCode, .curCode, .prevCode, .prevSym, .phase])
    ((readSym_leaves P s).mono fun _ => writesOnly_of_readsSymsFrame) fun r t => ?_) (by decide)
  cases r with
  | none => exact .of_fields
  | some b => exact leaves_mono (encConsume_writesOnly P b t) (by decide)

theorem advanceFinal_writesOnly (P : Params) (s : State) : WritesOnly [.nextCode, .child, .wt] s (advanceFinal P s) := by
  unfold advanceFinal
  split
  · exact advance_writesOnly P s
  · exact .of_fields

theorem encEndFinalPair_writesOnly (P : Params) (s : State) :
    (encEndFinalPair P s).Leaves (WritesOnly [.pairBuf, .bitRegs, .totalBits, .snk, .child, .wt, .nextCode, .curCode] s) := by
  unfold encEndFinalPair
  split
  · exact .refl _ s
  · refine leaves_mono (leaves_then (qs := [.curCode] ++ [.nextCode, .child, .wt]) (writePair_writesOnly P _ _ _ s)
      fun _ t => ?_) (by decide)
    exact (setCurCode_writesOnly _ t).append (advanceFinal_writesOnly P _)

theorem encEndTerminator_writesOnly (P : Params) (s : State) :
    (encEndTerminator P s).Leaves (WritesOnly [.pairBuf, .bitRegs, .totalBits, .snk, .child, .nextCode, .done, .phase] s) :=
  leaves_mono
    (leaves_seq (writePair_writesOnly P _ _ _ s) fun _ t =>
      leaves_then (qs := [.child, .nextCode, .done, .phase]) (flushBits_writesOnly P t) fun _ _ =>
        .of_fields)
    (by decide)

/-! ### The header -/

theorem acceptHeader_writesOnly (P : Params) (magic : BitVec 32) (perm : BitVec 16) (s : State) :
    (acceptHeader P magic perm s).Leaves (WritesOnly [.permOut, .hdrOk, .done, .phase] s) := by
  unfold acceptHeader
  split
  · exact .of_fields
  · exact .refl _ s

theorem hdrWriteBody_writesOnly (P : Params) (s : State) :
    (hdrWriteBody P s).Leaves (WritesOnly [.snk, .done, .phase] s) :=
  leaves_mono (leaves_then (qs := [.done, .phase]) (writeBytes_writesOnly _ s) fun _ _ =>
    .of_fields) (by decide)

theorem hdrReadBody_writesOnly (P : Params) (s : State) :
    (hdrReadBody P s).Leaves (WritesOnly [.src, .permOut, .hdrOk, .done, .phase] s) := by
  refine leaves_mono (leaves_seq (qs := [.permOut, .hdrOk, .done, .phase]) (readBytes_writesOnly _ s) fun d t => ?_) (by decide)
  split
  · exact .refl _ t
  · exact acceptHeader_writesOnly P _ _ t

end Sys2Proof.Safety
end

-- The frame of every instruction.
section
/-! SUPPORT. From the operations to the instructions: a raise writes `phase` and the fault registers (R320), a result kept writes
`opResult` (log 17), a command that is rejected `cmd_rej` (R272). -/

namespace Sys2Proof.Safety

open Sys2Proof Sys2Proof.Machine

variable {s t e : State} {ps qs : List Part} {α : Type}

theorem enterFault_writesOnly (f : Raise) (s : State) : WritesOnly [.phase, .faultRegs] s (s.enterFault f) := by
  unfold State.enterFault
  split
  · exact .refl _ s
  · exact .of_fields

theorem withResult_writesOnly (r : OpResult) (s : State) : WritesOnly [.result] s (s.withResult r) := .of_fields

theorem reject_writesOnly (s : State) : WritesOnly [.cmdRej] s s.reject := .of_fields

/-- An operation without a result, run as an instruction. -/
theorem outcome_writesOnly {r : Res Unit} (h : r.Leaves (WritesOnly ps s)) (ht : r.outcome noResult = .next t)
    (hq : ps ++ [.phase, .faultRegs] ⊆ qs := by simp [mayWrite]) : WritesOnly qs s t := by
  rcases Res.outcome_eq_next.1 ht with ⟨a, u, rfl, rfl⟩ | ⟨f, u, rfl, rfl⟩
  · exact WritesOnly.mono h (List.append_subset.1 hq).1
  · exact (WritesOnly.append h (enterFault_writesOnly f u)).mono hq

/-- An operation whose result is kept. -/
theorem outcome_writesOnly_withResult {r : Res α} {g : α → OpResult} (h : r.Leaves (WritesOnly ps s))
    (ht : (r.outcome fun a => State.withResult (g a)) = .next t)
    (hq : ps ++ [.result, .phase, .faultRegs] ⊆ qs := by simp [mayWrite]) :
    WritesOnly qs s t := by
  obtain ⟨hp, hq⟩ := List.append_subset.1 hq
  rcases Res.outcome_eq_next.1 ht with ⟨a, u, rfl, rfl⟩ | ⟨f, u, rfl, rfl⟩
  · exact (WritesOnly.append h (withResult_writesOnly _ u)).mono
      (List.append_subset.2 ⟨hp, fun p hm => hq (by simp_all)⟩)
  · exact (WritesOnly.append h (enterFault_writesOnly f u)).mono
      (List.append_subset.2 ⟨hp, fun p hm => hq (List.mem_cons_of_mem _ hm)⟩)

theorem issue_writesOnly {b : Bool} (h : WritesOnly ps s e) (ht : issue b e s = .next t)
    (hc : [.cmdRej] ⊆ ps := by simp [mayWrite]) : WritesOnly ps s t := by
  unfold issue at ht
  split at ht
  · cases ht; exact h
  · cases ht; exact (reject_writesOnly s).mono hc

/-- The operations that form an index do not raise (log 21). -/
theorem wtAppend_ne_raise {P : Params} {d : Code} {wd : List Byte} {b : Byte} {f : Raise} :
    wtAppend P d wd b s ≠ .raise f t := by
  unfold wtAppend; split <;> simp

theorem trieInsert_ne_raise {P : Params} {c d : Code} {b : Byte} {f : Raise} : trieInsert P c b d s ≠ .raise f t := by
  unfold trieInsert; split <;> simp

theorem trieStep_ne_raise {P : Params} {c : Code} {b : Byte} {f : Raise} : trieStep P c b s ≠ .raise f t := by
  unfold trieStep; split <;> simp

theorem encInit_writesOnly (P : Params) (s : State) :
    WritesOnly [.child, .nextCode, .curCode, .prevCode, .prevSym, .symRegs, .bitRegs, .done, .cmdRej, .phase] s
      (Machine.encInit P s) := by
  unfold Machine.encInit; exact .of_fields

theorem decInit_writesOnly (P : Params) (s : State) :
    WritesOnly [.wt, .nextCode, .symRegs, .bitRegs, .done, .cmdRej, .phase] s (Machine.decInit P s) := by
  unfold Machine.decInit; exact .of_fields

theorem cleared_writesOnly (s : State) : WritesOnly (mayWrite .clear) s s.cleared := by
  unfold State.cleared State.initial; exact .of_fields

/-- Each instruction writes the parts listed for it and no other (R27). -/
theorem exec_writesOnly (i : Instr) (s t : State) (h : exec i s = .next t) : WritesOnly (mayWrite i) s t := by
  cases i with
  | nop => exact issue_writesOnly .of_fields h
  | hdrWrite => exact issue_writesOnly .of_fields h
  | hdrRead => exact issue_writesOnly .of_fields h
  | encode => exact issue_writesOnly (encInit_writesOnly _ s) h
  | decode => exact issue_writesOnly (decInit_writesOnly _ s) h
  | clear => exact issue_writesOnly (cleared_writesOnly s) h
  | reserved6 => cases h; exact reject_writesOnly s
  | reserved7 => cases h; exact reject_writesOnly s
  | header m p => exact outcome_writesOnly (acceptHeader_writesOnly _ m p s) h
  | pairStop w b => cases h; exact stopPair_writesOnly s
  | pairLiteral w b => exact outcome_writesOnly (decWord_writesOnly _ _ b s) h
  | pairReference w c b => exact outcome_writesOnly (decWord_writesOnly _ c b s) h
  | pairIllegal w c b => exact outcome_writesOnly (decWord_writesOnly _ c b s) h
  | readBytes n => exact outcome_writesOnly_withResult (readBytes_writesOnly n s) h
  | writeBytes d => exact outcome_writesOnly (writeBytes_writesOnly d s) h
  | symFill => exact outcome_writesOnly (symFill_writesOnly _ s) h
  | readSym =>
    exact outcome_writesOnly_withResult ((readSym_leaves _ s).mono fun _ => writesOnly_of_readsSymsFrame) h
  | writeSym b => exact outcome_writesOnly ((writeSym_leaves _ b s).mono fun _ => writesOnly_of_writesSyms) h
  | flushSyms => exact outcome_writesOnly (flushSyms_writesOnly _ s) h
  | writeWord wd =>
    exact outcome_writesOnly ((writeWord_leaves _ wd s).mono fun _ => writesOnly_of_writesSyms) h
  | writeBits v w =>
    exact outcome_writesOnly ((writeBits_leaves _ v w s).mono fun _ => writesOnly_of_writesBits) h
  | flushBits => exact outcome_writesOnly (flushBits_writesOnly _ s) h
  | pairFill => exact outcome_writesOnly (pairFill_writesOnly _ s) h
  | readBits w =>
    exact outcome_writesOnly_withResult ((readBits_leaves _ w s).mono fun _ => writesOnly_of_readsFrame) h
  | writePair c b w => exact outcome_writesOnly (writePair_writesOnly _ c b w s) h
  | readPair w => exact outcome_writesOnly_withResult (readPair_writesOnly _ w s) h
  | bitlen v => cases h; exact withResult_writesOnly _ s
  | width => cases h; exact withResult_writesOnly _ s
  | advance =>
    cases h
    exact ((advance_writesOnly _ s).append (withResult_writesOnly _ _)).mono (by decide)
  | dictReset => cases h; exact dictReset_writesOnly _ s
  | trieStep c b =>
    rcases Res.outcome_eq_next.1 h with ⟨d, u, hr, rfl⟩ | ⟨f, u, hr, -⟩
    · have hl := trieStep_writesOnly s.cfg c b s
      rw [hr] at hl
      exact WritesOnly.append hl (withResult_writesOnly _ u)
    · exact absurd hr trieStep_ne_raise
  | trieInsert c b d =>
    rcases Res.outcome_eq_next.1 h with ⟨_, u, hr, rfl⟩ | ⟨f, u, hr, -⟩
    · have hl := trieInsert_writesOnly s.cfg c b d s
      rw [hr] at hl; exact hl
    · exact absurd hr trieInsert_ne_raise
  | trieReset => cases h; exact .of_fields
  | encInit => cases h; exact encInit_writesOnly _ s
  | encSymbol => exact outcome_writesOnly (encSymbol_writesOnly _ s) h
  | encEndFinalPair => exact outcome_writesOnly (encEndFinalPair_writesOnly _ s) h
  | encEndTerminator => exact outcome_writesOnly (encEndTerminator_writesOnly _ s) h
  | wtLookup c => exact outcome_writesOnly_withResult (wtLookup_writesOnly _ c s) h
  | wtAppend d wd b =>
    rcases Res.outcome_eq_next.1 h with ⟨_, u, hr, rfl⟩ | ⟨f, u, hr, -⟩
    · have hl := wtAppend_writesOnly s.cfg d wd b s
      rw [hr] at hl; exact hl
    · exact absurd hr wtAppend_ne_raise
  | wtReset => cases h; exact .of_fields
  | decInit => cases h; exact decInit_writesOnly _ s
  | decPair => exact outcome_writesOnly (decPair_writesOnly _ s) h
  | decEnd => exact outcome_writesOnly (decEnd_writesOnly _ s) h

end Sys2Proof.Safety
end

-- The core's step as one operation.
section
/-! SUPPORT. In each phase the core's step is the operation of the phase, and what that operation does to `phase` and to the
parameters (R28, R342). -/

namespace Sys2Proof.Safety

open Sys2Proof Sys2Proof.Machine

variable {s t : State}

/-- DEC_LOOP: reading the pair, telling its kind and running it is DEC_PAIR (R230). -/
theorem fetchPair_outcome (s : State) : (fetchPair s).outcome = (decPair s.cfg s).outcome noResult := by
  have hl := readPair_leaves s.cfg s.width s
  unfold fetchPair decPair
  cases hr : readPair s.cfg s.width s with
  | ok r t =>
    rw [hr] at hl
    have hcfg : t.cfg = s.cfg := (writesOnly_of_readsFrame hl).cfg
    show exec (classifyPair s.cfg s.nextCode s.width r.1 r.2) t = _
    rw [exec_classifyPair _ _ _ _ hcfg, Res.bind_ok]
    split <;> rfl
  | raise f t => rfl
  | stop f => rfl

/-- HDRR: taking the bytes and running the record is the rest of HDR_READ (R255). -/
theorem fetchHeader_outcome (s : State) : (fetchHeader s).outcome = (hdrReadBody s.cfg s).outcome noResult := by
  have hl := readBytes_writesOnly hdrBytes s
  unfold fetchHeader hdrReadBody
  cases hr : readBytes hdrBytes s with
  | ok d t =>
    rw [hr] at hl
    have hcfg : t.cfg = s.cfg := WritesOnly.cfg hl
    rw [Res.bind_ok]
    by_cases hd : d.length < hdrBytes
    · simp only [if_pos hd]; rfl
    · simp only [if_neg hd]
      show (acceptHeader t.cfg _ _ t).outcome noResult = _
      rw [hcfg]
  | raise f t => rfl
  | stop f => rfl

/-- ENC_TAIL: the second part of ENC_END runs unless the first took a fault (R202, R203). -/
theorem encTail_outcome (h : s.phase = .encTail) :
    (Fetched.two .encEndFinalPair .encEndTerminator s).outcome = (encEnd s.cfg s).outcome noResult := by
  have hl := encEndFinalPair_writesOnly s.cfg s
  show (match (encEndFinalPair s.cfg s).outcome noResult with
    | .next u => if u.phase = s.phase then (encEndTerminator u.cfg u).outcome noResult else .next u
    | .fault f => .fault f
    | .refused r => .refused r) = _
  unfold encEnd
  cases hr : encEndFinalPair s.cfg s with
  | ok a t =>
    rw [hr] at hl
    have hphase : t.phase = s.phase := WritesOnly.phase hl
    have hcfg : t.cfg = s.cfg := WritesOnly.cfg hl
    show (if t.phase = s.phase then _ else _) = _
    rw [if_pos hphase, noResult_eq, hcfg]; rfl
  | raise f t =>
    show (if (t.enterFault f).phase = s.phase then _ else _) = _
    rw [if_neg (by rw [State.enterFault_phase, h]; decide)]; rfl
  | stop f => rfl

theorem fetchCore_outcome (s : State) : (fetchCore s).outcome = (coreOp s).outcome noResult := by
  unfold coreOp
  cases hp : s.phase with
  | idle => rw [fetchCore_quiet (.inl hp)]; rfl
  | fault => rw [fetchCore_quiet (.inr hp)]; rfl
  | hdrw => rw [fetchCore_hdrw hp]; rfl
  | hdrr => rw [fetchCore_hdrr hp]; exact fetchHeader_outcome s
  | encLoop => rw [fetchCore_encLoop hp]; rfl
  | encTail => rw [fetchCore_encTail hp]; exact encTail_outcome hp
  | decLoop => rw [fetchCore_decLoop hp]; exact fetchPair_outcome s
  | decTail => rw [fetchCore_decTail hp]; rfl

/-- No operation of the core writes a parameter (R39, R342). -/
theorem coreOp_cfg (s : State) : (coreOp s).Leaves fun t => t.cfg = s.cfg := by
  unfold coreOp
  split
  · exact rfl
  · exact rfl
  · exact (hdrWriteBody_writesOnly _ s).mono fun _ => WritesOnly.cfg
  · exact (hdrReadBody_writesOnly _ s).mono fun _ => WritesOnly.cfg
  · exact (encSymbol_writesOnly _ s).mono fun _ => WritesOnly.cfg
  · exact (leaves_seq (encEndFinalPair_writesOnly _ s) fun _ t => encEndTerminator_writesOnly _ t).mono fun _ => WritesOnly.cfg
  · exact (decPair_writesOnly _ s).mono fun _ => WritesOnly.cfg
  · exact (decEnd_writesOnly _ s).mono fun _ => WritesOnly.cfg

/-! ### Phases (R28) -/

theorem hdrWriteBody_phase {P : Params} {a : Unit} (h : hdrWriteBody P s = .ok a t) : t.phase = .idle := by
  obtain ⟨_, u, -, hu⟩ := Res.bind_eq_ok.1 h
  cases hu; rfl

theorem hdrReadBody_phase {P : Params} {a : Unit} (h : hdrReadBody P s = .ok a t) : t.phase = .idle := by
  obtain ⟨d, u, -, hu⟩ := Res.bind_eq_ok.1 h
  split at hu
  · cases hu
  · unfold acceptHeader at hu
    split at hu
    · cases hu; rfl
    · cases hu

theorem encSymbol_phase {P : Params} {a : Unit} (h : encSymbol P s = .ok a t) : t.phase = s.phase ∨ t.phase = .encTail := by
  obtain ⟨r, u, hr, hu⟩ := Res.bind_eq_ok.1 h
  have hl := readSym_leaves P s
  rw [hr] at hl
  have hup : u.phase = s.phase := (writesOnly_of_readsSymsFrame hl).phase
  cases r with
  | none => cases hu; exact .inr rfl
  | some b =>
    have hc := encConsume_writesOnly P b u
    rw [show encConsume P b u = .ok a t from hu] at hc
    exact .inl ((WritesOnly.phase hc).trans hup)

theorem encEnd_phase {P : Params} {a : Unit} (h : encEnd P s = .ok a t) : t.phase = .idle := by
  obtain ⟨_, u, -, hu⟩ := Res.bind_eq_ok.1 h
  obtain ⟨_, v, -, hv⟩ := Res.bind_eq_ok.1 hu
  obtain ⟨_, w, -, hw⟩ := Res.bind_eq_ok.1 hv
  cases hw; rfl

theorem decPair_phase {P : Params} {a : Unit} (h : decPair P s = .ok a t) : t.phase = s.phase ∨ t.phase = .decTail := by
  obtain ⟨r, u, hr, hu⟩ := Res.bind_eq_ok.1 h
  have hl := readPair_writesOnly P s.width s
  rw [hr] at hl
  have hup : u.phase = s.phase := WritesOnly.phase hl
  split at hu
  · cases hu; exact .inr rfl
  · have hw := decWord_writesOnly P r.1 r.2 u
    rw [hu] at hw
    exact .inl ((WritesOnly.phase hw).trans hup)

theorem decEnd_phase {P : Params} {a : Unit} (h : decEnd P s = .ok a t) : t.phase = .idle := by
  obtain ⟨_, u, -, hu⟩ := Res.bind_eq_ok.1 h
  cases hu; rfl

/-- The core's step makes the transitions of R28: a raise leads to FAULT, an operation that ends goes on or completes. -/
theorem core_moves (h : (fetchCore s).outcome = .next t) : coreMoves s.phase t.phase = true := by
  rw [fetchCore_outcome] at h
  rcases Res.outcome_eq_next.1 h with ⟨a, u, hu, rfl⟩ | ⟨f, u, hu, rfl⟩
  · unfold coreOp at hu
    rw [noResult_eq]
    cases hp : s.phase <;> rw [hp] at hu
    case idle => cases hu; rw [hp]; rfl
    case fault => cases hu; rw [hp]; rfl
    case hdrw => rw [hdrWriteBody_phase hu]; rfl
    case hdrr => rw [hdrReadBody_phase hu]; rfl
    case encLoop => rcases encSymbol_phase hu with h | h <;> rw [h] <;> simp [coreMoves, hp]
    case encTail => rw [encEnd_phase hu]; rfl
    case decLoop => rcases decPair_phase hu with h | h <;> rw [h] <;> simp [coreMoves, hp]
    case decTail => rw [decEnd_phase hu]; rfl
  · rw [State.enterFault_phase]
    unfold coreOp at hu
    cases hp : s.phase <;> rw [hp] at hu
    case idle => cases hu
    case fault => cases hu
    all_goals rfl

/-- The host's actions make the transitions of R28: a command starts in IDLE, CLEAR leaves FAULT, reset leads to IDLE. -/
theorem host_moves {a : HostAct} (ha : a ≠ .run) (h : hostStep a s = .next t) : hostMoves a s.phase t.phase = true := by
  have stays : (∀ taken sent, a ≠ .reset taken sent) → hostMoves a s.phase s.phase = true := by
    intro hr
    unfold hostMoves
    split
    · exact absurd rfl (hr _ _)
    all_goals simp_all
  match a with
  | .run => exact absurd rfl ha
  | .writeReg 0 v =>
    rcases exec_decodeCmd_cases (BitVec.ofNat 3 v) s with hc | ⟨-, hc⟩ | ⟨hb, -, hc⟩ | ⟨hp, hc⟩
    · cases hc.symm.trans h; exact stays (by simp)
    · cases hc.symm.trans h; exact stays (by simp)
    · cases hc.symm.trans h
      rcases (State.not_busy_iff s).1 hb with hp | hp <;> rw [hp] <;> rfl
    · rw [hp]
      rcases hc with hc | hc | hc | hc <;> cases hc.symm.trans h <;> rfl
  | .writeReg (n + 1) v =>
    cases h
    rw [hostWrite_frame]; exact stays (by simp)
  | .readReg n => cases h; exact stays (by simp)
  | .connectSrc p => rw [hostConnect_eq_next h]; exact stays (by simp)
  | .connectSnk p => rw [hostConnect_eq_next h]; exact stays (by simp)
  | .reset taken sent =>
    cases h
    obtain ⟨src, snk, hr⟩ := hardReset_eq_initial taken sent s
    rw [hr]; rfl

end Sys2Proof.Safety
end

-- FAULT, refusals and `STATUS`.
section
/-! SUPPORT. What the host's actions do in FAULT and while busy, who writes the parameters, and the bits of `STATUS`
(R31, R34, R325, R342, R357). -/

namespace Sys2Proof.Safety

open Sys2Proof Sys2Proof.Machine

variable {s t : State}

/-- The registers of a fault, held from one state to the next (R31). -/
def StaysFaulted (s t : State) : Prop := t.phase = .fault ∧ t.cause = s.cause ∧ t.faultInfo = s.faultInfo

/-- In FAULT every host action but CLEAR and reset leaves the fault standing (R31, R325). -/
theorem hostStep_staysFaulted {a : HostAct} (hp : s.phase = .fault) (h : hostStep a s = .next t)
    (hclear : ∀ v, a = .writeReg 0 v → BitVec.ofNat 3 v ≠ 5) (hreset : ∀ taken sent, a ≠ .reset taken sent) :
    StaysFaulted s t := by
  match a with
  | .run => cases h; exact ⟨hp, rfl, rfl⟩
  | .writeReg 0 v =>
    rcases exec_decodeCmd_cases (BitVec.ofNat 3 v) s with hc | ⟨-, hc⟩ | ⟨-, h5, -⟩ | ⟨hidle, -⟩
    · cases hc.symm.trans h; exact ⟨hp, rfl, rfl⟩
    · cases hc.symm.trans h; exact ⟨hp, rfl, rfl⟩
    · exact absurd h5 (hclear v rfl)
    · rw [hp] at hidle; cases hidle
  | .writeReg (n + 1) v =>
    cases h
    rw [hostWrite_frame]; exact ⟨hp, rfl, rfl⟩
  | .readReg n => cases h; exact ⟨hp, rfl, rfl⟩
  | .connectSrc p => rw [hostConnect_eq_next h]; exact ⟨hp, rfl, rfl⟩
  | .connectSnk p => rw [hostConnect_eq_next h]; exact ⟨hp, rfl, rfl⟩
  | .reset taken sent => exact absurd rfl (hreset taken sent)

/-- No host action writes a parameter (R39, R342). -/
theorem hostStep_cfg {a : HostAct} (h : hostStep a s = .next t) : t.cfg = s.cfg := by
  match a with
  | .run => cases h; rfl
  | .writeReg 0 v => exact (exec_writesOnly _ s t h).cfg
  | .writeReg (n + 1) v => cases h; rw [hostWrite_frame]
  | .readReg n => cases h; rfl
  | .connectSrc p => rw [hostConnect_eq_next h]
  | .connectSnk p => rw [hostConnect_eq_next h]
  | .reset taken sent =>
    cases h
    obtain ⟨src, snk, hr⟩ := hardReset_eq_initial taken sent s
    rw [hr]; rfl

/-- The core's step writes no parameter (R39, R342). -/
theorem core_cfg (h : (fetchCore s).outcome = .next t) : t.cfg = s.cfg := by
  have hl := coreOp_cfg s
  rw [fetchCore_outcome] at h
  rcases Res.outcome_eq_next.1 h with ⟨a, u, hu, rfl⟩ | ⟨f, u, hu, rfl⟩ <;> rw [hu] at hl
  · exact hl
  · exact (State.enterFault_cfg u f).trans hl

/-- Only a connection of a stream is refused, while busy (R357; log 16). -/
theorem hostStep_refused {a : HostAct} {r : Refusal} (h : hostStep a s = .refused r) :
    s.busy = true ∧ ((∃ p, a = .connectSrc p) ∨ ∃ p, a = .connectSnk p) := by
  match a with
  | .run => cases h
  | .writeReg 0 v =>
    obtain ⟨u, hu⟩ := exec_decodeCmd_next (BitVec.ofNat 3 v) s
    cases hu.symm.trans h
  | .writeReg (n + 1) v => cases h
  | .readReg n => cases h
  | .connectSrc p => exact ⟨hostConnect_eq_refused h, .inl ⟨p, rfl⟩⟩
  | .connectSnk p => exact ⟨hostConnect_eq_refused h, .inr ⟨p, rfl⟩⟩
  | .reset taken sent => cases h

/-- The bits of `STATUS`, from bit 0 up: five flags, the cause, the phase, zeros (R34). -/
theorem getLsbD_status (s : State) (i : Nat) :
    s.status.getLsbD i =
      match i with
      | 0 => s.busy
      | 1 => s.done
      | 2 => s.faulted
      | 3 => s.cmdRej
      | 4 => s.hdrOk
      | i + 5 => if i < 3 then s.cause.code.getLsbD i else if i - 3 < 3 then s.phase.code.getLsbD (i - 3) else false := by
  show (0#5 ++ s.phase.code ++ s.cause.code ++ BitVec.ofBool s.hdrOk ++ BitVec.ofBool s.cmdRej
    ++ BitVec.ofBool s.faulted ++ BitVec.ofBool s.done ++ BitVec.ofBool s.busy).getLsbD i = _
  simp only [BitVec.getLsbD_append, BitVec.getLsbD_ofBool, BitVec.getLsbD_zero]
  rcases i with _ | _ | _ | _ | _ | i
  case succ.succ.succ.succ.succ => simp
  all_goals rfl

end Sys2Proof.Safety
end

-- The statements of family 10_state.md.
section
open Sys2Proof Sys2Proof.Machine Sys2Proof.Safety

/-- Settles O54: the step is the core's or the host's, and each keeps the invariant phase by phase, action by action. -/
theorem stepKeepsInvariant : Obligations.StepKeepsInvariant := by
  intro s t h hs
  have hk := KeepsInv.step h
  rw [hs] at hk
  exact hk

/-- Settles O24: in FAULT the core does nothing, and of the host's actions only CLEAR and reset end it. -/
theorem faultLeftOnlyByClearOrReset : Obligations.FaultLeftOnlyByClearOrReset := by
  intro s t hp hs
  rcases step_cases s with ⟨-, hc⟩ | ⟨a, as, hacts, ha, hc⟩
  · rw [fetchCore_quiet (s := s.popAct) (.inr hp)] at hc
    cases hc.symm.trans hs
    exact .inl ⟨hp, rfl, rfl, fun _ => rfl⟩
  · by_cases hclear : ∃ v, a = .writeReg 0 v ∧ BitVec.ofNat 3 v = 5
    · obtain ⟨v, rfl, h5⟩ := hclear
      exact .inr (.inl ⟨v, as, hacts, h5⟩)
    · by_cases hreset : ∃ taken sent, a = .reset taken sent
      · obtain ⟨taken, sent, rfl⟩ := hreset
        exact .inr (.inr ⟨taken, sent, as, hacts⟩)
      · obtain ⟨h1, h2, h3⟩ := hostStep_staysFaulted (s := s.popAct) hp (hc.symm.trans hs)
          (fun v hv h5 => hclear ⟨v, hv, h5⟩) fun taken sent hr => hreset ⟨taken, sent, hr⟩
        exact .inl ⟨h1, h2, h3, fun hturn => absurd hturn (not_coreTurn hacts ha)⟩

/-- Settles O25: a step is the core's or the host's, and each makes its own transitions. -/
theorem phaseTransitions : Obligations.PhaseTransitions := by
  refine ⟨⟨rfl, rfl, rfl, rfl, rfl, rfl, rfl, rfl⟩, fun s t hs => ?_⟩
  rcases step_cases s with ⟨hturn, hc⟩ | ⟨a, as, hacts, ha, hc⟩
  · exact ⟨fun _ => core_moves (s := s.popAct) (hc.symm.trans hs), fun a as hacts ha => absurd hturn (not_coreTurn hacts ha)⟩
  · refine ⟨fun hturn => absurd hturn (not_coreTurn hacts ha), fun b bs hacts' _ => ?_⟩
    cases hacts.symm.trans hacts'
    exact host_moves (s := s.popAct) ha (hc.symm.trans hs)

/-- Settles O26: the frame of each instruction is that of the operations it runs. -/
theorem everyInstructionWritesOnlyItsParts : Obligations.EveryInstructionWritesOnlyItsParts := by
  refine ⟨fun i s t h => ?_, fun s t hs => ?_⟩
  · obtain ⟨hcfg, hhost, hsame⟩ := exec_writesOnly i s t h
    exact ⟨hcfg, hhost, hsame⟩
  · rcases step_cases s with ⟨-, hc⟩ | ⟨a, as, -, -, hc⟩
    · exact core_cfg (s := s.popAct) (hc.symm.trans hs)
    · exact hostStep_cfg (s := s.popAct) (hc.symm.trans hs)

/-- Settles O55: what keeps the invariant stops only for want of an answer, and only the host's actions can be refused. -/
theorem stepStopsOnlyUnanswered : Obligations.StepStopsOnlyUnanswered := by
  refine fun s h => ⟨fun f hf => ?_, fun r hr => ?_⟩
  · have hk := KeepsInv.step h
    rw [hf] at hk; exact hk
  · rcases step_cases s with ⟨-, hc⟩ | ⟨a, as, hacts, -, hc⟩
    · rw [fetchCore_outcome] at hc
      exact absurd (hc.symm.trans hr) Res.outcome_ne_refused
    · obtain ⟨hb, ⟨p, rfl⟩ | ⟨p, rfl⟩⟩ := hostStep_refused (hc.symm.trans hr)
      · exact ⟨hb, as, .inl ⟨p, hacts⟩⟩
      · exact ⟨hb, as, .inr ⟨p, hacts⟩⟩

/-- Settles O5. -/
theorem stepRunsWrittenCommand : Obligations.StepRunsWrittenCommand := by
  intro s v as h
  rw [step_hostAct h (by simp), State.popAct_of_cons h]; rfl

/-- Settles O9: what is fetched in each phase, run. -/
theorem stepRunsOperationOfPhase : Obligations.StepRunsOperationOfPhase := by
  intro s hturn
  rw [step_coreTurn hturn]
  refine ⟨fun hp => ?_, fun hp => ?_, fun hp => ?_, fun hp => ?_, fun hp => ?_, fun hp => ?_⟩
  · rw [fetchCore_hdrw (s := s.popAct) hp]; rfl
  · rw [fetchCore_encLoop (s := s.popAct) hp]; rfl
  · rw [fetchCore_encTail (s := s.popAct) hp, ← hp]; rfl
  · rw [fetchCore_decLoop (s := s.popAct) hp, fetchPair_outcome]; rfl
  · rw [fetchCore_decTail (s := s.popAct) hp]; rfl
  · rw [fetchCore_quiet (s := s.popAct) hp]; rfl

/-- Settles O17: each field is read off the bits of `STATUS`. -/
theorem statusLayout : Obligations.StatusLayout := by
  intro s
  refine ⟨getLsbD_status s 0, getLsbD_status s 1, getLsbD_status s 2, getLsbD_status s 3, getLsbD_status s 4, ?_, ?_, ?_,
    State.busy_iff s⟩
  · ext i hi
    rw [BitVec.getElem_extractLsb', Nat.add_comm, getLsbD_status]
    simp [hi]
  · ext i hi
    rw [BitVec.getElem_extractLsb', show 8 + i = (3 + i) + 5 by omega, getLsbD_status]
    simp [hi]
  · ext i hi
    rw [BitVec.getElem_extractLsb', show 11 + i = (6 + i) + 5 by omega, getLsbD_status]
    simp [show ¬ 6 + i < 3 by omega, show ¬ 6 + i - 3 < 3 by omega]

/-- Settles O18. -/
theorem hostRegisterAccess : Obligations.HostRegisterAccess := by
  refine ⟨fun s n as h => ⟨s.readReg n, ?_, ?_, ?_, ?_, ?_, ?_, ?_, ?_⟩, fun s n v as h => ?_⟩
  · rw [step_hostAct h (by simp), State.popAct_of_cons h]; rfl
  · rintro (rfl | hn)
    · rfl
    · obtain ⟨k, rfl⟩ := Nat.exists_eq_add_of_le' hn; rfl
  · rintro rfl; rfl
  · rintro rfl; rfl
  · rintro rfl; rfl
  · rintro rfl; rfl
  · rintro rfl; rfl
  · rintro rfl; rfl
  · rw [step_hostAct h (by simp), State.popAct_of_cons h]; rfl

/-- Settles O21: CLEAR, hardware reset and `State.reset` give `State.initial`, whose fields are the table's. -/
theorem resetValues : Obligations.ResetValues := by
  refine ⟨fun P src snk host => ?_, ⟨_, _, _, rfl⟩, fun s hb => ?_, fun s taken sent as h => ?_⟩
  · refine ⟨rfl, rfl, rfl, rfl, rfl, ⟨rfl, rfl, rfl, rfl⟩, ⟨rfl, rfl, rfl, rfl, rfl⟩, ⟨rfl, rfl, rfl, rfl, rfl, rfl⟩,
      fun _ _ => rfl, ?_, fun c hc => ?_, ?_⟩
    · simp [State.initial, Mem.read]
    · simp [State.initial, Mem.read, hc.symm]
    · show 0#5 ++ 0#3 ++ 0#3 ++ 0#1 ++ 0#1 ++ 0#1 ++ 0#1 ++ 0#1 = 0#16
      decide
  · refine ⟨s.src, s.snk, s.host, ?_⟩
    show issue s.acceptsControl s.cleared s = _
    unfold issue State.acceptsControl
    rw [hb]; rfl
  · obtain ⟨src, snk, hr⟩ := hardReset_eq_initial taken sent s.popAct
    refine ⟨src, snk, s.popAct.host, ?_⟩
    rw [step_hostAct h (by simp)]
    exact congrArg _ hr

/-- Settles O53. -/
theorem invariantHoldsAtReset : Obligations.InvariantHoldsAtReset :=
  ⟨inv_initial _ _ _ _, inv_initial⟩

end

-- Encoding and decoding, each the other's inverse.
section
/-! SUPPORT. In each format the decoder reads back what the encoder wrote, and what it reads is the encoding of its result
(R91, R93, R95, R98, R100). -/

namespace Sys2Proof

variable {P : Params} {n c : Code} {w : Nat} {sym : Byte} {i : Instr} {bits rest : List Bool}

/-! ### Commands (R100) -/

/-- The three bits of a code are read as its command. -/
theorem decode_cmd_lsbBits (P : Params) (c : BitVec 3) (rest : List Bool) :
    decode P .cmd (lsbBits 3 c.toNat ++ rest) = .ok (decodeCmd c, rest) := by
  have hlen : (lsbBits 3 c.toNat).length = 3 := lsbBits_length _ _
  rw [decode, if_neg (by simp), List.take_left' hlen, List.drop_left' hlen, lsbVal_lsbBits, Nat.mod_eq_of_lt c.isLt]
  simp

theorem encode_decodeCmd (P : Params) (c : BitVec 3) : encode P (decodeCmd c) = some (lsbBits 3 c.toNat) := by
  have hlt := c.isLt
  unfold decodeCmd
  generalize c.toNat = k at hlt ⊢
  interval_cases k <;> rfl

/-- Bits read as a command are those of its code. -/
theorem cmd_of_decode (h : decode P .cmd bits = .ok (i, rest)) :
    ∃ c, i = decodeCmd c ∧ bits = lsbBits 3 c.toNat ++ rest := by
  rw [decode] at h
  split at h
  · cases h
  · rename_i hlen
    cases h
    have h3 : (bits.take 3).length = 3 := by rw [List.length_take]; omega
    have hback := lsbBits_lsbVal (bits.take 3)
    have hlt := lsbVal_lt (bits.take 3)
    rw [h3] at hback hlt
    refine ⟨_, rfl, ?_⟩
    rw [BitVec.toNat_ofNat, Nat.mod_eq_of_lt hlt, hback, List.take_append_drop]

/-! ### The header record (R91, R250) -/

theorem decodeHeader_headerBytes (P : Params) (magic : BitVec 32) (perm : BitVec 16) :
    decodeHeader P (headerBytes P.hdrOrder magic perm) = .header magic perm := by
  have hlen : (fieldBytes P.hdrOrder 4 magic.toNat).length = 4 := fieldBytes_length _ _ _
  unfold decodeHeader headerBytes
  rw [List.take_left' hlen, List.drop_left' hlen, fieldValue_fieldBytes _ _ _ magic.isLt,
    fieldValue_fieldBytes _ _ _ perm.isLt]
  simp

theorem encode_decodeHeader (P : Params) {d : List Byte} (h : d.length = hdrBytes) :
    encode P (decodeHeader P d) = some (d.flatMap byteBits) := by
  have h4 : (d.take 4).length = 4 := by rw [List.length_take, h]; rfl
  have h2 : (d.drop 4).length = 2 := by rw [List.length_drop, h]; rfl
  have b4 := fieldBytes_fieldValue P.hdrOrder (d.take 4)
  have b2 := fieldBytes_fieldValue P.hdrOrder (d.drop 4)
  have l4 := fieldValue_lt P.hdrOrder (d.take 4)
  have l2 := fieldValue_lt P.hdrOrder (d.drop 4)
  rw [h4] at b4 l4
  rw [h2] at b2 l2
  rw [decodeHeader, encode, headerBytes, BitVec.toNat_ofNat, BitVec.toNat_ofNat, Nat.mod_eq_of_lt (by exact l4),
    Nat.mod_eq_of_lt (by exact l2), b4, b2, List.take_append_drop]

theorem decode_header_bytes (P : Params) {d : List Byte} (h : d.length = hdrBytes) (rest : List Bool) :
    decode P .header (d.flatMap byteBits ++ rest) = .ok (decodeHeader P d, rest) := by
  have hlen : (d.flatMap byteBits).length = 8 * hdrBytes := by rw [flatMap_byteBits_length, h]
  rw [decode, if_neg (by rw [List.length_append, hlen]; omega), List.take_left' hlen, List.drop_left' hlen, bitsBytes_flatMap]

/-- Bits read as a header are those of six bytes. -/
theorem header_of_decode (h : decode P .header bits = .ok (i, rest)) :
    ∃ d, d.length = hdrBytes ∧ i = decodeHeader P d ∧ bits = d.flatMap byteBits ++ rest := by
  rw [decode] at h
  split at h
  · cases h
  · rename_i hlen
    cases h
    have h48 : (bits.take (8 * hdrBytes)).length = 8 * hdrBytes := by rw [List.length_take]; omega
    exact ⟨_, bitsBytes_length _ _ h48, rfl, by rw [flatMap_bitsBytes _ _ h48, List.take_append_drop]⟩

/-! ### Pairs (R93, R95, R98) -/

theorem pairWidthOk_iff :
    pairWidthOk P n w = true ↔ P.startCode.toNat ≤ n.toNat ∧ n.toNat < P.maxCode ∧ w = bitlen n.toNat := by
  simp [pairWidthOk, and_assoc]

/-- A code up to the counter fits the width of the pair (R173). -/
theorem code_fits (hw : pairWidthOk P n w = true) (hc : c.toNat ≤ n.toNat) : c.toNat < 2 ^ w := by
  obtain ⟨-, -, rfl⟩ := pairWidthOk_iff.1 hw
  exact lt_width_of_le hc

theorem isReference_iff : isReference P n c = true ↔ P.startCode.toNat ≤ c.toNat ∧ c.toNat < n.toNat := by
  simp [isReference]

theorem classifyPair_stop (P : Params) (n : Code) (w : Nat) (sym : Byte) :
    classifyPair P n w P.stopCode sym = .pairStop w sym := if_pos rfl

theorem classifyPair_empty (P : Params) (n : Code) (w : Nat) (sym : Byte) :
    classifyPair P n w P.emptyCode sym = .pairLiteral w sym := by
  unfold classifyPair; rw [if_neg P.empty_ne_stop, if_pos rfl]

/-- An assigned code is none of the two sentinels (R11). -/
theorem classifyPair_reference (h : isReference P n c = true) (w : Nat) (sym : Byte) :
    classifyPair P n w c sym = .pairReference w c sym := by
  have hstart := (isReference_iff.1 h).1
  have hstop : c ≠ P.stopCode := by rintro rfl; exact absurd P.stop_lt_start (by omega)
  have hempty : c ≠ P.emptyCode := by rintro rfl; exact absurd P.empty_lt_start (by omega)
  unfold classifyPair; rw [if_neg hstop, if_neg hempty, if_pos h]

theorem classifyPair_illegal (h : isIllegal P n c = true) (w : Nat) (sym : Byte) :
    classifyPair P n w c sym = .pairIllegal w c sym := by
  simp only [isIllegal, Bool.and_eq_true, decide_eq_true_eq, Bool.not_eq_true'] at h
  obtain ⟨⟨hstop, hempty⟩, href⟩ := h
  unfold classifyPair; rw [if_neg hstop, if_neg hempty, if_neg (by simp [href])]

/-- At a counter of the protocol the kind that the tests find is the one R98 gives. -/
theorem classifyPair_wellFormed (hw : pairWidthOk P n w = true) (hc : c.toNat < 2 ^ w) (sym : Byte) :
    (classifyPair P n w c sym).wellFormed P n = true := by
  unfold classifyPair
  split
  · exact hw
  · split
    · exact hw
    · split <;> simp_all [Instr.wellFormed, isIllegal]

theorem classifyPair_format (P : Params) (n : Code) (w : Nat) (c : Code) (sym : Byte) :
    (classifyPair P n w c sym).format n = some (.pair n) := by
  unfold classifyPair
  split
  · rfl
  · split
    · rfl
    · split <;> rfl

theorem decode_pair_encodePair (hw : pairWidthOk P n w = true) (hc : c.toNat < 2 ^ w) (sym : Byte) (rest : List Bool) :
    decode P (.pair n) (encodePair P w c sym ++ rest) = .ok (classifyPair P n w c sym, rest) := by
  obtain ⟨hstart, -, rfl⟩ := pairWidthOk_iff.1 hw
  exact Machine.decodePair_encodePair (bitlen_code_pos hstart) hc

/-- Bits read as a pair are those of its two fields, the code field at the width of the counter. -/
theorem pair_of_decode (h : decode P (.pair n) bits = .ok (i, rest)) :
    ∃ c sym, c.toNat < 2 ^ bitlen n.toNat ∧ i = classifyPair P n (bitlen n.toNat) c sym ∧
      bits = encodePair P (bitlen n.toNat) c sym ++ rest := by
  rw [decode, decodePair] at h
  split at h
  · cases h
  · rename_i hwidth
    split at h
    · cases h
    · rename_i hlen
      cases h
      generalize bitlen n.toNat = w at hwidth hlen ⊢
      have lc : (bits.take w).length = w := by rw [List.length_take]; omega
      have ls : ((bits.drop w).take 8).length = 8 := by rw [List.length_take, List.length_drop]; omega
      have hc := bitsValue_lt P.valOrder (bits.take w)
      have hs := bitsValue_lt P.valOrder ((bits.drop w).take 8)
      have bc := valueBits_bitsValue P.valOrder (bits.take w)
      have bs := valueBits_bitsValue P.valOrder ((bits.drop w).take 8)
      rw [lc] at hc bc
      rw [ls] at hs bs
      have hc16 := hc.trans_le (Nat.pow_le_pow_right (by omega : 0 < 2) (by omega : w ≤ 16))
      refine ⟨_, _, ?_, rfl, ?_⟩
      · rw [BitVec.toNat_ofNat, Nat.mod_eq_of_lt hc16]; exact hc
      · rw [encodePair, BitVec.toNat_ofNat, BitVec.toNat_ofNat, Nat.mod_eq_of_lt hc16, Nat.mod_eq_of_lt hs, bc, bs,
          List.append_assoc, ← List.drop_drop, List.take_append_drop, List.take_append_drop]

end Sys2Proof
end

-- A pair with a word, a pair without.
section
/-! SUPPORT. What a pair other than the stop pair does in DEC_LOOP once read, whatever the table holds (R221, R230). -/

namespace Sys2Proof.Machine

open Sys2Proof Sys2Proof.Safety

variable {P : Params} {c : Code} {s : State}

theorem wtLookup_of_read {wd : List Byte} (hc : c.toNat < P.maxCode) (hr : Mem.read s.wt c.toNat = some wd) :
    wtLookup P c s = .ok wd s := by
  unfold wtLookup; rw [if_pos hc, hr]

theorem wtLookup_of_none (h : P.maxCode ≤ c.toNat ∨ Mem.read s.wt c.toNat = none) :
    wtLookup P c s = .raise ⟨.badCode, c⟩ s := by
  unfold wtLookup
  split
  · rw [h.resolve_left (by omega)]
  · rfl

theorem wtAppend_of_lt {d : Code} (wd : List Byte) (b : Byte) (hd : d.toNat < P.maxCode) :
    wtAppend P d wd b s = .ok () { s with wt := s.wt.write d.toNat (wd ++ [b]) } := by
  unfold wtAppend; rw [if_pos hd]

/-- ADVANCE in DEC_LOOP (R174, R175): the counter's step, and a fresh table at the ceiling. -/
theorem advance_decLoop (hp : s.phase = .decLoop) :
    (advance P s).1 = { s with
      nextCode := nextCounter P s.nextCode
      wt := if s.nextCode.toNat + 1 = P.maxCode then [(P.emptyCode.toNat, [])] else s.wt } := by
  unfold nextCounter
  by_cases hfull : s.nextCode.toNat + 1 = P.maxCode
  · rw [advance_of_eq hfull, dictReset_dec hp, if_pos hfull, if_pos hfull]
  · rw [advance_of_ne hfull, if_neg hfull, if_neg hfull]

theorem writeWord_good (wd : List Byte) {xs : List Byte} (hx : SymsOut s xs) (hg : snkGood s.snk = true) :
    ∃ t, writeWord s.cfg wd s = .ok () t ∧ SymsOut t (xs ++ wd) ∧ snkGood t.snk = true ∧
      t = { s with symBuf := t.symBuf, symCur := t.symCur, snk := t.snk,
                   totalSyms := countUp s.cfg s.totalSyms wd.length } := by
  have hspec := (writeWord_spec True wd rfl hx fun _ => hg).leaves (writeWord_leaves s.cfg wd s)
  obtain ⟨_, t, ht, ⟨hout, -, htot, hsnk⟩, hw⟩ :=
    Res.Spec.ok_of_good (hspec.mono (fun _ _ h => h) (fun _ _ h => h.1) fun _ h => h)
  exact ⟨t, ht, hout, hsnk trivial, htot ▸ hw.frame⟩

/-- A pair whose code has a word (R230): word and symbol go out, the new word takes the counter's slot, ADVANCE follows. -/
theorem decWord_of_read {wd xs : List Byte} (b : Byte) (hp : s.phase = .decLoop) (hn : s.nextCode.toNat < s.cfg.maxCode)
    (hc : c.toNat < s.cfg.maxCode) (hr : Mem.read s.wt c.toNat = some wd) (hx : SymsOut s xs)
    (hg : snkGood s.snk = true) :
    ∃ t, decWord s.cfg c b s = .ok () t ∧ SymsOut t (xs ++ (wd ++ [b])) ∧ snkGood t.snk = true ∧
      t = { s with symBuf := t.symBuf, symCur := t.symCur, snk := t.snk,
                   totalSyms := countUp s.cfg s.totalSyms (wd.length + 1),
                   wt := if s.nextCode.toNat + 1 = s.cfg.maxCode then [(s.cfg.emptyCode.toNat, [])]
                     else s.wt.write s.nextCode.toNat (wd ++ [b]),
                   nextCode := nextCounter s.cfg s.nextCode } := by
  obtain ⟨u, hu, hout, hsnk, hf⟩ := writeWord_good (wd ++ [b]) hx hg
  rw [List.length_append, List.length_singleton] at hf
  have hnext : u.nextCode = s.nextCode := by rw [hf]
  have hphase : u.phase = .decLoop := by rw [hf]; exact hp
  unfold decWord
  rw [wtLookup_of_read hc hr, Res.bind_ok, hu, Res.bind_ok, wtAppend_of_lt _ _ (by rw [hnext]; exact hn), Res.bind_ok,
    advance_decLoop (by exact hphase)]
  refine ⟨_, rfl, SymsOut.congr hout rfl rfl rfl rfl, hsnk, ?_⟩
  rw [hf]

/-- A code without a word (R221). -/
theorem decWord_of_none (b : Byte) (h : P.maxCode ≤ c.toNat ∨ Mem.read s.wt c.toNat = none) :
    decWord P c b s = .raise ⟨.badCode, c⟩ s := by
  unfold decWord; rw [wtLookup_of_none h, Res.bind_raise]

end Sys2Proof.Machine
end

-- ENCODE from the write of its command.
section
/-! SUPPORT. The step that accepts ENCODE, and the whole command where the environments answer (R199, R205, R207). -/

namespace Sys2Proof.Machine

open Sys2Proof Sys2Proof.Safety

variable {s : State}

theorem step_encode (hp : s.phase = .idle) {as : List HostAct} (hc : s.host.acts = .writeReg 0 3 :: as) :
    step s = .next (encInit s.cfg s.popAct) := by
  rw [step_hostAct hc (by simp)]
  show issue s.acceptsData (encInit s.cfg s.popAct) s.popAct = _
  unfold issue State.acceptsData
  rw [hp]; rfl

/-- After ENC_INIT the symbols to come are those of the source (R199). -/
theorem encInit_symsIn (s : State) : SymsIn (encInit s.cfg s) s.src.data :=
  ⟨le_rfl, Nat.zero_le _, [], rfl, rfl⟩

theorem encInit_srcSeen (s : State) : SrcSeen s.src.data.length (encInit s.cfg s) :=
  show s.src.data.length % s.cfg.block = s.src.data.length % s.cfg.block from rfl

/-- ENCODE from IDLE to its completion: the command's step, then the loop from no pair and no symbol. -/
theorem encode_run (hp : s.phase = .idle) (hm : s.cfg.termWrap = .reset) (hc : s.host.acts = [.writeReg 0 3])
    (hsrc : srcGood s.src = true) (hsnk : snkGood s.snk = true) :
    ∃ t ps w, run (s.src.data.length + 3) s = .next t ∧
      EncodeEnds s.cfg (encInit s.cfg s.popAct) t (s.snk.data.flatMap byteBits) s.totalBits s.src.data.length ps w ∧
      w.out = s.src.data ∧ t.totalSyms = countUp s.cfg s.totalSyms s.src.data.length := by
  have hacts : s.popAct.host.acts = [] := by rw [State.popAct_of_cons hc]
  obtain ⟨t, ps, w, hrun, hends, hout, htot⟩ := encode_loop hm (encInit_sim (s := s.popAct) rfl hsnk) rfl
    (encInit_symsIn s.popAct) hsrc (encInit_srcSeen s.popAct) hacts (n := s.totalBits) rfl
  exact ⟨t, ps, w, (run_succ (step_encode hp hc)).trans hrun, hends, hout, htot⟩

end Sys2Proof.Machine
end

-- The statements of family 30_encoding.md.
section
open Sys2Proof Sys2Proof.Machine Sys2Proof.Safety

/-- Settles O2: a command by its code, the header by its fields, a pair by its fields and the tests of R98. -/
theorem encodeThenDecode : Obligations.EncodeThenDecode := by
  intro P n i f hwf hf
  cases i with
  | nop => cases hf; exact ⟨_, rfl, decode_cmd_lsbBits P 0⟩
  | hdrWrite => cases hf; exact ⟨_, rfl, decode_cmd_lsbBits P 1⟩
  | hdrRead => cases hf; exact ⟨_, rfl, decode_cmd_lsbBits P 2⟩
  | encode => cases hf; exact ⟨_, rfl, decode_cmd_lsbBits P 3⟩
  | decode => cases hf; exact ⟨_, rfl, decode_cmd_lsbBits P 4⟩
  | clear => cases hf; exact ⟨_, rfl, decode_cmd_lsbBits P 5⟩
  | reserved6 => cases hf; exact ⟨_, rfl, decode_cmd_lsbBits P 6⟩
  | reserved7 => cases hf; exact ⟨_, rfl, decode_cmd_lsbBits P 7⟩
  | header magic perm =>
    cases hf
    refine ⟨_, rfl, fun rest => ?_⟩
    rw [decode_header_bytes P (headerBytes_length _ _ _), decodeHeader_headerBytes]
  | pairStop w sym =>
    cases hf
    have hstart := (pairWidthOk_iff.1 hwf).1
    refine ⟨_, rfl, fun rest => ?_⟩
    rw [decode_pair_encodePair hwf (code_fits hwf (P.stop_lt_start.le.trans hstart)), classifyPair_stop]
  | pairLiteral w sym =>
    cases hf
    have hstart := (pairWidthOk_iff.1 hwf).1
    refine ⟨_, rfl, fun rest => ?_⟩
    rw [decode_pair_encodePair hwf (code_fits hwf (P.empty_lt_start.le.trans hstart)), classifyPair_empty]
  | pairReference w c sym =>
    cases hf
    obtain ⟨hw, href⟩ := Bool.and_eq_true_iff.1 hwf
    have hlt := (isReference_iff.1 href).2
    refine ⟨_, rfl, fun rest => ?_⟩
    rw [decode_pair_encodePair hw (code_fits hw hlt.le), classifyPair_reference href]
  | pairIllegal w c sym =>
    cases hf
    obtain ⟨hkind, hc⟩ := Bool.and_eq_true_iff.1 hwf
    obtain ⟨hw, hill⟩ := Bool.and_eq_true_iff.1 hkind
    refine ⟨_, rfl, fun rest => ?_⟩
    rw [decode_pair_encodePair hw (of_decide_eq_true hc), classifyPair_illegal hill]
  | _ => cases hf

/-- Settles O57: the run of ENCODE from the write of its command, read off where it ends. -/
theorem encodeWritesBodyOfSource : Obligations.EncodeWritesBodyOfSource := by
  intro s hp hm hc hsrc hsnk
  obtain ⟨t, ps, w, hrun, hends, hout, hsyms⟩ := encode_run hp hm hc hsrc hsnk
  obtain ⟨k, hk, hbits⟩ := hends.bits
  obtain ⟨hchild, hnext, hcur⟩ := hends.registers
  obtain ⟨hbitCur, hpairLen, hpairEnd⟩ := hends.bitRegs
  obtain ⟨hsymEnd, hsymCur, hsymLen⟩ := hends.symRegs
  exact ⟨t, ps, w, k, hrun, hends.run, hout, hk, hbits, hends.phase, hends.done, hends.source, hsyms, hends.totalBits,
    hchild, hnext, hcur, hbitCur, hpairLen, hpairEnd, hsymEnd, hsymCur, hsymLen⟩

/-- Settles O3: in each format the bits read are the encoding of the result. -/
theorem decodeThenEncode : Obligations.DecodeThenEncode := by
  intro P f bits rest i h
  cases f with
  | cmd =>
    obtain ⟨c, rfl, hbits⟩ := cmd_of_decode h
    exact ⟨⟨_, encode_decodeCmd P c, hbits⟩, fun n hn => by cases hn⟩
  | header =>
    obtain ⟨d, hd, rfl, hbits⟩ := header_of_decode h
    exact ⟨⟨_, encode_decodeHeader P hd, hbits⟩, fun n hn => by cases hn⟩
  | pair m =>
    obtain ⟨c, sym, hc, rfl, hbits⟩ := pair_of_decode h
    refine ⟨⟨_, encode_classifyPair P m _ c sym, hbits⟩, fun n hn hstart hmax => ?_⟩
    cases hn
    exact ⟨classifyPair_wellFormed (pairWidthOk_iff.2 ⟨hstart, hmax, rfl⟩) hc sym, classifyPair_format P m _ c sym⟩

/-- Settles O50: a pair with a word by what DEC_PAIR does with it, one without by the raise of WT_LOOKUP. -/
theorem pairKindsEffects : Obligations.PairKindsEffects := by
  refine fun s w c sym => ⟨rfl, fun wd xs hp hn hc hr hx hg => ?_, fun hp hno => ?_⟩
  · obtain ⟨t, ht, hout, hsnk, hf⟩ := decWord_of_read sym hp hn hc hr hx hg
    have href : exec (.pairReference w c sym) s = .next t := by
      show (decWord s.cfg c sym s).outcome noResult = _
      rw [ht, Res.outcome_ok, noResult_eq]
    exact ⟨t, href, fun he => by rw [← href, he]; rfl, hout, hsnk, hf⟩
  · show (decWord s.cfg c sym s).outcome noResult = _
    rw [decWord_of_none sym hno, Res.outcome_raise, State.enterFault_of_ne s _ hp]

/-- Settles O1: the decoder computes each of the eight results. -/
theorem decodesWrittenOutWords : Obligations.DecodesWrittenOutWords :=
  ⟨rfl, rfl, rfl, rfl, rfl, rfl, rfl, rfl⟩

end

-- The operations of the byte channel, case by case.
section
/-! SUPPORT. The operations of the byte channel case by case (R120 to R130): transactions whose first answer fails or ends
the stream, and the symbol operations below, at and past the end of a block. -/

namespace Sys2Proof.Machine

open Sys2Proof Sys2Proof.Safety

variable {P : Params} {s : State}

/-! ### Block transfers whose first answer is no transfer -/

/-- An `Error` as the first answer ends READ_BYTES (R120). -/
theorem readBytes_of_error {n : Nat} {p : SrcPort} (hn : 1 ≤ n) (hd : s.src.draw = (.error, p)) :
    readBytes n s = .raise ⟨.ioError, 0⟩ { s with src := p } := by
  obtain ⟨m, rfl⟩ := Nat.exists_eq_add_of_le' hn
  have hr : s.src.read (m + 1) = some (.error, p) := by unfold SrcPort.read; rw [hd]
  unfold readBytes SrcPort.readLoop
  rw [List.length_nil, if_pos m.add_one_pos, Nat.sub_zero, hr]

/-- An `Eof` as the first answer ends READ_BYTES with nothing (R120). -/
theorem readBytes_of_eof {n : Nat} {p : SrcPort} (hn : 1 ≤ n) (hd : s.src.draw = (.eof, p)) :
    readBytes n s = .ok [] { s with src := p } := by
  obtain ⟨m, rfl⟩ := Nat.exists_eq_add_of_le' hn
  have hr : s.src.read (m + 1) = some (.eof, p) := by unfold SrcPort.read; rw [hd]
  unfold readBytes SrcPort.readLoop
  rw [List.length_nil, if_pos m.add_one_pos, Nat.sub_zero, hr]

/-- An `Error` or an `Accepted(0)` as the first answer ends WRITE_BYTES with nothing appended (R123). -/
theorem writeBytes_of_failure {d : List Byte} {a : SnkAns} {p : SnkPort} (hlen : 1 ≤ d.length)
    (hd : s.snk.draw = (a, p)) (ha : a = .error ∨ a = .accept 0) :
    writeBytes d s = .raise ⟨.ioError, 1⟩ { s with snk := p } := by
  obtain ⟨b, bs, rfl⟩ := List.exists_cons_of_length_pos hlen
  unfold writeBytes
  rw [List.length_cons]
  unfold SnkPort.writeLoop
  rcases ha with rfl | rfl
  · have hw : s.snk.write (b :: bs) = some (.error, p) := by unfold SnkPort.write; rw [hd]
    simp only [hw]
  · have hw : s.snk.write (b :: bs) = some (.accepted 0, p) := by unfold SnkPort.write; rw [hd]; simp
    simp only [hw]

/-! ### READ_SYM -/

theorem readSym_of_buffered {b : Byte} (hne : s.symCur ≠ s.symLen) (hc : s.symCur < P.block)
    (hb : Mem.read s.symBuf s.symCur = some b) :
    readSym P s = .ok (some b) { s with symCur := s.symCur + 1, totalSyms := countUp s.cfg s.totalSyms 1 } := by
  unfold readSym; rw [if_neg hne, takeSym_of_read hc hb]

theorem readSym_of_ended (heq : s.symCur = s.symLen) (hend : s.symEnd = true) : readSym P s = .ok none s := by
  unfold readSym; rw [if_pos heq, if_pos hend]

/-- READ_SYM at the end of the block on a source that answers (R125): the refill, and its first byte if it has one. -/
theorem readSym_of_refill (heq : s.symCur = s.symLen) (hend : s.symEnd = false) (hg : srcGood s.src = true)
    {d : List Byte} (hd : s.src.data.take P.block = d) :
    ∃ p, p.data = s.src.data.drop P.block ∧ srcGood p = true ∧
      readSym P s = .ok d.head? { s with
        src := p, symBuf := s.symBuf.writeList 0 d, symLen := d.length
        symEnd := decide (d.length < P.block)
        symCur := if d = [] then 0 else 1
        totalSyms := if d = [] then s.totalSyms else countUp s.cfg s.totalSyms 1 } := by
  obtain ⟨p, hfill, hdata, hp⟩ := symFill_good (P := P) hg
  rw [hd] at hfill
  refine ⟨p, hdata, hp, ?_⟩
  unfold readSym
  rw [if_pos heq, if_neg (by simp [hend]), hfill, Res.bind_ok]
  cases d with
  | nil =>
    rw [if_pos (by rfl)]
    simp [State.loadSyms, hend]
  | cons b bs =>
    have hb : Mem.read (s.symBuf.writeList 0 (b :: bs)) 0 = some b := by rw [Mem.read_writeList]; simp
    rw [if_neg (by exact Nat.succ_ne_zero _), takeSym_of_read (by exact P.block_pos) (by exact hb)]
    simp [State.loadSyms, hend]

/-! ### WRITE_SYM and FLUSH_SYMS -/

theorem writeSym_of_room (b : Byte) (hc : s.symCur + 1 < P.block) : writeSym P b s = .ok () (s.storeSym b) := by
  unfold writeSym sendFullSyms
  rw [if_pos (by omega), if_neg (by rw [State.storeSym_symCur]; omega)]

/-- Sending the first `n` buffered symbols to a sink that answers. -/
theorem sendSyms_good {n : Nat} {p : List Byte} (hn : n ≤ P.block) (hp : Mem.readList s.symBuf 0 n = some p)
    (hg : snkGood s.snk = true) :
    ∃ q, q.data = s.snk.data ++ p ∧ snkGood q = true ∧ sendSyms P n s = .ok () { s with snk := q } := by
  obtain ⟨q, hw, hdata, hq, -⟩ := writeBytes_good (d := p) hg
  refine ⟨q, hdata, hq, ?_⟩
  unfold sendSyms
  rw [fetchCells_of_readList s (by omega) hp, Res.bind_ok, hw]

/-- The symbol that fills the block sends it (R127, R129). -/
theorem writeSym_of_last {p : List Byte} (b : Byte) (hc : s.symCur + 1 = P.block)
    (hp : Mem.readList s.symBuf 0 s.symCur = some p) (hg : snkGood s.snk = true) :
    ∃ q, q.data = s.snk.data ++ (p ++ [b]) ∧ snkGood q = true ∧
      writeSym P b s = .ok () { s.storeSym b with symCur := 0, snk := q } := by
  have hfull : Mem.readList (s.storeSym b).symBuf 0 P.block = some (p ++ [b]) := by
    rw [← hc, State.storeSym_symBuf]
    simpa using Mem.readList_write_end b hp
  obtain ⟨q, hdata, hq, hsend⟩ := sendSyms_good (s := s.storeSym b) le_rfl hfull hg
  refine ⟨q, hdata, hq, ?_⟩
  unfold writeSym sendFullSyms
  rw [if_pos (by omega), if_pos (by exact hc), hsend, Res.bind_ok]

theorem flushSyms_of_empty (hc : s.symCur = 0) : flushSyms P s = .ok () s := by
  unfold flushSyms
  rw [if_neg (by omega), ← hc]

theorem flushSyms_good {p : List Byte} (hc : s.symCur ≤ P.block) (hp : Mem.readList s.symBuf 0 s.symCur = some p)
    (hg : snkGood s.snk = true) :
    ∃ q, q.data = s.snk.data ++ p ∧ snkGood q = true ∧
      flushSyms P s = .ok () { s with symCur := 0, snk := q } := by
  by_cases h0 : s.symCur = 0
  · rw [h0] at hp
    cases hp
    refine ⟨s.snk, (List.append_nil _).symm, hg, ?_⟩
    rw [flushSyms_of_empty h0, ← h0]
  · obtain ⟨q, hdata, hq, hsend⟩ := sendSyms_good hc hp hg
    refine ⟨q, hdata, hq, ?_⟩
    unfold flushSyms
    rw [if_pos (by omega), hsend, Res.bind_ok]

end Sys2Proof.Machine
end

-- Which cells of the two buffers an operation sets.
section
/-! SUPPORT. Which cells of the two buffers an operation sets (R127, R131, R140 to R148): a write stores at the cursor, which
goes round the buffer; a read sets none unless it refills. -/

namespace Sys2Proof.Machine

open Sys2Proof Sys2Proof.Safety

variable {α β : Type} {P : Params} {s t u : State} {n k : Nat}

/-! ### Storing round a buffer -/

/-- Outside the `n` cells from the cursor `c` on, in a circle of `size` cells, two memories read the same. -/
def RingStays (size c n : Nat) (m m' : Mem α) : Prop :=
  ∀ p, (∀ i, i < n → p ≠ (c + i) % size) → Mem.read m' p = Mem.read m p

theorem RingStays.refl (size c n : Nat) (m : Mem α) : RingStays size c n m m := fun _ _ => rfl

theorem RingStays.mono {size c : Nat} {m m' : Mem α} (h : RingStays size c n m m') (hk : n ≤ k) :
    RingStays size c k m m' :=
  fun p hp => h p fun i hi => hp i (by omega)

/-- At most `n` cells were stored at the cursor, which went round the `size` cells from `c` to `c'`: as many as it passed. -/
def RingStores (size n c : Nat) (m : Mem α) (c' : Nat) (m' : Mem α) : Prop :=
  ∃ k, k ≤ n ∧ c' ≡ c + k [MOD size] ∧ RingStays size c k m m'

theorem RingStores.refl (size n c : Nat) (m : Mem α) : RingStores size n c m c m :=
  ⟨0, Nat.zero_le n, Nat.ModEq.rfl, RingStays.refl _ _ _ _⟩

theorem RingStores.mono {size c c' : Nat} {m m' : Mem α} (h : RingStores size n c m c' m') (hk : n ≤ k) :
    RingStores size k c m c' m' :=
  let ⟨j, hj, hc, hm⟩ := h
  ⟨j, hj.trans hk, hc, hm⟩

theorem RingStores.stays {size c c' : Nat} {m m' : Mem α} (h : RingStores size n c m c' m') : RingStays size c n m m' :=
  let ⟨_, hj, _, hm⟩ := h
  hm.mono hj

/-- A stretch of the circle followed by another: the second begins where the first ends. -/
theorem RingStays.trans {size c c' : Nat} {m m' m'' : Mem α} (h : RingStays size c n m m') (hc : c' ≡ c + n [MOD size])
    (h' : RingStays size c' k m' m'') : RingStays size c (n + k) m m'' := by
  intro p hp
  have hfirst : Mem.read m' p = Mem.read m p := h p fun i hi => hp i (by omega)
  have hsecond : Mem.read m'' p = Mem.read m' p := h' p fun i hi => by
    rw [show (c' + i) % size = (c + (n + i)) % size by rw [← Nat.add_assoc]; exact hc.add_right i]
    exact hp (n + i) (by omega)
  exact hsecond.trans hfirst

theorem RingStores.trans {size c c' c'' : Nat} {m m' m'' : Mem α} (h : RingStores size n c m c' m')
    (h' : RingStores size k c' m' c'' m'') : RingStores size (n + k) c m c'' m'' := by
  obtain ⟨a, ha, hac, ham⟩ := h
  obtain ⟨b, hb, hbc, hbm⟩ := h'
  refine ⟨a + b, by omega, ?_, ham.trans hac hbm⟩
  rw [← Nat.add_assoc]
  exact hbc.trans (hac.add_right b)

/-- A stretch stored, then one of which only the cells are known. -/
theorem RingStores.trans_stays {size c c' : Nat} {m m' m'' : Mem α} (h : RingStores size n c m c' m')
    (h' : RingStays size c' k m' m'') : RingStays size c (n + k) m m'' := by
  obtain ⟨a, ha, hac, ham⟩ := h
  exact (ham.trans hac h').mono (Nat.add_le_add_right ha k)

/-- One cell stored at the cursor, which moves on, or from the last cell back to the first. -/
theorem RingStores.write {size c c' : Nat} (m : Mem α) (v : α) (hc : c < size) (hc' : c' ≡ c + 1 [MOD size]) :
    RingStores size 1 c m c' (m.write c v) := by
  refine ⟨1, le_rfl, hc', fun p hp => Mem.read_write_other m v ?_⟩
  have := hp 0 Nat.one_pos
  rwa [Nat.add_zero, Nat.mod_eq_of_lt hc] at this

/-! ### Through compound operations -/

/-- What a compound operation leaves: its first part may end it by a raise, else its second follows. -/
theorem Res.Leaves.seq {r : Res α} {k : α → State → Res β} {Q Q' : State → Prop} (h : r.Leaves Q)
    (hraise : ∀ t, Q t → Q' t) (hk : ∀ a t, Q t → (k a t).Leaves Q') : (r.bind k).Leaves Q' := by
  cases r with
  | ok a t => exact hk a t h
  | raise f t => exact hraise t h
  | stop f => trivial

/-- What is left when an operation is run as an instruction: neither a raise taken nor a result kept touches a buffer. -/
theorem Res.Leaves.buffers {r : Res α} {g : α → State → State} {Q : State → Prop} (h : r.Leaves Q)
    (ht : r.outcome g = .next t)
    (hg : ∀ a u, (g a u).symBuf = u.symBuf ∧ (g a u).pairBuf = u.pairBuf := by exact fun _ _ => ⟨rfl, rfl⟩) :
    ∃ u, Q u ∧ t.symBuf = u.symBuf ∧ t.pairBuf = u.pairBuf := by
  rcases Res.outcome_eq_next.1 ht with ⟨a, u, rfl, rfl⟩ | ⟨f, u, rfl, rfl⟩
  · exact ⟨u, h, hg a u⟩
  · exact ⟨u, h, u.enterFault_symBuf f, u.enterFault_pairBuf f⟩

/-! ### The pair buffer, written -/

/-- From `s` to `t` at most `n` bits were stored. -/
def StoresBits (P : Params) (n : Nat) (s t : State) : Prop :=
  RingStores (8 * P.block) n s.bitCur s.pairBuf t.bitCur t.pairBuf

/-- From `s` to `t` the cells other than the `n` from the bit cursor on were kept. -/
def PairsStay (P : Params) (n : Nat) (s t : State) : Prop := RingStays (8 * P.block) s.bitCur n s.pairBuf t.pairBuf

theorem PairsStay.refl (P : Params) (n : Nat) (s : State) : PairsStay P n s s := RingStays.refl _ _ _ _

theorem PairsStay.congr (h : PairsStay P n s t) (hu : u.pairBuf = t.pairBuf) : PairsStay P n s u := by
  unfold PairsStay; rw [hu]; exact h

/-- What went before did not touch the buffer or its cursor. -/
theorem PairsStay.after (h : PairsStay P n t u) (hbuf : t.pairBuf = s.pairBuf) (hcur : t.bitCur = s.bitCur) :
    PairsStay P n s u := by
  unfold PairsStay; rw [← hbuf, ← hcur]; exact h

theorem PairsStay.of_exec {r : Res Unit} (h : r.Leaves (PairsStay P n s)) (ht : r.outcome noResult = .next t) :
    PairsStay P n s t :=
  let ⟨_, hu, _, hpairs⟩ := h.buffers ht
  hu.congr hpairs

/-- Sending a full block keeps the cells, and the cursor but for a round. -/
theorem sendFullPairs_keeps (P : Params) (s : State) :
    (sendFullPairs P s).Leaves fun t => t.pairBuf = s.pairBuf ∧ t.bitCur ≡ s.bitCur [MOD 8 * P.block] := by
  unfold sendFullPairs
  split
  · rename_i hfull
    refine (sendPairBytes_leaves P P.block s).seq (fun t ht => by rw [ht]; exact ⟨rfl, rfl⟩) fun _ t ht => ?_
    rw [ht, hfull]
    exact ⟨rfl, by simp [Nat.ModEq]⟩
  · exact ⟨rfl, rfl⟩

theorem putBit_stores (P : Params) (b : Bool) (s : State) : (putBit P b s).Leaves (StoresBits P 1 s) := by
  unfold putBit
  split
  · rename_i hc
    refine (sendFullPairs_keeps P (s.storeBit b)).mono fun t ⟨hbuf, hcur⟩ => ?_
    unfold StoresBits
    rw [hbuf]
    exact RingStores.write s.pairBuf b hc hcur
  · trivial

theorem putBits_stores (P : Params) (bs : List Bool) (s : State) :
    (putBits P bs s).Leaves (StoresBits P bs.length s) := by
  induction bs generalizing s with
  | nil => exact RingStores.refl _ _ _ _
  | cons b bs ih =>
    rw [List.length_cons, Nat.add_comm]
    exact (putBit_stores P b s).seq (fun _ h => h.mono (Nat.le_add_right _ _)) fun _ t h =>
      (ih t).mono fun _ hu => RingStores.trans h hu

theorem writeBits_stores (P : Params) (v : BitVec 16) (w : Nat) (s : State) :
    (writeBits P v w s).Leaves (StoresBits P w s) := by
  unfold writeBits
  split
  · have hbits := putBits_stores P (valueBits P.valOrder w v.toNat) s
    rw [valueBits_length] at hbits
    exact hbits.bind fun _ _ h => h
  · exact RingStores.refl _ _ _ _

theorem writePair_stores (P : Params) (c : Code) (b : Byte) (w : Nat) (s : State) :
    (writePair P c b w s).Leaves (StoresBits P (w + 8) s) :=
  (writeBits_stores P c w s).seq (fun _ h => h.mono (Nat.le_add_right _ _)) fun _ t h =>
    (writeBits_stores P _ 8 t).mono fun _ hu => RingStores.trans h hu

/-- The padding sets the cells from the cursor to the end of its byte (R144). -/
theorem padByte_read {p : Nat} (hp : p < s.bitCur ∨ 8 * ((s.bitCur + 7) / 8) ≤ p) :
    Mem.read s.padByte.pairBuf p = Mem.read s.pairBuf p := by
  unfold State.padByte
  split
  · rfl
  · rw [Mem.read_writeList, if_neg (by rw [List.length_replicate]; omega)]

/-- The same cells, counted from the cursor: fewer than a byte, and no round, for a block is whole bytes. -/
theorem padByte_stays (hc : s.pairBytes ≤ P.block) : PairsStay P 7 s s.padByte := by
  intro p hp
  apply padByte_read
  by_contra hmid
  unfold State.pairBytes at hc
  refine hp (p - s.bitCur) (by omega) ?_
  rw [Nat.mod_eq_of_lt (by omega)]; omega

/-- FLUSH_BITS sets the padding alone; bytes beyond the buffer are none (R144). -/
theorem flushBits_pads (P : Params) (s : State) :
    (flushBits P s).Leaves fun t => t.pairBuf = s.padByte.pairBuf ∧ s.pairBytes ≤ P.block := by
  unfold flushBits
  split
  · have hsend : (sendPairBytes P s.pairBytes s.padByte).Leaves
        fun t => t.pairBuf = s.padByte.pairBuf ∧ s.pairBytes ≤ P.block := by
      by_cases hc : s.pairBytes ≤ P.block
      · exact (sendPairBytes_leaves P _ _).mono fun t ht => ⟨by rw [ht], hc⟩
      · unfold sendPairBytes fetchCells
        rw [if_neg (by omega)]
        trivial
    exact hsend.bind fun _ _ h => h
  · exact ⟨rfl, by omega⟩

theorem flushBits_stays (P : Params) (s : State) : (flushBits P s).Leaves (PairsStay P 7 s) :=
  (flushBits_pads P s).mono fun _ ⟨hbuf, hc⟩ => (padByte_stays hc).congr hbuf

/-! ### The pair buffer, read -/

/-- From `s` to `t` at most `n` buffered bits were taken, and no block read. -/
structure TakesBits (n : Nat) (s t : State) : Prop where
  pairBuf : t.pairBuf = s.pairBuf
  pairLen : t.pairLen = s.pairLen
  bitCur : t.bitCur ≤ s.bitCur + n

theorem TakesBits.refl (n : Nat) (s : State) : TakesBits n s s := ⟨rfl, rfl, Nat.le_add_right _ _⟩

theorem TakesBits.mono (h : TakesBits n s t) (hk : n ≤ k) : TakesBits k s t :=
  ⟨h.pairBuf, h.pairLen, h.bitCur.trans (Nat.add_le_add_left hk _)⟩

theorem TakesBits.trans (h : TakesBits n s t) (h' : TakesBits k t u) : TakesBits (n + k) s u :=
  ⟨h'.pairBuf.trans h.pairBuf, h'.pairLen.trans h.pairLen, by have := h.bitCur; have := h'.bitCur; omega⟩

theorem takeBit_takes (P : Params) (s : State) : (takeBit P s).Leaves (TakesBits 1 s) := by
  unfold takeBit
  refine (fetchCell_leaves s).seq (fun t ht => ht ▸ TakesBits.refl 1 s) fun _ t ht => ?_
  rw [ht]; exact ⟨rfl, rfl, le_rfl⟩

/-- READ_BITS of bits that are buffered reads no block (R147). -/
theorem getBits_takes (P : Params) (w : Nat) {s : State} (hw : s.bitCur + w ≤ 8 * s.pairLen) :
    (getBits P w s).Leaves (TakesBits w s) := by
  induction w generalizing s with
  | zero => exact TakesBits.refl 0 s
  | succ w ih =>
    have hbit : (getBit P s).Leaves (TakesBits 1 s) := by
      unfold getBit; rw [if_neg (by omega)]; exact takeBit_takes P s
    rw [getBits, Nat.add_comm w 1]
    refine hbit.seq (fun t h => h.mono (Nat.le_add_right _ _)) fun b t h => ?_
    have hrest := ih (s := t) (by have := h.pairLen; have := h.bitCur; omega)
    exact (hrest.mono fun u hu => h.trans hu).bind fun _ _ hu => hu

theorem readBits_takes (P : Params) (w : Nat) {s : State} (hw : s.bitCur + w ≤ 8 * s.pairLen) :
    (readBits P w s).Leaves (TakesBits w s) := by
  unfold readBits
  split
  · exact (getBits_takes P w hw).bind fun _ _ h => ⟨h.pairBuf, h.pairLen, h.bitCur⟩
  · exact TakesBits.refl w s

theorem readPair_takes (P : Params) (w : Nat) {s : State} (hw : s.bitCur + (w + 8) ≤ 8 * s.pairLen) :
    (readPair P w s).Leaves (TakesBits (w + 8) s) := by
  refine (readBits_takes P w (by omega)).seq (fun t h => h.mono (Nat.le_add_right _ _)) fun c t h => ?_
  have hsym := readBits_takes P 8 (s := t) (by have := h.pairLen; have := h.bitCur; omega)
  exact (hsym.mono fun u hu => h.trans hu).bind fun _ _ hu => hu

theorem decPair_keepsPairBuf (P : Params) {s : State} (hw : s.bitCur + (s.width + 8) ≤ 8 * s.pairLen) :
    (decPair P s).Leaves fun t => t.pairBuf = s.pairBuf := by
  refine (readPair_takes P s.width hw).seq (fun t h => h.pairBuf) fun r t h => ?_
  split
  · exact h.pairBuf
  · exact (decWord_writesOnly P _ _ t).mono fun u hu => Eq.trans (hu.same .pairBuf (by decide)) h.pairBuf

/-! ### The symbol buffer -/

/-- From `s` to `t` at most `n` symbols were stored. -/
def StoresSyms (P : Params) (n : Nat) (s t : State) : Prop :=
  RingStores P.block n s.symCur s.symBuf t.symCur t.symBuf

/-- From `s` to `t` the cells other than the `n` from the symbol cursor on were kept. -/
def SymsStay (P : Params) (n : Nat) (s t : State) : Prop := RingStays P.block s.symCur n s.symBuf t.symBuf

theorem SymsStay.congr (h : SymsStay P n s t) (hu : u.symBuf = t.symBuf) : SymsStay P n s u := by
  unfold SymsStay; rw [hu]; exact h

theorem SymsStay.of_exec {r : Res Unit} (h : r.Leaves (SymsStay P n s)) (ht : r.outcome noResult = .next t) :
    SymsStay P n s t :=
  let ⟨_, hu, hsyms, _⟩ := h.buffers ht
  hu.congr hsyms

theorem sendFullSyms_keeps (P : Params) (s : State) :
    (sendFullSyms P s).Leaves fun t => t.symBuf = s.symBuf ∧ t.symCur ≡ s.symCur [MOD P.block] := by
  unfold sendFullSyms
  split
  · rename_i hfull
    refine (sendSyms_leaves P P.block s).seq (fun t ht => by rw [ht]; exact ⟨rfl, rfl⟩) fun _ t ht => ?_
    rw [ht, hfull]
    exact ⟨rfl, by simp [Nat.ModEq]⟩
  · exact ⟨rfl, rfl⟩

theorem writeSym_stores (P : Params) (b : Byte) (s : State) : (writeSym P b s).Leaves (StoresSyms P 1 s) := by
  unfold writeSym
  split
  · rename_i hc
    refine (sendFullSyms_keeps P (s.storeSym b)).mono fun t ⟨hbuf, hcur⟩ => ?_
    unfold StoresSyms
    rw [hbuf]
    exact RingStores.write s.symBuf b hc hcur
  · trivial

theorem writeWord_stores (P : Params) (wd : List Byte) (s : State) :
    (writeWord P wd s).Leaves (StoresSyms P wd.length s) := by
  induction wd generalizing s with
  | nil => exact RingStores.refl _ _ _ _
  | cons b bs ih =>
    rw [List.length_cons, Nat.add_comm]
    exact (writeSym_stores P b s).seq (fun _ h => h.mono (Nat.le_add_right _ _)) fun _ t h =>
      (ih t).mono fun _ hu => RingStores.trans h hu

/-- A pair whose code has a word sets as many cells as the word and the symbol take (R230), and none if the code lies
beyond the table (R221). -/
theorem decWord_stays {c : Code} {wd : List Byte} (P : Params) (b : Byte) (hr : Mem.read s.wt c.toNat = some wd) :
    (decWord P c b s).Leaves (SymsStay P (wd.length + 1) s) := by
  by_cases hc : c.toNat < P.maxCode
  · unfold decWord
    rw [wtLookup_of_read hc hr, Res.bind_ok]
    have hword := writeWord_stores P (wd ++ [b]) s
    rw [List.length_append, List.length_singleton] at hword
    refine hword.seq (fun _ h => h.stays) fun _ t h => ?_
    have hrest := leaves_then (b := fun _ _ => ()) (wtAppend_writesOnly P t.nextCode wd b t)
      fun _ u => advance_writesOnly P u
    exact hrest.mono fun u hu => SymsStay.congr h.stays (hu.same .symBuf (by decide))
  · rw [decWord_of_none b (.inl (by omega))]
    exact RingStays.refl _ _ _ _

/-- READ_SYM of a buffered symbol reads no block (R125). -/
theorem readSym_keepsSymBuf (P : Params) (hne : s.symCur ≠ s.symLen) :
    (readSym P s).Leaves fun t => t.symBuf = s.symBuf := by
  unfold readSym takeSym
  rw [if_neg hne]
  exact (fetchCell_leaves s).seq (fun t ht => by rw [ht]) fun _ t ht => by rw [ht]; rfl

/-! ### The encoder -/

theorem encMiss_stays (P : Params) (b : Byte) (s : State) : (encMiss P b s).Leaves (PairsStay P (s.width + 8) s) := by
  refine (writePair_stores P _ b _ s).seq (fun _ h => h.stays) fun _ t h => ?_
  have hrest := leaves_then (b := fun _ _ => ()) (trieInsert_writesOnly P t.curCode b t.nextCode t)
    fun _ u => (setCurCode_writesOnly P.emptyCode u).append (advance_writesOnly P _)
  exact hrest.mono fun u hu => PairsStay.congr h.stays (hu.same .pairBuf (by decide))

theorem encConsume_stays (P : Params) (b : Byte) (s : State) :
    (encConsume P b s).Leaves (PairsStay P (s.width + 8) s) := by
  unfold encConsume trieStep
  split
  · rw [Res.bind_ok]
    refine Res.Leaves.bind (Q := PairsStay P (s.width + 8) s) ?_ fun _ _ h => h
    split
    · exact PairsStay.refl P _ s
    · exact encMiss_stays P b s
  · trivial

theorem encSymbol_stays (P : Params) (s : State) : (encSymbol P s).Leaves (PairsStay P (s.width + 8) s) := by
  have hread := (readSym_leaves P s).mono fun _ => writesOnly_of_readsSymsFrame
  refine hread.seq (fun t h => (PairsStay.refl P _ s).congr (h.same .pairBuf (by decide))) fun r t h => ?_
  have hbuf : t.pairBuf = s.pairBuf := h.same .pairBuf (by decide)
  have hcur : t.bitCur = s.bitCur := (h.same .bitRegs (by decide)).1
  have hwidth : t.width = s.width := congrArg (fun n : Code => bitlen n.toNat) (h.same .nextCode (by decide))
  cases r with
  | none => exact (PairsStay.refl P _ s).congr hbuf
  | some b => exact (encConsume_stays P b t).mono fun u hu => PairsStay.after (hwidth ▸ hu) hbuf hcur

theorem encSymbol_keepsSymBuf (P : Params) (hne : s.symCur ≠ s.symLen) :
    (encSymbol P s).Leaves fun t => t.symBuf = s.symBuf := by
  refine (readSym_keepsSymBuf P hne).bind fun r t h => ?_
  cases r with
  | none => exact h
  | some b => exact (encConsume_writesOnly P b t).mono fun u hu => Eq.trans (hu.same .symBuf (by decide)) h

theorem encEndFinalPair_stays (P : Params) (s : State) :
    (encEndFinalPair P s).Leaves (PairsStay P (s.width + 8) s) := by
  unfold encEndFinalPair
  split
  · exact PairsStay.refl P _ s
  · refine (writePair_stores P _ _ _ s).seq (fun _ h => h.stays) fun _ t h => ?_
    exact PairsStay.congr h.stays ((advanceFinal_writesOnly P { t with curCode := P.emptyCode }).same .pairBuf (by decide))

/-- The stop pair, then the padding behind it (R203). -/
theorem encEndTerminator_stays (P : Params) (s : State) :
    (encEndTerminator P s).Leaves (PairsStay P (s.width + 8 + 7) s) := by
  refine (writePair_stores P _ 0 _ s).seq (fun _ h => h.stays.mono (Nat.le_add_right _ _)) fun _ t h => ?_
  exact (flushBits_stays P t).seq (fun u hu => h.trans_stays hu) fun _ u hu => h.trans_stays hu

end Sys2Proof.Machine
end

-- The statements of family 40_byte_channel.md.
section
open Sys2Proof Sys2Proof.Machine Sys2Proof.Safety

/-- Settles O27: the loop of READ_BYTES on a source that answers, and its first round on one that does not. -/
theorem readBytesWhateverTheSplit : Obligations.ReadBytesWhateverTheSplit := by
  refine fun s n => ⟨fun hg => ?_, fun p hn hd hp => ?_, fun p hn hd => ?_⟩
  · obtain ⟨p, hr, hdata, hgood, -⟩ := readBytes_good (n := n) hg
    refine ⟨p, hdata, hgood, ?_⟩
    show (readBytes n s).outcome _ = _
    rw [hr]; rfl
  · show (readBytes n s).outcome _ = _
    rw [readBytes_of_error hn hd, Res.outcome_raise, State.enterFault_of_ne { s with src := p } _ hp]
  · show (readBytes n s).outcome _ = _
    rw [readBytes_of_eof hn hd]; rfl

/-- Settles O28: the loop of WRITE_BYTES on a sink that answers, and its first round on one that does not. -/
theorem writeBytesWhateverTheSplit : Obligations.WriteBytesWhateverTheSplit := by
  refine fun s d => ⟨fun hg => ?_, fun p a hlen hd ha hp => ?_, rfl⟩
  · obtain ⟨p, hw, hdata, hgood, -⟩ := writeBytes_good (d := d) hg
    refine ⟨p, hdata, hgood, ?_⟩
    show (writeBytes d s).outcome _ = _
    rw [hw]; rfl
  · show (writeBytes d s).outcome _ = _
    rw [writeBytes_of_failure hlen hd ha, Res.outcome_raise, State.enterFault_of_ne { s with snk := p } _ hp]

/-- Settles O29: a fill writes what READ_BYTES delivers from cell 0 on. -/
theorem fillsTakeOneBlock : Obligations.FillsTakeOneBlock := by
  refine fun s hg => ⟨?_, ?_⟩
  · obtain ⟨p, hfill, hdata, hp⟩ := symFill_good (P := s.cfg) hg
    refine ⟨p, s.symBuf.writeList 0 (s.src.data.take s.cfg.block), hdata, hp, fun i => ?_, ?_⟩
    · rw [Mem.read_writeList]; simp
    · show (symFill s.cfg s).outcome noResult = _
      rw [hfill]; rfl
  · obtain ⟨p, hfill, hdata, hp⟩ := pairFill_good (P := s.cfg) hg
    refine ⟨p, s.pairBuf.writeList 0 ((s.src.data.take s.cfg.block).flatMap byteBits), hdata, hp, fun i => ?_, ?_⟩
    · rw [Mem.read_writeList, flatMap_byteBits_length]; simp
    · show (pairFill s.cfg s).outcome noResult = _
      rw [hfill]; rfl

/-- Settles O30: the three cases of READ_SYM. -/
theorem readSymDeliversNextByte : Obligations.ReadSymDeliversNextByte := by
  refine fun s => ⟨fun b hne hc hb => ?_, fun heq hend => ?_, fun heq hend hg => ?_⟩
  · show (readSym s.cfg s).outcome _ = _
    rw [readSym_of_buffered hne hc hb]; rfl
  · show (readSym s.cfg s).outcome _ = _
    rw [readSym_of_ended heq hend]; rfl
  · obtain ⟨p, hdata, hp, hr⟩ := readSym_of_refill (P := s.cfg) heq hend hg rfl
    refine ⟨p, hdata, hp, ?_⟩
    show (readSym s.cfg s).outcome _ = _
    rw [hr]; rfl

/-- Settles O31: WRITE_SYM below the end of the block and at it, FLUSH_SYMS of an empty buffer and of any. -/
theorem writeSymAndFlushSyms : Obligations.WriteSymAndFlushSyms := by
  refine fun s b => ⟨fun hc => ?_, fun p hc hp hg => ?_, fun hc => ?_, fun p hc hp hg => ?_⟩
  · show (writeSym s.cfg b s).outcome _ = _
    rw [writeSym_of_room b hc]; rfl
  · obtain ⟨q, hdata, hq, hw⟩ := writeSym_of_last b hc hp hg
    refine ⟨q, hdata, hq, ?_⟩
    show (writeSym s.cfg b s).outcome _ = _
    rw [hw]; rfl
  · show (flushSyms s.cfg s).outcome _ = _
    rw [flushSyms_of_empty hc]; rfl
  · obtain ⟨q, hdata, hq, hf⟩ := flushSyms_good hc hp hg
    refine ⟨q, hdata, hq, ?_⟩
    show (flushSyms s.cfg s).outcome _ = _
    rw [hf]; rfl

/-- Settles O32: WRITE_WORD on a sink that answers. -/
theorem writeWordAppends : Obligations.WriteWordAppends := by
  intro s xs wd hx hg
  obtain ⟨t, hw, hout, hsnk, hframe⟩ := writeWord_good wd hx hg
  refine ⟨t, ?_, hout, hsnk, hframe⟩
  show (writeWord s.cfg wd s).outcome _ = _
  rw [hw]; rfl

/-- Settles O38: what each operation leaves in the buffers is what the instruction leaves, raise or not. -/
theorem bufferCellsElsewhereStay : Obligations.BufferCellsElsewhereStay := by
  refine fun s t => ⟨fun v w h => ?_, fun c b w h => ?_, fun h p hp => ?_, fun w h hw => ?_, fun w h hw => ?_,
    fun h hw => ?_, fun h => ⟨?_, fun hne => ?_⟩, fun h => ?_, fun h => ?_, fun h hne => ?_, fun b h => ?_,
    fun wd h => ?_, fun w c b wd hr h => ?_⟩
  · exact PairsStay.of_exec ((writeBits_stores s.cfg v w s).mono fun _ hu => hu.stays) h
  · exact PairsStay.of_exec ((writePair_stores s.cfg c b w s).mono fun _ hu => hu.stays) h
  · obtain ⟨u, ⟨hbuf, -⟩, -, ht⟩ := (flushBits_pads s.cfg s).buffers h
    rw [ht, hbuf, padByte_read hp]
  · obtain ⟨u, hu, -, ht⟩ := (readBits_takes s.cfg w hw).buffers h
    exact ht.trans hu.pairBuf
  · obtain ⟨u, hu, -, ht⟩ := (readPair_takes s.cfg w hw).buffers h
    exact ht.trans hu.pairBuf
  · obtain ⟨u, hu, -, ht⟩ := (decPair_keepsPairBuf s.cfg hw).buffers h
    exact ht.trans hu
  · exact PairsStay.of_exec (encSymbol_stays s.cfg s) h
  · obtain ⟨u, hu, ht, -⟩ := (encSymbol_keepsSymBuf s.cfg hne).buffers h
    exact ht.trans hu
  · exact PairsStay.of_exec (encEndFinalPair_stays s.cfg s) h
  · exact PairsStay.of_exec (encEndTerminator_stays s.cfg s) h
  · obtain ⟨u, hu, ht, -⟩ := (readSym_keepsSymBuf s.cfg hne).buffers h
    exact ht.trans hu
  · exact SymsStay.of_exec ((writeSym_stores s.cfg b s).mono fun _ hu => hu.stays) h
  · exact SymsStay.of_exec ((writeWord_stores s.cfg wd s).mono fun _ hu => hu.stays) h
  · have hpair : (decWord s.cfg c b s).outcome noResult = .next t := by
      rcases h with h | h | ⟨rfl, h⟩ <;> exact h
    exact SymsStay.of_exec (decWord_stays s.cfg b hr) hpair

end

-- The bit channel: its instructions where the environments answer, and what its operations raise.
section
/-! SUPPORT. The bit channel's instructions where the environments answer (R142 to R152), what its operations raise in any state
(R141, R147, R302), and reads of bits that are buffered (R148). -/

namespace Sys2Proof

/-- Each stream bit of a value, least significant first (R66). -/
theorem lsbBits_getElem? {w i : Nat} (v : Nat) (h : i < w) : (lsbBits w v)[i]? = some (v.testBit i) := by
  induction w generalizing v i with
  | zero => omega
  | succ w ih =>
    cases i with
    | zero => simp [lsbBits, Nat.testBit_zero, beq_eq_decide]
    | succ i => rw [lsbBits, List.getElem?_cons_succ, ih _ (by omega), Nat.testBit_succ]

theorem encodePair_lsbFirst {P : Params} (h : P.valOrder = .lsbFirst) (w : Nat) (c : Code) (sym : Byte) :
    encodePair P w c sym = lsbBits w c.toNat ++ lsbBits 8 sym.toNat := by
  rw [encodePair, h]; rfl

/-- Bits that decode to a pair were met at a width the bit channel accepts (R141). -/
theorem widthOk_of_decode {P : Params} {n : Code} {bits rest : List Bool} {i : Instr}
    (h : decode P (.pair n) bits = .ok (i, rest)) : Machine.widthOk (bitlen n.toNat) = true := by
  rw [decode, decodePair] at h
  split at h
  · cases h
  · simp only [Machine.widthOk, Bool.and_eq_true, decide_eq_true_eq]; omega

namespace Machine

open Safety

variable {α β : Type} {P : Params} {s t : State} {w : Nat}

theorem widthOk_iff : widthOk w = true ↔ 1 ≤ w ∧ w ≤ 16 := by simp [widthOk]

theorem not_widthOk_iff : ¬ widthOk w = true ↔ w < 1 ∨ 16 < w := by rw [widthOk_iff]; omega

/-! ### What is raised -/

/-- An operation raises nothing but what `E` allows. -/
def Res.RaisesOnly (r : Res α) (E : Raise → Prop) : Prop := ∀ f t, r = .raise f t → E f

theorem Res.RaisesOnly.ok (E : Raise → Prop) (a : α) (s : State) : (Res.ok a s).RaisesOnly E := fun _ _ h => by cases h

theorem Res.RaisesOnly.stop (E : Raise → Prop) (f : Fault) : (Res.stop f : Res α).RaisesOnly E := fun _ _ h => by cases h

theorem Res.RaisesOnly.raise {E : Raise → Prop} {f : Raise} (h : E f) (s : State) :
    (Res.raise f s : Res α).RaisesOnly E := fun _ _ hf => by cases hf; exact h

theorem Res.RaisesOnly.bind {r : Res α} {k : α → State → Res β} {E : Raise → Prop} (h : r.RaisesOnly E)
    (hk : ∀ a t, (k a t).RaisesOnly E) : (r.bind k).RaisesOnly E := by
  intro f t hf
  rcases Res.bind_eq_raise.1 hf with hr | ⟨a, u, -, hr⟩
  · exact h f t hr
  · exact hk a u f t hr

theorem Res.Spec.raisesOnly {r : Res α} {Q : α → State → Prop} {E : Raise → State → Prop} {N : Fault → Prop}
    {E' : Raise → Prop} (h : r.Spec Q E N) (he : ∀ f t, E f t → E' f) : r.RaisesOnly E' :=
  fun f t hr => by subst hr; exact he f t h

/-- An instruction that leads to FAULT from another phase took a raise of its operation (R320). -/
theorem Res.RaisesOnly.fault {r : Res α} {g : α → State → State} {E : Raise → Prop} (h : r.RaisesOnly E)
    (hphase : r.Leaves fun u => u.phase = s.phase) (hs : s.phase ≠ .fault) (ht : r.outcome g = .next t)
    (hf : t.phase = .fault) (hg : ∀ a u, (g a u).phase = u.phase := by exact fun _ _ => rfl) :
    ∃ f, E f ∧ t.cause = f.cause ∧ t.faultInfo = f.info := by
  rcases Res.outcome_eq_next.1 ht with ⟨a, u, rfl, rfl⟩ | ⟨f, u, rfl, rfl⟩
  · rw [hg] at hf
    exact absurd (Eq.trans (Eq.symm hphase) hf) hs
  · rw [State.enterFault_of_ne u f (fun hu => hs (Eq.trans (Eq.symm hphase) hu))]
    exact ⟨f, h f u rfl, rfl, rfl⟩

theorem fetchCell_raisesNothing {size : Nat} {m : Mem α} {i : Nat} (E : Raise → Prop) (s : State) :
    (fetchCell size m i s).RaisesOnly E := by
  unfold fetchCell
  split
  · split
    · exact .ok E _ s
    · exact .stop E _
  · exact .stop E _

theorem fetchCells_raisesNothing {size : Nat} {m : Mem α} {i n : Nat} (E : Raise → Prop) (s : State) :
    (fetchCells size m i n s).RaisesOnly E := by
  unfold fetchCells
  split
  · split
    · exact .ok E _ s
    · exact .stop E _
  · exact .stop E _

/-- Why the write side of the channels raises (R123, R302). -/
def sinkRaise (f : Raise) : Prop := f = ⟨.ioError, 1⟩

theorem writeBytes_raisesOnly (d : List Byte) (s : State) : (writeBytes d s).RaisesOnly sinkRaise :=
  (writeBytes_spec False d s False.elim).raisesOnly fun _ _ h => h.1

theorem putBit_raisesOnly (P : Params) (b : Bool) (s : State) : (putBit P b s).RaisesOnly sinkRaise := by
  unfold putBit
  split
  · unfold sendFullPairs
    split
    · refine Res.RaisesOnly.bind ?_ fun _ t => .ok _ _ _
      exact (fetchCells_raisesNothing _ _).bind fun d t => writeBytes_raisesOnly _ t
    · exact .ok _ _ _
  · exact .stop _ _

theorem putBits_raisesOnly (P : Params) (bs : List Bool) (s : State) : (putBits P bs s).RaisesOnly sinkRaise := by
  induction bs generalizing s with
  | nil => exact .ok _ _ _
  | cons b bs ih => exact (putBit_raisesOnly P b s).bind fun _ t => ih t

theorem writeBits_raisesOnly (P : Params) (v : BitVec 16) (hw : widthOk w = true) (s : State) :
    (writeBits P v w s).RaisesOnly sinkRaise := by
  unfold writeBits
  rw [if_pos hw]
  exact (putBits_raisesOnly P _ s).bind fun _ t => .ok _ _ _

theorem getBit_raisesOnly (P : Params) (s : State) : (getBit P s).RaisesOnly bitsRaise := by
  have take : ∀ u, (takeBit P u).RaisesOnly bitsRaise := fun u =>
    (fetchCell_raisesNothing _ u).bind fun _ t => .ok _ _ _
  unfold getBit
  split
  · split
    · exact .raise (.inl rfl) s
    · refine ((pairFill_spec P s).raisesOnly fun _ _ h => .inr h.1).bind fun _ t => ?_
      split
      · exact .raise (.inl rfl) t
      · exact take t
  · exact take s

theorem getBits_raisesOnly (P : Params) (w : Nat) (s : State) : (getBits P w s).RaisesOnly bitsRaise := by
  induction w generalizing s with
  | zero => exact .ok _ _ _
  | succ w ih => exact (getBit_raisesOnly P s).bind fun b t => (ih t).bind fun bs u => .ok _ _ _

theorem readBits_raisesOnly (P : Params) (hw : widthOk w = true) (s : State) :
    (readBits P w s).RaisesOnly bitsRaise := by
  unfold readBits
  rw [if_pos hw]
  exact (getBits_raisesOnly P w s).bind fun _ t => .ok _ _ _

theorem writeBits_badWidth (P : Params) (v : BitVec 16) (hw : w < 1 ∨ 16 < w) (s : State) :
    writeBits P v w s = .raise (badWidth w) s := if_neg (not_widthOk_iff.2 hw)

theorem readBits_badWidth (P : Params) (hw : w < 1 ∨ 16 < w) (s : State) :
    readBits P w s = .raise (badWidth w) s := if_neg (not_widthOk_iff.2 hw)

/-! ### Writing to a sink that answers -/

theorem exec_writeBits_appends {xs : List Bool} (v : BitVec 16) (hw : widthOk w = true) (hx : BitsOut s xs)
    (hg : snkGood s.snk = true) :
    ∃ t, exec (.writeBits v w) s = .next t ∧ BitsOut t (xs ++ valueBits s.cfg.valOrder w v.toNat) ∧
      snkGood t.snk = true ∧
      t = { s with pairBuf := t.pairBuf, bitCur := t.bitCur, snk := t.snk,
                   totalBits := countUp s.cfg s.totalBits w } := by
  have hspec := (writeBits_spec True v rfl hw hx fun _ => hg).leaves (writeBits_leaves s.cfg v w s)
  obtain ⟨_, t, ht, ⟨hout, -, htot, hsnk⟩, hkeep⟩ :=
    Res.Spec.ok_of_good (hspec.mono (fun _ _ h => h) (fun _ _ h => h.1) fun _ h => h)
  refine ⟨t, ?_, hout, hsnk trivial, htot ▸ hkeep.frame⟩
  show (writeBits s.cfg v w s).outcome noResult = _
  rw [ht]; rfl

theorem exec_writePair_appends {xs : List Bool} (c : Code) (sym : Byte) (hw : widthOk w = true) (hx : BitsOut s xs)
    (hg : snkGood s.snk = true) :
    ∃ t, exec (.writePair c sym w) s = .next t ∧ BitsOut t (xs ++ encodePair s.cfg w c sym) ∧ snkGood t.snk = true ∧
      t = { s with pairBuf := t.pairBuf, bitCur := t.bitCur, snk := t.snk,
                   totalBits := countUp s.cfg s.totalBits (w + 8) } := by
  have hspec := (writePair_spec True c sym rfl hw hx fun _ => hg).leaves (writePair_leaves s.cfg c sym w s)
  obtain ⟨_, t, ht, ⟨hout, -, htot, hsnk⟩, hkeep⟩ :=
    Res.Spec.ok_of_good (hspec.mono (fun _ _ h => h) (fun _ _ h => h.1) fun _ h => h)
  refine ⟨t, ?_, hout, hsnk trivial, htot ▸ hkeep.frame⟩
  show (writePair s.cfg c sym w s).outcome noResult = _
  rw [ht]; rfl

theorem exec_flushBits_pads {xs : List Bool} (hx : BitsOut s xs) (hg : snkGood s.snk = true) :
    ∃ t k, exec .flushBits s = .next t ∧ k < 8 ∧ t.snk.data.flatMap byteBits = xs ++ List.replicate k false ∧
      snkGood t.snk = true ∧ t = { s with pairBuf := t.pairBuf, bitCur := 0, snk := t.snk } := by
  obtain ⟨_, t, ht, hframe, ⟨k, hk, hbits⟩, hsnk⟩ := Res.Spec.ok_of_good (flushBits_spec True rfl hx fun _ => hg)
  refine ⟨t, k, ?_, hk, hbits, hsnk trivial, hframe⟩
  show (flushBits s.cfg s).outcome noResult = _
  rw [ht]; rfl

/-! ### Reading from a source that answers -/

/-- READ_BITS as an instruction: the value whose bits come next is kept as its result (R148; log 17). -/
theorem exec_readBits_value {v : Nat} {xs : List Bool} (hw : widthOk w = true) (hv : v < 2 ^ w)
    (h : BitsIn s (valueBits s.cfg.valOrder w v ++ xs)) (hg : srcGood s.src = true) :
    ∃ t, exec (.readBits w) s = .next t ∧ BitsIn t xs ∧ srcGood t.src = true ∧
      t = { s with pairBuf := t.pairBuf, bitCur := t.bitCur, pairLen := t.pairLen, pairEnd := t.pairEnd, src := t.src,
                   totalBits := countUp s.cfg s.totalBits w, opResult := .value (BitVec.ofNat 16 v) } := by
  obtain ⟨t, ht, hin, hsrc, hframe⟩ := readBits_good rfl hw hv h hg
  refine ⟨t.withResult (.value (BitVec.ofNat 16 v)), ?_, hin, hsrc, ?_⟩
  · show (readBits s.cfg w s).outcome _ = _
    rw [ht]; rfl
  · exact congrArg (State.withResult (.value (BitVec.ofNat 16 v))) hframe

/-- READ_BITS as an instruction where too few bits are left takes the fault of the bound (R147, R303). -/
theorem exec_readBits_underrun {xs : List Bool} (hw : w ≤ 16) (hlen : xs.length < w) (h : BitsIn s xs)
    (hg : srcGood s.src = true) (hp : s.phase ≠ .fault) :
    ∃ t, exec (.readBits w) s = .next t ∧
      t = { s with pairBuf := t.pairBuf, bitCur := t.bitCur, pairLen := t.pairLen, pairEnd := t.pairEnd, src := t.src,
                   cause := .underrun, faultInfo := 1, phase := .fault } := by
  obtain ⟨t, ht, -, hframe⟩ := getBits_short w rfl h hlen hg
  have hphase : t.phase ≠ .fault := by rw [hframe]; exact hp
  refine ⟨{ t with cause := .underrun, faultInfo := 1, phase := .fault }, ?_, ?_⟩
  · show (readBits s.cfg w s).outcome _ = _
    rw [readBits, if_pos (widthOk_iff.2 ⟨by omega, hw⟩), ht, Res.bind_raise, Res.outcome_raise,
      State.enterFault_of_ne t _ hphase]
    rfl
  · exact congrArg (fun x : State => { x with cause := .underrun, faultInfo := 1, phase := .fault }) hframe

/-- READ_PAIR as an instruction: the pair whose bits come next is kept as its result (R151; log 17). -/
theorem exec_readPair_value {c : Code} {sym : Byte} {xs : List Bool} (hw : widthOk w = true) (hc : c.toNat < 2 ^ w)
    (h : BitsIn s (encodePair s.cfg w c sym ++ xs)) (hg : srcGood s.src = true) :
    ∃ t, exec (.readPair w) s = .next t ∧ BitsIn t xs ∧ srcGood t.src = true ∧
      t = { s with pairBuf := t.pairBuf, bitCur := t.bitCur, pairLen := t.pairLen, pairEnd := t.pairEnd, src := t.src,
                   totalBits := countUp s.cfg s.totalBits (w + 8), opResult := .pair c sym } := by
  obtain ⟨t, ht, hin, hsrc, hframe⟩ := readPair_good rfl hw hc h hg
  refine ⟨t.withResult (.pair c sym), ?_, hin, hsrc, ?_⟩
  · show (readPair s.cfg w s).outcome _ = _
    rw [ht]; rfl
  · exact congrArg (State.withResult (.pair c sym)) hframe

/-! ### Reading bits that are buffered -/

/-- The bits from the cursor to the end of the block filled last are `p` (R41, R147). -/
structure BitsBuffered (P : Params) (s : State) (p : List Bool) : Prop where
  bitCur : s.bitCur ≤ 8 * s.pairLen
  pairLen : s.pairLen ≤ P.block
  bits : Mem.readList s.pairBuf s.bitCur (8 * s.pairLen - s.bitCur) = some p

theorem getBit_of_buffered {b : Bool} {p : List Bool} (h : BitsBuffered P s (b :: p)) :
    getBit P s = .ok b { s with bitCur := s.bitCur + 1 } ∧ BitsBuffered P { s with bitCur := s.bitCur + 1 } p := by
  obtain ⟨hcur, hlen, hbits⟩ := h
  have hlt : s.bitCur < 8 * s.pairLen := by have := Mem.readList_length hbits; rw [List.length_cons] at this; omega
  rw [show 8 * s.pairLen - s.bitCur = (8 * s.pairLen - (s.bitCur + 1)) + 1 by omega, Mem.readList] at hbits
  split at hbits
  · rename_i hbit hrest
    cases hbits
    refine ⟨?_, hlt, hlen, hrest⟩
    unfold getBit
    rw [if_neg (by omega), takeBit_of_read (by omega) hbit]
  · cases hbits

theorem getBits_of_buffered (bs : List Bool) {p : List Bool} (h : BitsBuffered P s (bs ++ p)) :
    getBits P bs.length s = .ok bs { s with bitCur := s.bitCur + bs.length } ∧
      BitsBuffered P { s with bitCur := s.bitCur + bs.length } p := by
  induction bs generalizing s with
  | nil => exact ⟨rfl, h⟩
  | cons b bs ih =>
    obtain ⟨hbit, hrest⟩ := getBit_of_buffered h
    obtain ⟨hbits, hp⟩ := ih hrest
    rw [List.length_cons, getBits, hbit, Res.bind_ok, hbits, Res.bind_ok, Nat.add_comm bs.length 1, ← Nat.add_assoc]
    exact ⟨rfl, hp⟩

theorem readBits_of_buffered {v : Nat} {p : List Bool} (hw : widthOk w = true) (hv : v < 2 ^ w)
    (h : BitsBuffered P s (valueBits P.valOrder w v ++ p)) :
    readBits P w s = .ok (BitVec.ofNat 16 v)
        { s with bitCur := s.bitCur + w, totalBits := countUp s.cfg s.totalBits w } ∧
      BitsBuffered P { s with bitCur := s.bitCur + w, totalBits := countUp s.cfg s.totalBits w } p := by
  obtain ⟨hbits, hcur, hlen, hp⟩ := getBits_of_buffered _ h
  rw [valueBits_length] at hbits hcur hp
  refine ⟨?_, hcur, hlen, hp⟩
  unfold readBits
  rw [if_pos hw, hbits, Res.bind_ok, bitsValue_valueBits _ hv]
  rfl

/-- READ_PAIR of a buffered pair moves the cursor past it and counts its bits (R151). -/
theorem readPair_of_buffered {c : Code} {sym : Byte} {p : List Bool} (hw : widthOk w = true) (hc : c.toNat < 2 ^ w)
    (h : BitsBuffered P s (encodePair P w c sym ++ p)) :
    readPair P w s = .ok (c, sym)
      { s with bitCur := s.bitCur + (w + 8), totalBits := countUp s.cfg s.totalBits (w + 8) } := by
  rw [encodePair, List.append_assoc] at h
  obtain ⟨hcode, hrest⟩ := readBits_of_buffered hw hc h
  obtain ⟨hsym, -⟩ := readBits_of_buffered (w := 8) (by decide) sym.isLt hrest
  unfold readPair
  rw [hcode, Res.bind_ok, hsym, Res.bind_ok]
  simp [Nat.add_assoc]

/-- In DEC_LOOP the step is what the pair read does (R230). -/
theorem step_of_readPair {c : Code} {sym : Byte} (hturn : coreTurn s) (hp : s.phase = .decLoop)
    (hr : readPair s.cfg s.width s.popAct = .ok (c, sym) t) :
    step s = exec (classifyPair s.cfg s.nextCode s.width c sym) t := by
  refine step_one ?_
  rw [fetch_coreTurn hturn, fetchCore_decLoop (s := s.popAct) hp, fetchPair,
    show readPair s.popAct.cfg s.popAct.width s.popAct = .ok (c, sym) t from hr]
  rfl

/-! ### Sequences of values -/

/-- Instructions run one after another, then more of them. -/
theorem runAll_append {is : List Instr} (js : List Instr) (h : runAll is s = .next t) :
    runAll (is ++ js) s = runAll js t := by
  induction is generalizing s with
  | nil => cases h; rfl
  | cons i is ih =>
    rw [runAll] at h
    rw [List.cons_append, runAll]
    split at h
    · exact ih h
    · cases h
    · cases h

theorem runAll_cons {i : Instr} (is : List Instr) (h : exec i s = .next t) : runAll (i :: is) s = runAll is t := by
  rw [runAll, h]

/-- A value and a width the bit channel takes it at without loss (R141, R145). -/
def ValueFits (x : BitVec 16 × Nat) : Prop := 1 ≤ x.2 ∧ x.2 ≤ 16 ∧ x.1.toNat < 2 ^ x.2

/-- The stream bits of values, each at its own width (R143). -/
def valuesBits (o : ValOrder) (vs : List (BitVec 16 × Nat)) : List Bool :=
  vs.flatMap fun x => valueBits o x.2 x.1.toNat

theorem valuesBits_cons (o : ValOrder) (x : BitVec 16 × Nat) (vs : List (BitVec 16 × Nat)) :
    valuesBits o (x :: vs) = valueBits o x.2 x.1.toNat ++ valuesBits o vs := rfl

theorem valuesBits_append (o : ValOrder) (us vs : List (BitVec 16 × Nat)) :
    valuesBits o (us ++ vs) = valuesBits o us ++ valuesBits o vs := List.flatMap_append

theorem valuesBits_length (o : ValOrder) (vs : List (BitVec 16 × Nat)) :
    (valuesBits o vs).length = (vs.map Prod.snd).sum := by
  simp [valuesBits, List.length_flatMap]

/-- A run of WRITE_BITS puts the bits of its values behind those given so far (R143). -/
theorem runAll_writeBits {vs : List (BitVec 16 × Nat)} (hvs : ∀ x ∈ vs, ValueFits x) {xs : List Bool}
    (hx : BitsOut s xs) (hg : snkGood s.snk = true) :
    ∃ t, runAll (vs.map fun x => .writeBits x.1 x.2) s = .next t ∧ BitsOut t (xs ++ valuesBits s.cfg.valOrder vs) ∧
      snkGood t.snk = true := by
  induction vs generalizing s xs with
  | nil => exact ⟨s, rfl, by simpa [valuesBits] using hx, hg⟩
  | cons x vs ih =>
    obtain ⟨hx1, hx16, -⟩ := hvs x List.mem_cons_self
    obtain ⟨t, ht, hout, hsnk, hframe⟩ := exec_writeBits_appends x.1 (widthOk_iff.2 ⟨hx1, hx16⟩) hx hg
    obtain ⟨u, hu, hout', hsnk'⟩ := ih (fun y hy => hvs y (List.mem_cons_of_mem x hy)) hout hsnk
    have hcfg : t.cfg = s.cfg := by rw [hframe]
    rw [hcfg, List.append_assoc, ← valuesBits_cons] at hout'
    exact ⟨u, (runAll_cons _ ht).trans hu, hout', hsnk'⟩

/-- A run of READ_BITS at the widths of the values that come next consumes their bits (R148). -/
theorem runAll_readBits {vs : List (BitVec 16 × Nat)} (hvs : ∀ x ∈ vs, ValueFits x) {xs : List Bool}
    (h : BitsIn s (valuesBits s.cfg.valOrder vs ++ xs)) (hg : srcGood s.src = true) :
    ∃ t, runAll (vs.map fun x => .readBits x.2) s = .next t ∧ BitsIn t xs ∧ srcGood t.src = true ∧ t.cfg = s.cfg := by
  induction vs generalizing s with
  | nil => exact ⟨s, rfl, h, hg, rfl⟩
  | cons x vs ih =>
    obtain ⟨hx1, hx16, hfit⟩ := hvs x List.mem_cons_self
    rw [valuesBits_cons, List.append_assoc] at h
    obtain ⟨t, ht, hin, hsrc, hframe⟩ := exec_readBits_value (widthOk_iff.2 ⟨hx1, hx16⟩) hfit h hg
    have hcfg : t.cfg = s.cfg := by rw [hframe]
    obtain ⟨u, hu, hin', hsrc', hcfg'⟩ := ih (fun y hy => hvs y (List.mem_cons_of_mem x hy)) (hcfg ▸ hin) hsrc
    exact ⟨u, (runAll_cons _ ht).trans hu, hin', hsrc', hcfg'.trans hcfg⟩

/-- The read of a value after those before it leaves the value as its result (R152; log 17). -/
theorem runAll_readBits_last {us : List (BitVec 16 × Nat)} {x : BitVec 16 × Nat} (hus : ∀ y ∈ us, ValueFits y)
    (hx : ValueFits x) {xs : List Bool} (h : BitsIn s (valuesBits s.cfg.valOrder (us ++ [x]) ++ xs))
    (hg : srcGood s.src = true) :
    ∃ t, runAll ((us.map fun y => .readBits y.2) ++ [.readBits x.2]) s = .next t ∧ t.opResult = .value x.1 := by
  obtain ⟨hx1, hx16, hfit⟩ := hx
  rw [valuesBits_append, List.append_assoc] at h
  obtain ⟨t, ht, hin, hsrc, hcfg⟩ := runAll_readBits hus h hg
  rw [valuesBits_cons, List.append_assoc, ← hcfg] at hin
  obtain ⟨u, hu, -, -, hframe⟩ := exec_readBits_value (widthOk_iff.2 ⟨hx1, hx16⟩) hfit hin hsrc
  refine ⟨u, ?_, by rw [hframe]; simp⟩
  rw [runAll_append _ ht, runAll_cons _ hu]; rfl

/-- Before the first fill the bits to come are those of the source (R146, R147). -/
theorem bitsIn_of_unread (hcur : s.bitCur = 0) (hlen : s.pairLen = 0) (hend : s.pairEnd = false) :
    BitsIn s (s.src.data.flatMap byteBits) :=
  ⟨by omega, by omega, [], by rw [hcur, hlen]; rfl, by rw [hend]; rfl⟩

/-- With nothing buffered the bits given so far are those in the sink (R47). -/
theorem bitsOut_of_empty (hcur : s.bitCur = 0) : BitsOut s (s.snk.data.flatMap byteBits) := by
  refine ⟨?_, [], by rw [hcur]; rfl, by simp⟩
  have := s.cfg.block_pos
  omega

end Machine

end Sys2Proof
end

-- The statements of family 41_bit_channel.md.
section
open Sys2Proof Sys2Proof.Machine Sys2Proof.Safety

/-- Settles O37: a run of writes gives the sink the bits of the values, and a run of reads takes them off value by value. -/
theorem bitChannelSymmetry : Obligations.BitChannelSymmetry := by
  intro vs s r hvs horder hscur hsnk0 hsnk hrcur hrlen hrend hsrc
  have hempty : BitsOut s [] := by have := bitsOut_of_empty hscur; rwa [hsnk0] at this
  obtain ⟨u, hu, hout, husnk⟩ := runAll_writeBits hvs hempty hsnk
  obtain ⟨t, k, ht, hk, hbits, -, -⟩ := exec_flushBits_pads hout husnk
  rw [List.nil_append, ← horder] at hbits
  refine ⟨t, by rw [runAll_append _ hu, runAll_cons _ ht]; rfl, fun hdata => ?_⟩
  have hin := bitsIn_of_unread hrcur hrlen hrend
  rw [hdata, hbits] at hin
  refine ⟨fun us x ws hsplit => ?_, ?_⟩
  · subst hsplit
    rw [List.append_cons, valuesBits_append, List.append_assoc] at hin
    exact runAll_readBits_last (fun y hy => hvs y (List.mem_append_left _ hy)) (hvs x (by simp)) hin hsrc
  · obtain ⟨q, hq, hqin, -, -⟩ := runAll_readBits hvs hin hsrc
    refine ⟨q, k, hq, hk, hqin, ?_⟩
    have hlen := congrArg List.length hbits
    rwa [flatMap_byteBits_length, List.length_append, List.length_replicate, valuesBits_length] at hlen

/-- Settles O4. -/
theorem pairIsOneInteger : Obligations.PairIsOneInteger := by
  intro P w c sym horder hc
  rw [encodePair_lsbFirst horder]
  refine ⟨by simp, ?_, fun i hi => ?_, fun i hi => ?_⟩
  · rw [lsbVal_append, lsbVal_lsbBits, lsbVal_lsbBits, lsbBits_length, Nat.mod_eq_of_lt hc, Nat.mod_eq_of_lt sym.isLt,
      Nat.mul_comm]
  · rw [List.getElem?_append_left (by simpa using hi), lsbBits_getElem? _ hi]
  · rw [List.getElem?_append_right (by simp), lsbBits_length, Nat.add_sub_cancel_left, lsbBits_getElem? _ hi]

/-- Settles O7: READ_PAIR takes the pair at the head of the stream, and the step is what that pair does. -/
theorem stepRunsNextPairOfStream : Obligations.StepRunsNextPairOfStream := by
  intro s xs rest i hturn hp hsrc hin hdec
  obtain ⟨c, sym, hc, rfl, rfl⟩ := pair_of_decode hdec
  obtain ⟨t, hr, hrest, htsrc, hframe⟩ :=
    readPair_good (s := s.popAct) rfl (widthOk_of_decode hdec) hc hin hsrc
  exact ⟨t, step_of_readPair hturn hp hr, hrest, htsrc, hframe⟩

/-- Settles O23: outside the range the check raises; inside it only the transactions and the bound do. -/
theorem widthOutsideRangeFaults : Obligations.WidthOutsideRangeFaults := by
  refine fun s v w hp => ⟨fun hw => ⟨?_, ?_⟩, fun h1 h16 t ht hf => ?_⟩
  · show (writeBits s.cfg v w s).outcome _ = _
    rw [writeBits_badWidth _ _ hw, Res.outcome_raise, State.enterFault_of_ne s _ hp]; rfl
  · show (readBits s.cfg w s).outcome _ = _
    rw [readBits_badWidth _ hw, Res.outcome_raise, State.enterFault_of_ne s _ hp]; rfl
  · have hw := widthOk_iff.2 ⟨h1, h16⟩
    rcases ht with ht | ht
    · have hphase := (writeBits_leaves s.cfg v w s).mono fun u hu => (writesOnly_of_writesBits hu).phase
      obtain ⟨f, rfl, hcause, -⟩ := (writeBits_raisesOnly s.cfg v hw s).fault hphase hp ht hf
      simp [hcause]
    · have hphase := (readBits_leaves s.cfg w s).mono fun u hu => (writesOnly_of_readsFrame hu).phase
      obtain ⟨f, rfl | rfl, hcause, -⟩ := (readBits_raisesOnly s.cfg hw s).fault hphase hp ht hf
      · simp [hcause, bodyUnderrun]
      · simp [hcause]

/-- Settles O33. -/
theorem writeBitsAppends : Obligations.WriteBitsAppends := by
  intro s xs v w h1 h16 hx hg
  refine ⟨exec_writeBits_appends v (widthOk_iff.2 ⟨h1, h16⟩) hx hg, ?_⟩
  have hlow : v.toNat % 2 ^ w < 2 ^ 16 := (Nat.mod_le _ _).trans_lt v.isLt
  show (writeBits s.cfg v w s).outcome _ = (writeBits s.cfg _ w s).outcome _
  rw [writeBits, writeBits, BitVec.toNat_ofNat, Nat.mod_eq_of_lt hlow, valueBits_mod]

/-- Settles O34. -/
theorem flushBitsPadsWithZeros : Obligations.FlushBitsPadsWithZeros := fun _ _ hx hg => exec_flushBits_pads hx hg

/-- Settles O35. -/
theorem readBitsUpToTheBound : Obligations.ReadBitsUpToTheBound := fun _ _ hg =>
  ⟨fun _ _ h1 h16 hv h => exec_readBits_value (widthOk_iff.2 ⟨h1, h16⟩) hv h hg,
    fun _ hw hlen h hp => exec_readBits_underrun hw hlen h hg hp⟩

/-- Settles O36. -/
theorem pairsThroughTheChannel : Obligations.PairsThroughTheChannel := fun _ c sym _ h1 h16 =>
  have hw := widthOk_iff.2 ⟨h1, h16⟩
  ⟨fun _ hx hg => exec_writePair_appends c sym hw hx hg, fun _ hc h hg => exec_readPair_value hw hc h hg⟩

/-- Settles O6: READ_PAIR takes the pair from the buffer, and the step is what that pair does. -/
theorem stepRunsBufferedPair : Obligations.StepRunsBufferedPair := by
  intro s p rest i hturn hp hcur hlen hbits hdec
  obtain ⟨c, sym, hc, rfl, rfl⟩ := pair_of_decode hdec
  have hbuf : BitsBuffered s.cfg s.popAct (encodePair s.cfg s.width c sym ++ rest) := ⟨hcur, hlen, hbits⟩
  exact step_of_readPair hturn hp (readPair_of_buffered (widthOk_of_decode hdec) hc hbuf)

end

section
/-! SUPPORT. The width of a value is the only one within its bounds (R170); ADVANCE as an instruction (R174), and what
its result says of the counter (R173, R178). -/

namespace Sys2Proof

/-- The width is unique (R170). -/
theorem bitlen_eq_of_bounds {v w : Nat} (hlow : 2 ^ (w - 1) ≤ v) (hhigh : v < 2 ^ w) : bitlen v = w := by
  have hle : bitlen v ≤ w := bitlen_le_of_lt hhigh
  have hlt : w - 1 < bitlen v := (Nat.pow_lt_pow_iff_right (by decide)).1 (hlow.trans_lt (lt_two_pow_bitlen v))
  omega

theorem bitlen_eq_log {v : Nat} (h : 1 ≤ v) : bitlen v = Nat.log 2 v + 1 := by
  rw [bitlen, if_neg (by omega), Nat.log2_eq_log_two]

namespace Machine

variable {P : Params} {s : State}

/-! ### The result of ADVANCE -/

/-- When ADVANCE returns 0 the counter rises (R178). -/
theorem lt_advance_of_not_reset (hhi : s.nextCode.toNat < P.maxCode) (h : (advance P s).2 = false) :
    s.nextCode.toNat < (advance P s).1.nextCode.toNat := by
  by_cases he : s.nextCode.toNat + 1 = P.maxCode
  · rw [advance_of_eq he] at h; cases h
  · rw [advance_of_ne he]
    show _ < (s.nextCode + 1).toNat
    rw [succ_toNat (P := P) (by omega)]; omega

/-- When ADVANCE returns 1 the counter is that of `START_CODE` (R174). -/
theorem advance_nextCode_of_reset (h : (advance P s).2 = true) : (advance P s).1.nextCode = P.startCode := by
  by_cases he : s.nextCode.toNat + 1 = P.maxCode
  · rw [advance_of_eq he]
  · rw [advance_of_ne he] at h; cases h

/-! ### The range of the width -/

/-- The width of a counter within its range (R173). -/
theorem State.width_range (hlo : P.startCode.toNat ≤ s.nextCode.toNat) (hhi : s.nextCode.toNat < P.maxCode) :
    bitlen P.startCode.toNat ≤ s.width ∧ s.width ≤ bitlen (P.maxCode - 1) ∧ 1 ≤ s.width ∧ s.width ≤ 16 :=
  ⟨bitlen_mono hlo, bitlen_mono (by omega), bitlen_code_pos hlo, bitlen_code_le s.nextCode⟩

/-! ### ADVANCE as an instruction -/

theorem exec_advance (s : State) :
    exec .advance s = .next ((advance s.cfg s).1.withResult (.flag (advance s.cfg s).2)) := rfl

theorem exec_advance_of_ne (h : s.nextCode.toNat + 1 ≠ s.cfg.maxCode) :
    exec .advance s = .next { s with nextCode := s.nextCode + 1, opResult := .flag false } := by
  rw [exec_advance, advance_of_ne h]; rfl

theorem exec_advance_of_eq (h : s.nextCode.toNat + 1 = s.cfg.maxCode) :
    exec .advance s =
      .next { dictReset s.cfg s with nextCode := s.cfg.startCode, opResult := .flag true } := by
  rw [exec_advance, advance_of_eq h]; rfl

theorem exec_dictReset (s : State) : exec .dictReset s = .next (dictReset s.cfg s) := rfl

end Machine

end Sys2Proof
end

-- The statements of family 42_width_reset_protocol.md.
section
open Sys2Proof Sys2Proof.Machine Sys2Proof.Safety

/-- Settles O39: the bounds leave one width, and each listed value lies within those of its width. -/
theorem bitlenIsMinimalWidth : Obligations.BitlenIsMinimalWidth := by
  refine ⟨fun v hv => ⟨bitlen_pos hv, two_pow_bitlen_le hv, lt_two_pow_bitlen v,
    fun w _ hlow hhigh => (bitlen_eq_of_bounds hlow hhigh).symm, bitlen_eq_log hv⟩, ?_, fun _ _ => rfl⟩
  refine ⟨?_, ?_, ?_, ?_, ?_, ?_, ?_, ?_, ?_, ?_, ?_, ?_, ?_⟩ <;> exact bitlen_eq_of_bounds (by decide) (by decide)

/-- Settles O40: ADVANCE below the ceiling and at it, where it resets the dictionary of the phase. -/
theorem widthAdvanceDictReset : Obligations.WidthAdvanceDictReset := by
  refine fun s => ⟨rfl, exec_advance_of_ne, fun hfull => ⟨fun hp => ?_, fun hp => ?_⟩, fun hp => ?_, fun hp => ?_⟩
  · rw [exec_advance_of_eq hfull, dictReset_enc hp]
  · rw [exec_advance_of_eq hfull, dictReset_dec hp]
  · rw [exec_dictReset, dictReset_enc hp]
  · rw [exec_dictReset, dictReset_dec hp]

/-- Settles O41: the counter stays in its range, and the width follows it. -/
theorem widthMonotoneWithinEpoch : Obligations.WidthMonotoneWithinEpoch := by
  intro s t hlo hhi ht
  rw [exec_advance] at ht
  cases ht
  obtain ⟨hlo', hhi'⟩ := advance_range hlo hhi
  refine ⟨⟨hlo', hhi'⟩, State.width_range hlo' hhi', fun hflag => ?_, fun hflag => ?_⟩
  · have hrise := lt_advance_of_not_reset hhi (OpResult.flag.inj hflag)
    exact ⟨hrise, bitlen_mono hrise.le⟩
  · exact congrArg (fun c : Code => bitlen c.toNat) (advance_nextCode_of_reset (OpResult.flag.inj hflag))

end

-- The encoder: its operations where the environments answer.
section
/-! SUPPORT. The encoder's operations in any state whose environments answer (R191 to R204), each as the fields it writes
over the state it starts from, so that what a compound operation leaves follows by putting its parts together. -/

namespace Sys2Proof.Machine

open Sys2Proof Sys2Proof.Safety

variable {P : Params} {s : State} {c : Code} {b : Byte} {d : Code} {xs : List Bool}

/-! ### The trie -/

theorem trieStep_of_lt (b : Byte) (hc : c.toNat < P.maxCode) :
    trieStep P c b s = .ok (Mem.read s.child (childIndex c b)) s := if_pos hc

theorem trieInsert_of_lt (b : Byte) (d : Code) (hc : c.toNat < P.maxCode) :
    trieInsert P c b d s = .ok () { s with child := s.child.write (childIndex c b) d } := if_pos hc

theorem childIndex_eq_iff {c' : Code} {b' : Byte} : childIndex c' b' = childIndex c b ↔ c' = c ∧ b' = b :=
  ⟨childIndex_inj, fun ⟨hc, hb⟩ => by rw [hc, hb]⟩

/-! ### The counter's steps in the phases of the encoder -/

/-- ADVANCE in ENC_LOOP and ENC_TAIL (R174, R175): the counter's step, and an empty trie at the ceiling. -/
theorem advance_enc (hp : s.phase = .encLoop ∨ s.phase = .encTail) :
    (advance P s).1 = { s with
      nextCode := nextCounter P s.nextCode
      child := if s.nextCode.toNat + 1 = P.maxCode then [] else s.child } := by
  unfold nextCounter
  by_cases hfull : s.nextCode.toNat + 1 = P.maxCode
  · rw [advance_of_eq hfull, dictReset_enc hp, if_pos hfull, if_pos hfull]
  · rw [advance_of_ne hfull, if_neg hfull, if_neg hfull]

theorem advanceFinal_of_reset (hm : P.termWrap = .reset) : advanceFinal P s = (advance P s).1 := by
  unfold advanceFinal; rw [hm]

/-- Under `TERM_WRAP = MODULO` the last counter below the ceiling is followed by 0 (R204). -/
theorem advanceFinal_of_modulo (hm : P.termWrap = .modulo) (hlt : s.nextCode.toNat < P.maxCode) :
    advanceFinal P s =
      { s with nextCode := if s.nextCode.toNat + 1 = P.maxCode then 0 else s.nextCode + 1 } := by
  have hnext : BitVec.ofNat 16 ((s.nextCode.toNat + 1) % P.maxCode) =
      if s.nextCode.toNat + 1 = P.maxCode then 0 else s.nextCode + 1 := by
    split
    · rename_i hfull
      rw [hfull, Nat.mod_self]
      rfl
    · rw [Nat.mod_eq_of_lt (by omega), BitVec.ofNat_add, BitVec.ofNat_toNat, BitVec.setWidth_eq]
      rfl
  unfold advanceFinal
  rw [hm, ← hnext]

/-! ### Pairs at the width in force -/

theorem State.widthOk_of_pos (hn : 1 ≤ s.nextCode.toNat) : widthOk s.width = true :=
  widthOk_iff.2 ⟨bitlen_pos hn, bitlen_code_le s.nextCode⟩

/-- A pair written at the width in force to a sink that answers (R149, R172). -/
theorem writePair_inForce (c : Code) (b : Byte) (hn : 1 ≤ s.nextCode.toNat) (hx : BitsOut s xs)
    (hg : snkGood s.snk = true) :
    ∃ m k q, writePair s.cfg c b s.width s = .ok () { s with
        pairBuf := m, bitCur := k, snk := q
        totalBits := countUp s.cfg s.totalBits (bitlen s.nextCode.toNat + 8) } ∧
      BitsOut { s with pairBuf := m, bitCur := k, snk := q }
        (xs ++ encodePair s.cfg (bitlen s.nextCode.toNat) c b) ∧ snkGood q = true := by
  have hspec := (writePair_spec True c b rfl (State.widthOk_of_pos hn) hx fun _ => hg).leaves
    (writePair_leaves s.cfg c b s.width s)
  obtain ⟨_, t, ht, ⟨hout, hcfg, htot, hsnk⟩, hkeep⟩ :=
    Res.Spec.ok_of_good (hspec.mono (fun _ _ h => h) (fun _ _ h => h.1) fun _ h => h)
  have hframe := htot ▸ hkeep.frame
  exact ⟨t.pairBuf, t.bitCur, t.snk, ht.trans (congrArg _ hframe), BitsOut.congr hout hcfg.symm rfl rfl rfl, hsnk trivial⟩

/-- No pair can be written at the counter 0, whose width is 0 (R141, R204). -/
theorem writePair_of_zero (c : Code) (b : Byte) (hn : s.nextCode = 0) :
    writePair P c b s.width s = .raise (badWidth 0) s := by
  have hw : s.width = 0 := by unfold State.width; rw [hn]; rfl
  rw [hw, writePair, writeBits_badWidth _ _ (.inl Nat.one_pos), Res.bind_raise]

/-! ### ENC_SYMBOL -/

theorem encSymbol_of_some {t : State} (hr : readSym P s = .ok (some b) t) : encSymbol P s = encConsume P b t := by
  unfold encSymbol; rw [hr, Res.bind_ok]

theorem encSymbol_of_none {t : State} (hr : readSym P s = .ok none t) :
    encSymbol P s = .ok () { t with phase := .encTail } := by
  unfold encSymbol; rw [hr, Res.bind_ok]

/-- A symbol the current match has a child for (R198, R200). -/
theorem encConsume_hit (hc : s.curCode.toNat < P.maxCode) (hd : Mem.read s.child (childIndex s.curCode b) = some d) :
    encConsume P b s = .ok () { s.hit d with prevSym := b } := by
  unfold encConsume; rw [trieStep_of_lt b hc, Res.bind_ok, hd, Res.bind_ok]

/-- A symbol the current match has no child for, in ENC_LOOP on a sink that answers (R200, R201): the pair, the node, the
root, the counter's step. -/
theorem encConsume_miss (hp : s.phase = .encLoop) (hc : s.curCode.toNat < s.cfg.maxCode) (hn : 1 ≤ s.nextCode.toNat)
    (hd : Mem.read s.child (childIndex s.curCode b) = none) (hx : BitsOut s xs) (hg : snkGood s.snk = true) :
    ∃ m k q, encConsume s.cfg b s = .ok () { s with
        pairBuf := m, bitCur := k, snk := q
        totalBits := countUp s.cfg s.totalBits (bitlen s.nextCode.toNat + 8)
        child := if s.nextCode.toNat + 1 = s.cfg.maxCode then []
          else s.child.write (childIndex s.curCode b) s.nextCode
        nextCode := nextCounter s.cfg s.nextCode, curCode := s.cfg.emptyCode, prevSym := b } ∧
      BitsOut { s with pairBuf := m, bitCur := k, snk := q }
        (xs ++ encodePair s.cfg (bitlen s.nextCode.toNat) s.curCode b) ∧ snkGood q = true := by
  obtain ⟨m, k, q, hw, hout, hsnk⟩ := writePair_inForce s.curCode b hn hx hg
  refine ⟨m, k, q, ?_, hout, hsnk⟩
  unfold encConsume
  rw [trieStep_of_lt b hc, Res.bind_ok, hd]
  unfold encMiss
  rw [hw, Res.bind_ok, trieInsert_of_lt _ _ (by exact hc), Res.bind_ok, advance_enc (.inl (by exact hp)), Res.bind_ok]

/-! ### ENC_END -/

theorem encEndFinalPair_of_root (hc : s.curCode = P.emptyCode) : encEndFinalPair P s = .ok () s := if_pos hc

/-- With a match pending, its pair, the root and the counter's step after the final pair (R202, R204). -/
theorem encEndFinalPair_of_pending (hc : s.curCode ≠ s.cfg.emptyCode) (hn : 1 ≤ s.nextCode.toNat) (hx : BitsOut s xs)
    (hg : snkGood s.snk = true) :
    ∃ m k q, encEndFinalPair s.cfg s = .ok () (advanceFinal s.cfg { s with
        pairBuf := m, bitCur := k, snk := q
        totalBits := countUp s.cfg s.totalBits (bitlen s.nextCode.toNat + 8), curCode := s.cfg.emptyCode }) ∧
      BitsOut { s with pairBuf := m, bitCur := k, snk := q }
        (xs ++ encodePair s.cfg (bitlen s.nextCode.toNat) s.prevCode s.prevSym) ∧ snkGood q = true := by
  obtain ⟨m, k, q, hw, hout, hsnk⟩ := writePair_inForce s.prevCode s.prevSym hn hx hg
  exact ⟨m, k, q, by unfold encEndFinalPair; rw [if_neg hc, hw, Res.bind_ok], hout, hsnk⟩

/-- The final pair under `TERM_WRAP = MODULO`: the counter goes round, the trie stays (R204). -/
theorem encEndFinalPair_of_modulo (hm : s.cfg.termWrap = .modulo) (hc : s.curCode ≠ s.cfg.emptyCode)
    (hn : 1 ≤ s.nextCode.toNat) (hlt : s.nextCode.toNat < s.cfg.maxCode) (hx : BitsOut s xs)
    (hg : snkGood s.snk = true) :
    ∃ m k q, encEndFinalPair s.cfg s = .ok () { s with
        pairBuf := m, bitCur := k, snk := q
        totalBits := countUp s.cfg s.totalBits (bitlen s.nextCode.toNat + 8)
        nextCode := if s.nextCode.toNat + 1 = s.cfg.maxCode then 0 else s.nextCode + 1
        curCode := s.cfg.emptyCode } ∧
      BitsOut { s with pairBuf := m, bitCur := k, snk := q }
        (xs ++ encodePair s.cfg (bitlen s.nextCode.toNat) s.prevCode s.prevSym) ∧ snkGood q = true := by
  obtain ⟨m, k, q, ht, hout, hsnk⟩ := encEndFinalPair_of_pending hc hn hx hg
  exact ⟨m, k, q, by rw [ht, advanceFinal_of_modulo hm (by exact hlt)], hout, hsnk⟩

/-- The stop pair and the flush on a sink that answers, then completion (R203). -/
theorem encEndTerminator_completes (hn : 1 ≤ s.nextCode.toNat) (hx : BitsOut s xs) (hg : snkGood s.snk = true) :
    ∃ m q k, encEndTerminator s.cfg s = .ok () { s with
        pairBuf := m, bitCur := 0, snk := q
        totalBits := countUp s.cfg s.totalBits (bitlen s.nextCode.toNat + 8)
        child := [], nextCode := s.cfg.startCode, done := true, phase := .idle } ∧
      k < 8 ∧ q.data.flatMap byteBits =
        xs ++ encodePair s.cfg (bitlen s.nextCode.toNat) s.cfg.stopCode 0 ++ List.replicate k false ∧
      snkGood q = true := by
  obtain ⟨m, n, q, hw, hout, hsnk⟩ := writePair_inForce s.cfg.stopCode 0 hn hx hg
  obtain ⟨_, v, hf, hframe, ⟨k, hk, hbits⟩, hvsnk⟩ := Res.Spec.ok_of_good (flushBits_spec True
    (s := { s with pairBuf := m, bitCur := n, snk := q
                   totalBits := countUp s.cfg s.totalBits (bitlen s.nextCode.toNat + 8) }) rfl hout fun _ => hsnk)
  refine ⟨v.pairBuf, v.snk, k, ?_, hk, hbits, hvsnk trivial⟩
  unfold encEndTerminator
  rw [hw, Res.bind_ok, hf, Res.bind_ok, hframe]
  rfl

theorem encEndTerminator_of_zero (hn : s.nextCode = 0) : encEndTerminator P s = .raise (badWidth 0) s := by
  unfold encEndTerminator; rw [writePair_of_zero _ _ hn, Res.bind_raise]

/-- In ENC_TAIL the step is ENC_END (R28, R202, R203). -/
theorem step_eq_encEnd (hturn : coreTurn s) (hp : s.phase = .encTail) :
    step s = (encEnd s.cfg s.popAct).outcome noResult := by
  rw [step_coreTurn hturn, fetchCore_encTail (s := s.popAct) hp]
  exact encTail_outcome hp

/-! ### As instructions -/

/-- An operation without a result that ends, run as an instruction. -/
theorem Res.outcome_of_ok {r : Res Unit} {t : State} (h : r = .ok () t) : r.outcome noResult = .next t := by
  rw [h, Res.outcome_ok, noResult_eq]

/-- A data command is accepted in IDLE (R272, R274). -/
theorem issue_data_of_idle (e : State) (hp : s.phase = .idle) : issue s.acceptsData e s = .next e :=
  if_pos (decide_eq_true hp)

end Sys2Proof.Machine
end

-- The statements of family 43_encoder_trie.md.
section
open Sys2Proof Sys2Proof.Machine Sys2Proof.Safety

/-- Settles O42: each entry of the trie has a cell of its own. -/
theorem trieOperations : Obligations.TrieOperations := by
  refine fun s c b d hc => ⟨?_, ⟨s.child.write (childIndex c b) d, ?_, fun c' b' => ?_⟩, [], rfl, fun _ _ => rfl⟩
  · show (trieStep s.cfg c b s).outcome _ = _
    rw [trieStep_of_lt b hc]; rfl
  · show (trieInsert s.cfg c b d s).outcome _ = _
    rw [trieInsert_of_lt b d hc]; rfl
  · simp only [Mem.read_write, childIndex_eq_iff]

/-- Settles O43: READ_SYM delivers the symbol, and the trie has the child. -/
theorem encSymbolHit : Obligations.EncSymbolHit := by
  intro s b rest d hc hin hsrc hd
  obtain ⟨u, hr, hrest, husrc, htot, hframe⟩ := readSym_cons rfl hin hsrc
  rw [htot] at hframe
  have hhit : encConsume s.cfg b u = .ok () { u.hit d with prevSym := b } :=
    encConsume_hit (by rw [hframe]; exact hc) (by rw [hframe]; exact hd)
  exact ⟨_, Res.outcome_of_ok ((encSymbol_of_some hr).trans hhit), hrest, husrc,
    congrArg (fun x : State => { x.hit d with prevSym := b }) hframe⟩

/-- Settles O44: READ_SYM delivers the symbol and leaves what the miss works on. -/
theorem encSymbolMiss : Obligations.EncSymbolMiss := by
  intro s b rest xs hp hc hn hin hsrc hd hx hg
  obtain ⟨u, hr, hrest, husrc, htot, hframe⟩ := readSym_cons rfl hin hsrc
  obtain ⟨sb, sc, sl, se, p, rfl⟩ : ∃ sb sc sl se p, u = { s with
      symBuf := sb, symCur := sc, symLen := sl, symEnd := se, src := p, totalSyms := countUp s.cfg s.totalSyms 1 } :=
    ⟨_, _, _, _, _, htot ▸ hframe⟩
  obtain ⟨m, k, q, hmiss, hout, hsnk⟩ := encConsume_miss (s := { s with
      symBuf := sb, symCur := sc, symLen := sl, symEnd := se, src := p, totalSyms := countUp s.cfg s.totalSyms 1 })
    hp hc hn hd hx hg
  exact ⟨_, Res.outcome_of_ok ((encSymbol_of_some hr).trans hmiss), hrest, husrc, hout, hsnk, rfl⟩

/-- Settles O45: READ_SYM answers `NONE`. -/
theorem encSymbolEndOfInput : Obligations.EncSymbolEndOfInput := by
  intro s hin hsrc
  obtain ⟨u, hr, hrest, husrc, -, -, hframe⟩ := readSym_nil (P := s.cfg) hin hsrc
  exact ⟨_, Res.outcome_of_ok (encSymbol_of_none hr), hrest, husrc,
    congrArg (fun x : State => { x with phase := .encTail }) hframe⟩

/-- Settles O46: with a match pending the counter's step after the pair is ADVANCE. -/
theorem finalPairOfPendingMatch : Obligations.FinalPairOfPendingMatch := by
  refine fun s => ⟨fun hc => Res.outcome_of_ok (encEndFinalPair_of_root hc),
    fun xs hp hm hc hn hx hg => ?_⟩
  obtain ⟨m, k, q, ht, hout, hsnk⟩ := encEndFinalPair_of_pending hc hn hx hg
  rw [advanceFinal_of_reset hm, advance_enc (.inr (by exact hp))] at ht
  exact ⟨_, Res.outcome_of_ok ht, hout, hsnk, rfl⟩

/-- Settles O47. -/
theorem terminatorCompletesEncode : Obligations.TerminatorCompletesEncode := by
  intro s xs hn hx hg
  obtain ⟨m, q, k, ht, hk, hbits, hsnk⟩ := encEndTerminator_completes hn hx hg
  exact ⟨_, k, Res.outcome_of_ok ht, hk, hbits, hsnk, rfl⟩

/-- Settles O48: at the boundary the counter after the final pair is 0, and the stop pair has no width. -/
theorem moduloAtBoundaryFaults : Obligations.ModuloAtBoundaryFaults := by
  refine fun s xs hm hp hc hn hlt hx hg => ⟨?_, fun hfull hturn => ?_⟩
  · obtain ⟨m, k, q, ht, hout, hsnk⟩ := encEndFinalPair_of_modulo hm hc hn hlt hx hg
    exact ⟨_, Res.outcome_of_ok ht, hout, hsnk, rfl⟩
  · obtain ⟨m, k, q, ht, -, -⟩ := encEndFinalPair_of_modulo (s := s.popAct) hm hc hn hlt hx hg
    obtain ⟨u, hu, hphase, hzero⟩ : ∃ u, encEndFinalPair s.cfg s.popAct = .ok () u ∧
        u.phase ≠ .fault ∧ u.nextCode = 0 := ⟨_, ht, by simp [hp], if_pos hfull⟩
    have hstep : step s = .next { u with cause := .badWidth, faultInfo := 0, phase := .fault } := by
      rw [step_eq_encEnd hturn hp, encEnd, hu, Res.bind_ok, encEndTerminator_of_zero hzero, Res.outcome_raise,
        State.enterFault_of_ne u _ hphase]
      rfl
    exact ⟨_, hstep, rfl, rfl, rfl, hzero⟩

/-- Settles O12: both are computed, and IDLE is where ENCODE and DECODE are accepted. -/
theorem encInitAndDecInit : Obligations.EncInitAndDecInit := fun s =>
  ⟨rfl, rfl, fun hp =>
    ⟨⟨encInit s.cfg s, issue_data_of_idle _ hp, rfl⟩, decInit s.cfg s, issue_data_of_idle _ hp, rfl⟩⟩

end

-- The decoder's operations where the environments answer, and DECODE from the write of its command.
section
/-! SUPPORT. DEC_PAIR and DEC_END where the environments answer, by the pair or the bits that come next (R221 to R234),
and the whole command, on a body and on any finite source (R235 to R237). -/

namespace Sys2Proof.Machine

open Sys2Proof Sys2Proof.Safety

variable {P : Params} {s t : State} {c : Code} {sym : Byte} {pre : List Byte} {w : Words} {bits rest : List Bool}

/-! ### DEC_PAIR and DEC_END -/

/-- DEC_PAIR once the pair is read (R230, R234): the stop pair is told apart before any code is looked up. -/
theorem decPair_of_readPair (hr : readPair P s.width s = .ok (c, sym) t) :
    decPair P s = if c = P.stopCode then .ok () t.stopPair else decWord P c sym t := by
  unfold decPair; rw [hr, Res.bind_ok]

/-- DEC_END sends what is buffered and completes (R233). -/
theorem decEnd_completes {xs : List Byte} (hx : SymsOut s xs) (hg : snkGood s.snk = true) :
    ∃ p, p.data = xs ∧ snkGood p = true ∧ decEnd s.cfg s = .ok () { s with
      snk := p, symCur := 0, wt := [(s.cfg.emptyCode.toNat, [])], nextCode := s.cfg.startCode
      bitCur := 0, pairLen := 0, pairEnd := false, done := true, phase := .idle } := by
  obtain ⟨_, u, hu, hframe, hdata, hsnk⟩ := Res.Spec.ok_of_good (flushSyms_spec True rfl hx fun _ => hg)
  refine ⟨u.snk, hdata, hsnk trivial, ?_⟩
  unfold decEnd
  rw [hu, Res.bind_ok, hframe]
  rfl

/-! ### Too few bits for a pair -/

/-- READ_BITS where too few bits are left takes the fault of the bound (R147, R303). -/
theorem readBits_short {w : Nat} (hw : widthOk w = true) (hlen : bits.length < w) (hin : BitsIn s bits)
    (hg : srcGood s.src = true) : ∃ t, readBits s.cfg w s = .raise bodyUnderrun t := by
  obtain ⟨t, ht, -, -⟩ := getBits_short w rfl hin hlen hg
  exact ⟨t, by unfold readBits; rw [if_pos hw, ht, Res.bind_raise]⟩

/-- READ_PAIR where too few bits are left: they end in the code field, or in the symbol field (R151, R303). -/
theorem readPair_short {w : Nat} (hw : widthOk w = true) (hlen : bits.length < w + 8) (hin : BitsIn s bits)
    (hg : srcGood s.src = true) : ∃ t, readPair s.cfg w s = .raise bodyUnderrun t ∧ ReadsFrame s t := by
  have hraise : ∃ t, readPair s.cfg w s = .raise bodyUnderrun t := by
    unfold readPair
    by_cases hcode : bits.length < w
    · obtain ⟨t, ht⟩ := readBits_short hw hcode hin hg
      exact ⟨t, by rw [ht, Res.bind_raise]⟩
    · have htake : (bits.take w).length = w := by rw [List.length_take]; omega
      have hvalue := bitsValue_lt s.cfg.valOrder (bits.take w)
      have hfield := valueBits_bitsValue s.cfg.valOrder (bits.take w)
      rw [htake] at hvalue hfield
      rw [← List.take_append_drop w bits, ← hfield] at hin
      obtain ⟨t, ht, hrest, htg, hframe⟩ := readBits_good rfl hw hvalue hin hg
      have hcfg : t.cfg = s.cfg := by rw [hframe]
      obtain ⟨u, hu⟩ := readBits_short (w := 8) (by decide) (by rw [List.length_drop]; omega) hrest htg
      rw [hcfg] at hu
      exact ⟨u, by rw [ht, Res.bind_ok, hu, Res.bind_raise]⟩
  obtain ⟨t, ht⟩ := hraise
  have hframe := readPair_leaves s.cfg w s
  rw [ht] at hframe
  exact ⟨t, ht, hframe⟩

/-- Enough bits for a pair are the bits of one (R93). -/
theorem exists_pair_of_length {n : Code} (hw : widthOk (bitlen n.toNat) = true)
    (hlen : bitlen n.toNat + 8 ≤ bits.length) :
    ∃ c sym rest, c.toNat < 2 ^ bitlen n.toNat ∧ bits = encodePair P (bitlen n.toNat) c sym ++ rest := by
  have hrange := widthOk_iff.1 hw
  obtain ⟨r, hr⟩ : ∃ r, decode P (.pair n) bits = .ok r := by
    rw [decode, decodePair]
    exact ⟨_, (if_neg (by omega)).trans (if_neg (by omega))⟩
  obtain ⟨c, sym, hc, -, hbits⟩ := pair_of_decode hr
  exact ⟨c, sym, r.2, hc, hbits⟩

/-! ### The steps of the command -/

theorem step_decode (hp : s.phase = .idle) {as : List HostAct} (hc : s.host.acts = .writeReg 0 4 :: as) :
    step s = .next (decInit s.cfg s.popAct) := by
  rw [step_hostAct hc (by simp)]
  exact issue_data_of_idle (s := s.popAct) _ hp

/-- After DEC_INIT the bits to come are those of the source (R229). -/
theorem decInit_bitsIn (s : State) : BitsIn (decInit s.cfg s) (s.src.data.flatMap byteBits) :=
  bitsIn_of_unread rfl rfl rfl

/-- In DEC_LOOP the step is DEC_PAIR (R28, R230). -/
theorem step_eq_decPair (hc : s.host.acts = []) (hp : s.phase = .decLoop) :
    step s = (decPair s.cfg s).outcome noResult := by
  rw [step_coreTurn (.inl hc), State.popAct_of_nil hc, fetchCore_decLoop hp, fetchPair_outcome]

/-! ### DECODE on a body -/

/-- DECODE from IDLE on a body, to its completion: the command's step, then the loop over the pairs. -/
theorem decode_run {ps : List (Code × Byte)} (hp : s.phase = .idle) (hc : s.host.acts = [.writeReg 0 4])
    (hsrc : srcGood s.src = true) (hsnk : snkGood s.snk = true) (hw : Words.run s.cfg ps = some w)
    (hbits : s.src.data.flatMap byteBits = pairsBits s.cfg s.cfg.startCode ps ++
      encodePair s.cfg (bitlen w.next.toNat) s.cfg.stopCode sym ++ rest) :
    ∃ t, run (ps.length + 3) s = .next t ∧ t.snk.data = s.snk.data ++ w.out ∧ t.phase = .idle ∧ t.done = true ∧
      t.host.acts = [] ∧ SameHeader s t ∧ t.totalSyms = countUp s.cfg s.totalSyms w.out.length ∧
      t.totalBits = countUp s.cfg s.totalBits
        ((pairsBits s.cfg s.cfg.startCode ps).length + (bitlen w.next.toNat + 8)) := by
  have hacts : s.popAct.host.acts = [] := by rw [State.popAct_of_cons hc]
  have hin := decInit_bitsIn s.popAct
  rw [State.popAct_src, hbits] at hin
  obtain ⟨t, hrun, hdata, -, hphase, hdone, hhost, hsame, hsyms, htot⟩ :=
    decode_loop ps (decInit_sim (s := s.popAct) rfl hsnk hsrc) (n := s.totalSyms) rfl hw hacts hin
  exact ⟨t, (run_succ (step_decode hp hc)).trans hrun, hdata, hphase, hdone, hhost ▸ hacts, hsame, hsyms, htot⟩

/-! ### DECODE on any source -/

/-- How DECODE ends: it completes, or takes `UNDERRUN` or `BAD_CODE` (R235). -/
structure DecodeEnded (t : State) : Prop where
  acts : t.host.acts = []
  ended : t.phase = .idle ∧ t.done = true ∨ t.phase = .fault ∧ (t.cause = .underrun ∨ t.cause = .badCode)

theorem DecodeEnded.of_raise {f : Raise} (hc : t.host.acts = []) (hp : t.phase = .decLoop)
    (hf : f.cause = .underrun ∨ f.cause = .badCode) : DecodeEnded (t.enterFault f) := by
  rw [State.enterFault_of_ne t f (by rw [hp]; decide)]
  exact ⟨hc, .inr ⟨rfl, hf⟩⟩

/-- The width in force is that of the words' counter (R172). -/
theorem DecSim.width (h : DecSim P s pre w) : s.width = bitlen w.next.toNat := by unfold State.width; rw [h.next]

/-- Fewer bits than a pair has: `UNDERRUN` (R147, R303). -/
theorem DecSim.step_short (h : DecSim P s pre w) (hc : s.host.acts = []) (hin : BitsIn s bits)
    (hlen : bits.length < bitlen w.next.toNat + 8) : ∃ t, step s = .next t ∧ DecodeEnded t := by
  rw [← h.width] at hlen
  obtain ⟨t, ht, hframe⟩ := readPair_short (by rw [h.width]; exact h.words.widthOk) hlen hin h.source
  refine ⟨t.enterFault bodyUnderrun, ?_, .of_raise (by rw [hframe]; exact hc) (by rw [hframe]; exact h.phase) (.inl rfl)⟩
  rw [step_eq_decPair hc h.phase, decPair, ht, Res.bind_raise, Res.outcome_raise]

/-- After the stop pair DEC_END completes the command (R232, R233). -/
theorem DecSim.step_stopped (h : DecSim P s pre w) (hc : s.host.acts = []) :
    ∃ t, step s.stopPair = .next t ∧ DecodeEnded t := by
  obtain ⟨p, -, -, hend⟩ := decEnd_completes (s := s.stopPair) (SymsOut.congr h.out rfl rfl rfl rfl) h.sink
  exact ⟨_, (step_decTail (s := s.stopPair) hc rfl).trans (Res.outcome_of_ok hend), hc, .inl ⟨rfl, rfl⟩⟩

/-- A pair whose code has no word: `BAD_CODE` (R221, R304). -/
theorem DecSim.badCode (h : DecSim P s pre w) (hc : s.host.acts = []) (sym : Byte)
    (hno : Mem.read w.table c.toNat = none) : ∃ t, (decWord P c sym s).outcome noResult = .next t ∧ DecodeEnded t := by
  rw [decWord_of_none sym (.inr (by rw [h.table]; exact hno)), Res.outcome_raise]
  exact ⟨_, rfl, .of_raise hc h.phase (.inr rfl)⟩

/-- The loop ends on every finite stream: each pair that goes on takes bits off it. -/
theorem decode_ends (h : DecSim P s pre w) (hc : s.host.acts = []) (hin : BitsIn s bits) :
    ∃ k t, k ≤ bits.length + 2 ∧ run k s = .next t ∧ DecodeEnded t := by
  induction hn : bits.length using Nat.strong_induction_on generalizing s w bits with
  | _ n ih =>
    by_cases hlen : bits.length < bitlen w.next.toNat + 8
    · obtain ⟨t, ht, hend⟩ := h.step_short hc hin hlen
      exact ⟨1, t, by omega, run_succ ht, hend⟩
    · obtain ⟨c, sym, rest, hfit, rfl⟩ := exists_pair_of_length (P := P) h.words.widthOk (Nat.le_of_not_lt hlen)
      rw [List.length_append, encodePair_length] at hn
      obtain ⟨t, hr, htsim, hrest, hhost, -⟩ := h.readPair hfit hin
      have hacts : t.host.acts = [] := by rw [hhost]; exact hc
      have hstep := step_decLoop hc h.phase hr (htsim.cfg.trans h.cfg.symm)
      rw [h.cfg] at hstep
      by_cases hstop : c = P.stopCode
      · obtain ⟨u, hu, hend⟩ := htsim.step_stopped hacts
        exact ⟨2, u, by omega, (run_succ (hstep.trans (if_pos hstop))).trans (run_succ hu), hend⟩
      · replace hstep := hstep.trans (if_neg hstop)
        cases hw : Words.step P w (c, sym) with
        | none =>
          obtain ⟨u, hu, hend⟩ := htsim.badCode hacts sym (Option.map_eq_none_iff.1 hw)
          exact ⟨1, u, by omega, run_succ (hstep.trans hu), hend⟩
        | some w' =>
          obtain ⟨u, hu, husim, hbits, huhost, -⟩ := htsim.word hw
          rw [htsim.cfg] at hu
          rw [← huhost] at hacts
          obtain ⟨k, v, hk, hv, hend⟩ := ih rest.length (by omega) husim hacts (hbits _ hrest) rfl
          exact ⟨k + 1, v, by omega, (run_succ (hstep.trans (Res.outcome_of_ok hu))).trans hv, hend⟩

end Sys2Proof.Machine
end

-- COMPRESS and DECOMPRESS: the header's steps before ENCODE and DECODE.
section
/-! SUPPORT. A container is a header and a body (R90); COMPRESS writes one, DECOMPRESS reads it back (R239, R252 to R257). -/

namespace Sys2Proof.Machine

open Sys2Proof Sys2Proof.Safety

variable {P P' : Params} {s : State} {S body : List Byte} {as : List HostAct}

/-! ### Bodies -/

/-- The bytes of a body that stands for `S` (R92): the pairs, the stop pair with symbol 0, fewer than eight zero bits. -/
def IsBody (P : Params) (S body : List Byte) : Prop :=
  ∃ ps w k, Words.run P ps = some w ∧ w.out = S ∧ k < 8 ∧
    body.flatMap byteBits = pairsBits P P.startCode ps ++
      encodePair P (bitlen w.next.toNat) P.stopCode 0 ++ List.replicate k false

/-- A body does not depend on `BLOCK` and `CTR_BITS` (R361). -/
theorem IsBody.congr (hP : coupled P P') (h : IsBody P S body) : IsBody P' S body := by
  obtain ⟨ps, w, k, hw, hout, hk, hbits⟩ := h
  refine ⟨ps, w, k, (words_congr hP ps).trans hw, hout, hk, ?_⟩
  obtain ⟨-, hstop, hstart, -, -, -, hval, -⟩ := id hP
  have hpair : encodePair P' = encodePair P := by funext w c sym; unfold encodePair; rw [hval]
  rw [hbits, pairsBits_congr hP, hpair, hstop, hstart]

/-- Bytes whose bits begin with those of `d` begin with `d`. -/
theorem exists_append_of_bits {d e : List Byte} {bits : List Bool}
    (h : e.flatMap byteBits = d.flatMap byteBits ++ bits) : ∃ f, e = d ++ f ∧ f.flatMap byteBits = bits := by
  have hlen : bits.length = 8 * (e.length - d.length) := by
    have := congrArg List.length h
    rw [List.length_append, flatMap_byteBits_length, flatMap_byteBits_length] at this
    omega
  have hf := flatMap_bitsBytes _ bits hlen
  refine ⟨bitsBytes bits, ?_, hf⟩
  rw [← bitsBytes_flatMap e, ← bitsBytes_flatMap (d ++ bitsBytes bits), List.flatMap_append, hf, h]

/-! ### The header's steps -/

theorem step_hdrWrite (hp : s.phase = .idle) (hc : s.host.acts = .writeReg 0 1 :: as) :
    step s = .next { s.popAct with done := false, cmdRej := false, phase := .hdrw } := by
  rw [step_hostAct hc (by simp)]
  exact issue_data_of_idle (s := s.popAct) _ hp

theorem step_hdrRead (hp : s.phase = .idle) (hc : s.host.acts = .writeReg 0 2 :: as) :
    step s = .next { s.popAct with done := false, cmdRej := false, hdrOk := false, phase := .hdrr } := by
  rw [step_hostAct hc (by simp)]
  exact issue_data_of_idle (s := s.popAct) _ hp

/-- The step of HDRW appends the header and completes (R253). -/
theorem step_hdrw (hturn : coreTurn s) (hp : s.phase = .hdrw) (hg : snkGood s.snk = true) :
    ∃ p, p.data = s.snk.data ++ headerBytes s.cfg.hdrOrder s.cfg.magic s.permIn ∧ snkGood p = true ∧
      step s = .next { s.popAct with snk := p, done := true, phase := .idle } := by
  obtain ⟨p, hw, hdata, hpg, -⟩ :=
    writeBytes_good (s := s.popAct) (d := headerBytes s.cfg.hdrOrder s.cfg.magic s.permIn) hg
  refine ⟨p, hdata, hpg, ?_⟩
  have hbody : hdrWriteBody s.cfg s.popAct = .ok () { s.popAct with snk := p, done := true, phase := .idle } := by
    unfold hdrWriteBody; rw [State.popAct_permIn, hw, Res.bind_ok]; rfl
  rw [step_coreTurn hturn, fetchCore_hdrw (s := s.popAct) hp]
  exact Res.outcome_of_ok hbody

/-- The step of HDRR on a source that begins with the block's own header delivers its permission bits (R255, R257). -/
theorem step_hdrr {m : BitVec 16} (hturn : coreTurn s) (hp : s.phase = .hdrr) (hg : srcGood s.src = true)
    (hdata : s.src.data = headerBytes s.cfg.hdrOrder s.cfg.magic m ++ S) :
    ∃ p, p.data = S ∧ srcGood p = true ∧
      step s = .next { s.popAct with src := p, permOut := m, hdrOk := true, done := true, phase := .idle } := by
  have hlen : (headerBytes s.cfg.hdrOrder s.cfg.magic m).length = hdrBytes := headerBytes_length _ _ _
  obtain ⟨p, hr, hrest, hpg, -⟩ := readBytes_good (n := hdrBytes) (s := s.popAct) hg
  rw [State.popAct_src, hdata, List.take_left' hlen] at hr
  rw [State.popAct_src, hdata, List.drop_left' hlen] at hrest
  refine ⟨p, hrest, hpg, ?_⟩
  have hfetch : fetch s = .one (.header s.cfg.magic m) { s.popAct with src := p } := by
    rw [fetch_coreTurn hturn, fetchCore_hdrr (s := s.popAct) hp, fetchHeader, hr]
    simp only [hlen, lt_irrefl, if_false, State.popAct_cfg, decodeHeader_headerBytes]
  rw [step_one hfetch]
  exact Res.outcome_of_ok (if_pos rfl)

/-! ### The two runs -/

/-- COMPRESS (R239): `PERM_IN`, HDR_WRITE and ENCODE put a container of the source behind what the sink held. -/
theorem compress_run (m : BitVec 16) (hp : s.phase = .idle) (hm : s.cfg.termWrap = .reset)
    (hc : s.host.acts = [.writeReg 2 m.toNat, .writeReg 0 1, .run, .writeReg 0 3])
    (hsrc : srcGood s.src = true) (hsnk : snkGood s.snk = true) :
    ∃ n t body, run n s = .next t ∧ t.host.acts = [] ∧ t.phase = .idle ∧ t.done = true ∧ t.cause = s.cause ∧
      IsBody s.cfg s.src.data body ∧
      t.snk.data = s.snk.data ++ headerBytes s.cfg.hdrOrder s.cfg.magic m ++ body := by
  have hidle : s.busy = false := by unfold State.busy; rw [hp]
  have h1 := hostRegisterAccess.2 s 1 m.toNat _ hc
  rw [if_pos ⟨rfl, hidle⟩, BitVec.ofNat_toNat, BitVec.setWidth_eq] at h1
  have h2 := step_hdrWrite (s := { s with permIn := m, host := ⟨[.writeReg 0 1, .run, .writeReg 0 3], s.host.reads⟩ })
    hp rfl
  obtain ⟨p, hdata, hpg, h3⟩ := step_hdrw (s := { s with
    permIn := m, host := ⟨[.run, .writeReg 0 3], s.host.reads⟩, done := false, cmdRej := false, phase := .hdrw })
    (.inr ⟨_, rfl⟩) rfl hsnk
  obtain ⟨t, ps, w, hrun, hends, hout, -⟩ := encode_run (s := { s with
    permIn := m, host := ⟨[.writeReg 0 3], s.host.reads⟩, done := true, cmdRej := false, phase := .idle, snk := p })
    rfl hm rfl hsrc hpg
  obtain ⟨k, hk, hbits⟩ := hends.bits
  rw [List.append_assoc, List.append_assoc, ← List.append_assoc (pairsBits _ _ _)] at hbits
  obtain ⟨body, hsplit, hbody⟩ := exists_append_of_bits hbits
  exact ⟨_, t, body, (run_succ h1).trans ((run_succ h2).trans ((run_succ h3).trans hrun)),
    by rw [hends.host]; rfl, hends.phase, hends.done, hends.cause, ⟨ps, w, k, hends.run, hout, hk, hbody⟩,
    hsplit.trans (congrArg (· ++ body) hdata)⟩

/-- DECOMPRESS (R239): HDR_READ and DECODE on a container deliver its permission bits and what its body stands for. -/
theorem decompress_run {m : BitVec 16} (hp : s.phase = .idle) (hc : s.host.acts = [.writeReg 0 2, .run, .writeReg 0 4])
    (hsrc : srcGood s.src = true) (hsnk : snkGood s.snk = true) (hbody : IsBody s.cfg S body)
    (hdata : s.src.data = headerBytes s.cfg.hdrOrder s.cfg.magic m ++ body) :
    ∃ n t, run n s = .next t ∧ t.host.acts = [] ∧ t.phase = .idle ∧ t.done = true ∧ t.cause = s.cause ∧
      t.hdrOk = true ∧ t.snk.data = s.snk.data ++ S ∧ t.permOut = m := by
  obtain ⟨ps, w, k, hw, rfl, -, hbits⟩ := hbody
  have h1 := step_hdrRead hp hc
  rw [State.popAct_of_cons hc] at h1
  obtain ⟨p, hpdata, hpg, h2⟩ := step_hdrr (s := { s with
    host := ⟨[.run, .writeReg 0 4], s.host.reads⟩, done := false, cmdRej := false, hdrOk := false, phase := .hdrr })
    (.inr ⟨_, rfl⟩) rfl hsrc hdata
  obtain ⟨t, hrun, hout, hphase, hdone, hacts, ⟨hcause, hperm, hok⟩, -⟩ := decode_run (s := { s with
    host := ⟨[.writeReg 0 4], s.host.reads⟩, cmdRej := false, src := p, permOut := m, hdrOk := true, done := true
    phase := .idle }) rfl rfl hpg hsnk hw (hpdata ▸ hbits)
  exact ⟨_, t, (run_succ h1).trans ((run_succ h2).trans hrun), hacts, hphase, hdone, hcause, hok, hout, hperm⟩

end Sys2Proof.Machine
end

-- The statements of family 44_decoder_wordtable.md.
section
open Sys2Proof Sys2Proof.Machine Sys2Proof.Safety

/-- Settles O60: COMPRESS writes a container, the parameters of both agree on what a body is, and DECOMPRESS reads it. -/
theorem roundTrip : Obligations.RoundTrip := by
  intro P P' S m plan plan' rest rest' out out' hP hm hsrc hout hempty hrest' hplan' hout' hempty'
  obtain ⟨n, t, body, hrun, hacts, hphase, hdone, hcause, hbody, hdata⟩ := compress_run
    (s := State.initial P ⟨S, plan, rest⟩ out ⟨[.writeReg 2 m.toNat, .writeReg 0 1, .run, .writeReg 0 3], []⟩)
    m rfl hm rfl hsrc hout
  have hheader : t.snk.data = headerBytes P'.hdrOrder P'.magic m ++ body := by
    obtain ⟨-, -, -, -, hmagic, horder, -, -⟩ := hP
    rw [hdata, hmagic, horder]
    show out.data ++ _ ++ _ = _
    rw [hempty]; rfl
  have hsrc' : srcGood ⟨t.snk.data, plan', rest'⟩ = true := Bool.and_eq_true_iff.2 ⟨hrest', hplan'⟩
  obtain ⟨n', u, hrun', hacts', hphase', hdone', hcause', hok, hres, hperm⟩ := decompress_run
    (s := State.initial P' ⟨t.snk.data, plan', rest'⟩ out' ⟨[.writeReg 0 2, .run, .writeReg 0 4], []⟩)
    rfl rfl hsrc' hout' (hbody.congr hP) hheader
  have hS : u.snk.data = S := hres.trans (congrArg (· ++ S) hempty')
  exact ⟨n, t, hrun, hacts, hphase, hdone, hcause, n', u, hrun', hacts', hphase', hdone', hcause', hok, hS, hperm⟩

/-- Settles O58: the run of DECODE from the write of its command. -/
theorem decodeWritesWordsOfBody : Obligations.DecodeWritesWordsOfBody := by
  intro s ps w sym rest hp hc hsrc hsnk hw hbits
  obtain ⟨t, hrun, hdata, hphase, hdone, -, -, hsyms, htot⟩ := decode_run hp hc hsrc hsnk hw hbits
  exact ⟨t, hrun, hdata, hphase, hdone, hsyms, htot⟩

/-- Settles O59: the command's step, then the loop on the bits of the source. -/
theorem decodeEndsOnEverySource : Obligations.DecodeEndsOnEverySource := by
  intro s hp hc hsrc hsnk
  have hacts : s.popAct.host.acts = [] := by rw [State.popAct_of_cons hc]
  obtain ⟨k, t, hk, hrun, hend⟩ :=
    decode_ends (decInit_sim (s := s.popAct) rfl hsnk hsrc) hacts (decInit_bitsIn s.popAct)
  rw [flatMap_byteBits_length, State.popAct_src] at hk
  exact ⟨k + 1, t, by omega, (run_succ (step_decode hp hc)).trans hrun, hend.acts, hend.ended⟩

/-- Settles O49: each operation on the table, by the cells it reads or sets. -/
theorem wordTableOperations : Obligations.WordTableOperations := by
  refine fun s c => ⟨fun wd hc hr => ?_, fun hp hno => ?_, fun wd b hc => ⟨_, ?_, fun k => Mem.read_write _ _ _ _⟩,
    _, rfl, fun k => ?_⟩
  · show (wtLookup s.cfg c s).outcome _ = _
    rw [wtLookup_of_read hc hr]; rfl
  · show (wtLookup s.cfg c s).outcome _ = _
    rw [wtLookup_of_none hno, Res.outcome_raise, State.enterFault_of_ne s _ hp]
  · exact Res.outcome_of_ok (wtAppend_of_lt wd b hc)
  · simp only [Mem.read, eq_comm]

/-- Settles O51: READ_PAIR takes the pair off the stream, and what follows is the stop pair's, the word's or the raise. -/
theorem decPairRunsNextPair : Obligations.DecPairRunsNextPair := by
  intro s c sym rest hp hn hc hg hin
  obtain ⟨t, hr, hrest, hsrc, hframe⟩ := readPair_good rfl (State.widthOk_of_pos hn) hc hin hg
  have hpair := decPair_of_readPair hr
  obtain ⟨m, k, l, e, p, rfl⟩ : ∃ m k l e p, t = { s with
      pairBuf := m, bitCur := k, pairLen := l, pairEnd := e, src := p
      totalBits := countUp s.cfg s.totalBits (bitlen s.nextCode.toNat + 8) } := ⟨_, _, _, _, _, hframe⟩
  refine ⟨_, hrest, hsrc, rfl, fun hstop => ?_, fun wd xs hstop hlt hcm hwd hx hsnk => ?_, fun hstop hno => ?_⟩
  · exact Res.outcome_of_ok (hpair.trans (if_pos hstop))
  · rw [if_neg hstop] at hpair
    obtain ⟨u, hu, hout, -, huf⟩ := decWord_of_read (s := { s with
        pairBuf := m, bitCur := k, pairLen := l, pairEnd := e, src := p
        totalBits := countUp s.cfg s.totalBits (bitlen s.nextCode.toNat + 8) })
      sym hp hlt hcm hwd (SymsOut.congr hx rfl rfl rfl rfl) hsnk
    exact ⟨u, Res.outcome_of_ok (hpair.trans hu), hout, huf⟩
  · have hbad := (hpair.trans (if_neg hstop)).trans (decWord_of_none sym hno)
    show (decPair s.cfg s).outcome noResult = _
    rw [hbad, Res.outcome_raise]
    exact congrArg _ (State.enterFault_of_ne _ _ (by simp [hp]))

/-- Settles O52. -/
theorem decEndCompletesDecode : Obligations.DecEndCompletesDecode := by
  intro s xs hx hg
  obtain ⟨p, hdata, hp, hend⟩ := decEnd_completes hx hg
  exact ⟨p, hdata, hp, Res.outcome_of_ok hend⟩

end

-- The header codec: the bytes of a header, and the steps of HDR_WRITE and HDR_READ.
section
/-! SUPPORT. The bytes of the header fields as slices of their values (R250 to R252), and HDR_WRITE's and HDR_READ's
operations in every case (R253 to R259). -/

namespace Sys2Proof

/-! ### Header fields -/

/-- The bytes of a value are its slices of eight bits (R250). -/
theorem leBytes_eq_map (n v : Nat) :
    leBytes n v = (List.range n).map fun i => BitVec.ofNat 8 (v >>> (8 * i)) := by
  induction n generalizing v with
  | zero => rfl
  | succ n ih =>
    rw [leBytes, ih, List.range_succ_eq_map, List.map_cons, List.map_map]
    congr 1
    refine List.map_congr_left fun i _ => ?_
    rw [Function.comp, Nat.mul_succ, Nat.add_comm, Nat.shiftRight_add, ← Nat.shiftRight_eq_div_pow v 8]

theorem leBytes_two (v : BitVec 16) : leBytes 2 v.toNat = [v.extractLsb' 0 8, v.extractLsb' 8 8] :=
  leBytes_eq_map 2 v.toNat

theorem leBytes_four (v : BitVec 32) :
    leBytes 4 v.toNat = [v.extractLsb' 0 8, v.extractLsb' 8 8, v.extractLsb' 16 8, v.extractLsb' 24 8] :=
  leBytes_eq_map 4 v.toNat

/-- A byte put below a value stands first among its bytes (R250). -/
theorem leValue_cons_of_eq {w : Nat} {x : BitVec w} {d : List Byte} (b : Byte) (h : leValue d = x.toNat) :
    leValue (b :: d) = (x ++ b).toNat := by
  rw [leValue, h, BitVec.toNat_append, ← Nat.shiftLeft_add_eq_or_of_lt b.isLt, Nat.shiftLeft_eq]
  omega

/-- The bytes of a swapped value are those of the value in the opposite order (R251). -/
theorem leBytes_swap16 (v : BitVec 16) : leBytes 2 (swap16 v).toNat = (leBytes 2 v.toNat).reverse := by
  have hvalue : leValue (leBytes 2 v.toNat).reverse = (swap16 v).toNat := by
    rw [leBytes_two]
    exact leValue_cons_of_eq _ (Nat.add_zero _)
  rw [← hvalue]
  simpa using leBytes_leValue (leBytes 2 v.toNat).reverse

theorem leBytes_swap32 (v : BitVec 32) : leBytes 4 (swap32 v).toNat = (leBytes 4 v.toNat).reverse := by
  have hvalue : leValue (leBytes 4 v.toNat).reverse = (swap32 v).toNat := by
    rw [leBytes_four]
    exact leValue_cons_of_eq _ (leValue_cons_of_eq _ (leValue_cons_of_eq _ (Nat.add_zero _)))
  rw [← hvalue]
  simpa using leBytes_leValue (leBytes 4 v.toNat).reverse

theorem leValue_append (d e : List Byte) : leValue (d ++ e) = leValue d + 256 ^ d.length * leValue e := by
  induction d with
  | nil => simp [leValue]
  | cons b d ih => rw [List.cons_append, leValue, ih, leValue, List.length_cons]; ring

/-- The low 16 bits of a value are those of its first two bytes (R250). -/
theorem ofNat_leValue_take_two {d : List Byte} (h : 2 ≤ d.length) :
    BitVec.ofNat 16 (leValue (d.take 2)) = BitVec.ofNat 16 (leValue d) := by
  have hlen : (d.take 2).length = 2 := by rw [List.length_take]; omega
  have hsplit := leValue_append (d.take 2) (d.drop 2)
  rw [List.take_append_drop, hlen] at hsplit
  apply BitVec.eq_of_toNat_eq
  rw [BitVec.toNat_ofNat, BitVec.toNat_ofNat, hsplit]
  omega

/-- Four bytes read as the magic exactly if they are its bytes (R252, R255). -/
theorem ofNat_fieldValue_eq_magic {P : Params} {d : List Byte} (h : d.length = 4) :
    BitVec.ofNat 32 (fieldValue P.hdrOrder d) = P.magic ↔ d = magicBytes P := by
  have hlt := fieldValue_lt P.hdrOrder d
  have hback := fieldBytes_fieldValue P.hdrOrder d
  rw [h] at hlt hback
  constructor
  · intro hm
    rw [magicBytes, ← hm, BitVec.toNat_ofNat, Nat.mod_eq_of_lt (by exact hlt), hback]
  · intro hd
    rw [hd, magicBytes, fieldValue_fieldBytes _ _ _ P.magic.isLt, BitVec.ofNat_toNat, BitVec.setWidth_eq]

namespace Machine

open Safety

variable {P : Params} {s t : State} {d rest : List Byte}

/-! ### HDR_WRITE -/

/-- HDR_WRITE's only raise is that of the sink, and it is taken in the phase the step began in (R253, R302). -/
theorem hdrWriteBody_raise {f : Raise} (h : hdrWriteBody P s = .raise f t) :
    f = ⟨.ioError, 1⟩ ∧ t.phase = s.phase := by
  rcases Res.bind_eq_raise.1 h with hw | ⟨_, _, _, hw⟩
  · have hframe := writeBytes_leaves (headerBytes P.hdrOrder P.magic s.permIn) s
    rw [hw] at hframe
    refine ⟨writeBytes_raisesOnly _ _ _ _ hw, ?_⟩
    rw [hframe]
  · cases hw

/-! ### HDR_READ, by what the source delivers -/

/-- Where the fields are little-endian the information of `INVALID_MAGIC` is the first two bytes found (R255, R300). -/
theorem invalidMagic_ofNat_leValue (h : 4 ≤ d.length) :
    invalidMagic (BitVec.ofNat 32 (leValue (d.take 4))) =
      ⟨.invalidMagic, BitVec.ofNat 16 (leValue (d.take 2))⟩ := by
  have hlow := ofNat_leValue_take_two (d := d.take 4) (by rw [List.length_take]; omega)
  rw [List.take_take] at hlow
  rw [invalidMagic, BitVec.setWidth_ofNat_of_le (by decide), ← hlow]; rfl

/-- The magic is tested as soon as its four bytes are there (R255, R258). -/
theorem hdrReadBody_of_wrong_magic (hr : readBytes hdrBytes s = .ok d t) (h4 : 4 ≤ d.length)
    (hm : d.take 4 ≠ magicBytes P) :
    hdrReadBody P s = .raise (invalidMagic (BitVec.ofNat 32 (fieldValue P.hdrOrder (d.take 4)))) t := by
  have hlen : (d.take 4).length = 4 := by rw [List.length_take]; omega
  rw [hdrReadBody, hr, Res.bind_ok]
  split
  · rw [shortHeader, if_pos ⟨h4, hm⟩]
  · rw [acceptHeader, if_neg (mt (ofNat_fieldValue_eq_magic hlen).1 hm)]

theorem hdrReadBody_of_short (hr : readBytes hdrBytes s = .ok d t) (hd : d.length < 6)
    (hm : ¬ (4 ≤ d.length ∧ d.take 4 ≠ magicBytes P)) : hdrReadBody P s = .raise headerUnderrun t := by
  rw [hdrReadBody, hr, Res.bind_ok, if_pos (by exact hd), shortHeader, if_neg hm]

theorem hdrReadBody_of_right_magic (hr : readBytes hdrBytes s = .ok d t) (hd : 6 ≤ d.length)
    (hm : d.take 4 = magicBytes P) :
    hdrReadBody P s = .ok () (State.finish
      { t with permOut := BitVec.ofNat 16 (fieldValue P.hdrOrder (d.drop 4)), hdrOk := true }) := by
  have hlen : (d.take 4).length = 4 := by rw [List.length_take]; omega
  rw [hdrReadBody, hr, Res.bind_ok, if_neg (by exact not_lt.2 hd), acceptHeader,
    if_pos ((ofNat_fieldValue_eq_magic hlen).2 hm)]

/-- In HDRR the step is the rest of HDR_READ (R28, R255). -/
theorem step_eq_hdrReadBody (hturn : coreTurn s) (hp : s.phase = .hdrr) :
    step s = (hdrReadBody s.cfg s.popAct).outcome noResult := by
  rw [step_coreTurn hturn, fetchCore_hdrr (s := s.popAct) hp, fetchHeader_outcome, State.popAct_cfg]

/-- In HDRR the step meets the record of the next six bytes (R255, R259). -/
theorem fetch_hdrr_of_bytes (hturn : coreTurn s) (hp : s.phase = .hdrr) (hg : srcGood s.src = true)
    (hdata : s.src.data = d ++ rest) (hlen : d.length = hdrBytes) :
    ∃ p, p.data = rest ∧ srcGood p = true ∧ fetch s = .one (decodeHeader s.cfg d) { s.popAct with src := p } := by
  obtain ⟨p, hr, hrest, hpg, -⟩ := readBytes_good (n := hdrBytes) (s := s.popAct) hg
  rw [State.popAct_src, hdata, List.take_left' hlen] at hr
  rw [State.popAct_src, hdata, List.drop_left' hlen] at hrest
  refine ⟨p, hrest, hpg, ?_⟩
  rw [fetch_coreTurn hturn, fetchCore_hdrr (s := s.popAct) hp, fetchHeader, hr]
  exact if_neg (by omega)

end Machine

end Sys2Proof
end

-- The statements of family 45_header_codec.md.
section
open Sys2Proof Sys2Proof.Machine Sys2Proof.Safety

/-- Settles O13: the acceptance, the step of HDRW with its bytes written out, and the one raise of WRITE_BYTES. -/
theorem hdrWriteAppendsHeader : Obligations.HdrWriteAppendsHeader := by
  refine ⟨fun s hp => issue_data_of_idle _ hp, fun s hturn hp horder hg => ?_, fun s t hturn hp ht hf => ?_⟩
  · obtain ⟨p, hdata, hpg, hstep⟩ := step_hdrw hturn hp hg
    refine ⟨p, ?_, hpg, hstep⟩
    rw [hdata, horder, headerBytes, fieldBytes, fieldBytes, leBytes_four, leBytes_two]; rfl
  · rw [step_coreTurn hturn, fetchCore_hdrw (s := s.popAct) hp] at ht
    rcases Res.outcome_eq_next.1 ht with ⟨a, u, hu, rfl⟩ | ⟨f, u, hu, rfl⟩
    · rw [noResult_eq, hdrWriteBody_phase hu] at hf; cases hf
    · obtain ⟨rfl, hphase⟩ := hdrWriteBody_raise hu
      rw [State.enterFault_of_ne u _ (by rw [hphase, State.popAct_phase, hp]; decide)]
      exact ⟨rfl, rfl⟩

/-- Settles O15: the acceptance, and the step by the bytes that READ_BYTES delivers. -/
theorem hdrReadValidatesThenDelivers : Obligations.HdrReadValidatesThenDelivers := by
  refine ⟨fun s hp => issue_data_of_idle _ hp, fun s hturn hp horder hg => ?_⟩
  intro d
  obtain ⟨p, hr, hdata, hpg, -⟩ := readBytes_good (n := hdrBytes) (s := s.popAct) hg
  have hmagic : magicBytes s.cfg = leBytes 4 s.cfg.magic.toNat := by rw [magicBytes, horder]; rfl
  have hfield (e : List Byte) : fieldValue s.cfg.hdrOrder e = leValue e := by rw [horder]; rfl
  have hphase : ({ s.popAct with src := p } : State).phase ≠ .fault := by simp [hp]
  refine ⟨p, hdata, hpg, ?_⟩
  rw [step_eq_hdrReadBody hturn hp, ← hmagic]
  split_ifs with hwrong hshort
  · have hbad := hdrReadBody_of_wrong_magic (d := d) hr hwrong.1 hwrong.2
    rw [hfield, invalidMagic_ofNat_leValue hwrong.1] at hbad
    rw [hbad, Res.outcome_raise, State.enterFault_of_ne _ _ hphase]
  · rw [hdrReadBody_of_short hr hshort hwrong, Res.outcome_raise, State.enterFault_of_ne _ _ hphase]; rfl
  · have hright : d.take 4 = magicBytes s.cfg := by
      by_contra hne; exact hwrong ⟨by omega, hne⟩
    rw [Res.outcome_of_ok (hdrReadBody_of_right_magic hr (not_lt.1 hshort) hright), hfield]; rfl

/-- Settles O16: the command's step, the step of HDRR on the block's own header, and the bytes of swapped values. -/
theorem headerRoundTrip : Obligations.HeaderRoundTrip := by
  refine ⟨fun s m rest hp hc hg hdata => ?_, fun magic m => ?_⟩
  · have hcmd := step_hdrRead hp hc
    rw [State.popAct_of_cons hc] at hcmd
    obtain ⟨p, hrest, hpg, hread⟩ := step_hdrr (s := { s with
      host := ⟨[], s.host.reads⟩, done := false, cmdRej := false, hdrOk := false, phase := .hdrr })
      (.inl rfl) rfl hg hdata
    exact ⟨p, hrest, hpg, (run_succ hcmd).trans (run_succ hread)⟩
  · simp only [headerBytes, fieldBytes, leBytes_swap32, leBytes_swap16, List.reverse_reverse]

/-- Settles O8: the bits of the six bytes decode to the record that the step meets. -/
theorem stepRunsHeaderRecord : Obligations.StepRunsHeaderRecord := by
  intro s d rest i hturn hp hg hdata hlen hdec
  obtain ⟨p, hrest, hpg, hfetch⟩ := fetch_hdrr_of_bytes hturn hp hg hdata hlen
  have hrecord := decode_header_bytes s.cfg hlen []
  rw [List.append_nil, hdec] at hrecord
  cases hrecord
  exact ⟨p, hrest, hpg, step_one hfetch⟩

/-- Settles O14: the record by the test of its magic. -/
theorem headerRecordEffect : Obligations.HeaderRecordEffect := by
  intro s m perm hp
  show (acceptHeader s.cfg m perm s).outcome noResult = _
  unfold acceptHeader
  split
  · rfl
  · rw [Res.outcome_raise, State.enterFault_of_ne s _ hp]; rfl

end

-- Which commands are accepted, and what the host does to the streams.
section
/-! SUPPORT. Acceptance by code and phase (R272, R274), and the host's connections and resets by whether the block is busy
(R271, R340, R357; the choices of logs 15 and 16). -/

namespace Sys2Proof.Machine

open Sys2Proof Sys2Proof.Safety

variable {s : State}

/-! ### Acceptance (R272, R274) -/

theorem cmdCode_cases : ∀ c : BitVec 3, c = 0 ∨ c = 1 ∨ c = 2 ∨ c = 3 ∨ c = 4 ∨ c = 5 ∨ c = 6 ∨ c = 7 := by
  decide

/-- Whether a write of the code to `CMD` is accepted. -/
def State.acceptsCmd (s : State) (c : BitVec 3) : Bool :=
  match c.toNat with
  | 0 | 5 => s.acceptsControl
  | 1 | 2 | 3 | 4 => s.acceptsData
  | _ => false

/-- Every command is an issue under the table of R274, and its effect clears `cmd_rej`. (Codes 6 and 7 never have one.) -/
theorem exec_decodeCmd_eq_issue (c : BitVec 3) (s : State) :
    ∃ e, exec (decodeCmd c) s = issue (s.acceptsCmd c) e s ∧ e.cmdRej = false := by
  rcases cmdCode_cases c with rfl | rfl | rfl | rfl | rfl | rfl | rfl | rfl
  · exact ⟨{ s with cmdRej := false }, rfl, rfl⟩
  · exact ⟨{ s with done := false, cmdRej := false, phase := .hdrw }, rfl, rfl⟩
  · exact ⟨{ s with done := false, cmdRej := false, hdrOk := false, phase := .hdrr }, rfl, rfl⟩
  · exact ⟨encInit s.cfg s, rfl, rfl⟩
  · exact ⟨decInit s.cfg s, rfl, rfl⟩
  · exact ⟨s.cleared, rfl, rfl⟩
  · exact ⟨{ s with cmdRej := false }, rfl, rfl⟩
  · exact ⟨{ s with cmdRej := false }, rfl, rfl⟩

theorem State.acceptsControl_eq_false_iff : s.acceptsControl = false ↔ s.busy = true := by
  rw [State.acceptsControl, Bool.not_eq_false']

theorem State.acceptsData_eq_false_iff : s.acceptsData = false ↔ s.busy = true ∨ s.phase = .fault := by
  rw [State.acceptsData, decide_eq_false_iff_not, State.busy_iff]
  by_cases hf : s.phase = .fault <;> simp [hf]

/-- The grounds of rejection (R272). -/
theorem State.acceptsCmd_eq_false_iff (c : BitVec 3) (s : State) :
    s.acceptsCmd c = false ↔
      s.busy = true ∨ (c = 6 ∨ c = 7) ∨ s.phase = .fault ∧ (c = 1 ∨ c = 2 ∨ c = 3 ∨ c = 4) := by
  rcases cmdCode_cases c with rfl | rfl | rfl | rfl | rfl | rfl | rfl | rfl
  all_goals simp [State.acceptsCmd, State.acceptsControl_eq_false_iff, State.acceptsData_eq_false_iff]

/-- NOP and CLEAR are accepted where the block is not busy. -/
theorem issue_control_of_not_busy (e : State) (hb : s.busy = false) : issue s.acceptsControl e s = .next e := by
  rw [State.acceptsControl, hb]; rfl

/-! ### The streams (R271, R340, R357) -/

theorem hostConnect_of_not_busy (t : State) (hb : s.busy = false) : hostConnect t s = .next t := by
  rw [hostConnect, hb]; rfl

theorem hostConnect_of_busy (t : State) (hb : s.busy = true) : hostConnect t s = .refused .streamTouchedWhileBusy :=
  if_pos hb

/-- Hardware reset gives the state after reset, in the same streams where the block was not busy (R340). -/
theorem hardReset_eq_initial_streams (taken : Nat) (sent : List Byte) (s : State) :
    ∃ src snk, s.hardReset taken sent = State.initial s.cfg src snk s.host ∧
      (s.busy = false → src = s.src ∧ snk = s.snk) := by
  cases hb : s.busy with
  | false => exact ⟨s.src, s.snk, by rw [State.hardReset, hb]; rfl, fun _ => ⟨rfl, rfl⟩⟩
  | true =>
    obtain ⟨src, snk, hr⟩ := hardReset_eq_initial taken sent s
    exact ⟨src, snk, hr, nofun⟩

end Sys2Proof.Machine
end

-- The statements of family 46_commands.md.
section
open Sys2Proof Sys2Proof.Machine Sys2Proof.Safety

/-- Settles O10: a command is an issue, and what is not accepted is what R272 names. -/
theorem commandAcceptance : Obligations.CommandAcceptance := by
  intro s c rejected
  obtain ⟨e, hexec, hclears⟩ := exec_decodeCmd_eq_issue c s
  have hrejected : s.acceptsCmd c = false ↔ rejected := s.acceptsCmd_eq_false_iff c
  refine ⟨fun h => ?_, fun h => ⟨e, ?_, hclears⟩, rfl, rfl⟩
  · rw [hexec, hrejected.2 h]; rfl
  · rw [hexec, Bool.of_not_eq_false (mt hrejected.1 h)]; rfl

/-- Settles O11: each is accepted, and its effect is written out. -/
theorem nopAndClearEffects : Obligations.NopAndClearEffects :=
  fun _ hb => ⟨issue_control_of_not_busy _ hb, issue_control_of_not_busy _ hb⟩

/-- Settles O19: the step is the connection, by whether the block is busy. -/
theorem hostConnectsStreams : Obligations.HostConnectsStreams := by
  refine fun s as => ⟨fun p h => ?_, fun p h => ?_⟩
  all_goals
    rw [step_hostAct h (by simp), State.popAct_of_cons h]
    exact ⟨hostConnect_of_not_busy _, hostConnect_of_busy _⟩

/-- Settles O20: a reset gives `State.initial`, in the same streams where the block was not busy; so does CLEAR. -/
theorem hardwareResetLikeClear : Obligations.HardwareResetLikeClear := by
  refine fun s taken sent as h => ⟨?_, issue_control_of_not_busy _⟩
  rw [step_hostAct h (by simp), State.popAct_of_cons h]
  obtain ⟨src, snk, hr, hstreams⟩ :=
    hardReset_eq_initial_streams taken sent { s with host := { s.host with acts := as } }
  exact ⟨src, snk, congrArg _ hr, hstreams⟩

end

-- Which faults an instruction takes.
section
/-! SUPPORT. The raises of an instruction, each with what it says of the state the instruction began in (R300 to R305,
R320). The channels leave what a raise speaks of as it was, so the argument is made once, for a run that has come from `s`
to any state `Steady s`. -/

namespace Sys2Proof.Machine

open Sys2Proof Sys2Proof.Safety

variable {α β : Type} {P : Params} {i : Instr} {s t u : State}

/-! ### What a raise speaks of -/

/-- A run begun in `s` has left the counter, the word table, `phase` and `done`, and a port that answers still does. -/
def Steady (s t : State) : Prop :=
  t.phase = s.phase ∧ t.done = s.done ∧ t.nextCode = s.nextCode ∧ t.wt = s.wt ∧
    (srcGood s.src = true → srcGood t.src = true) ∧ (snkGood s.snk = true → snkGood t.snk = true)

theorem Steady.refl (s : State) : Steady s s := ⟨rfl, rfl, rfl, rfl, id, id⟩

theorem Steady.phase : Steady s t → t.phase = s.phase
  | ⟨hphase, _⟩ => hphase

theorem Steady.done : Steady s t → t.done = s.done
  | ⟨_, hdone, _⟩ => hdone

theorem Steady.width : Steady s t → t.width = s.width
  | ⟨_, _, hnext, _⟩ => by rw [State.width, hnext, State.width]

theorem Steady.wt : Steady s t → t.wt = s.wt
  | ⟨_, _, _, hwt, _⟩ => hwt

theorem Steady.src : Steady s t → srcGood s.src = true → srcGood t.src = true
  | ⟨_, _, _, _, hsrc, _⟩ => hsrc

theorem Steady.snk : Steady s t → snkGood s.snk = true → snkGood t.snk = true
  | ⟨_, _, _, _, _, hsnk⟩ => hsnk

theorem Steady.setSrc (h : Steady s t) (hu : u = { t with src := u.src })
    (hg : srcGood s.src = true → srcGood u.src = true) : Steady s u := by
  obtain ⟨hphase, hdone, hnext, hwt, -, hsnk⟩ := h
  rw [hu]
  exact ⟨hphase, hdone, hnext, hwt, hg, hsnk⟩

theorem Steady.setSnk (h : Steady s t) (hu : u = { t with snk := u.snk })
    (hg : snkGood s.snk = true → snkGood u.snk = true) : Steady s u := by
  obtain ⟨hphase, hdone, hnext, hwt, hsrc, -⟩ := h
  rw [hu]
  exact ⟨hphase, hdone, hnext, hwt, hsrc, hg⟩

/-- The raises of an instruction run in `s`: one for each row of R300, and two for the two ports. -/
inductive RaiseOf (i : Instr) (s : State) : Raise → Prop
  | magic {m : BitVec 32} {perm : BitVec 16} (hi : i = .header m perm) (hm : m ≠ s.cfg.magic) :
      RaiseOf i s (invalidMagic m)
  | source (h : ¬ srcGood s.src = true) : RaiseOf i s ⟨.ioError, 0⟩
  | sink (h : ¬ snkGood s.snk = true) : RaiseOf i s ⟨.ioError, 1⟩
  | underrun : RaiseOf i s bodyUnderrun
  | code {c : Code} (h : Mem.read s.wt c.toNat = none ∨ s.cfg.maxCode ≤ c.toNat) : RaiseOf i s ⟨.badCode, c⟩
  | width {w : Nat} (hi : channelWidth s i = some w) (hw : w < 1 ∨ 16 < w) : RaiseOf i s (badWidth w)

/-- An operation run for the instruction `i` begun in `s` ends in `Q`, or with a raise of `i` in a state steady since `s`. -/
def Res.RaisesOf (i : Instr) (s : State) (r : Res α) (Q : State → Prop) : Prop :=
  r.Spec (fun _ t => Q t) (fun f t => RaiseOf i s f ∧ Steady s t) fun _ => True

theorem Res.RaisesOf.bind {r : Res α} {k : α → State → Res β} {Q Q' : State → Prop} (h : r.RaisesOf i s Q)
    (hk : ∀ a t, Q t → (k a t).RaisesOf i s Q') : (r.bind k).RaisesOf i s Q' := Res.Spec.bind h hk

theorem Res.RaisesOf.of_leaves {r : Res α} {Q : State → Prop} (h : r.Leaves Q) (hr : r.RaisesOnly fun _ => False) :
    r.RaisesOf i s Q := by
  cases r with
  | ok a t => exact h
  | raise f t => exact (hr f t rfl).elim
  | stop f => trivial

theorem fetchCells_raisesOf {size n k : Nat} {m : Mem α} (h : Steady s t) :
    (fetchCells size m n k t).RaisesOf i s (Steady s) :=
  .of_leaves ((fetchCells_leaves t).mono fun _ hu => hu ▸ h) (fetchCells_raisesNothing _ t)

theorem fetchCell_raisesOf {size n : Nat} {m : Mem α} (h : Steady s t) : (fetchCell size m n t).RaisesOf i s (Steady s) :=
  .of_leaves ((fetchCell_leaves t).mono fun _ hu => hu ▸ h) (fetchCell_raisesNothing _ t)

/-! ### The ports (R302) -/

/-- READ_BYTES raises where the source does not answer well. -/
theorem readBytes_raisesOf (n : Nat) (h : Steady s t) : (readBytes n t).RaisesOf i s (Steady s) := by
  by_cases hg : srcGood t.src = true
  · obtain ⟨p, hr, -, hp, -⟩ := readBytes_good (n := n) hg
    rw [hr]
    exact h.setSrc rfl fun _ => hp
  · have hs : ¬ srcGood s.src = true := fun hs => hg (h.src hs)
    exact (readBytes_spec n t).mono (fun _ _ hu => h.setSrc hu.1 fun hs' => absurd hs' hs)
      (fun _ _ hf => ⟨hf.1 ▸ .source hs, h.setSrc hf.2.1 fun hs' => absurd hs' hs⟩) fun _ _ => trivial

/-- WRITE_BYTES raises where the sink does not answer well. -/
theorem writeBytes_raisesOf (d : List Byte) (h : Steady s t) : (writeBytes d t).RaisesOf i s (Steady s) :=
  ((writeBytes_spec (snkGood s.snk = true) d t h.snk).leaves (writeBytes_leaves d t)).mono
    (fun _ _ hu => h.setSnk hu.2 hu.1.2.2)
    (fun _ _ hf => ⟨hf.1.1 ▸ .sink hf.1.2, h.setSnk hf.2 fun hs => absurd hs hf.1.2⟩) fun _ _ => trivial

/-! ### The bit channel (R303, R305) -/

theorem sendPairBytes_raisesOf (n : Nat) (h : Steady s t) : (sendPairBytes P n t).RaisesOf i s (Steady s) :=
  Res.RaisesOf.bind (fetchCells_raisesOf h) fun _ _ hu => writeBytes_raisesOf _ hu

theorem putBit_raisesOf (b : Bool) (h : Steady s t) : (putBit P b t).RaisesOf i s (Steady s) := by
  unfold putBit sendFullPairs
  split
  · split
    · exact Res.RaisesOf.bind (sendPairBytes_raisesOf _ h) fun _ _ hu => hu
    · exact h
  · trivial

theorem putBits_raisesOf (bs : List Bool) (h : Steady s t) : (putBits P bs t).RaisesOf i s (Steady s) := by
  induction bs generalizing t with
  | nil => exact h
  | cons b bs ih => exact Res.RaisesOf.bind (putBit_raisesOf b h) fun _ _ hu => ih hu

/-- WRITE_BITS raises for its width where that is the one `i` gives the channel. -/
theorem writeBits_raisesOf {v : BitVec 16} {w : Nat} (hw : channelWidth s i = some w ∨ widthOk w = true) (h : Steady s t) :
    (writeBits P v w t).RaisesOf i s (Steady s) := by
  unfold writeBits
  split
  · exact Res.RaisesOf.bind (putBits_raisesOf _ h) fun _ _ hu => hu
  · next hbad => exact ⟨.width (hw.resolve_right hbad) (not_widthOk_iff.1 hbad), h⟩

theorem writePair_raisesOf {c : Code} {b : Byte} {w : Nat} (hw : channelWidth s i = some w) (h : Steady s t) :
    (writePair P c b w t).RaisesOf i s (Steady s) :=
  Res.RaisesOf.bind (writeBits_raisesOf (.inl hw) h) fun _ _ hu => writeBits_raisesOf (.inr rfl) hu

theorem padByte_steady (h : Steady s t) : Steady s t.padByte := by
  unfold State.padByte
  split <;> exact h

theorem flushBits_raisesOf (h : Steady s t) : (flushBits P t).RaisesOf i s (Steady s) := by
  unfold flushBits
  split
  · exact Res.RaisesOf.bind (sendPairBytes_raisesOf _ (padByte_steady h)) fun _ _ hu => hu
  · exact padByte_steady h

theorem pairFill_raisesOf (h : Steady s t) : (pairFill P t).RaisesOf i s (Steady s) :=
  Res.RaisesOf.bind (readBytes_raisesOf _ h) fun _ _ hu => hu

theorem takeBit_raisesOf (h : Steady s t) : (takeBit P t).RaisesOf i s (Steady s) :=
  Res.RaisesOf.bind (fetchCell_raisesOf h) fun _ _ hu => hu

theorem getBit_raisesOf (h : Steady s t) : (getBit P t).RaisesOf i s (Steady s) := by
  unfold getBit
  split
  · split
    · exact ⟨.underrun, h⟩
    · refine Res.RaisesOf.bind (pairFill_raisesOf h) fun _ u hu => ?_
      split
      · exact ⟨.underrun, hu⟩
      · exact takeBit_raisesOf hu
  · exact takeBit_raisesOf h

theorem getBits_raisesOf (w : Nat) (h : Steady s t) : (getBits P w t).RaisesOf i s (Steady s) := by
  induction w generalizing t with
  | zero => exact h
  | succ w ih => exact Res.RaisesOf.bind (getBit_raisesOf h) fun _ _ hu => Res.RaisesOf.bind (ih hu) fun _ _ hv => hv

/-- READ_BITS raises for its width where that is the one `i` gives the channel. -/
theorem readBits_raisesOf {w : Nat} (hw : channelWidth s i = some w ∨ widthOk w = true) (h : Steady s t) :
    (readBits P w t).RaisesOf i s (Steady s) := by
  unfold readBits
  split
  · exact Res.RaisesOf.bind (getBits_raisesOf _ h) fun _ _ hu => hu
  · next hbad => exact ⟨.width (hw.resolve_right hbad) (not_widthOk_iff.1 hbad), h⟩

theorem readPair_raisesOf {w : Nat} (hw : channelWidth s i = some w) (h : Steady s t) :
    (readPair P w t).RaisesOf i s (Steady s) :=
  Res.RaisesOf.bind (readBits_raisesOf (.inl hw) h) fun _ _ hu =>
    Res.RaisesOf.bind (readBits_raisesOf (.inr rfl) hu) fun _ _ hv => hv

/-! ### The byte channel -/

theorem symFill_raisesOf (h : Steady s t) : (symFill P t).RaisesOf i s (Steady s) :=
  Res.RaisesOf.bind (readBytes_raisesOf _ h) fun _ _ hu => hu

theorem takeSym_raisesOf (h : Steady s t) : (takeSym P t).RaisesOf i s (Steady s) :=
  Res.RaisesOf.bind (fetchCell_raisesOf h) fun _ _ hu => hu

theorem readSym_raisesOf (h : Steady s t) : (readSym P t).RaisesOf i s (Steady s) := by
  unfold readSym
  split
  · split
    · exact h
    · refine Res.RaisesOf.bind (symFill_raisesOf h) fun _ u hu => ?_
      split
      · exact hu
      · exact takeSym_raisesOf hu
  · exact takeSym_raisesOf h

theorem sendSyms_raisesOf (n : Nat) (h : Steady s t) : (sendSyms P n t).RaisesOf i s (Steady s) :=
  Res.RaisesOf.bind (fetchCells_raisesOf h) fun _ _ hu => writeBytes_raisesOf _ hu

theorem writeSym_raisesOf (b : Byte) (h : Steady s t) : (writeSym P b t).RaisesOf i s (Steady s) := by
  unfold writeSym sendFullSyms
  split
  · split
    · exact Res.RaisesOf.bind (sendSyms_raisesOf _ h) fun _ _ hu => hu
    · exact h
  · trivial

theorem writeWord_raisesOf (wd : List Byte) (h : Steady s t) : (writeWord P wd t).RaisesOf i s (Steady s) := by
  induction wd generalizing t with
  | nil => exact h
  | cons b bs ih => exact Res.RaisesOf.bind (writeSym_raisesOf b h) fun _ _ hu => ih hu

theorem flushSyms_raisesOf (h : Steady s t) : (flushSyms P t).RaisesOf i s (Steady s) := by
  unfold flushSyms
  split
  · exact Res.RaisesOf.bind (sendSyms_raisesOf _ h) fun _ _ hu => hu
  · exact h

/-! ### The word table (R304) -/

/-- WT_LOOKUP raises where the code has no word. -/
theorem wtLookup_raisesOf (c : Code) (h : Steady s t) : (wtLookup s.cfg c t).RaisesOf i s (Steady s) := by
  unfold wtLookup
  split
  · split
    · exact h
    · next hnone => exact ⟨.code (.inl (h.wt ▸ hnone)), h⟩
  · next hlt => exact ⟨.code (.inr (not_lt.1 hlt)), h⟩

/-! ### The loops and the header (R301) -/

theorem Steady.not_fault (hs : s.phase ≠ .fault) (h : Steady s t) : t.phase ≠ .fault := h.phase.trans_ne hs

theorem Res.RaisesOf.not_fault {r : Res α} (h : r.RaisesOf i s (Steady s)) (hs : s.phase ≠ .fault) :
    r.RaisesOf i s (·.phase ≠ .fault) :=
  h.mono (fun _ _ hu => hu.not_fault hs) (fun _ _ hf => hf) fun _ _ => trivial

/-- An operation that forms an index, with the update after it, neither raises nor touches `phase`. -/
theorem Res.RaisesOf.of_writesOnly {ps qs : List Part} {r : Res α} {b : α → State → β} {g : α → State → State}
    (hr : ∀ f u, r ≠ .raise f u) (ht : t.phase ≠ .fault) (h : r.Leaves (WritesOnly ps t))
    (hg : ∀ a u, WritesOnly qs u (g a u)) (hp : Part.phase ∉ ps := by decide) (hq : Part.phase ∉ qs := by decide) :
    (r.bind fun a u => .ok (b a u) (g a u)).RaisesOf i s (·.phase ≠ .fault) :=
  Res.RaisesOf.bind (.of_leaves (h.mono fun _ hu => (hu.phase hp).trans_ne ht) hr) fun a u hu =>
    ((hg a u).phase hq).trans_ne hu

theorem decEnd_raisesOf : (decEnd s.cfg s).RaisesOf i s (·.phase ≠ .fault) :=
  Res.RaisesOf.bind (flushSyms_raisesOf (.refl s)) fun _ _ _ hidle => by cases hidle

theorem encEndTerminator_raisesOf (hw : channelWidth s i = some s.width) :
    (encEndTerminator s.cfg s).RaisesOf i s (·.phase ≠ .fault) :=
  Res.RaisesOf.bind (writePair_raisesOf hw (.refl s)) fun _ _ ht =>
    Res.RaisesOf.bind (flushBits_raisesOf ht) fun _ _ _ hidle => by cases hidle

/-- The record's raise is that of a wrong magic. -/
theorem acceptHeader_raisesOf (m : BitVec 32) (perm : BitVec 16) :
    (acceptHeader s.cfg m perm s).RaisesOf (.header m perm) s (·.phase ≠ .fault) := by
  unfold acceptHeader
  split
  · exact nofun
  · next hm => exact ⟨.magic rfl hm, .refl s⟩

variable (hs : s.phase ≠ .fault)
include hs

/-- Past the last raise of DEC_PAIR the word is stored and the counter advanced (R230). -/
theorem decWord_raisesOf (c : Code) (b : Byte) (h : Steady s t) :
    (decWord s.cfg c b t).RaisesOf i s (·.phase ≠ .fault) :=
  Res.RaisesOf.bind (wtLookup_raisesOf c h) fun wd _ hu =>
    Res.RaisesOf.bind (writeWord_raisesOf (wd ++ [b]) hu) fun _ v hv =>
      .of_writesOnly (fun _ _ => wtAppend_ne_raise) (hv.not_fault hs) (wtAppend_writesOnly s.cfg v.nextCode wd b v)
        fun _ x => advance_writesOnly s.cfg x

theorem decPair_raisesOf (hw : channelWidth s i = some s.width) : (decPair s.cfg s).RaisesOf i s (·.phase ≠ .fault) := by
  refine Res.RaisesOf.bind (readPair_raisesOf hw (.refl s)) fun r t ht => ?_
  split
  · exact nofun
  · exact decWord_raisesOf hs _ _ ht

/-- Past the last raise of a miss the node is inserted and the counter advanced (R200). -/
theorem encMiss_raisesOf (hw : channelWidth s i = some s.width) (b : Byte) (h : Steady s t) :
    (encMiss s.cfg b t).RaisesOf i s (·.phase ≠ .fault) :=
  Res.RaisesOf.bind (writePair_raisesOf (h.width.symm ▸ hw) h) fun _ u hu =>
    .of_writesOnly (fun _ _ => trieInsert_ne_raise) (hu.not_fault hs)
      (trieInsert_writesOnly s.cfg u.curCode b u.nextCode u)
      fun _ x => (setCurCode_writesOnly s.cfg.emptyCode x).append (advance_writesOnly s.cfg _)

theorem encConsume_raisesOf (hw : channelWidth s i = some s.width) (b : Byte) (h : Steady s t) :
    (encConsume s.cfg b t).RaisesOf i s (·.phase ≠ .fault) := by
  have hstep : (trieStep s.cfg t.curCode b t).RaisesOf i s (Steady s) := by
    unfold trieStep
    split
    · exact h
    · trivial
  refine Res.RaisesOf.bind (Q := (·.phase ≠ .fault)) (Res.RaisesOf.bind hstep fun d u hu => ?_) fun _ _ hu => hu
  cases d with
  | some d => exact hu.not_fault hs
  | none => exact encMiss_raisesOf hs hw b hu

theorem encSymbol_raisesOf (hw : channelWidth s i = some s.width) : (encSymbol s.cfg s).RaisesOf i s (·.phase ≠ .fault) := by
  refine Res.RaisesOf.bind (readSym_raisesOf (.refl s)) fun r t ht => ?_
  cases r with
  | none => exact nofun
  | some b => exact encConsume_raisesOf hs hw b ht

theorem encEndFinalPair_raisesOf (hw : channelWidth s i = some s.width) :
    (encEndFinalPair s.cfg s).RaisesOf i s (·.phase ≠ .fault) := by
  unfold encEndFinalPair
  split
  · exact hs
  · refine Res.RaisesOf.bind (writePair_raisesOf hw (.refl s)) fun _ t ht => ?_
    have hphase := (advanceFinal_writesOnly s.cfg { t with curCode := s.cfg.emptyCode }).phase
    exact hphase.trans_ne (ht.not_fault hs)

/-! ### The instructions (R320) -/

/-- Fault entry from `s`: a raise of the instruction names cause and information, and `done` is left. -/
def TakesRaise (i : Instr) (s t : State) : Prop :=
  t.done = s.done ∧ ∃ f, RaiseOf i s f ∧ t.cause = f.cause ∧ t.faultInfo = f.info

theorem Res.RaisesOf.takesRaise {r : Res α} {g : α → State → State} (h : r.RaisesOf i s (·.phase ≠ .fault))
    (ht : r.outcome g = .next t) (hf : t.phase = .fault)
    (hg : ∀ a u, (g a u).phase = u.phase := by exact fun _ _ => rfl) : TakesRaise i s t := by
  rcases Res.outcome_eq_next.1 ht with ⟨a, u, rfl, rfl⟩ | ⟨f, u, rfl, rfl⟩
  · exact absurd ((hg a u).symm.trans hf) h
  · obtain ⟨hraise, hu⟩ := h
    refine ⟨(State.enterFault_done u f).trans hu.done, f, hraise, ?_⟩
    rw [State.enterFault_of_ne u f (hu.not_fault hs)]
    exact ⟨rfl, rfl⟩

/-- A command leads to FAULT only where its effect does. -/
theorem issue_not_fault {b : Bool} {e : State} (he : e.phase ≠ .fault) (h : issue b e s = .next t) : t.phase ≠ .fault := by
  unfold issue at h
  split at h
  · cases h; exact he
  · cases h; exact hs

/-- An instruction that leads to FAULT took one of its raises. -/
theorem exec_takesRaise (h : exec i s = .next t) (hf : t.phase = .fault) : TakesRaise i s t := by
  have quiet (hp : Part.phase ∉ mayWrite i := by simp [mayWrite]) : TakesRaise i s t :=
    absurd (((exec_writesOnly i s t h).phase hp).symm.trans hf) hs
  cases i with
  | nop => exact quiet
  | hdrWrite => exact absurd hf (issue_not_fault hs (by simp) h)
  | hdrRead => exact absurd hf (issue_not_fault hs (by simp) h)
  | encode => exact absurd hf (issue_not_fault hs (by simp [Machine.encInit]) h)
  | decode => exact absurd hf (issue_not_fault hs (by simp [Machine.decInit]) h)
  | clear => exact absurd hf (issue_not_fault hs (by simp [State.cleared, State.initial]) h)
  | reserved6 => exact quiet
  | reserved7 => exact quiet
  | header m perm => exact (acceptHeader_raisesOf m perm).takesRaise hs h hf
  | pairStop w b => cases h; cases hf
  | pairLiteral w b => exact (decWord_raisesOf hs _ b (.refl s)).takesRaise hs h hf
  | pairReference w c b => exact (decWord_raisesOf hs c b (.refl s)).takesRaise hs h hf
  | pairIllegal w c b => exact (decWord_raisesOf hs c b (.refl s)).takesRaise hs h hf
  | readBytes n => exact ((readBytes_raisesOf n (.refl s)).not_fault hs).takesRaise hs h hf
  | writeBytes d => exact ((writeBytes_raisesOf d (.refl s)).not_fault hs).takesRaise hs h hf
  | symFill => exact ((symFill_raisesOf (.refl s)).not_fault hs).takesRaise hs h hf
  | readSym => exact ((readSym_raisesOf (.refl s)).not_fault hs).takesRaise hs h hf
  | writeSym b => exact ((writeSym_raisesOf b (.refl s)).not_fault hs).takesRaise hs h hf
  | flushSyms => exact ((flushSyms_raisesOf (.refl s)).not_fault hs).takesRaise hs h hf
  | writeWord wd => exact ((writeWord_raisesOf wd (.refl s)).not_fault hs).takesRaise hs h hf
  | writeBits v w => exact ((writeBits_raisesOf (.inl rfl) (.refl s)).not_fault hs).takesRaise hs h hf
  | flushBits => exact ((flushBits_raisesOf (.refl s)).not_fault hs).takesRaise hs h hf
  | pairFill => exact ((pairFill_raisesOf (.refl s)).not_fault hs).takesRaise hs h hf
  | readBits w => exact ((readBits_raisesOf (.inl rfl) (.refl s)).not_fault hs).takesRaise hs h hf
  | writePair c b w => exact ((writePair_raisesOf rfl (.refl s)).not_fault hs).takesRaise hs h hf
  | readPair w => exact ((readPair_raisesOf rfl (.refl s)).not_fault hs).takesRaise hs h hf
  | bitlen v => exact quiet
  | width => exact quiet
  | advance => exact quiet
  | dictReset => exact quiet
  | trieStep c b => exact quiet
  | trieInsert c b d => exact quiet
  | trieReset => exact quiet
  | encInit => cases h; cases hf
  | encSymbol => exact (encSymbol_raisesOf hs rfl).takesRaise hs h hf
  | encEndFinalPair => exact (encEndFinalPair_raisesOf hs rfl).takesRaise hs h hf
  | encEndTerminator => exact (encEndTerminator_raisesOf rfl).takesRaise hs h hf
  | wtLookup c => exact ((wtLookup_raisesOf c (.refl s)).not_fault hs).takesRaise hs h hf
  | wtAppend d wd b => exact quiet
  | wtReset => exact quiet
  | decInit => cases h; cases hf
  | decPair => exact (decPair_raisesOf hs rfl).takesRaise hs h hf
  | decEnd => exact decEnd_raisesOf.takesRaise hs h hf

end Sys2Proof.Machine
end

-- The statements of family 60_exceptions.md.
section
open Sys2Proof Sys2Proof.Machine Sys2Proof.Safety

/-- Settles O22: the fault is a raise of the instruction, and each raise has one cause and its own information. -/
theorem faultEntryCauseAndInfo : Obligations.FaultEntryCauseAndInfo := by
  refine ⟨⟨rfl, rfl, rfl, rfl, rfl, rfl⟩, fun i s t h hs hf => ?_⟩
  obtain ⟨hdone, f, hraise, hcause, hinfo⟩ := exec_takesRaise hs h hf
  rw [hcause, hinfo]
  refine ⟨hdone, ?_⟩
  cases hraise with
  | magic hi hm => exact ⟨nofun, fun _ => ⟨_, _, hi, hm, rfl⟩, nofun, nofun, nofun, nofun⟩
  | source hsrc => exact ⟨nofun, nofun, fun _ => ⟨.inl rfl, fun _ => rfl, fun hg => absurd hg hsrc⟩, nofun, nofun, nofun⟩
  | sink hsnk => exact ⟨nofun, nofun, fun _ => ⟨.inr rfl, fun hg => absurd hg hsnk, fun _ => rfl⟩, nofun, nofun, nofun⟩
  | underrun => exact ⟨nofun, nofun, nofun, fun _ => rfl, nofun, nofun⟩
  | code hc => exact ⟨nofun, nofun, nofun, nofun, fun _ => hc, nofun⟩
  | width hi hw => exact ⟨nofun, nofun, nofun, nofun, nofun, fun _ => ⟨_, hi, hw, rfl⟩⟩

end

-- The core's step where the environments answer.
section
/-! SUPPORT. Where the environments answer, no operation of the core waits for an answer: it ends or raises with environments
that still answer, or stops for another reason (R61, R62, R365). What an operation finds in the buffers and the dictionaries
does not matter here. -/

namespace Sys2Proof.Machine

open Sys2Proof Sys2Proof.Safety

variable {s t : State} {α β : Type}

/-- Both environments answer, from here on. -/
def PortsAnswer (s : State) : Prop := srcGood s.src = true ∧ snkGood s.snk = true

/-- What writes neither port leaves environments that answer. -/
theorem PortsAnswer.of_writesOnly {ps : List Part} (h : PortsAnswer s) (hw : WritesOnly ps s t)
    (hsrc : Part.src ∉ ps := by decide) (hsnk : Part.snk ∉ ps := by decide) : PortsAnswer t := by
  have hsrc' : t.src = s.src := hw.same .src hsrc
  have hsnk' : t.snk = s.snk := hw.same .snk hsnk
  unfold PortsAnswer
  rw [hsrc', hsnk']; exact h

/-- The operation does not stop for want of an answer, and where it ends the environments still answer. -/
def Res.Answered (r : Res α) : Prop := r.Spec (fun _ t => PortsAnswer t) (fun _ _ => True) (· ≠ .noAnswer)

theorem Res.Answered.bind {r : Res α} {k : α → State → Res β} (h : r.Answered)
    (hk : ∀ a t, PortsAnswer t → (k a t).Answered) : (r.bind k).Answered := Res.Spec.bind h hk

/-! ### The ports and the buffers -/

section
variable (h : PortsAnswer s)
include h

theorem readBytes_answered (n : Nat) : (readBytes n s).Answered := by
  obtain ⟨p, hr, -, hp, -⟩ := readBytes_good (n := n) h.1
  rw [hr]; exact ⟨hp, h.2⟩

theorem writeBytes_answered (d : List Byte) : (writeBytes d s).Answered := by
  obtain ⟨p, hr, -, hp, -⟩ := writeBytes_good (d := d) h.2
  rw [hr]; exact ⟨h.1, hp⟩

theorem fetchCells_answered (size : Nat) (m : Mem α) (i n : Nat) : (fetchCells size m i n s).Answered := by
  unfold fetchCells
  split
  · split
    · exact h
    · exact nofun
  · exact nofun

theorem fetchCell_answered (size : Nat) (m : Mem α) (i : Nat) : (fetchCell size m i s).Answered := by
  unfold fetchCell
  split
  · split
    · exact h
    · exact nofun
  · exact nofun

/-! ### The bit channel -/

theorem sendPairBytes_answered (P : Params) (n : Nat) : (sendPairBytes P n s).Answered :=
  (fetchCells_answered h _ _ _ _).bind fun _ _ ht => writeBytes_answered ht _

theorem sendFullPairs_answered (P : Params) : (sendFullPairs P s).Answered := by
  unfold sendFullPairs
  split
  · exact (sendPairBytes_answered h P _).bind fun _ _ ht => ht
  · exact h

theorem putBit_answered (P : Params) (b : Bool) : (putBit P b s).Answered := by
  unfold putBit
  split
  · exact sendFullPairs_answered (s := s.storeBit b) h P
  · exact nofun

theorem putBits_answered (P : Params) (bs : List Bool) : (putBits P bs s).Answered := by
  induction bs generalizing s with
  | nil => exact h
  | cons b bs ih => exact (putBit_answered h P b).bind fun _ _ ht => ih ht

theorem writeBits_answered (P : Params) (v : BitVec 16) (w : Nat) : (writeBits P v w s).Answered := by
  unfold writeBits
  split
  · exact (putBits_answered h P _).bind fun _ _ ht => ht
  · trivial

theorem writePair_answered (P : Params) (c : Code) (b : Byte) (w : Nat) : (writePair P c b w s).Answered :=
  (writeBits_answered h P c w).bind fun _ _ ht => writeBits_answered ht P _ 8

theorem flushBits_answered (P : Params) : (flushBits P s).Answered := by
  have hpad : PortsAnswer s.padByte := h.of_writesOnly (padByte_writesOnly s)
  unfold flushBits
  split
  · exact (sendPairBytes_answered hpad P _).bind fun _ _ ht => ht
  · exact hpad

theorem pairFill_answered (P : Params) : (pairFill P s).Answered :=
  (readBytes_answered h _).bind fun _ _ ht => ht

theorem takeBit_answered (P : Params) : (takeBit P s).Answered :=
  (fetchCell_answered h _ _ _).bind fun _ _ ht => ht

theorem getBit_answered (P : Params) : (getBit P s).Answered := by
  unfold getBit
  split
  · split
    · trivial
    · refine (pairFill_answered h P).bind fun _ t ht => ?_
      split
      · trivial
      · exact takeBit_answered ht P
  · exact takeBit_answered h P

theorem getBits_answered (P : Params) (w : Nat) : (getBits P w s).Answered := by
  induction w generalizing s with
  | zero => exact h
  | succ w ih => exact (getBit_answered h P).bind fun _ _ ht => (ih ht).bind fun _ _ hu => hu

theorem readBits_answered (P : Params) (w : Nat) : (readBits P w s).Answered := by
  unfold readBits
  split
  · exact (getBits_answered h P w).bind fun _ _ ht => ht
  · trivial

theorem readPair_answered (P : Params) (w : Nat) : (readPair P w s).Answered :=
  (readBits_answered h P w).bind fun _ _ ht => (readBits_answered ht P 8).bind fun _ _ hu => hu

/-! ### The byte channel -/

theorem symFill_answered (P : Params) : (symFill P s).Answered :=
  (readBytes_answered h _).bind fun _ _ ht => ht

theorem takeSym_answered (P : Params) : (takeSym P s).Answered :=
  (fetchCell_answered h _ _ _).bind fun _ _ ht => ht

theorem readSym_answered (P : Params) : (readSym P s).Answered := by
  unfold readSym
  split
  · split
    · exact h
    · refine (symFill_answered h P).bind fun _ t ht => ?_
      split
      · exact ht
      · exact takeSym_answered ht P
  · exact takeSym_answered h P

theorem sendSyms_answered (P : Params) (n : Nat) : (sendSyms P n s).Answered :=
  (fetchCells_answered h _ _ _ _).bind fun d _ ht => writeBytes_answered ht d

theorem sendFullSyms_answered (P : Params) : (sendFullSyms P s).Answered := by
  unfold sendFullSyms
  split
  · exact (sendSyms_answered h P _).bind fun _ _ ht => ht
  · exact h

theorem writeSym_answered (P : Params) (b : Byte) : (writeSym P b s).Answered := by
  unfold writeSym
  split
  · exact sendFullSyms_answered (s := s.storeSym b) h P
  · exact nofun

theorem flushSyms_answered (P : Params) : (flushSyms P s).Answered := by
  unfold flushSyms
  split
  · exact (sendSyms_answered h P _).bind fun _ _ ht => ht
  · exact h

theorem writeWord_answered (P : Params) (wd : List Byte) : (writeWord P wd s).Answered := by
  induction wd generalizing s with
  | nil => exact h
  | cons b bs ih => exact (writeSym_answered h P b).bind fun _ _ ht => ih ht

/-! ### The decoder -/

theorem wtLookup_answered (P : Params) (c : Code) : (wtLookup P c s).Answered := by
  unfold wtLookup
  split
  · split
    · exact h
    · trivial
  · trivial

theorem wtAppend_answered (P : Params) (d : Code) (wd : List Byte) (b : Byte) : (wtAppend P d wd b s).Answered := by
  unfold wtAppend
  split
  · exact h
  · exact nofun

theorem decWord_answered (P : Params) (c : Code) (b : Byte) : (decWord P c b s).Answered :=
  (wtLookup_answered h P c).bind fun wd _ ht =>
    (writeWord_answered ht P (wd ++ [b])).bind fun _ u hu =>
      (wtAppend_answered hu P u.nextCode wd b).bind fun _ v hv => hv.of_writesOnly (advance_writesOnly P v)

theorem decPair_answered (P : Params) : (decPair P s).Answered := by
  refine (readPair_answered h P _).bind fun r t ht => ?_
  split
  · exact ht
  · exact decWord_answered ht P r.1 r.2

theorem decEnd_answered (P : Params) : (decEnd P s).Answered :=
  (flushSyms_answered h P).bind fun _ _ ht => ht

/-! ### The encoder -/

theorem trieStep_answered (P : Params) (c : Code) (b : Byte) : (trieStep P c b s).Answered := by
  unfold trieStep
  split
  · exact h
  · exact nofun

theorem trieInsert_answered (P : Params) (c : Code) (b : Byte) (d : Code) : (trieInsert P c b d s).Answered := by
  unfold trieInsert
  split
  · exact h
  · exact nofun

theorem encMiss_answered (P : Params) (b : Byte) : (encMiss P b s).Answered :=
  (writePair_answered h P s.curCode b s.width).bind fun _ t ht =>
    (trieInsert_answered ht P t.curCode b t.nextCode).bind fun _ u hu =>
      (hu.of_writesOnly (setCurCode_writesOnly P.emptyCode u)).of_writesOnly (advance_writesOnly P _)

theorem encConsume_answered (P : Params) (b : Byte) : (encConsume P b s).Answered := by
  refine Res.Answered.bind ((trieStep_answered h P s.curCode b).bind fun d t ht => ?_) fun _ _ ht => ht
  cases d with
  | some d => exact ht
  | none => exact encMiss_answered ht P b

theorem encSymbol_answered (P : Params) : (encSymbol P s).Answered := by
  refine (readSym_answered h P).bind fun r t ht => ?_
  cases r with
  | none => exact ht
  | some b => exact encConsume_answered ht P b

theorem encEndFinalPair_answered (P : Params) : (encEndFinalPair P s).Answered := by
  unfold encEndFinalPair
  split
  · exact h
  · exact (writePair_answered h P _ _ _).bind fun _ t ht =>
      (ht.of_writesOnly (setCurCode_writesOnly P.emptyCode t)).of_writesOnly (advanceFinal_writesOnly P _)

theorem encEndTerminator_answered (P : Params) : (encEndTerminator P s).Answered :=
  (writePair_answered h P _ _ _).bind fun _ _ ht => (flushBits_answered ht P).bind fun _ _ hu => hu

theorem encEnd_answered (P : Params) : (encEnd P s).Answered :=
  (encEndFinalPair_answered h P).bind fun _ _ ht => encEndTerminator_answered ht P

/-! ### The header -/

theorem hdrWriteBody_answered (P : Params) : (hdrWriteBody P s).Answered :=
  (writeBytes_answered h _).bind fun _ _ ht => ht

theorem acceptHeader_answered (P : Params) (magic : BitVec 32) (perm : BitVec 16) :
    (acceptHeader P magic perm s).Answered := by
  unfold acceptHeader
  split
  · exact h
  · trivial

theorem hdrReadBody_answered (P : Params) : (hdrReadBody P s).Answered := by
  refine (readBytes_answered h _).bind fun d t ht => ?_
  split
  · trivial
  · exact acceptHeader_answered ht P _ _

/-- The core's operation, whatever the phase, does not wait for an answer that never comes (R365). -/
theorem coreOp_answered : (coreOp s).Answered := by
  unfold coreOp
  split
  · exact h
  · exact h
  · exact hdrWriteBody_answered h _
  · exact hdrReadBody_answered h _
  · exact encSymbol_answered h _
  · exact encEnd_answered h _
  · exact decPair_answered h _
  · exact decEnd_answered h _

end

end Sys2Proof.Machine
end

-- The statements of family 70_reset_and_hazards.md.
section
open Sys2Proof Sys2Proof.Machine Sys2Proof.Safety

/-- Settles O56: under the invariant the core stops only for want of an answer, and answering environments leave none out. -/
theorem answeredStepsGoOn : Obligations.AnsweredStepsGoOn := by
  intro s hinv hturn hsrc hsnk
  have hstop := (stepStopsOnlyUnanswered s hinv).1
  have hanswered : (coreOp s.popAct).Answered := coreOp_answered ⟨hsrc, hsnk⟩
  rw [step_coreTurn hturn, fetchCore_outcome] at hstop ⊢
  cases hr : coreOp s.popAct with
  | ok a t => exact ⟨_, rfl⟩
  | raise f t => exact ⟨_, rfl⟩
  | stop f =>
    rw [hr] at hstop hanswered
    exact absurd (hstop f rfl) hanswered

end
